-- ==== Sys2Proof/Word.lean ====
section
/-! DEFINITION. The words of the block: bytes of the byte memories and payloads, 32-bit words of the hash
RAMs, tokens and operand fields, 64-bit command and response words (00_scope.md R10, 20_memory.md R50). -/

namespace Sys2Proof

/-- A byte of WIN, HIST or a payload. -/
abbrev Byte := BitVec 8

/-- A word of HEAD or PREV, an operand field A, an emitter error code. -/
abbrev Word32 := BitVec 32

/-- A command or response word. -/
abbrev Word64 := BitVec 64

/-- A token word (30_encoding.md R84). -/
abbrev Token := BitVec 32

end Sys2Proof
end

