-- ==== Sys2Proof/Syntax.lean ====
section
/-! DEFINITION. The commands and token forms of opcode_table.json as one inductive (30_encoding.md R77, R78,
R84), and the packets that carry them. -/

namespace Sys2Proof

/-- One constructor per row of opcode_table.json. A command that takes a payload carries the payload itself;
its count field is the payload's length (R79). -/
inductive Instr where
  /-- M_CONFIG: `level` is field A, read as a two's-complement number (R76). -/
  | mConfig (level : Word32)
  /-- M_RESET with the dictionary of its payload (empty: no dictionary). -/
  | mReset (dict : List Byte)
  /-- M_FILL_WINDOW with the dictionary of its payload. -/
  | mFillWindow (dict : List Byte)
  /-- M_WRITE with the bytes of its payload. -/
  | mWrite (data : List Byte)
  | mSyncFlush
  | mClose
  /-- DD_INIT: `size` is field A, the dictionary is the payload (count in field B). -/
  | ddInit (size : Word32) (dict : List Byte)
  | ddWriteByte (c : Byte)
  | ddWriteSlice (maxLen : Word32)
  | ddSlicePut (k : Word32) (c : Byte)
  | ddWriteMark (n : Word32)
  | ddWriteCopy (dist : Word32) (len : BitVec 24)
  | ddTryWriteCopy (dist : Word32) (len : BitVec 24)
  | ddReadFlush
  | ddStashFlush
  | ddStashLen
  | ddStashRead (max : Word32)
  | ddHistSize
  | ddAvailRead
  | ddAvailWrite
  /-- A literal token word (R84, R100). -/
  | tokenLit (b : Byte)
  /-- A match token word: bits 29:22 and bits 21:0 (R84, R101). -/
  | tokenMatch (xlength : BitVec 8) (xoffset : BitVec 22)
  deriving DecidableEq, Repr

/-- What arrives from outside: a command word with its payload bytes on the command port (20_memory.md R67),
or a token word handed to the token accessors (40_token.md). -/
inductive Packet where
  | command (word : Word64) (payload : List Byte)
  | token (word : Token)
  deriving DecidableEq, Repr

/-- The two units of the command port (R75: OP[7:4] is 0x1 or 0x2). -/
inductive UnitName where
  | matcher
  | decoder
  deriving DecidableEq, Repr

end Sys2Proof
end

