-- ==== Sys2Proof/WellFormed.lean ====
section
/-! DEFINITION. Which instructions have an encoding: a payload must fit its count field (R79: A is 32 bits,
B is 24 bits), and a match token's distance must fit bits 14:0 (R84: bits 21:15 are 0). -/

namespace Sys2Proof

/-- The instruction has a word (and payload) that stands for it. -/
def wellFormed : Instr → Bool
  | .mConfig _ => true
  | .mReset dict => decide (dict.length < 4294967296)
  | .mFillWindow dict => decide (dict.length < 4294967296)
  | .mWrite data => decide (data.length < 4294967296)
  | .mSyncFlush => true
  | .mClose => true
  | .ddInit _ dict => decide (dict.length < 16777216)
  | .ddWriteByte _ => true
  | .ddWriteSlice _ => true
  | .ddSlicePut _ _ => true
  | .ddWriteMark _ => true
  | .ddWriteCopy _ _ => true
  | .ddTryWriteCopy _ _ => true
  | .ddReadFlush => true
  | .ddStashFlush => true
  | .ddStashLen => true
  | .ddStashRead _ => true
  | .ddHistSize => true
  | .ddAvailRead => true
  | .ddAvailWrite => true
  | .tokenLit _ => true
  | .tokenMatch _ xoffset => decide (xoffset.toNat < 32768)

end Sys2Proof
end

