-- ==== Sys2Proof/Decode.lean ====
section
/-! DEFINITION. Decoding a packet into an instruction, total and rejecting by name (30_encoding.md R75 to R85),
and after it the encoder, written from the same tables. -/

namespace Sys2Proof

/-! ### Fields of a command word (R75) -/

/-- OP, bits 7:0. -/
def opField (w : Word64) : BitVec 8 := w.extractLsb' 0 8

/-- A, bits 39:8. -/
def aField (w : Word64) : Word32 := w.extractLsb' 8 32

/-- B, bits 63:40. -/
def bField (w : Word64) : BitVec 24 := w.extractLsb' 40 24

/-- The command word with these fields, `{B, A, OP}` (R10, R75). -/
def commandWord (op : BitVec 8) (a : Word32) (b : BitVec 24) : Word64 := (b ++ a ++ op : BitVec 64)

/-- A byte operand is the low 8 bits of its field (R76). -/
def lowByte {n : Nat} (v : BitVec n) : Byte := v.extractLsb' 0 8

/-- A byte operand's field has its other bits zero (R76). -/
def fitsByte {n : Nat} (v : BitVec n) : Bool := decide (v.toNat < 256)

/-! ### Decoding -/

/-- Why a packet is no instruction. -/
inductive DecodeError where
  /-- OP is in no command table; the unit OP[7:4] selects, if it selects one (R82, R201). -/
  | badOpcode (unit : Option UnitName)
  /-- A must-be-zero field is not zero, or the payload length is not the count field (R76, R79, R201). -/
  | badField (unit : UnitName)
  /-- A token word of type 0b10 or 0b11 (R85, R104). -/
  | reservedToken
  /-- A token word whose type is literal or match but which the layout of R84 does not give. -/
  | notAToken
  /-- Fewer than the 8 bytes of a command word on a byte transport (R57, R79). -/
  | truncated
  deriving DecidableEq, Repr

/-- The unit OP[7:4] selects (R75, R82). -/
def unitOf (op : BitVec 8) : Option UnitName :=
  match op.toNat / 16 with
  | 1 => some .matcher
  | 2 => some .decoder
  | _ => none

/-- The field check of R204: the must-be-zero fields are zero and the payload has `count` bytes. -/
def fieldCheck (u : UnitName) (zeros : Bool) (count len : Nat) (i : Instr) : Except DecodeError Instr :=
  if zeros && len == count then .ok i else .error (.badField u)

/-- The command tables R77 and R78. `len` is the payload's length. -/
def decodeFields (w : Word64) (payload : List Byte) (len : Nat) : Except DecodeError Instr :=
  let a := aField w
  let b := bField w
  match (opField w).toNat with
  | 0x10 => fieldCheck .matcher (b == 0) 0 len (.mConfig a)
  | 0x11 => fieldCheck .matcher (b == 0) a.toNat len (.mReset payload)
  | 0x12 => fieldCheck .matcher (b == 0) a.toNat len (.mFillWindow payload)
  | 0x13 => fieldCheck .matcher (b == 0) a.toNat len (.mWrite payload)
  | 0x14 => fieldCheck .matcher (a == 0 && b == 0) 0 len .mSyncFlush
  | 0x15 => fieldCheck .matcher (a == 0 && b == 0) 0 len .mClose
  | 0x20 => fieldCheck .decoder true b.toNat len (.ddInit a payload)
  | 0x21 => fieldCheck .decoder (fitsByte a && b == 0) 0 len (.ddWriteByte (lowByte a))
  | 0x22 => fieldCheck .decoder (b == 0) 0 len (.ddWriteSlice a)
  | 0x23 => fieldCheck .decoder (fitsByte b) 0 len (.ddSlicePut a (lowByte b))
  | 0x24 => fieldCheck .decoder (b == 0) 0 len (.ddWriteMark a)
  | 0x25 => fieldCheck .decoder true 0 len (.ddWriteCopy a b)
  | 0x26 => fieldCheck .decoder true 0 len (.ddTryWriteCopy a b)
  | 0x27 => fieldCheck .decoder (a == 0 && b == 0) 0 len .ddReadFlush
  | 0x28 => fieldCheck .decoder (a == 0 && b == 0) 0 len .ddStashFlush
  | 0x29 => fieldCheck .decoder (a == 0 && b == 0) 0 len .ddStashLen
  | 0x2A => fieldCheck .decoder (b == 0) 0 len (.ddStashRead a)
  | 0x2B => fieldCheck .decoder (a == 0 && b == 0) 0 len .ddHistSize
  | 0x2C => fieldCheck .decoder (a == 0 && b == 0) 0 len .ddAvailRead
  | 0x2D => fieldCheck .decoder (a == 0 && b == 0) 0 len .ddAvailWrite
  | _ => .error (.badOpcode (unitOf (opField w)))

/-- A command is the word plus a byte list (R79). -/
def decodeCommand (w : Word64) (payload : List Byte) : Except DecodeError Instr :=
  decodeFields w payload payload.length

/-- The type of a token word, bits 31:30 (R84, R102). -/
def tokenKind (t : Token) : BitVec 2 := t.extractLsb' 30 2

/-- The token layout R84, reserved types R85. -/
def decodeToken (t : Token) : Except DecodeError Instr :=
  if tokenKind t == 0b00#2 then
    if t.toNat < 256 then .ok (.tokenLit (lowByte t)) else .error .notAToken
  else if tokenKind t == 0b01#2 then
    if (t.extractLsb' 0 22).toNat < 32768 then .ok (.tokenMatch (t.extractLsb' 22 8) (t.extractLsb' 0 22))
    else .error .notAToken
  else .error .reservedToken

/-- The decoder, total on every packet. -/
def decode : Packet → Except DecodeError Instr
  | .command w payload => decodeCommand w payload
  | .token t => decodeToken t

/-! ### Encoding -/

/-- The packet of an instruction: the words of R77, R78 and R84 with its payload. -/
def encode : Instr → Packet
  | .mConfig level => .command (commandWord 0x10#8 level 0#24) []
  | .mReset dict => .command (commandWord 0x11#8 (BitVec.ofNat 32 dict.length) 0#24) dict
  | .mFillWindow dict => .command (commandWord 0x12#8 (BitVec.ofNat 32 dict.length) 0#24) dict
  | .mWrite data => .command (commandWord 0x13#8 (BitVec.ofNat 32 data.length) 0#24) data
  | .mSyncFlush => .command (commandWord 0x14#8 0#32 0#24) []
  | .mClose => .command (commandWord 0x15#8 0#32 0#24) []
  | .ddInit size dict => .command (commandWord 0x20#8 size (BitVec.ofNat 24 dict.length)) dict
  | .ddWriteByte c => .command (commandWord 0x21#8 (c.setWidth 32) 0#24) []
  | .ddWriteSlice maxLen => .command (commandWord 0x22#8 maxLen 0#24) []
  | .ddSlicePut k c => .command (commandWord 0x23#8 k (c.setWidth 24)) []
  | .ddWriteMark n => .command (commandWord 0x24#8 n 0#24) []
  | .ddWriteCopy dist len => .command (commandWord 0x25#8 dist len) []
  | .ddTryWriteCopy dist len => .command (commandWord 0x26#8 dist len) []
  | .ddReadFlush => .command (commandWord 0x27#8 0#32 0#24) []
  | .ddStashFlush => .command (commandWord 0x28#8 0#32 0#24) []
  | .ddStashLen => .command (commandWord 0x29#8 0#32 0#24) []
  | .ddStashRead max => .command (commandWord 0x2A#8 max 0#24) []
  | .ddHistSize => .command (commandWord 0x2B#8 0#32 0#24) []
  | .ddAvailRead => .command (commandWord 0x2C#8 0#32 0#24) []
  | .ddAvailWrite => .command (commandWord 0x2D#8 0#32 0#24) []
  | .tokenLit b => .token (b.setWidth 32)
  | .tokenMatch xlength xoffset => .token (0b01#2 ++ xlength ++ xoffset : BitVec 32)

/-! ### A byte transport: least significant byte first (20_memory.md R57) -/

/-- The 8 bytes of a command or response word, least significant first. -/
def wordBytes (w : Word64) : List Byte := (List.range 8).map (fun k => w.extractLsb' (8 * k) 8)

/-- The word whose bytes, least significant first, are given. -/
def wordOfBytes (bs : List Byte) : Word64 :=
  bs.foldr (fun b acc => (acc <<< 8) ||| b.setWidth 64) 0#64

/-- One command as a transport delivers it: 8 bytes of word, then the payload. Total on any bytes. -/
def decodeBytes (bs : List Byte) : Except DecodeError Instr :=
  if bs.length < 8 then .error .truncated
  else decodeCommand (wordOfBytes (bs.take 8)) (bs.drop 8)

/-! ### The opcode table's numbering -/

/-- The payload length a command word announces (R79). -/
def payloadCount (w : Word64) : Nat :=
  match (opField w).toNat with
  | 0x11 => (aField w).toNat
  | 0x12 => (aField w).toNat
  | 0x13 => (aField w).toNat
  | 0x20 => (bField w).toNat
  | _ => 0

/-- The packet with this table word: a row of 32 bits is a token word, any other row a command word, whose
payload bytes (bits above the word) are all zero. -/
def tablePacket (nbits w : Nat) : Packet :=
  if nbits = 32 then .token (BitVec.ofNat 32 w)
  else .command (BitVec.ofNat 64 w) (List.replicate (payloadCount (BitVec.ofNat 64 w)) 0#8)

/-- What the decoder reads from `tablePacket nbits w`. The payload's length is known to be the count, so it
is not counted again. -/
def decodeTableWord (nbits w : Nat) : Option Instr :=
  if nbits = 32 then (decodeToken (BitVec.ofNat 32 w)).toOption
  else
    (decodeFields (BitVec.ofNat 64 w) (List.replicate (payloadCount (BitVec.ofNat 64 w)) 0#8)
      (payloadCount (BitVec.ofNat 64 w))).toOption

end Sys2Proof
end

