-- ==== Sys2Proof/Config.lean ====
section
/-! DEFINITION. What is fixed for one build of the block: the parameters of 00_scope.md R8 and R9, and the
values the spec leaves open, each an uninterpreted constant (`opaque`, no body). -/

namespace Sys2Proof.Config

/-! ### Parameters fixed by the source (R8) -/

@[simp] abbrev windowSize : Nat := 32768
@[simp] abbrev windowBytes : Nat := 65536
@[simp] abbrev baseMatchLength : Nat := 3
@[simp] abbrev maxMatchLength : Nat := 258
@[simp] abbrev baseMatchOffset : Nat := 1
@[simp] abbrev maxMatchOffset : Nat := 32768
@[simp] abbrev maxHashOffset : Nat := 16777216
@[simp] abbrev maxFlateBlockTokens : Nat := 16384
@[simp] abbrev farMatchLimit : Nat := 4096

/-! ### Parameters the source leaves open, at the value the spec takes (R9) -/

@[simp] abbrev minMatchLength : Nat := 4
@[simp] abbrev hashBits : Nat := 17
@[simp] abbrev hashSize : Nat := 131072
@[simp] abbrev hashMask : Nat := 131071
@[simp] abbrev hashMul : Word32 := 0x1E35A7BD#32
@[simp] abbrev windowMask : Nat := 32767
@[simp] abbrev skipNever : Nat := 2147483647
@[simp] abbrev lookaheadMin : Nat := 262
@[simp] abbrev shiftThreshold : Nat := 65274
@[simp] abbrev blockStartNone : Nat := 2147483647
@[simp] abbrev searchStartLength : Nat := 3

/-- `GOOD_TRIES_SHIFT`, with the test `length > good` (R137, 92_eei_decisions.md D8).
UNVERIFIED: the spec's own decision, log 17; safe: with the level table the test never holds. -/
@[simp] abbrev goodTriesShift : Nat := 1

/-- `P_FILL_SETS_BLOCK_START` (R129, 90_conflicts.md C11, 92_eei_decisions.md D11).
UNVERIFIED: the spec's own decision, log 16; unsafe for a build that sets it to false. -/
@[simp] abbrev fillSetsBlockStart : Bool := true

/-! ### Open values -/

/-- How far DD_SIZE_MAX lies above 32768 (R9, D18: OPEN). Nothing in Lean can evaluate it. -/
opaque ddSizeMaxAbove : Nat

/-- DD_SIZE_MAX, at least 32768 and at most 2^32 − 1 (92_eei_decisions.md, named parameters; log 15; safe). -/
def ddSizeMax : Nat := 32768 + min ddSizeMaxAbove 4294934527

/-- The byte of WIN at an address nothing has written since the power-on with this number (R220, R162; log 3; safe). -/
opaque freeWinByte : Nat → Nat → Byte

/-- The byte of HIST at an address nothing has written since the DD_INIT with this number (R174; log 4; safe). -/
opaque freeHistByte : Nat → Nat → Byte

/-- The byte this many places before the start of the token reader's stream (R106; log 9; safe). -/
opaque freeStreamByte : Nat → Nat → Byte

/-- The Emitter's answer to the request with this draw number, where the environment has given none
(R70, D13; log 6; safe). -/
opaque emitterAnswer : Nat → Option Word32

end Sys2Proof.Config
end

