-- ==== Sys2Proof/Machine/State.lean ====
section
/-! DEFINITION. The state of the block as plain data: every register and memory of 10_state.md and
20_memory.md, the emitter port, the token reader, the Host's pending inputs and the responses. -/

namespace Sys2Proof.Machine

/-- The ten fault codes of R81 and R202 (the spec's `F_…`). They are values of the fault latches and statuses
of responses; raising one is a NEXT state. -/
inductive FaultCode where
  | badOpcode
  | badField
  | notConfigured
  | fillStale
  | internal
  | ddNoSpace
  | ddBadDist
  | ddMarkOver
  | ddSliceOob
  | ddStashPending
  deriving DecidableEq, Repr

/-- STATUS of a response (R81). -/
inductive Status where
  | ok
  | invalidLevel
  | refusedMode
  | closed
  | io
  | ddBadSize
  | fault (f : FaultCode)
  deriving DecidableEq, Repr

/-- A response: STATUS, VALUE and the data bytes of DD_READ_FLUSH and DD_STASH_READ (R80). -/
structure Response where
  status : Status
  value : Word32
  data : List Byte
  deriving DecidableEq, Repr

/-- M.err: NONE, E_CLOSED or E_IO(c) (R20). -/
inductive StreamErr where
  | noError
  | closed
  | io (c : Word32)
  deriving DecidableEq, Repr

/-- An entry of E.log: a request of 20_memory.md R70, or the mark SINK_REBOUND (R30, R86). -/
inductive LogEntry where
  | emitBlock (tokens : List Token) (isFinal : Bool) (window : Option (List Byte))
  | emitStoredHeader (length : BitVec 16) (isFinal : Bool)
  | emitFlush
  | sinkRebound
  deriving DecidableEq, Repr

/-- CompressionLevelParams: M.level, M.good, M.lazy, M.nice, M.chain, M.fsh (R20, R33). -/
structure LevelParams where
  level : Nat
  good : Nat
  lazy : Nat
  nice : Nat
  chain : Nat
  fsh : Nat
  deriving DecidableEq, Repr

/-- The Matcher's registers (R20) and memories (R50). -/
structure Matcher where
  configured : Bool
  faulted : Option FaultCode
  params : LevelParams
  index : Nat
  windowEnd : Nat
  blockStart : Nat
  hashOffset : Nat
  chainHead : Int
  length : Nat
  offset : Nat
  byteAvailable : Bool
  maxInsertIndex : Int
  sync : Bool
  err : StreamErr
  /-- TOKQ, oldest token first. -/
  tokq : List Token
  /-- WIN: the bytes written since power-on; an address not listed reads as a free value (log 3). -/
  win : List Host.Cell
  /-- HEAD: the words that are not 0. -/
  head : List (Nat × Word32)
  /-- PREV: the words that are not 0. -/
  prev : List (Nat × Word32)
  /-- The model's number of the current power-on, behind the free bytes of WIN (log 3). -/
  winEpoch : Nat
  deriving DecidableEq, Repr

/-- The DictDecoder's registers (R25) and its memory HIST (R51). -/
structure Decoder where
  configured : Bool
  faulted : Option FaultCode
  size : Nat
  wrPos : Nat
  rdPos : Nat
  full : Bool
  viewLen : Nat
  stashPos : Nat
  stashLen : Nat
  /-- HIST: the bytes written since DD_INIT; an address not listed reads as a free value (log 4). -/
  hist : List Host.Cell
  /-- The model's number of the current DD_INIT, behind the free bytes of HIST (log 4). -/
  epoch : Nat
  deriving DecidableEq, Repr

/-- The emitter port (R29, R30, R70). -/
structure Emitter where
  /-- E.err: `none` is NONE, `some c` is IO(c). -/
  err : Option Word32
  /-- E.log, oldest entry first. -/
  log : List LogEntry
  /-- The answers the environment has ready, next one first (log 6). -/
  answers : List (Option Word32)
  /-- How many answers the Emitter has drawn (log 6). -/
  draws : Nat
  deriving DecidableEq, Repr

/-- What the accessors of 40_token.md R102 and R103 answer for one token word. -/
structure TokenReadout where
  word : Token
  isLiteral : Bool
  isMatch : Bool
  literal : Byte
  xlength : BitVec 8
  xoffset : BitVec 22
  wireLength : Nat
  wireDistance : Nat
  deriving DecidableEq, Repr

/-- The reader of token words: the accessors' last answers (R102, R103) and the expansion of the token stream
read so far (R106). The model's own port (log 8). -/
structure TokenReader where
  readout : Option TokenReadout
  stream : List Byte
  epoch : Nat
  deriving DecidableEq, Repr

/-- What the outside world does to the block between two commands (20_memory.md R67, R72; R220). -/
inductive HostInput where
  | powerOn
  | send (p : Packet)
  deriving DecidableEq, Repr

/-- A memory of the block (R50, R51). HEAD, PREV and TOKQ are never accessed outside their range by
construction (R118, R119), so only the two byte memories can be named in a stop. -/
inductive MemoryName where
  | win
  | hist
  deriving DecidableEq, Repr

/-- Why the model stops. None of these is a fault of the hardware (those are `FaultCode`s, and next states). -/
inductive Fault where
  /-- An access to an address the memory does not have (R12: no rule performs one). Raised by the fill, the
  lazy loop and the DictDecoder commands, only in states that break I-M1, I-D1 or I-D2. Safe (log 12). -/
  | noSuchAddress (mem : MemoryName) (addr : Int)
  /-- M_WRITE has run a round for each byte of its payload and is not done (R132: every round copies a byte).
  Raised by `writeLoop`, in no state. Safe (log 13). -/
  | noProgress
  deriving DecidableEq, Repr

/-- What the model gives no meaning. -/
inductive Refusal where
  /-- `exec`'s arm of an instruction that has no meaning yet. Safe. -/
  | notModelled (mnemonic : String)
  /-- The whole-state refusal mark is set (R14): raised by `step`, which takes no further step. Safe (log 7). -/
  | refusedMode
  /-- A token word of type 0b10 or 0b11 (R85, R104): raised by `step`. Safe (log 10). -/
  | reservedToken
  /-- A token word outside the layout of R84: raised by `step`. Safe (log 10). -/
  | notAToken
  deriving DecidableEq, Repr

/-- The whole block with its ports. -/
structure State where
  m : Matcher
  d : Decoder
  e : Emitter
  t : TokenReader
  /-- The Host's inputs not yet taken, next one first (log 1). -/
  inputs : List HostInput
  /-- Every response given, oldest first (R19, R67). -/
  responses : List Response
  /-- The whole-state refusal mark (R14; log 7). -/
  refused : Bool
  deriving DecidableEq, Repr

/-! ### Power-on (R220, R222, R223): the registers the spec leaves unspecified have the values of log 2 -/

/-- The Matcher at the power-on with this number. -/
def Matcher.powerOn (epoch : Nat) : Matcher where
  configured := false
  faulted := none
  params := ⟨0, 0, 0, 0, 0, 0⟩
  index := 0
  windowEnd := 0
  blockStart := 0
  hashOffset := 1
  chainHead := -1
  length := 3
  offset := 0
  byteAvailable := false
  maxInsertIndex := 0
  sync := false
  err := .noError
  tokq := []
  win := []
  head := []
  prev := []
  winEpoch := epoch

/-- The DictDecoder at power-on. -/
def Decoder.powerOn (epoch : Nat) : Decoder where
  configured := false
  faulted := none
  size := 0
  wrPos := 0
  rdPos := 0
  full := false
  viewLen := 0
  stashPos := 0
  stashLen := 0
  hist := []
  epoch := epoch

/-- The machine right after reset: the power-on state of R220, nothing sent yet. -/
def State.reset : State where
  m := Matcher.powerOn 0
  d := Decoder.powerOn 0
  e := { err := none, log := [], answers := [], draws := 0 }
  t := { readout := none, stream := [], epoch := 0 }
  inputs := []
  responses := []
  refused := false

end Sys2Proof.Machine
end

