-- ==== Sys2Proof/Machine/Ops.lean ====
section
/-! DEFINITION. The named operations over the block's memories and ports: sparse memories in canonical form,
WIN, HIST, HEAD and PREV, the emitter port, responses, and raising a fault (the block's only exception). -/

namespace Sys2Proof.Machine

/-! ### Sparse memories: lists of (address, element), addresses strictly rising -/

namespace Memory

variable {α : Type}

/-- The element listed at an address. -/
def find : List (Nat × α) → Nat → Option α
  | [], _ => none
  | (x, v) :: rest, a => if x = a then some v else find rest a

/-- List `v` at `a`, in address order. -/
def put : List (Nat × α) → Nat → α → List (Nat × α)
  | [], a, v => [(a, v)]
  | (x, u) :: rest, a, v =>
    if x < a then (x, u) :: put rest a v
    else if x = a then (a, v) :: rest
    else (a, v) :: (x, u) :: rest

/-- Take `a` out of the list. -/
def remove (m : List (Nat × α)) (a : Nat) : List (Nat × α) := m.filter (fun c => c.1 != a)

/-- The cells of a run of elements that starts at `a`. -/
def cellsFrom : Nat → List α → List (Nat × α)
  | _, [] => []
  | a, v :: vs => (a, v) :: cellsFrom (a + 1) vs

/-- MemWrite(MEM, a, n, vs) with n the length of `vs` (R12). -/
def putRun (m : List (Nat × α)) (a : Nat) (vs : List α) : List (Nat × α) :=
  m.filter (fun c => decide (c.1 < a)) ++
    (cellsFrom a vs ++ m.filter (fun c => decide (a + vs.length ≤ c.1)))

/-- The listed cells at `a .. a + n − 1`. -/
def between (m : List (Nat × α)) (a n : Nat) : List (Nat × α) :=
  m.filter (fun c => decide (a ≤ c.1) && decide (c.1 < a + n))

/-- Addresses strictly rise, so no address is listed twice. -/
abbrev rising (m : List (Nat × α)) : Prop := m.Pairwise (fun c c' => c.1 < c'.1)

/-- Every listed address is below the memory's size. -/
abbrev below (m : List (Nat × α)) (size : Nat) : Prop := ∀ c ∈ m, c.1 < size

/-- The canonical form of a byte memory: an unlisted address has never been written. -/
abbrev bytesWf (m : List Host.Cell) (size : Nat) : Prop := rising m ∧ below m size

/-- The canonical form of a word memory: an unlisted address reads as 0, so no listed word is 0. -/
abbrev wordsWf (m : List (Nat × Word32)) (size : Nat) : Prop :=
  rising m ∧ below m size ∧ ∀ c ∈ m, c.2 ≠ 0#32

/-- A byte: the listed one, else the free one. -/
def readByte (free : Nat → Byte) (m : List Host.Cell) (a : Nat) : Byte := (find m a).getD (free a)

/-- MemRead(MEM, a, n) (R12). -/
def readRun (free : Nat → Byte) (m : List Host.Cell) (a n : Nat) : List Byte :=
  let cells := between m a n
  (List.range n).map (fun k => readByte free cells (a + k))

/-- A word: the listed one, else 0. -/
def readWord (m : List (Nat × Word32)) (a : Nat) : Word32 := (find m a).getD 0#32

/-- Write a word, keeping the canonical form. -/
def writeWord (m : List (Nat × Word32)) (a : Nat) (v : Word32) : List (Nat × Word32) :=
  if v = 0#32 then remove m a else put m a v

/-- Replace every word v by v − delta, or by 0 where v ≤ delta (R127). -/
def rebaseWords (m : List (Nat × Word32)) (delta : Nat) : List (Nat × Word32) :=
  m.filterMap (fun c => if delta < c.2.toNat then some (c.1, BitVec.ofNat 32 (c.2.toNat - delta)) else none)

end Memory

/-! ### The canonical form of the block's memories (R50, R51) -/

/-- WIN, HEAD, PREV and HIST are in canonical form. -/
abbrev Memory.wf (s : State) : Prop :=
  Memory.bytesWf s.m.win Config.windowBytes ∧ Memory.wordsWf s.m.head Config.hashSize ∧
    Memory.wordsWf s.m.prev Config.windowSize ∧ Memory.bytesWf s.d.hist s.d.size

/-! ### WIN, HEAD, PREV, HIST -/

/-- WIN[a]. -/
def winByte (m : Matcher) (a : Nat) : Byte := Memory.readByte (Config.freeWinByte m.winEpoch) m.win a

/-- MemRead(WIN, a, n). -/
def winRun (m : Matcher) (a n : Nat) : List Byte := Memory.readRun (Config.freeWinByte m.winEpoch) m.win a n

/-- MemWrite(WIN, a, n, bs). -/
def putWin (m : Matcher) (a : Nat) (bs : List Byte) : Matcher := { m with win := Memory.putRun m.win a bs }

/-- HEAD[h]. -/
def headWord (m : Matcher) (h : Nat) : Word32 := Memory.readWord m.head h

/-- HEAD[h] <- v. -/
def putHead (m : Matcher) (h : Nat) (v : Word32) : Matcher := { m with head := Memory.writeWord m.head h v }

/-- PREV[p & WINDOW_MASK] (R50). -/
def prevWord (m : Matcher) (p : Nat) : Word32 := Memory.readWord m.prev (p % Config.windowSize)

/-- PREV[p & WINDOW_MASK] <- v. -/
def putPrev (m : Matcher) (p : Nat) (v : Word32) : Matcher :=
  { m with prev := Memory.writeWord m.prev (p % Config.windowSize) v }

/-- HIST[a]. -/
def histByte (d : Decoder) (a : Nat) : Byte := Memory.readByte (Config.freeHistByte d.epoch) d.hist a

/-- MemRead(HIST, a, n). -/
def histRun (d : Decoder) (a n : Nat) : List Byte := Memory.readRun (Config.freeHistByte d.epoch) d.hist a n

/-- HIST[a] <- c. -/
def putHist (d : Decoder) (a : Nat) (c : Byte) : Decoder := { d with hist := Memory.put d.hist a c }

/-! ### The emitter port (20_memory.md R70) -/

/-- The Emitter's answer to a request: sticky once it is IO(c); else drawn, from what the environment has
ready, or free (R70; log 6). -/
def drawAnswer (e : Emitter) : Emitter :=
  match e.err with
  | some _ => e
  | none =>
    match e.answers with
    | a :: rest => { e with err := a, answers := rest, draws := e.draws + 1 }
    | [] => { e with err := Config.emitterAnswer e.draws, draws := e.draws + 1 }

/-- emit Req: the request joins E.log, then the Emitter answers. -/
def emitRequest (e : Emitter) (r : LogEntry) : Emitter := drawAnswer { e with log := e.log ++ [r] }

/-! ### Responses (R80) -/

/-- Answer a command. -/
def respond (s : State) (status : Status) (value : Nat) (data : List Byte) : State :=
  { s with responses := s.responses ++ [⟨status, BitVec.ofNat 32 value, data⟩] }

/-! ### Raising a fault (00_scope.md R13, 60_exceptions.md R203)

The block's only exception: nothing is saved, no mode changes and control goes nowhere (R209). The latch of
the unit takes the code and the response is (code, 0). There is no return but power-on (R210). -/

/-- Set a unit's latch. -/
def setLatch (u : UnitName) (f : FaultCode) (s : State) : State :=
  match u with
  | .matcher => { s with m := { s.m with faulted := some f } }
  | .decoder => { s with d := { s.d with faulted := some f } }

/-- A unit's latch. -/
def latchOf (u : UnitName) (s : State) : Option FaultCode :=
  match u with
  | .matcher => s.m.faulted
  | .decoder => s.d.faulted

/-- raise Fault(f) in unit `u`; `s` is the state the command leaves. -/
def raiseFault (u : UnitName) (f : FaultCode) (s : State) : State :=
  respond (setLatch u f s) (.fault f) 0 []

/-- Set a unit's latch unless it is set already (R201: a faulted unit keeps its first code). -/
def latchIfClear (u : UnitName) (f : FaultCode) (s : State) : State :=
  match latchOf u s with
  | some _ => s
  | none => setLatch u f s

/-- A word for no unit: both latches, response F_BAD_OPCODE (R201, R82). -/
def raiseNoUnit (s : State) : State :=
  respond (latchIfClear .decoder .badOpcode (latchIfClear .matcher .badOpcode s)) (.fault .badOpcode) 0 []

/-- A malformed command word for unit `u`: the latched code first (R204), else raise `f`. -/
def raiseMalformed (u : UnitName) (f : FaultCode) (s : State) : State :=
  match latchOf u s with
  | some g => respond s (.fault g) 0 []
  | none => raiseFault u f s

/-- Power-on (R220): both units unconfigured and not faulted, E.err NONE, E.log empty; every other register and
memory as `State.reset` has it, with fresh free bytes. What the Host has still to send, what has been answered and
the environment's answers are outside the block (log 1). -/
def powerOn (s : State) : State :=
  { s with
    m := Matcher.powerOn (s.m.winEpoch + 1)
    d := Decoder.powerOn (s.d.epoch + 1)
    e := { s.e with err := none, log := [] }
    t := { readout := none, stream := [], epoch := s.t.epoch + 1 }
    refused := false }

/-! ### How a command's own pseudocode ends -/

/-- The end of a command's pseudocode over the state `σ` of its unit (R13, R14, R200). -/
inductive Verdict (σ : Type) where
  /-- `return (status, value, data)`. -/
  | reply (u : σ) (status : Status) (value : Nat) (data : List Byte)
  /-- `raise Fault(f)`, with the state the unit is left in. -/
  | raise (u : σ) (f : FaultCode)
  /-- `REFUSE(reason)` (R14). -/
  | refuse
  /-- The model stops. -/
  | stop (f : Fault)
  deriving Repr

/-- The Matcher with the emitter port it drives: all a Matcher command can touch (R73). -/
structure MatcherSide where
  m : Matcher
  e : Emitter
  deriving DecidableEq, Repr

/-- The whole state with the Matcher's side replaced. -/
def State.withSide (s : State) (u : MatcherSide) : State := { s with m := u.m, e := u.e }

/-- The Matcher's side of the state. -/
def State.side (s : State) : MatcherSide := ⟨s.m, s.e⟩

/-- REFUSE: the whole-state mark, response R_REFUSED_MODE (R14, R161; log 7). -/
def refuseMode (s : State) : State := respond { s with refused := true } .refusedMode 0 []

/-- A Matcher command's end, from the state before it. -/
def finishMatcher (s : State) : Verdict MatcherSide → Host.Outcome State Fault Refusal
  | .reply u status value data => .next (respond (s.withSide u) status value data)
  | .raise u f => .next (raiseFault .matcher f (s.withSide u))
  | .refuse => .next (refuseMode s)
  | .stop f => .fault f

/-- A DictDecoder command's end, from the state before it. A fault leaves every other register as it was before
the command (R203). -/
def finishDecoder (s : State) : Verdict Decoder → Host.Outcome State Fault Refusal
  | .reply d status value data => .next (respond { s with d := d } status value data)
  | .raise d f => .next (raiseFault .decoder f { s with d := d })
  | .refuse => .next (refuseMode s)
  | .stop f => .fault f

end Sys2Proof.Machine
end

