-- ==== Sys2Proof/Machine/Operands.lean ====
section
/-! DEFINITION. Operand forms and response words: the level operand (30_encoding.md R76), counts, the status codes
(R81), the response word (R80) and the hash group's byte order (20_memory.md R56). -/

namespace Sys2Proof.Machine

/-- The level operand `sext_32(A)` (R76). -/
def levelOperand (a : Word32) : Int := a.toInt

/-- The code of a fault (R81, R202). -/
def faultCode : FaultCode → BitVec 8
  | .badOpcode => 0x80#8
  | .badField => 0x81#8
  | .notConfigured => 0x82#8
  | .fillStale => 0x83#8
  | .internal => 0x84#8
  | .ddNoSpace => 0x85#8
  | .ddBadDist => 0x86#8
  | .ddMarkOver => 0x87#8
  | .ddSliceOob => 0x88#8
  | .ddStashPending => 0x89#8

/-- STATUS as a byte (R81). -/
def statusCode : Status → BitVec 8
  | .ok => 0x00#8
  | .invalidLevel => 0x01#8
  | .refusedMode => 0x02#8
  | .closed => 0x03#8
  | .io => 0x04#8
  | .ddBadSize => 0x05#8
  | .fault f => faultCode f

/-- The response word: STATUS in bits 7:0, VALUE in bits 39:8, bits 63:40 zero (R80). -/
def responseWord (r : Response) : Word64 := (0#24 ++ r.value ++ statusCode r.status : BitVec 64)

/-- The status of `err_response` (R159). -/
def errStatus : StreamErr → Status
  | .noError => .ok
  | .closed => .closed
  | .io _ => .io

/-- The value of `err_response`: the emitter's code for E_IO, else 0 (R159, R80). -/
def errValue : StreamErr → Nat
  | .noError => 0
  | .closed => 0
  | .io c => c.toNat

/-- Bytes as one number, the first byte most significant (R56: `{WIN[p], WIN[p+1], WIN[p+2], WIN[p+3]}`). -/
def bigEndian (bs : List Byte) : Word32 := bs.foldl (fun acc b => (acc <<< 8) ||| b.setWidth 32) 0#32

/-- The last `n` elements of a list, all of it if it is shorter: what is kept of a long dictionary (R129, R173). -/
def tail {α : Type} (n : Nat) (l : List α) : List α := l.drop (l.length - n)

end Sys2Proof.Machine
end

