-- ==== Sys2Proof/Machine/Flags.lean ====
section
/-! DEFINITION. The status flags of 10_state.md R32 and the pure functions of the registers of R28: what sets,
clears and reads each. -/

namespace Sys2Proof.Machine

/-! ### M.byte_available -/

/-- A lazy-level iteration defers a literal (R151). -/
def holdLiteral (m : Matcher) : Matcher := { m with byteAvailable := true }

/-- The pending literal is covered by a match (R150) or has been flushed (R145). -/
def releaseLiteral (m : Matcher) : Matcher := { m with byteAvailable := false }

/-! ### M.sync -/

/-- M_SYNC_FLUSH and M_CLOSE set M.sync for their step (R168, R169). -/
def beginSync (u : MatcherSide) : MatcherSide := { u with m := { u.m with sync := true } }

/-- The end of M_SYNC_FLUSH (R168). -/
def endSync (u : MatcherSide) : MatcherSide := { u with m := { u.m with sync := false } }

/-! ### M.err -/

/-- `if E.err != NONE: M.err <- E_IO(code of E.err)` (R152, R168, R169). -/
def latchEmitterErr (u : MatcherSide) : MatcherSide :=
  match u.e.err with
  | some c => { u with m := { u.m with err := .io c } }
  | none => u

/-- A completed M_CLOSE (R169). -/
def markClosed (u : MatcherSide) : MatcherSide := { u with m := { u.m with err := .closed } }

/-! ### The mode flag of a level (R111: fsh = SKIP_NEVER is full lazy matching) -/

/-- The level is a fast-skip level. -/
def isFast (m : Matcher) : Bool := m.params.fsh != Config.skipNever

/-! ### D.full, hist_size, avail_read, avail_write -/

/-- hist_size (R28, R194). -/
def histSize (d : Decoder) : Nat := if d.full then d.size else d.wrPos

/-- avail_read (R28, R195). -/
def availRead (d : Decoder) : Nat := d.wrPos - d.rdPos

/-- avail_write (R28, R196). -/
def availWrite (d : Decoder) : Nat := d.size - d.wrPos

/-- drain_advance: the cursor update of both drains, which sets D.full when the end of HIST is reached (R188). -/
def drainAdvance (d : Decoder) : Decoder :=
  if d.wrPos = d.size then { d with rdPos := 0, wrPos := 0, full := true } else { d with rdPos := d.wrPos }

/-- Every DictDecoder command but DD_SLICE_PUT closes the write view (R175 (a)). -/
def closeView (d : Decoder) : Decoder := { d with viewLen := 0 }

end Sys2Proof.Machine
end

