-- ==== Sys2Proof/Machine/Levels.lean ====
section
/-! DEFINITION. Compression-level resolution and the level table (41_level_params.md R110 to R116). -/

namespace Sys2Proof.Machine

/-- What a level resolves to (R110). -/
inductive LevelChoice where
  | deflate (level : Nat)
  | otherMode
  | invalid
  deriving DecidableEq, Repr

/-- resolve(v) (R110). -/
def resolveLevel (v : Int) : LevelChoice :=
  if v = -1 then .deflate 6
  else if 2 ≤ v ∧ v ≤ 9 then .deflate v.toNat
  else if v = -2 ∨ v = 0 ∨ v = 1 then .otherMode
  else .invalid

/-- The level table (R112). It is read at 2..9 only, the levels `resolveLevel` gives; the last arm is the row of
level 9. -/
def levelRow : Nat → LevelParams
  | 2 => ⟨2, 4, 0, 16, 8, 5⟩
  | 3 => ⟨3, 4, 0, 32, 32, 6⟩
  | 4 => ⟨4, 4, 4, 16, 16, Config.skipNever⟩
  | 5 => ⟨5, 8, 16, 32, 32, Config.skipNever⟩
  | 6 => ⟨6, 8, 16, 128, 128, Config.skipNever⟩
  | 7 => ⟨7, 8, 32, 128, 256, Config.skipNever⟩
  | 8 => ⟨8, 32, 128, 258, 1024, Config.skipNever⟩
  | _ => ⟨9, 32, 258, 258, 4096, Config.skipNever⟩

end Sys2Proof.Machine
end

