-- ==== Sys2Proof/Machine/Tokens.lean ====
section
/-! DEFINITION. The token operations (40_token.md R100 to R106) and the meaning of a token word handed to the
accessors. -/

namespace Sys2Proof.Machine

/-- make_literal(b) = zext_32(b) (R100). Its laws (R105): `isLiteral_makeLiteral`, `tokenLiteral_makeLiteral`,
`makeLiteral_ne_makeMatch`. -/
def makeLiteral (b : Byte) : Token := b.setWidth 32

/-- make_match(L, d) = 0x40000000 | ((L − 3) << 22) | (d − 1) (R101). Its laws (R105): `isMatch_makeMatch`, `wireLength_makeMatch`,
`wireDistance_makeMatch`, `makeLiteral_ne_makeMatch`. -/
def makeMatch (length distance : Nat) : Token :=
  0x40000000#32 ||| (BitVec.ofNat 32 (length - Config.baseMatchLength) <<< 22) |||
    BitVec.ofNat 32 (distance - Config.baseMatchOffset)

/-- The range in which make_match may be called (R101). -/
def matchInRange (length distance : Nat) : Bool :=
  decide (Config.baseMatchLength ≤ length) && decide (length ≤ Config.maxMatchLength) &&
    decide (Config.baseMatchOffset ≤ distance) && decide (distance ≤ Config.maxMatchOffset)

/-- is_literal(t) (R102). -/
def isLiteral (t : Token) : Bool := tokenKind t == 0b00#2

/-- is_match(t) (R102). -/
def isMatch (t : Token) : Bool := tokenKind t == 0b01#2

/-- literal(t) (R103). -/
def tokenLiteral (t : Token) : Byte := t.extractLsb' 0 8

/-- xlength(t) (R103). -/
def tokenXlength (t : Token) : BitVec 8 := t.extractLsb' 22 8

/-- xoffset(t) (R103). -/
def tokenXoffset (t : Token) : BitVec 22 := t.extractLsb' 0 22

/-- wire_length(t) (R103). -/
def wireLength (t : Token) : Nat := (tokenXlength t).toNat + Config.baseMatchLength

/-- wire_distance(t) (R103). -/
def wireDistance (t : Token) : Nat := (tokenXoffset t).toNat + Config.baseMatchOffset

/-- All the accessors' answers for one token word (R102, R103). -/
def readToken (t : Token) : TokenReadout where
  word := t
  isLiteral := isLiteral t
  isMatch := isMatch t
  literal := tokenLiteral t
  xlength := tokenXlength t
  xoffset := tokenXoffset t
  wireLength := wireLength t
  wireDistance := wireDistance t

/-- The byte `distance` places before the end of a stream; before the stream's start, a free byte (R106; log 9). -/
def byteBack (free : Nat → Byte) (stream : List Byte) (distance : Nat) : Byte :=
  if distance ≤ stream.length then stream.getD (stream.length - distance) 0#8
  else free (distance - stream.length)

/-- Append `n` bytes, each the byte `distance` places back, one at a time, so that the copy may overlap the bytes it
makes (R106). -/
def appendCopy (free : Nat → Byte) (distance : Nat) : Nat → List Byte → List Byte
  | 0, stream => stream
  | n + 1, stream => appendCopy free distance n (stream ++ [byteBack free stream distance])

/-- The stream after one more token: a literal stands for its byte, a match for the bytes it copies (R106). A word
of a reserved type stands for nothing (R104). -/
def expandToken (free : Nat → Byte) (stream : List Byte) (t : Token) : List Byte :=
  if isLiteral t then stream ++ [tokenLiteral t]
  else if isMatch t then appendCopy free (wireDistance t) (wireLength t) stream
  else stream

/-- The stream after a list of tokens, in order (R62, R106). -/
def expandTokens (free : Nat → Byte) (stream : List Byte) (ts : List Token) : List Byte :=
  ts.foldl (expandToken free) stream

/-- Hand a token word to the reader: the accessors answer (R102, R103) and the stream grows by the token's bytes
(R106). No unit of the block is touched ("No side effects; pure value type"). -/
def takeToken (t : Token) (s : State) : State :=
  { s with t := { s.t with
      readout := some (readToken t)
      stream := expandToken (Config.freeStreamByte s.t.epoch) s.t.stream t } }

/-- TOKEN.LIT (R100, R102, R103, R106): the token make_literal(b). -/
def execTokenLit (b : Byte) (s : State) : Host.Outcome State Fault Refusal :=
  .next (takeToken (makeLiteral b) s)

/-- TOKEN.MATCH (R101, R102, R103, R106): the token make_match(xlength + 3, xoffset + 1). -/
def execTokenMatch (xlength : BitVec 8) (xoffset : BitVec 22) (s : State) : Host.Outcome State Fault Refusal :=
  .next (takeToken (makeMatch (xlength.toNat + Config.baseMatchLength) (xoffset.toNat + Config.baseMatchOffset)) s)

end Sys2Proof.Machine
end

