-- ==== Sys2Proof/Machine/Hash.lean ====
section
/-! DEFINITION. The hash and chain insertion (42_hash.md R117 to R124). -/

namespace Sys2Proof.Machine

/-- The hash of a 4-byte group: `u32(g * HASH_MUL) >> (32 − HASH_BITS)` (R117). -/
def hashGroup (g : Word32) : Nat := ((g * Config.hashMul) >>> 15).toNat

/-- hash4(p) (R117), the group's first byte most significant (R56). -/
def hash4 (m : Matcher) (p : Nat) : Nat := hashGroup (bigEndian (winRun m p 4))

/-- The bucket of a position, hash4(p) & HASH_MASK (R118). -/
def bucket (m : Matcher) (p : Nat) : Nat := hash4 m p % Config.hashSize

/-- insert(p) (R119). -/
def insertHash (m : Matcher) (p : Nat) : Matcher :=
  let h := bucket m p
  putHead (putPrev m p (headWord m h)) h (BitVec.ofNat 32 (p + m.hashOffset))

/-- update_head(p): insert, latching the bucket's old head (R120). -/
def updateHead (m : Matcher) (p : Nat) : Matcher :=
  { insertHash m p with chainHead := ((headWord m (bucket m p)).toNat : Int) }

/-- insert(p), insert(p + 1), … for `n` positions, each only where its group is complete:
`if p < M.max_insert_index` (R150, R124). -/
def insertRange : Nat → Nat → Matcher → Matcher
  | 0, _, m => m
  | n + 1, p, m =>
    insertRange n (p + 1) (if (p : Int) < m.maxInsertIndex then insertHash m p else m)

/-- insert(p), insert(p + 1), … for `n` positions (R129). -/
def insertAll : Nat → Nat → Matcher → Matcher
  | 0, _, m => m
  | n + 1, p, m => insertAll n (p + 1) (insertHash m p)

/-- One step of the batched hash: `hb <- u32((hb << 8) | WIN[i + 3])` (R121). -/
def rollGroup (hb : Word32) (b : Byte) : Word32 := (hb <<< 8) ||| b.setWidth 32

end Sys2Proof.Machine
end

