-- ==== Sys2Proof/Machine/Window.lean ====
section
/-! DEFINITION. Window fill, shift, rebase and dictionary priming (43_window.md R125 to R134). -/

namespace Sys2Proof.Machine

/-- rebase() (R127). -/
def rebase (m : Matcher) : Matcher :=
  let delta := m.hashOffset - 1
  { m with
    hashOffset := 1
    chainHead := m.chainHead - delta
    prev := Memory.rebaseWords m.prev delta
    head := Memory.rebaseWords m.head delta }

/-- M.block_start after a shift (R126, R134). -/
def shiftBlockStart (b : Nat) : Nat :=
  if Config.windowSize ≤ b then b - Config.windowSize else Config.blockStartNone

/-- The part of shift_window before the rebase: the upper half of WIN is copied to the lower half, the positions
move down and the hash offset moves up (R126). -/
def slideWindow (m : Matcher) : Matcher :=
  { putWin m 0 (winRun m Config.windowSize Config.windowSize) with
    index := m.index - Config.windowSize
    windowEnd := m.windowEnd - Config.windowSize
    blockStart := shiftBlockStart m.blockStart
    hashOffset := m.hashOffset + Config.windowSize }

/-- shift_window() (R126). -/
def shiftWindow (m : Matcher) : Matcher :=
  let m' := slideWindow m
  if Config.maxHashOffset < m'.hashOffset then rebase m' else m'

/-- The copy of fill: as many bytes as there is room for, at the end of the valid bytes (R125). -/
def appendWindow (m : Matcher) (b : List Byte) : Matcher × Nat :=
  let k := min b.length (Config.windowBytes - m.windowEnd)
  ({ putWin m m.windowEnd (b.take k) with windowEnd := m.windowEnd + k }, k)

/-- fill(b): the Matcher after it and the number of bytes copied (R125). Stops where a byte would be written
outside WIN, which no run reaches (log 12). -/
def fill (m : Matcher) (b : List Byte) : Except Fault (Matcher × Nat) :=
  if Config.shiftThreshold ≤ m.index then
    if m.windowEnd < Config.windowSize then
      .error (.noSuchAddress .win ((m.windowEnd : Int) - Config.windowSize))
    else if Config.windowBytes + Config.windowSize < m.windowEnd then
      .error (.noSuchAddress .win ((m.windowEnd : Int) - Config.windowSize))
    else .ok (appendWindow (shiftWindow m) b)
  else if Config.windowBytes < m.windowEnd then .error (.noSuchAddress .win m.windowEnd)
  else .ok (appendWindow m b)

/-- fill_window(dict) where the window is empty (R129): the tail of the dictionary at 0, its complete groups
inserted. -/
def primeWindow (m : Matcher) (dict : List Byte) : Matcher :=
  let kept := tail Config.windowSize dict
  let n := kept.length
  let m' := insertAll (n - 3) 0 (putWin m 0 kept)
  { m' with
    windowEnd := n
    index := n
    blockStart := if Config.fillSetsBlockStart then n else m'.blockStart }

/-- The precondition of fill_window: an empty window (R129). -/
def windowEmpty (m : Matcher) : Bool := m.index == 0 && m.windowEnd == 0

end Sys2Proof.Machine
end

