-- ==== Sys2Proof/Machine/Search.lean ====
section
/-! DEFINITION. The chain search (44_find_match.md R135 to R142). -/

namespace Sys2Proof.Machine

/-- The length of the common start of two byte lists. -/
def commonLength : List Byte → List Byte → Nat
  | x :: xs, y :: ys => if x = y then commonLength xs ys + 1 else 0
  | _, _ => 0

/-- match_len(i, pos, mx) (R135). -/
def matchLen (m : Matcher) (i pos mx : Nat) : Nat := commonLength (winRun m i mx) (winRun m pos mx)

/-- The running best of a chain walk: length, offset, ok (R137). -/
structure Best where
  length : Nat
  offset : Nat
  ok : Bool
  deriving DecidableEq, Repr

/-- The tie-break: strictly longer, and longer than the minimum or near (R140). -/
def improves (n length dist : Nat) : Bool :=
  decide (length < n) && (decide (Config.minMatchLength < n) || decide (dist ≤ Config.farMatchLimit))

/-- One probe: the quick reject (R142), then match_len and the tie-break (R137). -/
def probe (m : Matcher) (pos mml i : Nat) (best : Best) : Best :=
  if winByte m (i + best.length) = winByte m (pos + best.length) then
    let n := matchLen m i pos mml
    if improves n best.length (pos - i) then ⟨n, pos - i, true⟩ else best
  else best

/-- The walk along the chain: `tries` more probes from candidate `i` (R137, R138). It stops the model where a
probe would read outside WIN, which no run reaches (log 12). -/
def walkChain (m : Matcher) (pos mml nice : Nat) : Nat → Nat → Best → Except Fault Best
  | 0, _, best => .ok best
  | tries + 1, i, best =>
    if Config.windowBytes < max i pos + max mml (best.length + 1) then
      .error (.noSuchAddress .win ((max i pos + max mml (best.length + 1) : Nat) - 1))
    else
      let best' := probe m pos mml i best
      if best'.length != best.length && decide (nice ≤ best'.length) then .ok best'
      else if (i : Int) = (pos : Int) - Config.windowSize then .ok best'
      else
        let next : Int := ((prevWord m i).toNat : Int) - m.hashOffset
        if next < (pos : Int) - Config.windowSize ∨ next < 0 then .ok best'
        else walkChain m pos mml nice tries next.toNat best'

/-- find_match(pos, prev_head, prev_length, lookahead) (R136, R137). -/
def findMatch (m : Matcher) (pos prevHead prevLength lookahead : Nat) : Except Fault Best :=
  let mml := min Config.maxMatchLength lookahead
  let nice := min m.params.nice mml
  let tries := if m.params.good < prevLength then m.params.chain >>> Config.goodTriesShift else m.params.chain
  walkChain m pos mml nice tries prevHead ⟨prevLength, 0, false⟩

end Sys2Proof.Machine
end

