-- ==== Sys2Proof/Machine/LazyLoop.lean ====
section
/-! DEFINITION. The step (lazy-matching loop) and the block flush (45_lazy_loop.md R143 to R158). -/

namespace Sys2Proof.Machine

/-- `append TOKQ, t` (R13). -/
def appendToken (m : Matcher) (t : Token) : Matcher := { m with tokq := m.tokq ++ [t] }

/-- flush_block(x) (R152) and `if … != NONE: return` / `TOKQ <- []` after it: whether the Emitter answered
NONE, and the state; TOKQ is cleared only if it did (R158). -/
def flushTokens (x : Nat) (u : MatcherSide) : Bool × MatcherSide :=
  if 0 < x then
    let window := if u.m.blockStart ≤ x then some (winRun u.m u.m.blockStart (x - u.m.blockStart)) else none
    let u1 : MatcherSide := ⟨{ u.m with blockStart := x }, emitRequest u.e (.emitBlock u.m.tokq false window)⟩
    let u2 := latchEmitterErr u1
    match u2.e.err with
    | some _ => (false, u2)
    | none => (true, { u2 with m := { u2.m with tokq := [] } })
  else (true, { u with m := { u.m with tokq := [] } })

/-- How one iteration of the loop ends. -/
inductive Turn where
  /-- The loop goes on. -/
  | again (u : MatcherSide)
  /-- The step returns. -/
  | ended (u : MatcherSide)
  /-- `raise Fault(F_INTERNAL)`, with the state the iteration found (R144; log 11). -/
  | internal (u : MatcherSide)
  /-- The model stops (log 12). -/
  | stop (f : Fault)
  deriving Repr

/-- The token cap, tested after an append (R153): at 16384 tokens the block is flushed up to `x`; on an emitter
error the step returns. Otherwise the iteration goes on with `k`. -/
def capFlush (x : Nat) (u : MatcherSide) (k : MatcherSide → MatcherSide) : Turn :=
  if u.m.tokq.length = Config.maxFlateBlockTokens then
    match flushTokens x u with
    | (true, u') => .again (k u')
    | (false, u') => .ended u'
  else .again (k u)

/-- The end of the pending data under M.sync: the pending literal, then the block (R145). -/
def endOfData (u : MatcherSide) : Turn :=
  if u.m.byteAvailable && u.m.index == 0 then .stop (.noSuchAddress .win (-1))
  else
    let m1 := if u.m.byteAvailable then
        releaseLiteral (appendToken u.m (makeLiteral (winByte u.m (u.m.index - 1))))
      else u.m
    if 0 < m1.tokq.length then .ended (flushTokens m1.index { u with m := m1 }).2
    else .ended { u with m := m1 }

/-- The hash update of an iteration (R146). -/
def hashStep (m : Matcher) : Matcher :=
  if (m.index : Int) < m.maxInsertIndex then updateHead m m.index else m

/-- M.length <- 3; M.offset <- 0, after the carried match has been latched (R147). -/
def clearMatch (m : Matcher) : Matcher := { m with length := Config.searchStartLength, offset := 0 }

/-- The search condition (R147). -/
def searches (m : Matcher) (lookahead prevLength : Nat) : Bool :=
  decide (max ((m.index : Int) - Config.windowSize) 0 ≤ m.chainHead - m.hashOffset) &&
    ((isFast m && decide (3 < lookahead)) ||
      (!isFast m && decide (prevLength < lookahead) && decide (prevLength < m.params.lazy)))

/-- The search of an iteration: M.length and M.offset take the match found, if one is (R148). -/
def searchStep (m : Matcher) (lookahead prevLength : Nat) : Except Fault Matcher :=
  if searches m lookahead prevLength then
    match findMatch m m.index (m.chainHead - m.hashOffset).toNat Config.searchStartLength lookahead with
    | .ok best => .ok (if best.ok then { m with length := best.length, offset := best.offset } else m)
    | .error f => .error f
  else .ok m

/-- The emission choice (R149). -/
def emitsMatch (m : Matcher) (prevLength : Nat) : Bool :=
  (isFast m && decide (Config.minMatchLength ≤ m.length)) ||
    (!isFast m && decide (Config.minMatchLength ≤ prevLength) && decide (m.length ≤ prevLength))

/-- The cursor after a match, with the skipped positions inserted (R150). -/
def passMatch (m : Matcher) (prevLength : Nat) : Matcher :=
  if m.length ≤ m.params.fsh then
    let newIndex := if isFast m then m.index + m.length else m.index + prevLength - 1
    let m1 := { insertRange (newIndex - (m.index + 1)) (m.index + 1) m with index := newIndex }
    if isFast m then m1 else { releaseLiteral m1 with length := Config.searchStartLength }
  else { m with index := m.index + m.length }

/-- emit_match (R150); `u0` is the state the iteration found. -/
def emitMatch (u0 u : MatcherSide) (prevLength prevOffset : Nat) : Turn :=
  let length := if isFast u.m then u.m.length else prevLength
  let offset := if isFast u.m then u.m.offset else prevOffset
  if matchInRange length offset then
    let m1 := passMatch (appendToken u.m (makeMatch length offset)) prevLength
    capFlush m1.index { u with m := m1 } id
  else .internal u0

/-- The end of emit_literal: the cursor moves by one, and a lazy level holds the current byte back (R151). -/
def passLiteral (u : MatcherSide) : MatcherSide :=
  let m1 := { u.m with index := u.m.index + 1 }
  { u with m := if isFast u.m then m1 else holdLiteral m1 }

/-- emit_literal (R151).
DESIGN CHOICE: where the flush at the cap fails, the step returns before M.index advances, as R151's pseudocode has it; for a fast-skip
level that is the literal's own position, where R158 says the position after the last token queued (log 30; safe). -/
def emitLiteral (u : MatcherSide) : Turn :=
  if isFast u.m || u.m.byteAvailable then
    if !isFast u.m && u.m.index == 0 then .stop (.noSuchAddress .win (-1))
    else
      let i := if isFast u.m then u.m.index else u.m.index - 1
      capFlush (i + 1) { u with m := appendToken u.m (makeLiteral (winByte u.m i)) } passLiteral
  else .again (passLiteral u)

/-- One position of the pending data: hash update, search, emission (R146 to R151). -/
def scanPosition (u : MatcherSide) : Turn :=
  let lookahead := u.m.windowEnd - u.m.index
  let m1 := hashStep u.m
  match searchStep (clearMatch m1) lookahead m1.length with
  | .error f => .stop f
  | .ok m2 =>
    if emitsMatch m2 m1.length then emitMatch u { u with m := m2 } m1.length m1.offset
    else emitLiteral { u with m := m2 }

/-- One iteration of the loop (R143). -/
def iterate (u : MatcherSide) : Turn :=
  if u.m.windowEnd < u.m.index then .internal u
  else if u.m.windowEnd - u.m.index < Config.lookaheadMin && !u.m.sync then .ended u
  else if u.m.windowEnd - u.m.index = 0 then endOfData u
  else scanPosition u

/-- Why a step does not return. -/
inductive Halt where
  | internal (u : MatcherSide)
  | stop (f : Fault)
  deriving Repr

/-- The loop, with one unit of fuel for each position left and one for the end of the data: every iteration that
goes on advances M.index (R238), so the fuel is never short. -/
def runLoop : Nat → MatcherSide → Except Halt MatcherSide
  | 0, u => .ok u
  | fuel + 1, u =>
    match iterate u with
    | .again u' => runLoop fuel u'
    | .ended u' => .ok u'
    | .internal u' => .error (.internal u')
    | .stop f => .error (.stop f)

/-- step() (R143). A valid-byte count above WIN's size, which no run reaches, stops the model (log 12). -/
def matcherStep (u : MatcherSide) : Except Halt MatcherSide :=
  if u.m.windowEnd < u.m.index + Config.lookaheadMin && !u.m.sync then .ok u
  else if Config.windowBytes < u.m.windowEnd then .error (.stop (.noSuchAddress .win u.m.windowEnd))
  else
    runLoop (u.m.windowEnd - u.m.index + 1)
      { u with m := { u.m with maxInsertIndex := (u.m.windowEnd : Int) - 3 } }

end Sys2Proof.Machine
end

