-- ==== Sys2Proof/Machine/MatcherCommands.lean ====
section
/-! DEFINITION. The Matcher commands (46_matcher_commands.md R159 to R172), one meaning per row of R77. -/

namespace Sys2Proof.Machine

/-! ### Common behaviour (R159, 60_exceptions.md R204) -/

/-- The checks of a Matcher command after its fields: the fault latch, then the configured check (R204, R203). -/
def matcherCommand (needsConfig : Bool) (body : MatcherSide → Verdict MatcherSide) (s : State) :
    Host.Outcome State Fault Refusal :=
  match s.m.faulted with
  | some f => .next (respond s (.fault f) 0 [])
  | none =>
    if needsConfig && !s.m.configured then .next (raiseFault .matcher .notConfigured s)
    else finishMatcher s (body s.side)

/-- `return err_response(M.err)` (R159). -/
def errResponse (u : MatcherSide) : Verdict MatcherSide := .reply u (errStatus u.m.err) (errValue u.m.err) []

/-- The M.err short-circuit of M_FILL_WINDOW, M_WRITE and M_SYNC_FLUSH (R159, R206). -/
def shortCircuit (body : MatcherSide → Verdict MatcherSide) (u : MatcherSide) : Verdict MatcherSide :=
  match u.m.err with
  | .noError => body u
  | _ => errResponse u

/-- A step inside a command: its end, or the fault or stop it ends the command with. -/
def withStep (u : MatcherSide) (k : MatcherSide → Verdict MatcherSide) : Verdict MatcherSide :=
  match matcherStep u with
  | .ok u' => k u'
  | .error (.internal u') => .raise u' .internal
  | .error (.stop f) => .stop f

/-! ### Construction and reset -/

/-- clear_matcher() (R162). WIN keeps its bytes. -/
def clearMatcher (m : Matcher) : Matcher :=
  { m with
    head := []
    prev := []
    hashOffset := 1
    chainHead := -1
    index := 0
    windowEnd := 0
    blockStart := 0
    byteAvailable := false
    tokq := []
    length := 3
    offset := 0
    maxInsertIndex := 0
    sync := false
    err := .noError }

/-- M_CONFIG's pseudocode (R160, R161). -/
def configBody (level : Word32) (u : MatcherSide) : Verdict MatcherSide :=
  match resolveLevel (levelOperand level) with
  | .invalid => .reply u .invalidLevel 0 []
  | .otherMode => .refuse
  | .deflate l =>
    .reply ⟨{ clearMatcher { u.m with params := levelRow l } with configured := true },
      { u.e with err := none, log := [] }⟩ .ok 0 []

/-- M_CONFIG (R160). -/
def execMConfig (level : Word32) (s : State) : Host.Outcome State Fault Refusal :=
  matcherCommand false (configBody level) s

/-- M_RESET's pseudocode (R164). After clear_matcher the window is empty, so fill_window cannot fault. -/
def resetBody (dict : List Byte) (u : MatcherSide) : Verdict MatcherSide :=
  let m1 := clearMatcher u.m
  let e1 : Emitter := { u.e with err := none, log := u.e.log ++ [.sinkRebound] }
  .reply ⟨if 0 < dict.length then primeWindow m1 dict else m1, e1⟩ .ok 0 []

/-- M_RESET (R164). -/
def execMReset (dict : List Byte) (s : State) : Host.Outcome State Fault Refusal :=
  matcherCommand true (resetBody dict) s

/-- M_FILL_WINDOW's pseudocode (R165, R129). -/
def fillWindowBody (dict : List Byte) (u : MatcherSide) : Verdict MatcherSide :=
  if windowEmpty u.m then .reply { u with m := primeWindow u.m dict } .ok 0 [] else .raise u .fillStale

/-- M_FILL_WINDOW (R165). -/
def execMFillWindow (dict : List Byte) (s : State) : Host.Outcome State Fault Refusal :=
  matcherCommand true (shortCircuit (fillWindowBody dict)) s

/-! ### Data and stream control -/

/-- The loop of M_WRITE (R166): a step, a fill, until the payload is used up. `total` is the payload's length, the
value answered. One unit of fuel for each byte: a round after an error-free step copies at least one (R132). -/
def writeLoop (total : Nat) : Nat → List Byte → MatcherSide → Verdict MatcherSide
  | _, [], u => .reply u .ok total []
  | 0, _ :: _, _ => .stop .noProgress
  | fuel + 1, b :: bs, u =>
    withStep u fun u1 =>
      match fill u1.m (b :: bs) with
      | .error f => .stop f
      | .ok (m2, k) =>
        let u2 : MatcherSide := { u1 with m := m2 }
        match u2.m.err with
        | .noError => writeLoop total fuel ((b :: bs).drop k) u2
        | _ => errResponse u2

/-- M_WRITE's pseudocode (R166). -/
def writeBody (data : List Byte) (u : MatcherSide) : Verdict MatcherSide :=
  writeLoop data.length data.length data u

/-- M_WRITE (R166). -/
def execMWrite (data : List Byte) (s : State) : Host.Outcome State Fault Refusal :=
  matcherCommand true (shortCircuit (writeBody data)) s

/-- The markers of M_SYNC_FLUSH: both requests, then the Emitter's error is latched (R168). -/
def syncMarkers (u : MatcherSide) : MatcherSide :=
  latchEmitterErr { u with e := emitRequest (emitRequest u.e (.emitStoredHeader 0#16 false)) .emitFlush }

/-- M_SYNC_FLUSH's pseudocode (R168). -/
def syncFlushBody (u : MatcherSide) : Verdict MatcherSide :=
  withStep (beginSync u) fun u1 =>
    let u2 := endSync (match u1.m.err with | .noError => syncMarkers u1 | _ => u1)
    match u2.m.err with
    | .noError => .reply u2 .ok 0 []
    | _ => errResponse u2

/-- M_SYNC_FLUSH (R168). -/
def execMSyncFlush (s : State) : Host.Outcome State Fault Refusal :=
  matcherCommand true (shortCircuit syncFlushBody) s

/-- One request of M_CLOSE: an Emitter error is latched and ends the command (R169). -/
def closeRequest (r : LogEntry) (u : MatcherSide) (k : MatcherSide → Verdict MatcherSide) : Verdict MatcherSide :=
  let u1 := latchEmitterErr { u with e := emitRequest u.e r }
  match u1.e.err with
  | some _ => errResponse u1
  | none => k u1

/-- M_CLOSE's pseudocode (R169). -/
def closeBody (u : MatcherSide) : Verdict MatcherSide :=
  match u.m.err with
  | .closed => .reply u .ok 0 []
  | .io _ => errResponse u
  | .noError =>
    withStep (beginSync u) fun u1 =>
      match u1.m.err with
      | .noError =>
        closeRequest (.emitStoredHeader 0#16 true) u1 fun u2 =>
          closeRequest .emitFlush u2 fun u3 => .reply (markClosed u3) .ok 0 []
      | _ => errResponse u1

/-- M_CLOSE (R169). -/
def execMClose (s : State) : Host.Outcome State Fault Refusal := matcherCommand true closeBody s

end Sys2Proof.Machine
end

