-- ==== Sys2Proof/Machine/DictDecoder.lean ====
section
/-! DEFINITION. The DictDecoder commands (47_dictdecoder.md R173 to R199), one meaning per row of R78. -/

namespace Sys2Proof.Machine

/-! ### Common behaviour (R175, 60_exceptions.md R204) -/

/-- How R175 treats a command: whether it closes the write view and whether staged bytes block it. -/
structure Preamble where
  closesView : Bool
  blockedByStash : Bool
  deriving DecidableEq, Repr

/-- The writes and drains: they close the view and wait for the stash to be read. -/
def writing : Preamble := ⟨true, true⟩

/-- DD_SLICE_PUT: it waits for the stash and leaves the view open. -/
def puttingSlice : Preamble := ⟨false, true⟩

/-- The queries and DD_STASH_READ: they close the view and run while bytes are staged. -/
def querying : Preamble := ⟨true, false⟩

/-- The checks of a DictDecoder command after its fields: the fault latch, the configured check, the stash; the
body sees the view closed where the command closes it. A fault leaves the registers as they were before the command
(R203), so the body is handed the unit before the view was closed as well. -/
def decoderCommand (p : Preamble) (body : Decoder → Decoder → Verdict Decoder) (s : State) :
    Host.Outcome State Fault Refusal :=
  match s.d.faulted with
  | some f => .next (respond s (.fault f) 0 [])
  | none =>
    if s.d.configured then
      if p.blockedByStash && decide (0 < s.d.stashLen) then .next (raiseFault .decoder .ddStashPending s)
      else finishDecoder s (body s.d (if p.closesView then closeView s.d else s.d))
    else .next (raiseFault .decoder .notConfigured s)

/-! ### Initialisation -/

/-- The DictDecoder after DD_INIT with a good size (R173): the kept dictionary at 0, every other byte of HIST
unspecified (R174). -/
def initDecoder (d : Decoder) (size : Nat) (dict : List Byte) : Decoder :=
  let kept := tail size dict
  { d with
    configured := true
    size := size
    hist := Memory.putRun [] 0 kept
    epoch := d.epoch + 1
    wrPos := if kept.length = size then 0 else kept.length
    rdPos := if kept.length = size then 0 else kept.length
    full := decide (kept.length = size)
    viewLen := 0
    stashPos := 0
    stashLen := 0 }

/-- `size == 0 or size > DD_SIZE_MAX` is the bad size; a size up to 32768 is below every DD_SIZE_MAX (R173, R9). -/
def sizeAllowed (size : Nat) : Bool :=
  decide (0 < size) && (decide (size ≤ 32768) || decide (size ≤ Config.ddSizeMax))

/-- DD_INIT (R173, R205). It needs no configured unit and runs while bytes are staged (R175). The write view closes before the size is
checked (R175 (a), R204, R231), so a bad size leaves every register as it was but D.view_len.
DEDUCED: R173's "leaves every register unchanged" speaks of the pseudocode after that close (log 18; unsafe). -/
def execDdInit (size : Word32) (dict : List Byte) (s : State) : Host.Outcome State Fault Refusal :=
  match s.d.faulted with
  | some f => .next (respond s (.fault f) 0 [])
  | none =>
    if sizeAllowed size.toNat then
      finishDecoder s (.reply (initDecoder s.d size.toNat dict) .ok 0 [])
    else
      finishDecoder s (.reply (closeView s.d) .ddBadSize 0 [])

/-! ### Literal writes -/

/-- A store into HIST at an address it has; a stop otherwise (log 12). -/
def storeHist (d : Decoder) (a : Nat) (c : Byte) (k : Decoder → Verdict Decoder) : Verdict Decoder :=
  if a < d.size then k (putHist d a c) else .stop (.noSuchAddress .hist a)

/-- DD_WRITE_BYTE's pseudocode (R176). -/
def writeByteBody (c : Byte) (d0 d : Decoder) : Verdict Decoder :=
  if d.wrPos = d.size then .raise d0 .ddNoSpace
  else storeHist d d.wrPos c fun d1 => .reply { d1 with wrPos := d1.wrPos + 1 } .ok 0 []

/-- DD_WRITE_BYTE (R176). -/
def execDdWriteByte (c : Byte) (s : State) : Host.Outcome State Fault Refusal :=
  decoderCommand writing (writeByteBody c) s

/-- DD_WRITE_SLICE's pseudocode (R178). -/
def writeSliceBody (maxLen : Nat) (_ d : Decoder) : Verdict Decoder :=
  .reply { d with viewLen := min maxLen (availWrite d) } .ok (min maxLen (availWrite d)) []

/-- DD_WRITE_SLICE (R178). -/
def execDdWriteSlice (maxLen : Word32) (s : State) : Host.Outcome State Fault Refusal :=
  decoderCommand writing (writeSliceBody maxLen.toNat) s

/-- DD_SLICE_PUT's pseudocode (R179): the byte enters HIST at once.
DESIGN CHOICE: R179's prose says the copy sources ignore a byte until DD_WRITE_MARK; with D.full set the byte put takes the place of
one of the previous pass, and a later copy from there reads the byte put, as the pseudocode of R179 and R182 has it (log 29; unsafe). -/
def slicePutBody (k : Nat) (c : Byte) (d0 d : Decoder) : Verdict Decoder :=
  if d.viewLen ≤ k then .raise d0 .ddSliceOob
  else storeHist d (d.wrPos + k) c fun d1 => .reply d1 .ok 0 []

/-- DD_SLICE_PUT (R179). -/
def execDdSlicePut (k : Word32) (c : Byte) (s : State) : Host.Outcome State Fault Refusal :=
  decoderCommand puttingSlice (slicePutBody k.toNat c) s

/-- DD_WRITE_MARK's pseudocode (R180). -/
def writeMarkBody (n : Nat) (d0 d : Decoder) : Verdict Decoder :=
  if d.size < d.wrPos + n then .raise d0 .ddMarkOver
  else .reply { d with wrPos := d.wrPos + n } .ok 0 []

/-- DD_WRITE_MARK (R180). -/
def execDdWriteMark (n : Word32) (s : State) : Host.Outcome State Fault Refusal :=
  decoderCommand writing (writeMarkBody n.toNat) s

/-! ### Copy engine -/

/-- `n` bytes of the copy loop: each byte `dist` places back in the circle of HIST, one at a time, reading what the
call has already written (R182). -/
def copyBytes (dist : Nat) : Nat → Decoder → Decoder
  | 0, d => d
  | n + 1, d =>
    copyBytes dist n
      { putHist d d.wrPos (histByte d (((d.wrPos : Int) - dist) % d.size).toNat) with wrPos := d.wrPos + 1 }

/-- How many bytes a copy makes: `end − D.wr_pos` with `end = min(D.wr_pos + len, D.size)` (R182). -/
def copyCount (d : Decoder) (len : Nat) : Nat := min (d.wrPos + len) d.size - d.wrPos

/-- DD_WRITE_COPY's pseudocode (R182, R184). -/
def writeCopyBody (dist len : Nat) (d0 d : Decoder) : Verdict Decoder :=
  if dist = 0 ∨ histSize d < dist then .raise d0 .ddBadDist
  else .reply (copyBytes dist (copyCount d len) d) .ok (copyCount d len) []

/-- DD_WRITE_COPY (R182). -/
def execDdWriteCopy (dist : Word32) (len : BitVec 24) (s : State) : Host.Outcome State Fault Refusal :=
  decoderCommand writing (writeCopyBody dist.toNat len.toNat) s

/-- The copy of DD_TRY_WRITE_COPY, where the source does not wrap: bytes `k, k + 1, …`, `n` of them (R185). -/
def copyForward (dist : Nat) : Nat → Nat → Decoder → Decoder
  | 0, _, d => d
  | n + 1, k, d => copyForward dist n (k + 1) (putHist d (d.wrPos + k) (histByte d (d.wrPos + k - dist)))

/-- DD_TRY_WRITE_COPY's pseudocode (R185). -/
def tryWriteCopyBody (dist len : Nat) (d0 d : Decoder) : Verdict Decoder :=
  if dist = 0 then .raise d0 .ddBadDist
  else if d.wrPos < dist ∨ d.size < d.wrPos + len then .reply d .ok 0 []
  else
    let d1 := copyForward dist len 0 d
    .reply { d1 with wrPos := d1.wrPos + len } .ok len []

/-- DD_TRY_WRITE_COPY (R185). -/
def execDdTryWriteCopy (dist : Word32) (len : BitVec 24) (s : State) : Host.Outcome State Fault Refusal :=
  decoderCommand writing (tryWriteCopyBody dist.toNat len.toNat) s

/-! ### Drain -/

/-- A read of `n` bytes of HIST that it has; a stop otherwise (log 12). -/
def loadHist (d : Decoder) (a n : Nat) (k : List Byte → Verdict Decoder) : Verdict Decoder :=
  if a + n ≤ d.size then k (histRun d a n) else .stop (.noSuchAddress .hist ((a + n : Nat) - 1))

/-- DD_READ_FLUSH's pseudocode (R187). -/
def readFlushBody (_ d : Decoder) : Verdict Decoder :=
  loadHist d d.rdPos (availRead d) fun data => .reply (drainAdvance d) .ok (availRead d) data

/-- DD_READ_FLUSH (R187). -/
def execDdReadFlush (s : State) : Host.Outcome State Fault Refusal := decoderCommand writing readFlushBody s

/-- DD_STASH_FLUSH's pseudocode (R189). -/
def stashFlushBody (_ d : Decoder) : Verdict Decoder :=
  .reply (drainAdvance { d with stashPos := d.rdPos, stashLen := availRead d }) .ok (availRead d) []

/-- DD_STASH_FLUSH (R189). -/
def execDdStashFlush (s : State) : Host.Outcome State Fault Refusal := decoderCommand writing stashFlushBody s

/-- DD_STASH_LEN (R191). -/
def execDdStashLen (s : State) : Host.Outcome State Fault Refusal :=
  decoderCommand querying (fun _ d => .reply d .ok d.stashLen []) s

/-- DD_STASH_READ's pseudocode (R192). -/
def stashReadBody (max : Nat) (_ d : Decoder) : Verdict Decoder :=
  let k := min max d.stashLen
  loadHist d d.stashPos k fun data =>
    .reply { d with stashPos := d.stashPos + k, stashLen := d.stashLen - k } .ok k data

/-- DD_STASH_READ (R192). -/
def execDdStashRead (max : Word32) (s : State) : Host.Outcome State Fault Refusal :=
  decoderCommand querying (stashReadBody max.toNat) s

/-! ### Queries -/

/-- DD_HIST_SIZE (R194). -/
def execDdHistSize (s : State) : Host.Outcome State Fault Refusal :=
  decoderCommand querying (fun _ d => .reply d .ok (histSize d) []) s

/-- DD_AVAIL_READ (R195). -/
def execDdAvailRead (s : State) : Host.Outcome State Fault Refusal :=
  decoderCommand querying (fun _ d => .reply d .ok (availRead d) []) s

/-- DD_AVAIL_WRITE (R196). -/
def execDdAvailWrite (s : State) : Host.Outcome State Fault Refusal :=
  decoderCommand querying (fun _ d => .reply d .ok (availWrite d) []) s

end Sys2Proof.Machine
end

