-- ==== Sys2Proof/Machine/Dispatch.lean ====
section
/-! DEFINITION. One arm per row of opcode_table.json (30_encoding.md R77, R78, R84). -/

namespace Sys2Proof.Machine

def exec (i : Instr) (s : State) : Host.Outcome State Fault Refusal :=
  match i with
  | .mConfig level => Sys2Proof.Machine.execMConfig level s
  | .mReset dict => Sys2Proof.Machine.execMReset dict s
  | .mFillWindow dict => Sys2Proof.Machine.execMFillWindow dict s
  | .mWrite data => Sys2Proof.Machine.execMWrite data s
  | .mSyncFlush => Sys2Proof.Machine.execMSyncFlush s
  | .mClose => Sys2Proof.Machine.execMClose s
  | .ddInit size dict => Sys2Proof.Machine.execDdInit size dict s
  | .ddWriteByte c => Sys2Proof.Machine.execDdWriteByte c s
  | .ddWriteSlice maxLen => Sys2Proof.Machine.execDdWriteSlice maxLen s
  | .ddSlicePut k c => Sys2Proof.Machine.execDdSlicePut k c s
  | .ddWriteMark n => Sys2Proof.Machine.execDdWriteMark n s
  | .ddWriteCopy dist len => Sys2Proof.Machine.execDdWriteCopy dist len s
  | .ddTryWriteCopy dist len => Sys2Proof.Machine.execDdTryWriteCopy dist len s
  | .ddReadFlush => Sys2Proof.Machine.execDdReadFlush s
  | .ddStashFlush => Sys2Proof.Machine.execDdStashFlush s
  | .ddStashLen => Sys2Proof.Machine.execDdStashLen s
  | .ddStashRead max => Sys2Proof.Machine.execDdStashRead max s
  | .ddHistSize => Sys2Proof.Machine.execDdHistSize s
  | .ddAvailRead => Sys2Proof.Machine.execDdAvailRead s
  | .ddAvailWrite => Sys2Proof.Machine.execDdAvailWrite s
  | .tokenLit b => Sys2Proof.Machine.execTokenLit b s
  | .tokenMatch xlength xoffset => Sys2Proof.Machine.execTokenMatch xlength xoffset s

end Sys2Proof.Machine
end

