-- ==== Sys2Proof/Machine/Fetch.lean ====
section
/-! DEFINITION. Taking the Host's next input and running what it decodes to (20_memory.md R67, 60_exceptions.md
R201, R204). -/

namespace Sys2Proof.Machine

/-- What a packet that is no instruction does: a malformed command word raises its fault in its unit, or in both
(R201, R82), after the unit's latch (R204); a word that is no token is refused (R85, R104; log 10). -/
def runMalformed (s : State) : DecodeError → Host.Outcome State Fault Refusal
  | .badOpcode (some u) => .next (raiseMalformed u .badOpcode s)
  | .badOpcode none => .next (raiseNoUnit s)
  | .badField u => .next (raiseMalformed u .badField s)
  | .reservedToken => .refused .reservedToken
  | .notAToken => .refused .notAToken
  | .truncated => .next (raiseNoUnit s)

/-- Run one packet. -/
def runPacket (p : Packet) (s : State) : Host.Outcome State Fault Refusal :=
  match decode p with
  | .ok i => exec i s
  | .error e => runMalformed s e

/-- Run one input of the Host. -/
def runInput (x : HostInput) (s : State) : Host.Outcome State Fault Refusal :=
  match x with
  | .powerOn => .next (powerOn s)
  | .send p => runPacket p s

/-- Place an input so that it is the next one taken. -/
def placeInput (x : HostInput) (s : State) : State := { s with inputs := x :: s.inputs }

end Sys2Proof.Machine
end

