-- ==== Sys2Proof/Machine/Step.lean ====
section
/-! DEFINITION. One step of the machine: the Host's next input, run to completion (00_scope.md R5, 20_memory.md
R67). -/

namespace Sys2Proof.Machine

/-- One step. With the refusal mark set no further step is taken (R14). With nothing sent the block waits. -/
def step (s : State) : Host.Outcome State Fault Refusal :=
  if s.refused then .refused .refusedMode
  else
    match s.inputs with
    | [] => .next s
    | x :: rest => runInput x { s with inputs := rest }

/-- The state whose next step runs the instruction with this word of opcode_table.json: the Host has sent its packet
(payload bytes all zero), and it is the next one taken (log 1). -/
def State.withFetchWord (s : State) (nbits w : Nat) : State := placeInput (.send (tablePacket nbits w)) s

end Sys2Proof.Machine
end

