-- ==== Sys2Proof/Safety.lean ====
section
/-! DEFINITION. What a good state and a good run are, in the terms the statements use: the invariants of
10_state.md R20 to R27 and 45_lazy_loop.md R153, and the coverage of the input by tokens (20_memory.md R62,
45_lazy_loop.md R156). -/

namespace Sys2Proof.Machine

/-! ### Invariants of the Matcher -/

/-- What holds of the Matcher's registers and memories between commands, whatever M.err is (R20, R21, R23). -/
structure Matcher.Shape (m : Matcher) : Prop where
  winWf : Memory.bytesWf m.win Config.windowBytes
  headWf : Memory.wordsWf m.head Config.hashSize
  prevWf : Memory.wordsWf m.prev Config.windowSize
  /-- I-M1 (R21). -/
  index_le : m.index ≤ m.windowEnd
  windowEnd_le : m.windowEnd ≤ Config.windowBytes
  /-- The token cap (R153). -/
  tokq_le : m.tokq.length ≤ Config.maxFlateBlockTokens
  /-- M.hash_offset is 1 + 32768·k with k ≤ 511 (R20). -/
  hashOffset_range : ∃ k ≤ 511, m.hashOffset = 1 + 32768 * k
  length_ge : Config.searchStartLength ≤ m.length
  length_le : m.length ≤ Config.maxMatchLength
  offset_le : m.offset ≤ Config.maxMatchOffset
  maxInsert_ge : -3 ≤ m.maxInsertIndex
  maxInsert_le : m.maxInsertIndex ≤ 65533
  /-- The configuration registers are one row of the level table (R34). -/
  params_row : m.configured = true → ∃ l, 2 ≤ l ∧ l ≤ 9 ∧ m.params = levelRow l

/-- The bytes held back as the pending literal: one or none (R22). -/
def pendingCount (m : Matcher) : Nat := if m.byteAvailable then 1 else 0

/-- M.block_start is the start of the bytes the queued tokens stand for, which end before the pending literal; or it
means none, because those bytes were shifted out (R22, R134). A token stands for at most 258 bytes, so it never comes down
to a position again. -/
def Matcher.BlockStart (m : Matcher) : Prop :=
  (m.blockStart + pendingCount m ≤ m.index ∧
    m.index ≤ m.blockStart + pendingCount m + Config.maxMatchLength * m.tokq.length) ∨
  Config.blockStartNone + m.index ≤ m.blockStart + pendingCount m + Config.maxMatchLength * m.tokq.length

/-- A token word the Matcher produces (R85): a literal, or a match of length 4 to 258 at distance 1 to 32768. -/
def Produced (t : Token) : Prop :=
  (∃ b, t = makeLiteral b) ∨
    ∃ length distance, 4 ≤ length ∧ length ≤ 258 ∧ 1 ≤ distance ∧ distance ≤ 32768 ∧ t = makeMatch length distance

/-- A request the Matcher may send (R70, R85, R153): a block of 1 to 16384 tokens it produces, never marked final; a stored
header of length 0. -/
def GoodRequest : LogEntry → Prop
  | .emitBlock tokens isFinal _ =>
    isFinal = false ∧ 1 ≤ tokens.length ∧ tokens.length ≤ 16384 ∧ ∀ t ∈ tokens, Produced t
  | .emitStoredHeader length _ => length = 0#16
  | .emitFlush => True
  | .sinkRebound => True

/-- What holds besides while the stream has no error: only then does a later command read these (R158). -/
structure Matcher.Live (m : Matcher) : Prop where
  tokq_lt : m.tokq.length < Config.maxFlateBlockTokens
  /-- Every stored absolute value is that of a position before M.index (R128). -/
  head_lt : ∀ c ∈ m.head, c.2.toNat < m.index + m.hashOffset
  prev_lt : ∀ c ∈ m.prev, c.2.toNat < m.index + m.hashOffset
  chainHead_lt : m.chainHead < (m.index : Int) + m.hashOffset
  /-- A carried match of a lazy level starts at M.index − 1 and ends inside the valid bytes (R24). -/
  carried : isFast m = false → Config.minMatchLength ≤ m.length →
    1 ≤ m.offset ∧ m.index + m.length ≤ m.windowEnd + 1
  /-- The pending literal is WIN[M.index − 1] (R22). -/
  pending : m.byteAvailable = true → 1 ≤ m.index
  /-- Tokens are queued only for bytes before M.index, so a flush at M.index never drops one (R145, R152). -/
  queued : m.tokq ≠ [] → 1 ≤ m.index
  /-- A fast-skip level never holds a literal back (R22, R151). -/
  fastHeld : isFast m = true → m.byteAvailable = false
  block : m.BlockStart
  tokens : ∀ t ∈ m.tokq, Produced t

/-- The Matcher's invariant between commands. M.sync is set only inside a command while there is no error (R32). -/
structure Matcher.Inv (m : Matcher) : Prop where
  shape : m.Shape
  live : m.err = .noError → m.Live
  notSync : m.err = .noError → m.sync = false

/-! ### Invariants of the DictDecoder -/

/-- I-D1 and I-D2 (R26, R27), the ranges of R25, and HIST in canonical form. -/
structure Decoder.Inv (d : Decoder) : Prop where
  histWf : Memory.bytesWf d.hist d.size
  rd_le : d.rdPos ≤ d.wrPos
  wr_le : d.wrPos ≤ d.size
  view_le : d.wrPos + d.viewLen ≤ d.size
  stash_le : d.stashPos + d.stashLen ≤ d.size
  size_range : d.configured = true → 1 ≤ d.size ∧ d.size ≤ Config.ddSizeMax

/-- The invariant of the whole state: both units, and M.err holds the Emitter's error exactly when there is one
(R206, R29). -/
structure State.Inv (s : State) : Prop where
  m : s.m.Inv
  d : s.d.Inv
  sticky : ∀ c, s.e.err = some c ↔ s.m.err = .io c

/-! ### Coverage of the input by tokens (R62, R156) -/

/-- The tokens of every EMIT_BLOCK since the last M_CONFIG or M_RESET, in order: M_CONFIG starts a new log and M_RESET
appends SINK_REBOUND (R30). -/
def sentTokens (log : List LogEntry) : List Token :=
  log.foldl (fun acc r => match r with
    | .emitBlock tokens _ _ => acc ++ tokens
    | .sinkRebound => []
    | _ => acc) []

/-- The requests since the last M_CONFIG or M_RESET (R30). -/
def sinceRebound (log : List LogEntry) : List LogEntry :=
  log.foldl (fun acc r => match r with
    | .sinkRebound => []
    | r => acc ++ [r]) []

/-- The window slice a block carries is exactly the bytes its tokens stand for, after `dict` and the tokens sent before
(R152). -/
def SlicesAgree (dict : List Byte) (log : List LogEntry) : Prop :=
  ∀ before tokens isFinal window after, log = before ++ .emitBlock tokens isFinal (some window) :: after →
    ∀ free, expandTokens free dict (sentTokens before ++ tokens) = expandTokens free dict (sentTokens before) ++ window

/-- How many bytes of a stream of this length lie before the window's first byte: the window holds its end. -/
def windowBase (stream : List Byte) (m : Matcher) : Nat := stream.length - m.windowEnd

/-- `stream` is the kept dictionary followed by the bytes written since the last M_CONFIG or M_RESET, and the tokens sent
and queued expand, after the dictionary, to exactly the stream up to M.index, less the pending literal (R62, R156).
`carried` says that a match carried over by a lazy level repeats bytes of the stream (R24, R139). -/
structure Covers (dict stream : List Byte) (u : MatcherSide) : Prop where
  windowEnd_le : u.m.windowEnd ≤ stream.length
  window : winRun u.m 0 u.m.windowEnd = stream.drop (windowBase stream u.m)
  tokens : ∀ free, expandTokens free dict (sentTokens u.e.log ++ u.m.tokq) =
    stream.take (windowBase stream u.m + u.m.index - pendingCount u.m)
  /-- The dictionary is never tokenized: the tokens start after it. -/
  dict_le : dict.length ≤ windowBase stream u.m + u.m.index - pendingCount u.m
  /-- The bytes from M.block_start on are those of the queued tokens (R22, R134). -/
  block : u.m.blockStart ≤ u.m.index → ∀ free, expandTokens free dict (sentTokens u.e.log) =
    stream.take (windowBase stream u.m + u.m.blockStart)
  slices : SlicesAgree dict (sinceRebound u.e.log)
  carried : isFast u.m = false → Config.minMatchLength ≤ u.m.length →
    u.m.byteAvailable = true ∧ u.m.offset ≤ windowBase stream u.m + u.m.index - 1 ∧
      ∀ k < u.m.length, stream[windowBase stream u.m + u.m.index - 1 + k]? =
        stream[windowBase stream u.m + u.m.index - 1 + k - u.m.offset]?

/-! ### The effect of a command, in the terms of the statements -/

/-- One more response, with this status, value and data (R80). -/
def Answered (s t : State) (status : Status) (value : Nat) (data : List Byte) : Prop :=
  t.responses = s.responses ++ [⟨status, BitVec.ofNat 32 value, data⟩]

/-- Nothing outside the Matcher, its emitter port and the responses differs. -/
structure MatcherOnly (s s' : State) : Prop where
  decoder : s'.d = s.d
  reader : s'.t = s.t
  inputs : s'.inputs = s.inputs
  refused : s'.refused = s.refused

/-- Nothing outside the DictDecoder and the responses differs. -/
structure DecoderOnly (s s' : State) : Prop where
  matcher : s'.m = s.m
  emitter : s'.e = s.e
  reader : s'.t = s.t
  inputs : s'.inputs = s.inputs
  refused : s'.refused = s.refused

/-- The Matcher accepts commands: configured, not faulted. -/
structure MatcherReady (s : State) : Prop where
  configured : s.m.configured = true
  faulted : s.m.faulted = none

/-- The DictDecoder accepts commands: configured, not faulted. -/
structure DecoderReady (s : State) : Prop where
  configured : s.d.configured = true
  faulted : s.d.faulted = none

/-- The state after `raise Fault(f)` in a unit, from the state before the command: the latch and the response, and nothing
else (R13, R203). -/
def afterFault (u : UnitName) (f : FaultCode) (s : State) : State :=
  match u with
  | .matcher => { s with m := { s.m with faulted := some f }, responses := s.responses ++ [⟨.fault f, 0#32, []⟩] }
  | .decoder => { s with d := { s.d with faulted := some f }, responses := s.responses ++ [⟨.fault f, 0#32, []⟩] }

/-- The unit an instruction is a command of; none for a token word (R77, R78). -/
def unitOfInstr : Instr → Option UnitName
  | .mConfig _ => some .matcher
  | .mReset _ => some .matcher
  | .mFillWindow _ => some .matcher
  | .mWrite _ => some .matcher
  | .mSyncFlush => some .matcher
  | .mClose => some .matcher
  | .ddInit _ _ => some .decoder
  | .ddWriteByte _ => some .decoder
  | .ddWriteSlice _ => some .decoder
  | .ddSlicePut _ _ => some .decoder
  | .ddWriteMark _ => some .decoder
  | .ddWriteCopy _ _ => some .decoder
  | .ddTryWriteCopy _ _ => some .decoder
  | .ddReadFlush => some .decoder
  | .ddStashFlush => some .decoder
  | .ddStashLen => some .decoder
  | .ddStashRead _ => some .decoder
  | .ddHistSize => some .decoder
  | .ddAvailRead => some .decoder
  | .ddAvailWrite => some .decoder
  | .tokenLit _ => none
  | .tokenMatch _ _ => none

/-- The instruction constructs its unit: M_CONFIG, DD_INIT. -/
def constructs : Instr → Bool
  | .mConfig _ => true
  | .ddInit _ _ => true
  | _ => false

/-- The DictDecoder commands that staged bytes block (R175 (b)). -/
def blockedByStash : Instr → Bool
  | .ddWriteByte _ => true
  | .ddWriteSlice _ => true
  | .ddSlicePut _ _ => true
  | .ddWriteMark _ => true
  | .ddWriteCopy _ _ => true
  | .ddTryWriteCopy _ _ => true
  | .ddReadFlush => true
  | .ddStashFlush => true
  | _ => false

/-- The Matcher commands that a stream error short-circuits (R159). -/
def shortCircuited : Instr → Bool
  | .mFillWindow _ => true
  | .mWrite _ => true
  | .mSyncFlush => true
  | _ => false

/-- Run a list of instructions, stopping at the first stop. -/
def execAll : List Instr → State → Host.Outcome State Fault Refusal
  | [], s => .next s
  | i :: is, s =>
    match exec i s with
    | .next s' => execAll is s'
    | .fault f => .fault f
    | .refused r => .refused r

/-- What each fault means: the instruction and the state that raise it (R202). A malformed word is no instruction, and
F_INTERNAL never fires (R144). -/
def FaultCause (i : Instr) (s : State) : FaultCode → Prop
  | .badOpcode => False
  | .badField => False
  | .notConfigured => constructs i = false ∧
      ((unitOfInstr i = some .matcher ∧ s.m.configured = false) ∨ (unitOfInstr i = some .decoder ∧ s.d.configured = false))
  | .fillStale => ∃ dict, i = .mFillWindow dict ∧ (s.m.index ≠ 0 ∨ s.m.windowEnd ≠ 0)
  | .internal => False
  | .ddNoSpace => ∃ c, i = .ddWriteByte c ∧ s.d.wrPos = s.d.size
  | .ddBadDist => (∃ dist len, i = .ddWriteCopy dist len ∧ (dist.toNat = 0 ∨ histSize s.d < dist.toNat)) ∨
      ∃ dist len, i = .ddTryWriteCopy dist len ∧ dist.toNat = 0
  | .ddMarkOver => ∃ n, i = .ddWriteMark n ∧ s.d.size - s.d.wrPos < n.toNat
  | .ddSliceOob => ∃ k c, i = .ddSlicePut k c ∧ s.d.viewLen ≤ k.toNat
  | .ddStashPending => blockedByStash i = true ∧ 0 < s.d.stashLen

/-- The Emitter has no error and at least `n` answers ready, each of them NONE (R70; log 6). -/
def Calm (e : Emitter) (n : Nat) : Prop := e.err = none ∧ n ≤ e.answers.length ∧ ∀ a ∈ e.answers, a = none

/-- The entries are blocks, none of them final (R152). -/
def Blocks (log : List LogEntry) : Prop := ∀ r ∈ log, ∃ tokens window, r = .emitBlock tokens false window

/-- Two Matchers with the same registers, HEAD, PREV and TOKQ and the same valid bytes of WIN: they differ at most in the
bytes from M.window_end on, which no rule reads (R52, R171). -/
structure Matcher.Alike (m m' : Matcher) : Prop where
  registers : m' = { m with win := m'.win, winEpoch := m'.winEpoch }
  window : ∀ a < m.windowEnd, winByte m' a = winByte m a

/-! ### The candidates of a chain search (R122, R138) -/

/-- The positions a walk of at most `tries` candidates examines from candidate `i`, most recent first, if no match stops it
early: it ends at distance 32768, below that, and below 0 (R138). -/
def candidates (m : Matcher) (pos : Nat) : Nat → Nat → List Nat
  | 0, _ => []
  | tries + 1, i =>
    i :: (if (i : Int) = (pos : Int) - 32768 then []
      else if ((prevWord m i).toNat : Int) - m.hashOffset < (pos : Int) - 32768 ∨
          ((prevWord m i).toNat : Int) - m.hashOffset < 0 then []
      else candidates m pos tries (((prevWord m i).toNat : Int) - m.hashOffset).toNat)

/-- The candidate's match satisfies the tie-break: 5 bytes or more, or 4 bytes at a distance of at most 4096 (R140). -/
def Admissible (m : Matcher) (pos mml i : Nat) : Prop :=
  4 ≤ matchLen m i pos mml ∧ (5 ≤ matchLen m i pos mml ∨ pos - i ≤ 4096)

/-! ### The step, in the spec's own terms (R143 to R153) -/

/-- The search condition, of the Matcher after the hash update (R147). -/
def SearchRuns (m : Matcher) (lookahead prevLength : Nat) : Prop :=
  max ((m.index : Int) - 32768) 0 ≤ m.chainHead - m.hashOffset ∧
    ((m.params.fsh ≠ 2147483647 ∧ 3 < lookahead) ∨
      (m.params.fsh = 2147483647 ∧ prevLength < lookahead ∧ prevLength < m.params.lazy))

/-- What M.length and M.offset hold after the search: find_match's answer where it runs and reports one, else 3 and 0
(R147, R148). -/
def SearchFinds (m : Matcher) (lookahead prevLength length offset : Nat) : Prop :=
  (SearchRuns m lookahead prevLength → ∃ best,
    findMatch { m with length := 3, offset := 0 } m.index (m.chainHead - m.hashOffset).toNat 3 lookahead = .ok best ∧
      length = (if best.ok then best.length else 3) ∧ offset = (if best.ok then best.offset else 0)) ∧
  (¬ SearchRuns m lookahead prevLength → length = 3 ∧ offset = 0)

/-- insert(p) for p = first .. last − 1, each only below M.max_insert_index (R150, R124). -/
def insertSkipped (m : Matcher) (first last : Nat) : Matcher :=
  (List.range' first (last - first)).foldl
    (fun (m : Matcher) (p : Nat) => if (p : Int) < m.maxInsertIndex then insertHash m p else m) m

/-- The request of flush_block(x) (R152): the queued tokens, and the window from M.block_start up to `x` where that lies at or
before `x`, else none (R134). -/
def flushRequest (m : Matcher) (x : Nat) : LogEntry :=
  .emitBlock m.tokq false (if m.blockStart ≤ x then some (winRun m m.blockStart (x - m.blockStart)) else none)

/-- How an iteration ends after an append (R153, R158): below the cap the loop goes on with `m`; at the cap the block is flushed up
to `x`, and the loop goes on with an empty queue, or the step returns with the queue kept, from `m'`, the Matcher at the append
(log 30 for a literal). -/
def CapTest (e : Emitter) (x : Nat) (m m' : Matcher) (r : Turn) : Prop :=
  (m.tokq.length ≠ 16384 → r = .again ⟨m, e⟩) ∧
  (m.tokq.length = 16384 → (emitRequest e (flushRequest m x)).err = none →
    r = .again ⟨{ m with blockStart := x, tokq := [] }, emitRequest e (flushRequest m x)⟩) ∧
  (m.tokq.length = 16384 → ∀ c, (emitRequest e (flushRequest m x)).err = some c →
    r = .ended ⟨{ m' with blockStart := x, err := .io c }, emitRequest e (flushRequest m x)⟩)

/-- The loop of a step: iterations until one ends it (R143). -/
inductive Iterates : MatcherSide → MatcherSide → Prop where
  | ends {u u' : MatcherSide} (h : iterate u = .ended u') : Iterates u u'
  | goesOn {u u1 u' : MatcherSide} (h : iterate u = .again u1) (rest : Iterates u1 u') : Iterates u u'

/-- A step that returns: nothing where too little is pending and M.sync is false; else M.max_insert_index is set and the loop runs
(R143). -/
def Steps (u u' : MatcherSide) : Prop :=
  (u.m.windowEnd < u.m.index + 262 ∧ u.m.sync = false ∧ u' = u) ∨
    (¬ (u.m.windowEnd < u.m.index + 262 ∧ u.m.sync = false) ∧
      Iterates { u with m := { u.m with maxInsertIndex := (u.m.windowEnd : Int) - 3 } } u')

/-- The loop of M_WRITE: a step and a fill in turn until the bytes are used up, or M.err is set (R166). -/
inductive Writes : MatcherSide → List Byte → MatcherSide → Prop where
  | done (u : MatcherSide) : Writes u [] u
  | round {u u1 u' : MatcherSide} {bytes : List Byte} {m : Matcher} {k : Nat} (more : bytes ≠ []) (step : Steps u u1)
      (fills : fill u1.m bytes = .ok (m, k)) (live : m.err = .noError) (rest : Writes ⟨m, u1.e⟩ (bytes.drop k) u') : Writes u bytes u'
  | failed {u u1 : MatcherSide} {bytes : List Byte} {m : Matcher} {k : Nat} (more : bytes ≠ []) (step : Steps u u1)
      (fills : fill u1.m bytes = .ok (m, k)) (err : m.err ≠ .noError) : Writes u bytes ⟨m, u1.e⟩

/-- The bytes an instruction writes into the stream. -/
def written : Instr → List Byte
  | .mWrite data => data
  | _ => []

/-! ### The command tables as rows (R77, R78) -/

/-- What a field of a command holds. -/
inductive FieldUse where
  | operand
  | byteOperand
  | count
  | zero
  deriving DecidableEq, Repr

/-- The use of A and B by the command with this opcode; none for an illegal opcode (R82). -/
def commandRow : Nat → Option (FieldUse × FieldUse)
  | 0x10 => some (.operand, .zero)
  | 0x11 => some (.count, .zero)
  | 0x12 => some (.count, .zero)
  | 0x13 => some (.count, .zero)
  | 0x14 => some (.zero, .zero)
  | 0x15 => some (.zero, .zero)
  | 0x20 => some (.operand, .count)
  | 0x21 => some (.byteOperand, .zero)
  | 0x22 => some (.operand, .zero)
  | 0x23 => some (.operand, .byteOperand)
  | 0x24 => some (.operand, .zero)
  | 0x25 => some (.operand, .operand)
  | 0x26 => some (.operand, .operand)
  | 0x27 => some (.zero, .zero)
  | 0x28 => some (.zero, .zero)
  | 0x29 => some (.zero, .zero)
  | 0x2A => some (.operand, .zero)
  | 0x2B => some (.zero, .zero)
  | 0x2C => some (.zero, .zero)
  | 0x2D => some (.zero, .zero)
  | _ => none

/-- A field's value is legal for its use, its count being the payload's length (R76, R79). -/
def FieldUse.Legal (use : FieldUse) (value len : Nat) : Prop :=
  match use with
  | .operand => True
  | .byteOperand => value < 256
  | .count => value = len
  | .zero => value = 0

/-- A command word's fields and payload are legal for its row (R76, R79). -/
def FieldsLegal (row : FieldUse × FieldUse) (a b len : Nat) : Prop :=
  row.1.Legal a len ∧ row.2.Legal b len ∧ (row.1 = .count ∨ row.2 = .count ∨ len = 0)

/-! ### The DictDecoder's bytes in flight (R193) -/

/-- The bytes written and not yet handed to the Host: the staged ones, then those not yet drained (R190, R195). -/
def inFlight (d : Decoder) : List Byte := histRun d d.stashPos d.stashLen ++ histRun d d.rdPos (d.wrPos - d.rdPos)

/-- The valid history, oldest byte first: what a distance counts back from its end (R28, R183). -/
def historyBytes (d : Decoder) : List Byte :=
  (if d.full then histRun d d.wrPos (d.size - d.wrPos) else []) ++ histRun d 0 d.wrPos

end Sys2Proof.Machine
end

