-- ==== Sys2Proof/Certificates/Slice0/Obligations.lean ====
section
/-! DEFINITION. The statements for the provers, in the order of spec/: encodings, tokens, levels, hashing and window, search,
Matcher commands, DictDecoder commands, faults and check order, reset, and what holds of the whole machine. A docstring names the
rule formalised; where a clause rests on a choice of the model it names the log entry. -/

section

open Sys2Proof Sys2Proof.Machine

/-! ### Encodings (30_encoding.md) -/

/-- The worked encodings of R89: each command's word and payload, and what the decoder reads from them. -/
def Obligations.WorkedEncodings : Prop :=
  ∀ x ∈ [(Instr.mConfig 6#32, 0x0000000000000610#64, ([] : List Byte)),
      (.mConfig (BitVec.ofInt 32 (-1)), 0x000000FFFFFFFF10#64, []),
      (.mConfig (BitVec.ofInt 32 (-2)), 0x000000FFFFFFFE10#64, []),
      (.mWrite (List.replicate 20 0x61#8), 0x0000000000001413#64, List.replicate 20 0x61#8),
      (.mClose, 0x0000000000000015#64, []),
      (.mSyncFlush, 0x0000000000000014#64, []),
      (.ddInit 8#32 [0x61#8, 0x62#8, 0x63#8], 0x0000030000000820#64, [0x61#8, 0x62#8, 0x63#8]),
      (.ddWriteByte 0x78#8, 0x0000000000007821#64, []),
      (.ddWriteCopy 4#32 10#24, 0x00000A0000000425#64, []),
      (.ddReadFlush, 0x0000000000000027#64, []),
      (.ddSlicePut 2#32 0x41#8, 0x0000410000000223#64, [])],
    encode x.1 = .command x.2.1 x.2.2 ∧ decode (.command x.2.1 x.2.2) = .ok x.1

/-- Decoding an encoded well-formed instruction gives it back (R75 to R79, R84). -/
def Obligations.DecodeEncode : Prop :=
  ∀ i : Instr, wellFormed i = true → decode (encode i) = .ok i

/-- A packet that decodes is the encoding of what it decodes to, and of nothing else (R75 to R79, R84). -/
def Obligations.EncodeDecode : Prop :=
  ∀ (p : Packet) (i : Instr), decode p = .ok i → wellFormed i = true ∧ encode i = p

/-- Which packets are instructions: a command word of the tables R77 and R78 with legal fields and a payload of the counted
length (R76, R79); a token word of the layout of R84. -/
def Obligations.DecodablePackets : Prop :=
  (∀ (w : Word64) (payload : List Byte), (∃ i, decode (.command w payload) = .ok i) ↔
    ∃ row, commandRow (opField w).toNat = some row ∧
      FieldsLegal row (aField w).toNat (bField w).toNat payload.length) ∧
  (∀ t : Token, (∃ i, decode (.token t) = .ok i) ↔
    t.toNat < 256 ∨ (0x40000000 ≤ t.toNat ∧ t.toNat < 0x80000000 ∧ t.toNat % 4194304 < 32768))

/-- On a byte transport a word comes least significant byte first and the payload after it in stream order (R57); the hash
group has its first byte most significant (R56). -/
def Obligations.ByteOrder : Prop :=
  (∀ (w : Word64) (payload : List Byte), decodeBytes (wordBytes w ++ payload) = decode (.command w payload)) ∧
  (∀ (w : Word64) (k : Nat), k < 8 → ((wordBytes w)[k]?).map BitVec.toNat = some (w.toNat / 256 ^ k % 256)) ∧
  (∀ (m : Matcher) (p : Nat), (bigEndian (winRun m p 4)).toNat =
    (winByte m p).toNat * 16777216 + (winByte m (p + 1)).toNat * 65536 + (winByte m (p + 2)).toNat * 256 +
      (winByte m (p + 3)).toNat)

/-- A step runs the instruction the next packet decodes to, on the state without that packet (R67; the list of inputs is the
model's, log 1). The second clause says it of an encoded instruction, the third of a word of opcode_table.json. -/
def Obligations.StepRunsDecoded : Prop :=
  (∀ (s : State) (p : Packet) (rest : List HostInput) (i : Instr), s.refused = false → s.inputs = .send p :: rest →
    decode p = .ok i → step s = exec i { s with inputs := rest }) ∧
  (∀ (s : State) (i : Instr), s.refused = false → wellFormed i = true →
    step (placeInput (.send (encode i)) s) = exec i s) ∧
  (∀ (s : State) (nbits w : Nat) (i : Instr), s.refused = false → decodeTableWord nbits w = some i →
    step (s.withFetchWord nbits w) = exec i s)

/-- What a step does where it runs no instruction: it waits when nothing is sent (log 1), takes none once the refusal mark is
set (R14; log 7), and refuses a token word of a reserved type or outside the layout of R84 (R85, R104; log 10). -/
def Obligations.StepWithoutInstruction : Prop :=
  ∀ s : State,
    (s.refused = true → step s = .refused .refusedMode) ∧
    (s.refused = false → s.inputs = [] → step s = .next s) ∧
    (s.refused = false → ∀ t : Token, 0x80000000 ≤ t.toNat → step (placeInput (.send (.token t)) s) = .refused .reservedToken) ∧
    (s.refused = false → ∀ t : Token, t.toNat < 0x80000000 → (∀ i, decode (.token t) ≠ .ok i) →
      step (placeInput (.send (.token t)) s) = .refused .notAToken)

/-! ### Tokens (40_token.md) -/

/-- The round-trip laws of R105, with the words of R84, R100 and R101. -/
def Obligations.TokenRoundTrip : Prop :=
  (∀ b : Byte, isLiteral (makeLiteral b) = true ∧ isMatch (makeLiteral b) = false ∧ tokenLiteral (makeLiteral b) = b ∧
    (makeLiteral b).toNat = b.toNat) ∧
  (∀ length distance : Nat, 3 ≤ length → length ≤ 258 → 1 ≤ distance → distance ≤ 32768 →
    isMatch (makeMatch length distance) = true ∧ isLiteral (makeMatch length distance) = false ∧
    wireLength (makeMatch length distance) = length ∧ wireDistance (makeMatch length distance) = distance ∧
    (makeMatch length distance).toNat = 0x40000000 + (length - 3) * 4194304 + (distance - 1) ∧
    ∀ b : Byte, makeLiteral b ≠ makeMatch length distance)

/-- What a token stands for in the expansion of a stream (R106): a literal its byte; a match the bytes that begin its distance
back, read one at a time so that they may overlap the bytes made; and the DictDecoder's copy makes the same bytes of its
history, of which it keeps the last hist_size. -/
def Obligations.TokenMeaning : Prop :=
  (∀ (free : Nat → Byte) (stream : List Byte) (b : Byte), expandToken free stream (makeLiteral b) = stream ++ [b]) ∧
  (∀ (free : Nat → Byte) (stream : List Byte) (length distance : Nat), 3 ≤ length → length ≤ 258 → 1 ≤ distance →
    distance ≤ 32768 → distance ≤ stream.length →
    ∃ bytes, expandToken free stream (makeMatch length distance) = stream ++ bytes ∧ bytes.length = length ∧
      ∀ k < length, (stream ++ bytes)[stream.length + k]? = (stream ++ bytes)[stream.length + k - distance]?) ∧
  (∀ (free : Nat → Byte) (s : State) (dist : Word32) (len : BitVec 24), s.d.Inv → DecoderReady s → s.d.stashLen = 0 →
    3 ≤ len.toNat → len.toNat ≤ 258 → 1 ≤ dist.toNat → dist.toNat ≤ 32768 → dist.toNat ≤ histSize s.d →
    s.d.wrPos + len.toNat ≤ s.d.size →
    ∃ t, exec (.ddWriteCopy dist len) s = .next t ∧
      historyBytes t.d =
        tail (histSize t.d) (expandToken free (historyBytes s.d) (makeMatch len.toNat dist.toNat)))

/-- TOKEN.LIT and TOKEN.MATCH complete: the accessors answer the word's fields (R102, R103) and the stream grows by the bytes
the token stands for (R106). The port they come on is the model's (log 8); bytes before the stream's start are free (log 9). -/
def Obligations.TokenWordsRun : Prop :=
  (∀ (b : Byte) (s : State), exec (.tokenLit b) s = .next { s with t := { s.t with
      readout := some { word := b.setWidth 32, isLiteral := true, isMatch := false, literal := b, xlength := 0#8,
                        xoffset := b.setWidth 22, wireLength := 3, wireDistance := b.toNat + 1 },
      stream := s.t.stream ++ [b] } }) ∧
  (∀ (xlength : BitVec 8) (xoffset : BitVec 22) (s : State), xoffset.toNat < 32768 →
    ∃ bytes, exec (.tokenMatch xlength xoffset) s = .next { s with t := { s.t with
        readout := some { word := 0b01#2 ++ xlength ++ xoffset, isLiteral := false, isMatch := true,
                          literal := xoffset.setWidth 8, xlength := xlength, xoffset := xoffset,
                          wireLength := xlength.toNat + 3, wireDistance := xoffset.toNat + 1 },
        stream := s.t.stream ++ bytes } } ∧
      bytes.length = xlength.toNat + 3 ∧
      ∀ k < bytes.length, (s.t.stream ++ bytes)[s.t.stream.length + k]? =
        if xoffset.toNat + 1 ≤ s.t.stream.length + k then
          (s.t.stream ++ bytes)[s.t.stream.length + k - (xoffset.toNat + 1)]?
        else some (Config.freeStreamByte s.t.epoch (xoffset.toNat + 1 - (s.t.stream.length + k))))

/-! ### Levels (41_level_params.md) -/

/-- Level resolution (R110), of the operand read as a two's-complement number (R76). -/
def Obligations.LevelResolution : Prop :=
  (∀ a : Word32, levelOperand a = if a.toNat < 2147483648 then (a.toNat : Int) else (a.toNat : Int) - 4294967296) ∧
  (∀ v : Int,
    (v = -1 → resolveLevel v = .deflate 6) ∧
    (2 ≤ v → v ≤ 9 → resolveLevel v = .deflate v.toNat) ∧
    (v = -2 ∨ v = 0 ∨ v = 1 → resolveLevel v = .otherMode) ∧
    (v < -2 ∨ 9 < v → resolveLevel v = .invalid))

/-- M_CONFIG copies the row of its level into the configuration registers (R113, the table of R112). -/
def Obligations.LevelTable : Prop :=
  ∀ s : State, s.m.faulted = none →
    ∀ x ∈ [(2#32, LevelParams.mk 2 4 0 16 8 5), (3#32, ⟨3, 4, 0, 32, 32, 6⟩), (4#32, ⟨4, 4, 4, 16, 16, 2147483647⟩),
        (5#32, ⟨5, 8, 16, 32, 32, 2147483647⟩), (6#32, ⟨6, 8, 16, 128, 128, 2147483647⟩),
        (7#32, ⟨7, 8, 32, 128, 256, 2147483647⟩), (8#32, ⟨8, 32, 128, 258, 1024, 2147483647⟩),
        (9#32, ⟨9, 32, 258, 258, 4096, 2147483647⟩), (0xFFFFFFFF#32, ⟨6, 8, 16, 128, 128, 2147483647⟩)],
      ∃ t, exec (.mConfig x.1) s = .next t ∧ t.m.params = x.2

/-! ### Hashing (42_hash.md) -/

/-- The hash and its bucket (R117, R118), and what insert and update_head write (R119, R120). -/
def Obligations.HashInsertion : Prop :=
  ∀ (m : Matcher) (p : Nat),
    bucket m p = ((winByte m p).toNat * 16777216 + (winByte m (p + 1)).toNat * 65536 + (winByte m (p + 2)).toNat * 256 +
      (winByte m (p + 3)).toNat) * 0x1E35A7BD % 4294967296 / 32768 ∧
    insertHash m p = { m with head := (insertHash m p).head, prev := (insertHash m p).prev } ∧
    (∀ h, headWord (insertHash m p) h = if h = bucket m p then BitVec.ofNat 32 (p + m.hashOffset) else headWord m h) ∧
    (∀ q, prevWord (insertHash m p) q = if q % 32768 = p % 32768 then headWord m (bucket m p) else prevWord m q) ∧
    updateHead m p = { insertHash m p with chainHead := ((headWord m (bucket m p)).toNat : Int) }

/-- The batched hash carries the 4-byte group from one position to the next (R121, which the spec derives from R117). -/
def Obligations.BatchedHash : Prop :=
  ∀ (m : Matcher) (p : Nat),
    rollGroup (bigEndian (winRun m p 4)) (winByte m (p + 4)) = bigEndian (winRun m (p + 1) 4)

/-! ### The window (43_window.md) -/

/-- shift_window (R126) and the rebase it ends with (R127): every register, every byte of WIN, every word of HEAD and PREV. -/
def Obligations.WindowShift : Prop :=
  ∀ m : Matcher, Memory.wordsWf m.head Config.hashSize → Memory.wordsWf m.prev Config.windowSize →
    (∀ a, winByte (shiftWindow m) a = if a < 32768 then winByte m (a + 32768) else winByte m a) ∧
    (m.hashOffset + 32768 ≤ 16777216 → shiftWindow m = { m with
      win := (shiftWindow m).win
      index := m.index - 32768
      windowEnd := m.windowEnd - 32768
      blockStart := if 32768 ≤ m.blockStart then m.blockStart - 32768 else 2147483647
      hashOffset := m.hashOffset + 32768 }) ∧
    (16777216 < m.hashOffset + 32768 →
      shiftWindow m = { m with
        win := (shiftWindow m).win
        head := (shiftWindow m).head
        prev := (shiftWindow m).prev
        index := m.index - 32768
        windowEnd := m.windowEnd - 32768
        blockStart := if 32768 ≤ m.blockStart then m.blockStart - 32768 else 2147483647
        hashOffset := 1
        chainHead := m.chainHead - (m.hashOffset + 32767) } ∧
      (∀ h, (headWord (shiftWindow m) h).toNat = (headWord m h).toNat - (m.hashOffset + 32767)) ∧
      ∀ q, (prevWord (shiftWindow m) q).toNat = (prevWord m q).toNat - (m.hashOffset + 32767))

/-- fill (R125): it shifts where M.index has reached SHIFT_THRESHOLD, then copies as many bytes as there is room for. -/
def Obligations.FillCopies : Prop :=
  ∀ (m : Matcher) (b : List Byte), m.Shape →
    ∃ m' k, fill m b = .ok (m', k) ∧
      ∃ m1, m1 = (if 65274 ≤ m.index then shiftWindow m else m) ∧
        k = min b.length (65536 - m1.windowEnd) ∧
        m' = { m1 with win := m'.win, windowEnd := m1.windowEnd + k } ∧
        ∀ a, winByte m' a =
          if m1.windowEnd ≤ a ∧ a < m1.windowEnd + k then b.getD (a - m1.windowEnd) 0#8 else winByte m1 a

/-! ### The chain search (44_find_match.md) -/

/-- match_len (R135): the length of the common start, up to the bound. -/
def Obligations.MatchLength : Prop :=
  ∀ (m : Matcher) (i pos mx n : Nat), matchLen m i pos mx = n ↔
    n ≤ mx ∧ (∀ k < n, winByte m (i + k) = winByte m (pos + k)) ∧
      (n < mx → winByte m (i + n) ≠ winByte m (pos + n))

/-- What find_match reports (R139, which the spec derives from R137 and R138; R140 to R142): nothing where no candidate is
admissible; else the first candidate, most recent first, of the greatest length among the admissible ones examined, the search
ending early once `nice` is reached. -/
def Obligations.ChainSearch : Prop :=
  ∀ (m : Matcher) (pos prevHead lookahead : Nat), (∀ c ∈ m.prev, c.2.toNat < pos + m.hashOffset) → 1 ≤ m.hashOffset →
    pos + lookahead ≤ 65536 → 4 ≤ lookahead → prevHead < pos → pos ≤ prevHead + 32768 → 3 ≤ m.params.good →
    ∃ best, findMatch m pos prevHead 3 lookahead = .ok best ∧
      ((best.ok = false ∧ best.length = 3 ∧ best.offset = 0 ∧
        ∀ x ∈ candidates m pos m.params.chain prevHead, ¬ Admissible m pos (min 258 lookahead) x) ∨
       (best.ok = true ∧ 4 ≤ best.length ∧ best.length ≤ min 258 lookahead ∧ 1 ≤ best.offset ∧ best.offset ≤ 32768 ∧
        (∀ k < best.length, winByte m (pos - best.offset + k) = winByte m (pos + k)) ∧
        ∃ before c after, candidates m pos m.params.chain prevHead = before ++ c :: after ∧
          best.offset = pos - c ∧ best.length = matchLen m c pos (min 258 lookahead) ∧
          Admissible m pos (min 258 lookahead) c ∧
          (∀ x ∈ before, Admissible m pos (min 258 lookahead) x →
            matchLen m x pos (min 258 lookahead) < best.length) ∧
          (best.length < min m.params.nice (min 258 lookahead) →
            ∀ x ∈ after, Admissible m pos (min 258 lookahead) x →
              matchLen m x pos (min 258 lookahead) ≤ best.length)))

/-! ### The lazy loop (45_lazy_loop.md) -/

/-- One iteration with bytes pending (R146 to R151, R153): update_head(M.index) exactly where M.index is below
M.max_insert_index; the search where R147 says; a fast-skip level emits the match found there, or the byte, a lazy level the
carried match where the current one is not longer, else the pending byte, if one is held; a match no longer than M.fsh inserts the
positions it skips, those below M.max_insert_index; the queue is flushed at its cap; where that flush fails after a fast-skip level's
byte, M.index is still that byte's position (R151; the model's choice, log 30). Every register, HEAD and PREV are given. -/
def Obligations.EmissionChoice : Prop :=
  ∀ u : MatcherSide, u.m.Shape → u.m.Live → u.m.index < u.m.windowEnd → (u.m.sync = true ∨ u.m.index + 262 ≤ u.m.windowEnd) →
    ∃ m1 length offset, m1 = (if (u.m.index : Int) < u.m.maxInsertIndex then updateHead u.m u.m.index else u.m) ∧
      SearchFinds m1 (u.m.windowEnd - u.m.index) u.m.length length offset ∧
      (u.m.params.fsh ≠ 2147483647 → 4 ≤ length → ∃ m2 m3,
        m2 = (if length ≤ u.m.params.fsh then insertSkipped m1 (u.m.index + 1) (u.m.index + length) else m1) ∧
        m3 = { m1 with head := m2.head, prev := m2.prev, length := length, offset := offset, index := u.m.index + length,
                       tokq := u.m.tokq ++ [makeMatch length offset] } ∧
        CapTest u.e (u.m.index + length) m3 m3 (iterate u)) ∧
      (u.m.params.fsh ≠ 2147483647 → length < 4 → ∃ m2,
        m2 = { m1 with length := length, offset := offset, tokq := u.m.tokq ++ [makeLiteral (winByte u.m u.m.index)] } ∧
        CapTest u.e (u.m.index + 1) { m2 with index := u.m.index + 1 } m2 (iterate u)) ∧
      (u.m.params.fsh = 2147483647 → 4 ≤ u.m.length → length ≤ u.m.length → ∃ m2 m3,
        m2 = insertSkipped m1 (u.m.index + 1) (u.m.index + u.m.length - 1) ∧
        m3 = { m1 with head := m2.head, prev := m2.prev, length := 3, offset := offset, index := u.m.index + u.m.length - 1,
                       byteAvailable := false, tokq := u.m.tokq ++ [makeMatch u.m.length u.m.offset] } ∧
        CapTest u.e (u.m.index + u.m.length - 1) m3 m3 (iterate u)) ∧
      (u.m.params.fsh = 2147483647 → u.m.length < 4 ∨ u.m.length < length → u.m.byteAvailable = true → ∃ m2,
        m2 = { m1 with length := length, offset := offset, tokq := u.m.tokq ++ [makeLiteral (winByte u.m (u.m.index - 1))] } ∧
        CapTest u.e u.m.index { m2 with index := u.m.index + 1 } m2 (iterate u)) ∧
      (u.m.params.fsh = 2147483647 → u.m.length < 4 ∨ u.m.length < length → u.m.byteAvailable = false →
        iterate u = .again ⟨{ m1 with length := length, offset := offset, index := u.m.index + 1, byteAvailable := true }, u.e⟩)

/-! ### Matcher commands (46_matcher_commands.md) -/

/-- M_CONFIG (R160, R162): a level of this block constructs the Matcher anew, every register and memory as clear_matcher
leaves it, WIN kept, the emitter port with a new log; an invalid level changes nothing and answers E_INVALID_LEVEL; a level of
another mode is refused (R14, log 7). -/
def Obligations.ConfigConstructs : Prop :=
  (∀ (s : State) (a : Word32) (l : Nat), s.m.faulted = none → resolveLevel (levelOperand a) = .deflate l →
    exec (.mConfig a) s = .next { s with
      m := { configured := true, faulted := none, params := levelRow l, index := 0, windowEnd := 0, blockStart := 0,
             hashOffset := 1, chainHead := -1, length := 3, offset := 0, byteAvailable := false, maxInsertIndex := 0,
             sync := false, err := .noError, tokq := [], win := s.m.win, head := [], prev := [],
             winEpoch := s.m.winEpoch }
      e := { s.e with err := none, log := [] }
      responses := s.responses ++ [⟨.ok, 0#32, []⟩] }) ∧
  (∀ (s : State) (a : Word32), s.m.faulted = none → resolveLevel (levelOperand a) = .invalid →
    exec (.mConfig a) s = .next { s with responses := s.responses ++ [⟨.invalidLevel, 0#32, []⟩] }) ∧
  (∀ (s : State) (a : Word32), s.m.faulted = none → resolveLevel (levelOperand a) = .otherMode →
    exec (.mConfig a) s = .next { s with refused := true, responses := s.responses ++ [⟨.refusedMode, 0#32, []⟩] })

/-- A level of another mode: the whole-state refusal mark, the response R_REFUSED_MODE, and no further step (R14, R161). -/
def Obligations.RefusedModes : Prop :=
  ∀ (s : State) (a : Word32), s.m.faulted = none →
    levelOperand a = 0 ∨ levelOperand a = 1 ∨ levelOperand a = -2 →
    ∃ t, exec (.mConfig a) s = .next t ∧
      t = { s with refused := true, responses := s.responses ++ [⟨.refusedMode, 0#32, []⟩] } ∧
      step t = .refused .refusedMode

/-- M_RESET (R164): clear_matcher, a rebound sink, and then the dictionary, if there is one, as M_FILL_WINDOW primes it. -/
def Obligations.ResetClears : Prop :=
  ∀ s : State, MatcherReady s →
    exec (.mReset []) s = .next { s with
      m := { configured := true, faulted := none, params := s.m.params, index := 0, windowEnd := 0, blockStart := 0,
             hashOffset := 1, chainHead := -1, length := 3, offset := 0, byteAvailable := false, maxInsertIndex := 0,
             sync := false, err := .noError, tokq := [], win := s.m.win, head := [], prev := [],
             winEpoch := s.m.winEpoch }
      e := { s.e with err := none, log := s.e.log ++ [.sinkRebound] }
      responses := s.responses ++ [⟨.ok, 0#32, []⟩] } ∧
    ∀ dict : List Byte, dict ≠ [] →
      ∃ s1 t, exec (.mReset []) s = .next s1 ∧ exec (.mFillWindow dict) s1 = .next t ∧
        exec (.mReset dict) s = .next { t with responses := s1.responses }

/-- M_FILL_WINDOW (R165, R129): the kept tail of the dictionary at 0, one chain insertion for each position with a complete
group, in increasing order, the cursors after it, and nothing else; F_FILL_STALE where the window is not empty. -/
def Obligations.FillWindowPrimes : Prop :=
  (∀ (s : State) (dict : List Byte), MatcherReady s → s.m.err = .noError → s.m.index = 0 → s.m.windowEnd = 0 →
    ∃ t, exec (.mFillWindow dict) s = .next t ∧
      t = { s with
        m := { s.m with win := t.m.win, head := t.m.head, prev := t.m.prev, windowEnd := min 32768 dict.length,
                        index := min 32768 dict.length, blockStart := min 32768 dict.length }
        responses := s.responses ++ [⟨.ok, 0#32, []⟩] } ∧
      (∀ a, winByte t.m a =
        if a < min 32768 dict.length then dict.getD (dict.length - min 32768 dict.length + a) 0#8 else winByte s.m a) ∧
      (∀ h, (∀ q < min 32768 dict.length - 3, bucket t.m q ≠ h) → headWord t.m h = headWord s.m h) ∧
      (∀ p < min 32768 dict.length - 3,
        (∀ q < min 32768 dict.length - 3, p < q → bucket t.m q ≠ bucket t.m p) →
        headWord t.m (bucket t.m p) = BitVec.ofNat 32 (p + s.m.hashOffset)) ∧
      (∀ p < min 32768 dict.length - 3, (∀ q < p, bucket t.m q ≠ bucket t.m p) →
        prevWord t.m p = headWord s.m (bucket t.m p)) ∧
      (∀ p < min 32768 dict.length - 3, ∀ q < p, bucket t.m q = bucket t.m p →
        (∀ r < p, q < r → bucket t.m r ≠ bucket t.m p) →
        prevWord t.m p = BitVec.ofNat 32 (q + s.m.hashOffset)) ∧
      (∀ q, min 32768 dict.length - 3 ≤ q % 32768 → prevWord t.m q = prevWord s.m q)) ∧
  (∀ (s : State) (dict : List Byte), MatcherReady s → s.m.err = .noError → s.m.index ≠ 0 ∨ s.m.windowEnd ≠ 0 →
    exec (.mFillWindow dict) s = .next (afterFault .matcher .fillStale s))

/-- M_WRITE of few bytes (R166, R143, R125): an empty payload does nothing; bytes that fit, while fewer than 262 are pending
and M.index is below the shift threshold, are only copied to the end of the window. -/
def Obligations.WriteOfFewBytes : Prop :=
  (∀ s : State, MatcherReady s → s.m.err = .noError →
    exec (.mWrite []) s = .next { s with responses := s.responses ++ [⟨.ok, 0#32, []⟩] }) ∧
  (∀ (s : State) (data : List Byte), MatcherReady s → s.m.err = .noError → s.m.sync = false → data ≠ [] →
    s.m.index < 65274 → s.m.windowEnd < s.m.index + 262 → s.m.windowEnd + data.length ≤ 65536 →
    ∃ t, exec (.mWrite data) s = .next t ∧
      t = { s with
        m := { s.m with win := t.m.win, windowEnd := s.m.windowEnd + data.length }
        responses := s.responses ++ [⟨.ok, BitVec.ofNat 32 data.length, []⟩] } ∧
      ∀ a, winByte t.m a =
        if s.m.windowEnd ≤ a ∧ a < s.m.windowEnd + data.length then data.getD (a - s.m.windowEnd) 0#8
        else winByte s.m a)

/-- M_WRITE completes (R166, R132, R152): from any good state it takes all its bytes and answers their count, or ends at the
Emitter's error, which M.err then holds; it sends nothing but blocks; and an Emitter with as many NONE answers ready as there
are bytes to process lets it succeed (that the answers lie ready is the model's form of the Emitter, log 6). -/
def Obligations.WriteCompletes : Prop :=
  ∀ (s : State) (data : List Byte), s.Inv → MatcherReady s → s.m.err = .noError →
    ∃ t, exec (.mWrite data) s = .next t ∧ MatcherOnly s t ∧
      t.m.configured = true ∧ t.m.faulted = none ∧ t.m.params = s.m.params ∧
      (∃ new, t.e.log = s.e.log ++ new ∧ Blocks new) ∧
      ((t.m.err = .noError ∧ t.e.err = none ∧ t.m.sync = false ∧ Answered s t .ok data.length []) ∨
       (∃ c, t.m.err = .io c ∧ t.e.err = some c ∧ Answered s t .io c.toNat [])) ∧
      (Calm s.e (s.m.windowEnd - s.m.index + data.length) → t.m.err = .noError)

/-- M_SYNC_FLUSH completes (R168, R145): everything pending is tokenized and sent, then the two markers, or the Emitter's error
is latched, after a block with no marker sent or at the markers with both sent; M.sync is false again; with enough NONE answers
ready (log 6) it succeeds. The second clause is the case with nothing pending, exactly. -/
def Obligations.SyncFlushCompletes : Prop :=
  (∀ s : State, s.Inv → MatcherReady s → s.m.err = .noError →
    ∃ t, exec .mSyncFlush s = .next t ∧ MatcherOnly s t ∧
      t.m.configured = true ∧ t.m.faulted = none ∧ t.m.params = s.m.params ∧ t.m.sync = false ∧
      t.m.windowEnd = s.m.windowEnd ∧ t.m.hashOffset = s.m.hashOffset ∧ t.m.win = s.m.win ∧
      ((t.m.err = .noError ∧ t.e.err = none ∧ t.m.index = t.m.windowEnd ∧ t.m.tokq = [] ∧ t.m.byteAvailable = false ∧
          (∃ blocks, t.e.log = s.e.log ++ blocks ++ [.emitStoredHeader 0#16 false, .emitFlush] ∧ Blocks blocks) ∧
          Answered s t .ok 0 []) ∨
       (∃ c, t.m.err = .io c ∧ t.e.err = some c ∧ Answered s t .io c.toNat [] ∧
          ∃ blocks, Blocks blocks ∧ (t.e.log = s.e.log ++ blocks ∨
            t.e.log = s.e.log ++ blocks ++ [.emitStoredHeader 0#16 false, .emitFlush]))) ∧
      (Calm s.e (s.m.windowEnd - s.m.index + 3) → t.m.err = .noError)) ∧
  (∀ (s : State) (rest : List (Option Word32)), MatcherReady s → s.m.err = .noError → s.m.index = s.m.windowEnd →
    s.m.windowEnd ≤ 65536 → s.m.tokq = [] → s.m.byteAvailable = false → s.e.err = none → s.e.answers = none :: none :: rest →
    exec .mSyncFlush s = .next { s with
      m := { s.m with maxInsertIndex := (s.m.windowEnd : Int) - 3, sync := false }
      e := { err := none, log := s.e.log ++ [.emitStoredHeader 0#16 false, .emitFlush], answers := rest,
             draws := s.e.draws + 2 }
      responses := s.responses ++ [⟨.ok, 0#32, []⟩] })

/-- M_CLOSE completes (R169): everything pending is tokenized and sent, then the final stored block and the flush, and the
stream is closed, or the Emitter's error is latched and nothing more is sent; with enough NONE answers ready (log 6) it succeeds. A closed stream answers
OK and a failed one its error, both with no effect. -/
def Obligations.CloseCompletes : Prop :=
  (∀ s : State, s.Inv → MatcherReady s → s.m.err = .noError →
    ∃ t, exec .mClose s = .next t ∧ MatcherOnly s t ∧
      t.m.configured = true ∧ t.m.faulted = none ∧ t.m.params = s.m.params ∧
      t.m.windowEnd = s.m.windowEnd ∧ t.m.hashOffset = s.m.hashOffset ∧ t.m.win = s.m.win ∧
      ((t.m.err = .closed ∧ t.e.err = none ∧ t.m.index = t.m.windowEnd ∧ t.m.tokq = [] ∧ t.m.byteAvailable = false ∧
          t.m.sync = true ∧
          (∃ blocks, t.e.log = s.e.log ++ blocks ++ [.emitStoredHeader 0#16 true, .emitFlush] ∧ Blocks blocks) ∧
          Answered s t .ok 0 []) ∨
       (∃ c, t.m.err = .io c ∧ t.e.err = some c ∧ Answered s t .io c.toNat [] ∧
          ∃ blocks, Blocks blocks ∧ (t.e.log = s.e.log ++ blocks ∨
            t.e.log = s.e.log ++ blocks ++ [.emitStoredHeader 0#16 true] ∨
            t.e.log = s.e.log ++ blocks ++ [.emitStoredHeader 0#16 true, .emitFlush]))) ∧
      (Calm s.e (s.m.windowEnd - s.m.index + 3) → t.m.err = .closed)) ∧
  (∀ s : State, MatcherReady s → s.m.err = .closed →
    exec .mClose s = .next { s with responses := s.responses ++ [⟨.ok, 0#32, []⟩] }) ∧
  (∀ (s : State) (c : Word32), MatcherReady s → s.m.err = .io c →
    exec .mClose s = .next { s with responses := s.responses ++ [⟨.io, c, []⟩] })

/-- The empty stream (R170, which the spec derives from R145 and R169): with NONE answered, M_CONFIG and M_CLOSE send exactly
the final stored header and the flush. -/
def Obligations.EmptyStream : Prop :=
  ∀ (s : State) (a : Word32) (l : Nat) (rest : List (Option Word32)), s.m.faulted = none →
    resolveLevel (levelOperand a) = .deflate l → s.e.answers = none :: none :: rest →
    ∃ t, execAll [.mConfig a, .mClose] s = .next t ∧
      t.e.log = [.emitStoredHeader 0#16 true, .emitFlush] ∧ t.m.err = .closed ∧
      t.responses = s.responses ++ [⟨.ok, 0#32, []⟩, ⟨.ok, 0#32, []⟩]

/-- Sticky stream errors (R206, R167): M.err holds exactly the Emitter's error; while it does, M_WRITE, M_SYNC_FLUSH,
M_FILL_WINDOW and M_CLOSE answer it with no effect; a closed stream answers E_CLOSED the same way, but for M_CLOSE, which
answers OK; M_RESET clears both. -/
def Obligations.StickyStreamErrors : Prop :=
  (∀ (i : Instr) (s t : State) (c : Word32), s.Inv → exec i s = .next t → (t.e.err = some c ↔ t.m.err = .io c)) ∧
  (∀ (i : Instr) (s : State) (c : Word32), MatcherReady s → s.m.err = .io c → shortCircuited i = true ∨ i = .mClose →
    exec i s = .next { s with responses := s.responses ++ [⟨.io, c, []⟩] }) ∧
  (∀ (i : Instr) (s : State), MatcherReady s → s.m.err = .closed → shortCircuited i = true →
    exec i s = .next { s with responses := s.responses ++ [⟨.closed, 0#32, []⟩] }) ∧
  (∀ s : State, MatcherReady s → s.m.err = .closed →
    exec .mClose s = .next { s with responses := s.responses ++ [⟨.ok, 0#32, []⟩] }) ∧
  (∀ (s : State) (dict : List Byte), MatcherReady s →
    ∃ t, exec (.mReset dict) s = .next t ∧ t.m.err = .noError ∧ t.e.err = none ∧ Answered s t .ok 0 [])

/-- A set Emitter error stays, and nothing is sent any more, until M_CONFIG or M_RESET (R29, R70). -/
def Obligations.StickyEmitter : Prop :=
  ∀ (i : Instr) (s t : State) (c : Word32), s.Inv → s.e.err = some c → exec i s = .next t →
    (∀ a, i ≠ .mConfig a) → (∀ dict, i ≠ .mReset dict) → t.e = s.e

/-- Reset equivalence (R163, which the spec derives): after M_RESET dict, on any configured Matcher, a sequence of Matcher
commands gives the same responses, registers, HEAD, PREV, TOKQ and valid window bytes, and sends the same requests after the mark
SINK_REBOUND, as after M_CONFIG with the same level and M_FILL_WINDOW dict (left out for an empty dict) on any unfaulted
Matcher, given the same Emitter answers (log 6). Where an M_CONFIG among the commands has started a new log, the two logs are
equal. -/
def Obligations.ResetEquivalence : Prop :=
  ∀ (s s' : State) (dict : List Byte) (level : Word32) (S : List Instr),
    s.Inv → s'.Inv → MatcherReady s → s'.m.faulted = none →
    resolveLevel (levelOperand level) = .deflate s.m.params.level →
    s'.e.answers = s.e.answers → s'.e.draws = s.e.draws → (∀ i ∈ S, unitOfInstr i = some .matcher) →
    ∃ t t' r, execAll (.mReset dict :: S) s = .next t ∧
      execAll (.mConfig level :: (if dict = [] then S else .mFillWindow dict :: S)) s' = .next t' ∧
      t.m.Alike t'.m ∧ t.e.err = t'.e.err ∧
      t.responses = s.responses ++ ⟨.ok, 0#32, []⟩ :: r ∧
      t'.responses = s'.responses ++ (if dict = [] then ⟨.ok, 0#32, []⟩ :: r else ⟨.ok, 0#32, []⟩ :: ⟨.ok, 0#32, []⟩ :: r) ∧
      (t.e.log = s.e.log ++ .sinkRebound :: t'.e.log ∨
        ∃ a l, .mConfig a ∈ S ∧ resolveLevel (levelOperand a) = .deflate l ∧ t.e.log = t'.e.log)

/-- Order and coverage (R156, R62, which the spec derives): what the tokens sent and queued stand for is exactly the bytes
written since the last M_CONFIG or M_RESET, in order, after the kept dictionary, up to M.index less the pending literal; every
Matcher command that answers OK keeps this, with its bytes added. -/
def Obligations.CoverageKept : Prop :=
  (∀ (s : State) (a : Word32) (l : Nat), s.m.faulted = none → resolveLevel (levelOperand a) = .deflate l →
    ∃ t, exec (.mConfig a) s = .next t ∧ Covers [] [] t.side) ∧
  (∀ (s : State) (dict : List Byte), s.Inv → MatcherReady s →
    ∃ t, exec (.mReset dict) s = .next t ∧ Covers (tail 32768 dict) (tail 32768 dict) t.side) ∧
  (∀ (s t : State) (dict : List Byte), s.Inv → MatcherReady s → s.m.err = .noError → Covers [] [] s.side →
    sentTokens s.e.log = [] → exec (.mFillWindow dict) s = .next t →
    Covers (tail 32768 dict) (tail 32768 dict) t.side) ∧
  (∀ (s t : State) (dict stream data : List Byte), s.Inv → MatcherReady s → s.m.err = .noError →
    Covers dict stream s.side → exec (.mWrite data) s = .next t → t.m.err = .noError →
    Covers dict (stream ++ data) t.side) ∧
  (∀ (s t : State) (dict stream : List Byte), s.Inv → MatcherReady s → s.m.err = .noError →
    Covers dict stream s.side → exec .mSyncFlush s = .next t → t.m.err = .noError → Covers dict stream t.side) ∧
  (∀ (s t : State) (dict stream : List Byte), s.Inv → MatcherReady s → Covers dict stream s.side → exec .mClose s = .next t →
    t.m.err = .closed → Covers dict stream t.side)

/-- The order point (R63, which the spec derives): when M_SYNC_FLUSH answers OK the tokens sent stand for every byte written
before it, and the two markers follow them. -/
def Obligations.OrderPoint : Prop :=
  ∀ (s t : State) (dict stream : List Byte), s.Inv → MatcherReady s → s.m.err = .noError → Covers dict stream s.side →
    exec .mSyncFlush s = .next t → t.m.err = .noError →
    (∀ free, expandTokens free dict (sentTokens t.e.log) = stream) ∧
    ∃ log, t.e.log = log ++ [.emitStoredHeader 0#16 false, .emitFlush]

/-- The round trip: a stream built by M_CONFIG and primed, or begun by M_RESET, then written and flushed in any number of pieces and
closed with no error sends tokens that stand for exactly the dictionary's kept tail followed by what was written (R62, R129,
R169). -/
def Obligations.RoundTrip : Prop :=
  ∀ (s t : State) (dict : List Byte) (pieces : List Instr), s.Inv → (∀ i ∈ pieces, i = .mSyncFlush ∨ ∃ data, i = .mWrite data) →
    ((∃ level l, s.m.faulted = none ∧ resolveLevel (levelOperand level) = .deflate l ∧
        execAll (.mConfig level :: .mFillWindow dict :: (pieces ++ [.mClose])) s = .next t) ∨
      (MatcherReady s ∧ execAll (.mReset dict :: (pieces ++ [.mClose])) s = .next t)) →
    t.m.err = .closed →
    ∀ free, expandTokens free (tail 32768 dict) (sentTokens t.e.log) = tail 32768 dict ++ (pieces.map written).flatten

/-- Every request an instruction sends is one the Emitter's contract allows (R70, R85, R153): a block of 1 to 16384 tokens, each
a literal or a match of length 4 to 258 at distance 1 to 32768, never marked final; a stored header of length 0; a flush. -/
def Obligations.RequestsWellFormed : Prop :=
  ∀ (i : Instr) (s t : State), s.Inv → exec i s = .next t → (∀ r ∈ s.e.log, GoodRequest r) → ∀ r ∈ t.e.log, GoodRequest r

/-- Nothing a Matcher command does depends on the window bytes from M.window_end on (R52, R171, which the spec derives): two
states whose Matchers differ only there give the same responses and requests, and Matchers that differ only there. -/
def Obligations.WindowTailUnobservable : Prop :=
  ∀ (i : Instr) (s s' t : State), s.Inv → unitOfInstr i = some .matcher → s.m.Alike s'.m → s'.e = s.e →
    exec i s = .next t →
    ∃ t' r, exec i s' = .next t' ∧ t.m.Alike t'.m ∧ t'.e = t.e ∧
      t.responses = s.responses ++ [r] ∧ t'.responses = s'.responses ++ [r]

/-! ### DictDecoder commands (47_dictdecoder.md) -/

/-- DD_INIT (R173, R223): a good size makes a new history that begins with the kept tail of the dictionary; a bad one answers
E_DD_BAD_SIZE and changes nothing (R173, R205) but that the write view is closed (R175, R204, R231; that R173's "unchanged" does not
speak of the view is the model's reading, log 18). -/
def Obligations.InitHistory : Prop :=
  (∀ (s : State) (size : Word32) (dict : List Byte), s.d.faulted = none → 1 ≤ size.toNat →
    size.toNat ≤ Config.ddSizeMax →
    ∃ t, exec (.ddInit size dict) s = .next t ∧
      t = { s with
        d := { configured := true, faulted := none, size := size.toNat,
               wrPos := if size.toNat ≤ dict.length then 0 else dict.length,
               rdPos := if size.toNat ≤ dict.length then 0 else dict.length,
               full := decide (size.toNat ≤ dict.length), viewLen := 0, stashPos := 0, stashLen := 0,
               hist := t.d.hist, epoch := t.d.epoch }
        responses := s.responses ++ [⟨.ok, 0#32, []⟩] } ∧
      ∀ a < min dict.length size.toNat, histByte t.d a = dict.getD (dict.length - min dict.length size.toNat + a) 0#8) ∧
  (∀ (s : State) (size : Word32) (dict : List Byte), s.d.faulted = none →
    size.toNat = 0 ∨ Config.ddSizeMax < size.toNat →
    exec (.ddInit size dict) s = .next { s with
      d := { s.d with viewLen := 0 }
      responses := s.responses ++ [⟨.ddBadSize, 0#32, []⟩] })

/-- DD_WRITE_BYTE (R176): the byte at D.wr_pos, no other byte of HIST and no other register but the closed view; F_DD_NO_SPACE
where no slot is free. -/
def Obligations.WriteByteAppends : Prop :=
  ∀ (s : State) (c : Byte), DecoderReady s → s.d.stashLen = 0 → s.d.wrPos ≤ s.d.size →
    (s.d.wrPos < s.d.size → ∃ t, exec (.ddWriteByte c) s = .next t ∧
      t = { s with
        d := { s.d with hist := t.d.hist, wrPos := s.d.wrPos + 1, viewLen := 0 }
        responses := s.responses ++ [⟨.ok, 0#32, []⟩] } ∧
      ∀ a, histByte t.d a = if a = s.d.wrPos then c else histByte s.d a) ∧
    (s.d.wrPos = s.d.size → exec (.ddWriteByte c) s = .next (afterFault .decoder .ddNoSpace s))

/-- The write view (R178, R179, R180): DD_WRITE_SLICE opens it over the free space, DD_SLICE_PUT stores into it and leaves it
open, DD_WRITE_MARK commits bytes and closes it; F_DD_SLICE_OOB outside the view, F_DD_MARK_OVER beyond the free space. -/
def Obligations.WriteView : Prop :=
  ∀ s : State, DecoderReady s → s.d.stashLen = 0 → s.d.wrPos + s.d.viewLen ≤ s.d.size →
    (∀ maxLen : Word32, exec (.ddWriteSlice maxLen) s = .next { s with
      d := { s.d with viewLen := min maxLen.toNat (s.d.size - s.d.wrPos) }
      responses := s.responses ++ [⟨.ok, BitVec.ofNat 32 (min maxLen.toNat (s.d.size - s.d.wrPos)), []⟩] }) ∧
    (∀ (k : Word32) (c : Byte), k.toNat < s.d.viewLen → ∃ t, exec (.ddSlicePut k c) s = .next t ∧
      t = { s with d := { s.d with hist := t.d.hist }, responses := s.responses ++ [⟨.ok, 0#32, []⟩] } ∧
      ∀ a, histByte t.d a = if a = s.d.wrPos + k.toNat then c else histByte s.d a) ∧
    (∀ (k : Word32) (c : Byte), s.d.viewLen ≤ k.toNat →
      exec (.ddSlicePut k c) s = .next (afterFault .decoder .ddSliceOob s)) ∧
    (∀ n : Word32, n.toNat ≤ s.d.size - s.d.wrPos → exec (.ddWriteMark n) s = .next { s with
      d := { s.d with wrPos := s.d.wrPos + n.toNat, viewLen := 0 }
      responses := s.responses ++ [⟨.ok, 0#32, []⟩] }) ∧
    (∀ n : Word32, s.d.size - s.d.wrPos < n.toNat →
      exec (.ddWriteMark n) s = .next (afterFault .decoder .ddMarkOver s))

/-- DD_WRITE_COPY (R182): as many bytes as the buffer has room for, each the byte `dist` back in the circle of HIST, an earlier
byte of the same copy included; a source below 0 lies in the previous pass, whose byte is still the one before the command.
F_DD_BAD_DIST before any byte is written. -/
def Obligations.WriteCopyReplays : Prop :=
  ∀ (s : State) (dist : Word32) (len : BitVec 24), s.d.Inv → DecoderReady s → s.d.stashLen = 0 →
    (1 ≤ dist.toNat → dist.toNat ≤ histSize s.d →
      ∃ t n, n = min (s.d.wrPos + len.toNat) s.d.size - s.d.wrPos ∧ exec (.ddWriteCopy dist len) s = .next t ∧
        t = { s with
          d := { s.d with hist := t.d.hist, wrPos := s.d.wrPos + n, viewLen := 0 }
          responses := s.responses ++ [⟨.ok, BitVec.ofNat 32 n, []⟩] } ∧
        (∀ a, a < s.d.wrPos ∨ s.d.wrPos + n ≤ a → histByte t.d a = histByte s.d a) ∧
        ∀ k < n, histByte t.d (s.d.wrPos + k) =
          if dist.toNat ≤ s.d.wrPos + k then histByte t.d (s.d.wrPos + k - dist.toNat)
          else histByte s.d (s.d.wrPos + k + s.d.size - dist.toNat)) ∧
    (dist.toNat = 0 ∨ histSize s.d < dist.toNat →
      exec (.ddWriteCopy dist len) s = .next (afterFault .decoder .ddBadDist s))

/-- DD_TRY_WRITE_COPY (R185): it copies all its bytes in increasing order where the source does not wrap and the copy fits; else
it declines, changing nothing but the closed view; F_DD_BAD_DIST for distance 0. -/
def Obligations.TryWriteCopyCopies : Prop :=
  ∀ (s : State) (dist : Word32) (len : BitVec 24), s.d.Inv → DecoderReady s → s.d.stashLen = 0 →
    (1 ≤ dist.toNat → dist.toNat ≤ s.d.wrPos → s.d.wrPos + len.toNat ≤ s.d.size →
      ∃ t, exec (.ddTryWriteCopy dist len) s = .next t ∧
        t = { s with
          d := { s.d with hist := t.d.hist, wrPos := s.d.wrPos + len.toNat, viewLen := 0 }
          responses := s.responses ++ [⟨.ok, BitVec.ofNat 32 len.toNat, []⟩] } ∧
        (∀ a, a < s.d.wrPos ∨ s.d.wrPos + len.toNat ≤ a → histByte t.d a = histByte s.d a) ∧
        ∀ k < len.toNat, histByte t.d (s.d.wrPos + k) = histByte t.d (s.d.wrPos + k - dist.toNat)) ∧
    (1 ≤ dist.toNat → s.d.wrPos < dist.toNat ∨ s.d.size < s.d.wrPos + len.toNat →
      exec (.ddTryWriteCopy dist len) s = .next { s with
        d := { s.d with viewLen := 0 }
        responses := s.responses ++ [⟨.ok, 0#32, []⟩] }) ∧
    (dist.toNat = 0 → exec (.ddTryWriteCopy dist len) s = .next (afterFault .decoder .ddBadDist s))

/-- Where it does not decline, DD_TRY_WRITE_COPY does what DD_WRITE_COPY does (R186, which the spec derives). -/
def Obligations.TryCopyEqualsCopy : Prop :=
  ∀ (s : State) (dist : Word32) (len : BitVec 24), s.d.Inv → 1 ≤ dist.toNat → dist.toNat ≤ s.d.wrPos →
    s.d.wrPos + len.toNat ≤ s.d.size → exec (.ddTryWriteCopy dist len) s = exec (.ddWriteCopy dist len) s

/-- A bulk write through the view leaves the same DictDecoder as one DD_WRITE_BYTE for each byte (R181, which the spec derives),
and every command of both answers OK. -/
def Obligations.BulkWriteEqualsBytes : Prop :=
  ∀ (s : State) (data : List Byte), s.d.Inv → DecoderReady s → s.d.stashLen = 0 → data ≠ [] →
    s.d.wrPos + data.length ≤ s.d.size →
    ∃ t t', execAll (.ddWriteSlice (BitVec.ofNat 32 data.length) ::
          (data.mapIdx (fun k c => .ddSlicePut (BitVec.ofNat 32 k) c) ++ [.ddWriteMark (BitVec.ofNat 32 data.length)])) s =
        .next t ∧
      execAll (data.map .ddWriteByte) s = .next t' ∧ t.d = t'.d ∧
      t.responses = s.responses ++ (⟨.ok, BitVec.ofNat 32 data.length, []⟩ ::
        List.replicate (data.length + 1) ⟨.ok, 0#32, []⟩) ∧
      t'.responses = s.responses ++ List.replicate data.length ⟨.ok, 0#32, []⟩

/-- The drains (R187, R189, with the cursor update R188): DD_READ_FLUSH answers the bytes written and not yet drained,
DD_STASH_FLUSH stages them; a drain at the end of HIST wraps the cursors and sets D.full. -/
def Obligations.DrainsAdvance : Prop :=
  ∀ s : State, DecoderReady s → s.d.stashLen = 0 → s.d.rdPos ≤ s.d.wrPos → s.d.wrPos ≤ s.d.size →
    (∃ t data, exec .ddReadFlush s = .next t ∧
      t = { s with
        d := { s.d with viewLen := 0, rdPos := if s.d.wrPos = s.d.size then 0 else s.d.wrPos,
                        wrPos := if s.d.wrPos = s.d.size then 0 else s.d.wrPos,
                        full := s.d.full || decide (s.d.wrPos = s.d.size) }
        responses := s.responses ++ [⟨.ok, BitVec.ofNat 32 (s.d.wrPos - s.d.rdPos), data⟩] } ∧
      data.length = s.d.wrPos - s.d.rdPos ∧
      ∀ k < data.length, data[k]? = some (histByte s.d (s.d.rdPos + k))) ∧
    exec .ddStashFlush s = .next { s with
      d := { s.d with viewLen := 0, stashPos := s.d.rdPos, stashLen := s.d.wrPos - s.d.rdPos,
                      rdPos := if s.d.wrPos = s.d.size then 0 else s.d.wrPos,
                      wrPos := if s.d.wrPos = s.d.size then 0 else s.d.wrPos,
                      full := s.d.full || decide (s.d.wrPos = s.d.size) }
      responses := s.responses ++ [⟨.ok, BitVec.ofNat 32 (s.d.wrPos - s.d.rdPos), []⟩] }

/-- DD_STASH_READ (R192): the first staged bytes, as many as asked for, out of the staged range; nothing else changes but the
closed view. -/
def Obligations.StashReads : Prop :=
  ∀ (s : State) (max : Word32), DecoderReady s → s.d.stashPos + s.d.stashLen ≤ s.d.size →
    ∃ t data, exec (.ddStashRead max) s = .next t ∧
      t = { s with
        d := { s.d with viewLen := 0, stashPos := s.d.stashPos + min max.toNat s.d.stashLen,
                        stashLen := s.d.stashLen - min max.toNat s.d.stashLen }
        responses := s.responses ++ [⟨.ok, BitVec.ofNat 32 (min max.toNat s.d.stashLen), data⟩] } ∧
      data.length = min max.toNat s.d.stashLen ∧
      ∀ k < data.length, data[k]? = some (histByte s.d (s.d.stashPos + k))

/-- The queries (R191, R194, R195, R196) answer D.stash_len, hist_size, avail_read and avail_write, and change nothing but the
closed view (R175, R197), also while bytes are staged. -/
def Obligations.QueriesArePure : Prop :=
  ∀ (s : State), DecoderReady s →
    ∀ x ∈ [(Instr.ddStashLen, s.d.stashLen), (.ddHistSize, if s.d.full then s.d.size else s.d.wrPos),
        (.ddAvailRead, s.d.wrPos - s.d.rdPos), (.ddAvailWrite, s.d.size - s.d.wrPos)],
      exec x.1 s = .next { s with
        d := { s.d with viewLen := 0 }
        responses := s.responses ++ [⟨.ok, BitVec.ofNat 32 x.2, []⟩] }

/-- Drain completeness (R193, which the spec derives), command by command: what a command answers as data, followed by what is
then staged or written and not drained, is what was so before, followed by the bytes the command wrote; only the write commands
write, as many bytes as D.wr_pos advances. -/
def Obligations.DrainConserves : Prop :=
  ∀ (i : Instr) (s t : State), s.d.Inv → DecoderReady s → unitOfInstr i = some .decoder → constructs i = false →
    exec i s = .next t → t.d.faulted = none →
    ∃ status value data new, Answered s t status value data ∧ data ++ inFlight t.d = inFlight s.d ++ new ∧
      (match i with
        | .ddWriteByte c => new = [c]
        | .ddWriteMark n => new = histRun s.d s.d.wrPos n.toNat
        | .ddWriteCopy _ _ => new = histRun t.d s.d.wrPos (t.d.wrPos - s.d.wrPos)
        | .ddTryWriteCopy _ _ => new = histRun t.d s.d.wrPos (t.d.wrPos - s.d.wrPos)
        | _ => new = [])

/-! ### Faults and check order (60_exceptions.md) -/

/-- Malformed command words (R201, R82): an undefined OP of a unit, a word for no unit, an illegal field or payload length.
The last two clauses are the examples of R201. -/
def Obligations.MalformedWordsFault : Prop :=
  (∀ (s : State) (w : Word64) (payload : List Byte) (rest : List HostInput), s.refused = false →
    s.inputs = .send (.command w payload) :: rest →
    (0x16 ≤ (opField w).toNat → (opField w).toNat ≤ 0x1F → s.m.faulted = none →
      step s = .next (afterFault .matcher .badOpcode { s with inputs := rest })) ∧
    (0x2E ≤ (opField w).toNat → (opField w).toNat ≤ 0x2F → s.d.faulted = none →
      step s = .next (afterFault .decoder .badOpcode { s with inputs := rest })) ∧
    ((opField w).toNat ≤ 0x0F ∨ 0x30 ≤ (opField w).toNat →
      step s = .next { s with
        inputs := rest
        m := { s.m with faulted := some (s.m.faulted.getD .badOpcode) }
        d := { s.d with faulted := some (s.d.faulted.getD .badOpcode) }
        responses := s.responses ++ [⟨.fault .badOpcode, 0#32, []⟩] }) ∧
    (∀ row, commandRow (opField w).toNat = some row →
      ¬ FieldsLegal row (aField w).toNat (bField w).toNat payload.length →
      ((opField w).toNat ≤ 0x1F → s.m.faulted = none →
        step s = .next (afterFault .matcher .badField { s with inputs := rest })) ∧
      (0x20 ≤ (opField w).toNat → s.d.faulted = none →
        step s = .next (afterFault .decoder .badField { s with inputs := rest })))) ∧
  (∀ s : State, s.refused = false → s.m.faulted = none →
    step (placeInput (.send (.command 0x0000000000000016#64 [])) s) = .next (afterFault .matcher .badOpcode s)) ∧
  (∀ s : State, s.refused = false → s.m.faulted = none →
    step (placeInput (.send (.command 0x0000000000000114#64 [])) s) = .next (afterFault .matcher .badField s))

/-- The check order (R204): the unit's latch, the opcode, the fields, the configured check, then the stream error (Matcher) or
the stash (DictDecoder); where all pass, the command itself runs. -/
def Obligations.CheckOrder : Prop :=
  ∀ (s : State) (w : Word64) (payload : List Byte) (rest : List HostInput) (u : UnitName), s.refused = false →
    s.inputs = .send (.command w payload) :: rest → unitOf (opField w) = some u →
    (∀ f, latchOf u s = some f →
      step s = .next { s with inputs := rest, responses := s.responses ++ [⟨.fault f, 0#32, []⟩] }) ∧
    (latchOf u s = none → commandRow (opField w).toNat = none →
      step s = .next (afterFault u .badOpcode { s with inputs := rest })) ∧
    (∀ row, latchOf u s = none → commandRow (opField w).toNat = some row →
      ¬ FieldsLegal row (aField w).toNat (bField w).toNat payload.length →
      step s = .next (afterFault u .badField { s with inputs := rest })) ∧
    (∀ i, latchOf u s = none → decode (.command w payload) = .ok i →
      (constructs i = false → (u = .matcher → s.m.configured = false) → (u = .decoder → s.d.configured = false) →
        step s = .next (afterFault u .notConfigured { s with inputs := rest })) ∧
      (u = .matcher → s.m.configured = true → shortCircuited i = true → s.m.err = .closed →
        step s = .next { s with inputs := rest, responses := s.responses ++ [⟨.closed, 0#32, []⟩] }) ∧
      (u = .matcher → s.m.configured = true → shortCircuited i = true → ∀ c, s.m.err = .io c →
        step s = .next { s with inputs := rest, responses := s.responses ++ [⟨.io, c, []⟩] }) ∧
      (u = .decoder → s.d.configured = true → blockedByStash i = true → 0 < s.d.stashLen →
        step s = .next (afterFault .decoder .ddStashPending { s with inputs := rest })) ∧
      step s = exec i { s with inputs := rest })

/-- The fault latch (R203): while it is set, every command word of the unit answers the latched code and does nothing else; a
command that faults changes the latch and answers, and nothing else (a word for no unit sets both latches, R201); no packet clears
a latch; power-on does. The precondition State.Inv rules out F_INTERNAL, which leaves the state its iteration found (R144; log 11). -/
def Obligations.FaultLatchTerminal : Prop :=
  (∀ (w : Word64) (payload : List Byte) (s : State) (u : UnitName) (f : FaultCode), unitOf (opField w) = some u →
    latchOf u s = some f →
    runPacket (.command w payload) s = .next { s with responses := s.responses ++ [⟨.fault f, 0#32, []⟩] }) ∧
  (∀ (w : Word64) (payload : List Byte) (s t : State) (u : UnitName) (f : FaultCode), s.Inv → latchOf u s = none →
    runPacket (.command w payload) s = .next t → latchOf u t = some f →
    (unitOf (opField w) = some u ∧ t = afterFault u f s) ∨
    (unitOf (opField w) = none ∧ f = .badOpcode ∧ t = { s with
      m := { s.m with faulted := some (s.m.faulted.getD .badOpcode) }
      d := { s.d with faulted := some (s.d.faulted.getD .badOpcode) }
      responses := s.responses ++ [⟨.fault .badOpcode, 0#32, []⟩] })) ∧
  (∀ (p : Packet) (s t : State) (u : UnitName) (f : FaultCode), latchOf u s = some f → runPacket p s = .next t →
    latchOf u t = some f) ∧
  (∀ (s : State) (u : UnitName), s.refused = false →
    ∃ t, step (placeInput .powerOn s) = .next t ∧ latchOf u t = none)

/-- The list of faults (R202), as far as a valid instruction raises them: one that sets its unit's latch does so for the cause
the list gives, and every cause does, where no earlier check of R204 fails; F_INTERNAL never fires (R144). The causes of
F_BAD_OPCODE and F_BAD_FIELD are malformed words. -/
def Obligations.FaultCauses : Prop :=
  (∀ (i : Instr) (s t : State) (u : UnitName) (f : FaultCode), s.Inv → unitOfInstr i = some u → latchOf u s = none →
    exec i s = .next t → latchOf u t = some f → FaultCause i s f) ∧
  (∀ (i : Instr) (s : State) (u : UnitName), unitOfInstr i = some u → latchOf u s = none →
    FaultCause i s .notConfigured → exec i s = .next (afterFault u .notConfigured s)) ∧
  (∀ (i : Instr) (s : State) (f : FaultCode), unitOfInstr i = some .matcher → MatcherReady s → s.m.err = .noError →
    FaultCause i s f → exec i s = .next (afterFault .matcher f s)) ∧
  (∀ (i : Instr) (s : State), DecoderReady s → FaultCause i s .ddStashPending →
    exec i s = .next (afterFault .decoder .ddStashPending s)) ∧
  (∀ (i : Instr) (s : State) (f : FaultCode), unitOfInstr i = some .decoder → DecoderReady s → s.d.stashLen = 0 →
    FaultCause i s f → exec i s = .next (afterFault .decoder f s))

/-! ### Reset (70_reset_and_hazards.md) -/

/-- Power-on (R220): both units unconfigured and not faulted, E.err NONE, E.log empty; whatever else the block holds cannot be
seen, since every command but M_CONFIG and DD_INIT raises F_NOT_CONFIGURED, and those two leave the same registers and memories
from any two states, but for window bytes past M.window_end and unwritten history bytes. State.reset is such a state. Only
power-on clears a fault latch. -/
def Obligations.PowerOnState : Prop :=
  (∀ s : State, s.refused = false → ∃ t, step (placeInput .powerOn s) = .next t) ∧
  (∀ t : State, t = State.reset ∨ (∃ s, s.refused = false ∧ step (placeInput .powerOn s) = .next t) →
    t.m.configured = false ∧ t.d.configured = false ∧ t.m.faulted = none ∧ t.d.faulted = none ∧
    t.e.err = none ∧ t.e.log = [] ∧
    ∀ (i : Instr) (u : UnitName), unitOfInstr i = some u → constructs i = false →
      exec i t = .next (afterFault u .notConfigured t)) ∧
  (∀ (s s' : State) (a : Word32) (l : Nat), s.m.faulted = none → s'.m.faulted = none →
    resolveLevel (levelOperand a) = .deflate l →
    ∃ t t', exec (.mConfig a) s = .next t ∧ exec (.mConfig a) s' = .next t' ∧ t.m.Alike t'.m) ∧
  (∀ (s s' : State) (size : Word32) (dict : List Byte), s.d.faulted = none → s'.d.faulted = none → 1 ≤ size.toNat →
    size.toNat ≤ Config.ddSizeMax →
    ∃ t t', exec (.ddInit size dict) s = .next t ∧ exec (.ddInit size dict) s' = .next t' ∧
      t'.d = { t.d with epoch := t'.d.epoch }) ∧
  (∀ (s t : State) (u : UnitName) (f : FaultCode), step s = .next t → latchOf u s = some f → latchOf u t = none →
    ∃ rest, s.inputs = .powerOn :: rest)

/-! ### The whole machine -/

/-- Every command word gets one response (R80): one entry more, whose data length is the value for the two commands that return
data, the others returning none; where STATUS is not OK the value is the Emitter's code for E_IO, else 0, with no data; and the
response word has STATUS in bits 7:0, VALUE in bits 39:8 and zeros above. -/
def Obligations.EveryCommandAnswers : Prop :=
  (∀ (w : Word64) (payload : List Byte) (s : State), s.Inv →
    ∃ t r, runPacket (.command w payload) s = .next t ∧ t.responses = s.responses ++ [r] ∧
      (r.status ≠ .ok → r.data = [] ∧ (r.status = .io → t.m.err = .io r.value) ∧ (r.status ≠ .io → r.value = 0#32)) ∧
      (opField w ≠ 0x27#8 → opField w ≠ 0x2A#8 → r.data = []) ∧
      (r.status = .ok → opField w = 0x27#8 ∨ opField w = 0x2A#8 → r.data.length = r.value.toNat)) ∧
  (∀ r : Response, (responseWord r).toNat = (statusCode r.status).toNat + 256 * r.value.toNat)

/-- The invariant holds after reset. -/
def Obligations.InvReset : Prop := State.reset.Inv

/-- Every step keeps the invariant (R21, R23, R26, R27, R34, R128, R153): the cursors stay in their ranges and order, the
configuration registers stay a row of the table, the stored chain values stay those of earlier positions, TOKQ stays within its
cap, the memories stay in canonical form, M.err and E.err agree. -/
def Obligations.InvKept : Prop :=
  ∀ s t : State, s.Inv → step s = .next t → t.Inv

/-- The two units share nothing (R73): a command of one unit leaves the other as it was, and what it does to its own unit and
answers does not depend on the other. That a token word gets no response and touches neither unit, and that no command touches the
token reader, is the model's choice of a port of its own for token words (log 8). -/
def Obligations.UnitsIndependent : Prop :=
  (∀ (i : Instr) (s t : State), exec i s = .next t →
    (unitOfInstr i = some .matcher → t.d = s.d ∧ t.t = s.t ∧ t.inputs = s.inputs) ∧
    (unitOfInstr i = some .decoder → t.m = s.m ∧ t.e = s.e ∧ t.t = s.t ∧ t.inputs = s.inputs ∧ t.refused = s.refused) ∧
    (unitOfInstr i = none → t.m = s.m ∧ t.d = s.d ∧ t.e = s.e ∧ t.responses = s.responses ∧ t.inputs = s.inputs ∧
      t.refused = s.refused)) ∧
  (∀ (i : Instr) (s s' t : State), unitOfInstr i = some .matcher → s'.m = s.m → s'.e = s.e → exec i s = .next t →
    ∃ t' r, exec i s' = .next t' ∧ t'.m = t.m ∧ t'.e = t.e ∧ t.responses = s.responses ++ [r] ∧
      t'.responses = s'.responses ++ [r]) ∧
  (∀ (i : Instr) (s s' t : State), unitOfInstr i = some .decoder → s'.d = s.d → exec i s = .next t →
    ∃ t' r, exec i s' = .next t' ∧ t'.d = t.d ∧ t.responses = s.responses ++ [r] ∧ t'.responses = s'.responses ++ [r])

/-! ### The step and its flushes (45_lazy_loop.md R143, R145, R152, R157, R158) -/

/-- flush_block (R152) with the clearing of TOKQ after it: one request, with the window slice where M.block_start lies at or before
`x` and none otherwise (R134); M.block_start becomes `x`; TOKQ is emptied where the Emitter answers NONE, else the error is latched
and TOKQ kept (R158). At 0 nothing is sent. -/
def Obligations.BlockFlush : Prop :=
  (∀ (u : MatcherSide) (x : Nat), 0 < x → ∃ e window, e = emitRequest u.e (.emitBlock u.m.tokq false window) ∧
    (u.m.blockStart ≤ x → window = some (winRun u.m u.m.blockStart (x - u.m.blockStart))) ∧
    (x < u.m.blockStart → window = none) ∧
    e.log = u.e.log ++ [.emitBlock u.m.tokq false window] ∧
    (e.err = none → flushTokens x u = (true, ⟨{ u.m with blockStart := x, tokq := [] }, e⟩)) ∧
    (∀ c, e.err = some c → flushTokens x u = (false, ⟨{ u.m with blockStart := x, err := .io c }, e⟩))) ∧
  (∀ u : MatcherSide, flushTokens 0 u = (true, { u with m := { u.m with tokq := [] } }))

/-- The end of the pending data (R145): without M.sync the loop ends as it stands, with fewer than 262 bytes pending; under M.sync,
with none pending, the pending literal joins the queue; an empty queue sends nothing; another is flushed up to M.index as one block,
and kept where the Emitter fails (R158). -/
def Obligations.EndOfDataFlushes : Prop :=
  (∀ u : MatcherSide, u.m.sync = false → u.m.index ≤ u.m.windowEnd → u.m.windowEnd < u.m.index + 262 → iterate u = .ended u) ∧
  ∀ u : MatcherSide, u.m.Shape → u.m.Live → u.m.sync = true → u.m.index = u.m.windowEnd →
    ∃ m, m = { u.m with
        byteAvailable := false
        tokq := u.m.tokq ++ (if u.m.byteAvailable then [makeLiteral (winByte u.m (u.m.index - 1))] else []) } ∧
      (m.tokq = [] → iterate u = .ended u) ∧
      (m.tokq ≠ [] → (emitRequest u.e (flushRequest m u.m.index)).err = none →
        iterate u = .ended ⟨{ m with blockStart := u.m.index, tokq := [] }, emitRequest u.e (flushRequest m u.m.index)⟩) ∧
      (m.tokq ≠ [] → ∀ c, (emitRequest u.e (flushRequest m u.m.index)).err = some c →
        iterate u = .ended ⟨{ m with blockStart := u.m.index, err := .io c }, emitRequest u.e (flushRequest m u.m.index)⟩)

/-- The step (R143) returns from every good state: nothing where fewer than 262 bytes are pending and M.sync is false; else
M.max_insert_index is set and iterations follow until one ends the loop. With no error it leaves fewer than 262 bytes pending
(R157), and under M.sync none, and nothing queued or held back (R145). -/
def Obligations.StepIterates : Prop :=
  ∀ u : MatcherSide, u.m.Shape → u.m.Live → u.m.err = .noError → u.e.err = none →
    ∃ u', matcherStep u = .ok u' ∧ Steps u u' ∧
      (u'.m.err = .noError → u'.m.windowEnd < u'.m.index + 262 ∧
        (u.m.sync = true → u'.m.index = u'.m.windowEnd ∧ u'.m.tokq = [] ∧ u'.m.byteAvailable = false))

/-- The commands that process data do it by steps: M_WRITE takes a step and a fill in turn (R166); M_SYNC_FLUSH takes a step under
M.sync, then sends the two markers, then clears M.sync (R168); M_CLOSE takes a step under M.sync, then sends the final header and,
if that succeeds, the flush (R169). -/
def Obligations.CommandsStep : Prop :=
  ∀ s : State, s.Inv → MatcherReady s → s.m.err = .noError →
    (∀ data : List Byte, ∃ t, exec (.mWrite data) s = .next t ∧ Writes s.side data t.side) ∧
    (∃ t u, exec .mSyncFlush s = .next t ∧ Steps ⟨{ s.m with sync := true }, s.e⟩ u ∧
      (u.m.err ≠ .noError → t.m = { u.m with sync := false } ∧ t.e = u.e) ∧
      (u.m.err = .noError → t.e = emitRequest (emitRequest u.e (.emitStoredHeader 0#16 false)) .emitFlush ∧
        (t.e.err = none → t.m = { u.m with sync := false }) ∧
        ∀ c, t.e.err = some c → t.m = { u.m with sync := false, err := .io c })) ∧
    ∃ t u, exec .mClose s = .next t ∧ Steps ⟨{ s.m with sync := true }, s.e⟩ u ∧
      (u.m.err ≠ .noError → t.m = u.m ∧ t.e = u.e) ∧
      (u.m.err = .noError → ∃ e, e = emitRequest u.e (.emitStoredHeader 0#16 true) ∧
        (∀ c, e.err = some c → t.m = { u.m with err := .io c } ∧ t.e = e) ∧
        (e.err = none → t.e = emitRequest e .emitFlush ∧
          (t.e.err = none → t.m = { u.m with err := .closed }) ∧
          ∀ c, t.e.err = some c → t.m = { u.m with err := .io c }))

end
end

