-- ==== Sys2Proof/Laws/Memory.lean ====
section
/-! SUPPORT. The laws of the sparse memories: what each operation reads back as, at the place written and at every
other, and that each keeps the canonical form. -/

namespace Sys2Proof.Machine.Memory

variable {α : Type}

/-! ### find -/

@[simp] theorem find_nil (a : Nat) : find ([] : List (Nat × α)) a = none := rfl

theorem find_cons (c : Nat × α) (m : List (Nat × α)) (a : Nat) :
    find (c :: m) a = if c.1 = a then some c.2 else find m a := rfl

theorem find_append (m m' : List (Nat × α)) (a : Nat) :
    find (m ++ m') a = (find m a).or (find m' a) := by
  induction m with
  | nil => simp
  | cons c m ih =>
    simp only [List.cons_append, find_cons]
    split <;> simp [ih]

theorem find_filter (p : Nat × α → Bool) (m : List (Nat × α)) (a : Nat) (hp : ∀ c : Nat × α, c.1 = a → p c = true) :
    find (m.filter p) a = find m a := by
  induction m with
  | nil => rfl
  | cons c m ih =>
    by_cases h : c.1 = a
    · simp [hp c h, find_cons, h]
    · by_cases hc : p c = true
      · simp [hc, find_cons, h, ih]
      · simp [hc, find_cons, h, ih]

theorem find_filter_none (p : Nat × α → Bool) (m : List (Nat × α)) (a : Nat)
    (hp : ∀ c : Nat × α, c.1 = a → p c = false) : find (m.filter p) a = none := by
  induction m with
  | nil => rfl
  | cons c m ih =>
    by_cases hc : p c = true
    · have h : ¬ c.1 = a := fun h => by simp [hp c h] at hc
      simp [hc, find_cons, h, ih]
    · simp [hc, ih]

theorem mem_of_find {m : List (Nat × α)} {a : Nat} {v : α} (h : find m a = some v) : (a, v) ∈ m := by
  induction m with
  | nil => simp at h
  | cons c m ih =>
    rw [find_cons] at h
    split at h
    · next hc => obtain rfl := Option.some.inj h; subst hc; exact List.mem_cons_self
    · exact List.mem_cons_of_mem _ (ih h)

/-! ### put and remove -/

theorem find_put (m : List (Nat × α)) (a : Nat) (v : α) (b : Nat) :
    find (put m a v) b = if b = a then some v else find m b := by
  induction m with
  | nil => simp only [put, find_cons, find_nil, eq_comm]
  | cons c m ih =>
    obtain ⟨x, u⟩ := c
    simp only [put]
    split
    · next h =>
      rw [find_cons, find_cons, ih]
      by_cases hb : b = a
      · subst hb; have : ¬ x = b := by omega
        simp [this]
      · simp [hb]
    · split
      · next h1 h2 =>
        subst h2
        simp only [find_cons]
        by_cases hb : b = x
        · subst hb; simp
        · have : ¬ x = b := fun h => hb h.symm
          simp [hb, this]
      · next h1 h2 =>
        simp only [find_cons]
        by_cases hb : b = a
        · subst hb; simp
        · have : ¬ a = b := fun h => hb h.symm
          simp [hb, this]

theorem find_remove (m : List (Nat × α)) (a b : Nat) :
    find (remove m a) b = if b = a then none else find m b := by
  unfold remove
  split
  · next h => subst h; exact find_filter_none _ _ _ (fun c hc => by simp [hc])
  · next h => exact find_filter _ _ _ (fun c hc => by simp [hc, h])

theorem mem_put {m : List (Nat × α)} {a : Nat} {v : α} {c : Nat × α} (h : c ∈ put m a v) : c = (a, v) ∨ c ∈ m := by
  induction m with
  | nil => simpa [put] using h
  | cons e m ih =>
    obtain ⟨x, u⟩ := e
    simp only [put] at h
    split at h
    · rcases List.mem_cons.mp h with h | h
      · exact .inr (h ▸ List.mem_cons_self)
      · exact (ih h).imp id (List.mem_cons_of_mem _)
    · split at h
      · rcases List.mem_cons.mp h with h | h
        · exact .inl h
        · exact .inr (List.mem_cons_of_mem _ h)
      · rcases List.mem_cons.mp h with h | h
        · exact .inl h
        · exact .inr h

theorem rising_put {m : List (Nat × α)} (hm : rising m) (a : Nat) (v : α) : rising (put m a v) := by
  induction m with
  | nil => simp [put]
  | cons e m ih =>
    obtain ⟨x, u⟩ := e
    obtain ⟨hx, hm'⟩ := List.pairwise_cons.mp hm
    simp only [put]
    split
    · next h =>
      refine List.pairwise_cons.mpr ⟨fun c hc => ?_, ih hm'⟩
      rcases mem_put hc with rfl | hc
      · exact h
      · exact hx c hc
    · split
      · next h1 h2 => exact List.pairwise_cons.mpr ⟨fun c hc => h2 ▸ hx c hc, hm'⟩
      · next h1 h2 =>
        refine List.pairwise_cons.mpr ⟨fun c hc => ?_, hm⟩
        rcases List.mem_cons.mp hc with rfl | hc
        · simp only; omega
        · have := hx c hc
          simp only at *
          omega

theorem rising_filter {m : List (Nat × α)} (hm : rising m) (p : Nat × α → Bool) : rising (m.filter p) :=
  List.Pairwise.filter p hm

/-! ### runs -/

theorem find_cellsFrom (vs : List α) (a b : Nat) :
    find (cellsFrom a vs) b = if a ≤ b then vs[b - a]? else none := by
  induction vs generalizing a with
  | nil => simp [cellsFrom]
  | cons v vs ih =>
    rw [cellsFrom, find_cons, ih]
    by_cases h : a = b
    · subst h; simp
    · by_cases h' : a ≤ b
      · have h1 : a + 1 ≤ b := by omega
        have h2 : b - a = (b - (a + 1)) + 1 := by omega
        simp [h, h', h1, h2]
      · have h1 : ¬ a + 1 ≤ b := by omega
        simp [h, h', h1]

theorem mem_cellsFrom {vs : List α} {a : Nat} {c : Nat × α} (h : c ∈ cellsFrom a vs) :
    a ≤ c.1 ∧ c.1 < a + vs.length := by
  induction vs generalizing a with
  | nil => simp [cellsFrom] at h
  | cons v vs ih =>
    rcases List.mem_cons.mp h with rfl | h
    · simp
    · have := ih h
      simp only [List.length_cons]; omega

theorem rising_cellsFrom (vs : List α) (a : Nat) : rising (cellsFrom a vs) := by
  induction vs generalizing a with
  | nil => simp [cellsFrom]
  | cons v vs ih =>
    refine List.pairwise_cons.mpr ⟨fun c hc => ?_, ih (a + 1)⟩
    have := (mem_cellsFrom hc).1
    simp only; omega

/-- What a run of writes leaves: its own elements inside, everything else outside. -/
theorem find_putRun (m : List (Nat × α)) (a : Nat) (vs : List α) (b : Nat) :
    find (putRun m a vs) b = if a ≤ b ∧ b < a + vs.length then vs[b - a]? else find m b := by
  unfold putRun
  rw [find_append, find_append, find_cellsFrom]
  by_cases h1 : b < a
  · have : ¬ (a ≤ b ∧ b < a + vs.length) := by omega
    rw [find_filter _ m b (fun c hc => by simp [hc, h1]),
      find_filter_none _ m b (fun c hc => by simp only [hc, decide_eq_false_iff_not]; omega)]
    simp [show ¬ a ≤ b by omega]
  · rw [find_filter_none _ m b (fun c hc => by simp only [hc, decide_eq_false_iff_not]; omega)]
    by_cases h2 : b < a + vs.length
    · have hlt : b - a < vs.length := by omega
      simp [show a ≤ b by omega, h2, List.getElem?_eq_getElem hlt]
    · have hge : vs.length ≤ b - a := by omega
      rw [find_filter _ m b (fun c hc => by simp only [hc, decide_eq_true_eq]; omega)]
      simp [show a ≤ b by omega, h2, List.getElem?_eq_none hge]

theorem rising_putRun {m : List (Nat × α)} (hm : rising m) (a : Nat) (vs : List α) : rising (putRun m a vs) := by
  unfold putRun
  refine List.pairwise_append.mpr ⟨rising_filter hm _, List.pairwise_append.mpr
    ⟨rising_cellsFrom vs a, rising_filter hm _, ?_⟩, ?_⟩
  · intro c hc c' hc'
    have h1 := mem_cellsFrom hc
    have h2 : a + vs.length ≤ c'.1 := by simpa using (List.mem_filter.mp hc').2
    omega
  · intro c hc c' hc'
    have h1 : c.1 < a := by simpa using (List.mem_filter.mp hc).2
    rcases List.mem_append.mp hc' with h | h
    · have := mem_cellsFrom h; omega
    · have h2 : a + vs.length ≤ c'.1 := by simpa using (List.mem_filter.mp h).2
      omega

theorem below_putRun {m : List (Nat × α)} {size : Nat} (hm : below m size) {a : Nat} {vs : List α}
    (h : vs = [] ∨ a + vs.length ≤ size) : below (putRun m a vs) size := by
  intro c hc
  rcases List.mem_append.mp hc with hc | hc
  · exact hm c (List.mem_filter.mp hc).1
  · rcases List.mem_append.mp hc with hc | hc
    · rcases h with rfl | h
      · simp [cellsFrom] at hc
      · have := mem_cellsFrom hc; omega
    · exact hm c (List.mem_filter.mp hc).1

/-! ### bytes -/

/-- A byte reads as the one listed, whatever else is. -/
theorem readByte_put (free : Nat → Byte) (m : List Host.Cell) (a : Nat) (v : Byte) (b : Nat) :
    readByte free (put m a v) b = if b = a then v else readByte free m b := by
  unfold readByte
  rw [find_put]
  split <;> rfl

theorem readByte_putRun (free : Nat → Byte) (m : List Host.Cell) (a : Nat) (vs : List Byte) (b : Nat) :
    readByte free (putRun m a vs) b =
      if a ≤ b ∧ b < a + vs.length then vs.getD (b - a) 0#8 else readByte free m b := by
  unfold readByte
  rw [find_putRun]
  split
  · next h =>
    have hlt : b - a < vs.length := by omega
    simp [List.getElem?_eq_getElem hlt]
  · rfl

theorem readByte_between (free : Nat → Byte) (m : List Host.Cell) (a n k : Nat) (hk : k < n) :
    readByte free (between m a n) (a + k) = readByte free m (a + k) := by
  unfold readByte between
  rw [find_filter _ _ _ (fun c hc => by simp [hc, hk])]

/-- MemRead is the list of the bytes read one by one. -/
theorem readRun_eq (free : Nat → Byte) (m : List Host.Cell) (a n : Nat) :
    readRun free m a n = (List.range n).map (fun k => readByte free m (a + k)) := by
  unfold readRun
  exact List.map_congr_left (fun k hk => readByte_between free m a n k (List.mem_range.mp hk))

@[simp] theorem length_readRun (free : Nat → Byte) (m : List Host.Cell) (a n : Nat) :
    (readRun free m a n).length = n := by simp [readRun]

theorem getElem?_readRun (free : Nat → Byte) (m : List Host.Cell) (a n k : Nat) :
    (readRun free m a n)[k]? = if k < n then some (readByte free m (a + k)) else none := by
  rw [readRun_eq]
  by_cases h : k < n
  · simp [h]
  · simp [h]

theorem bytesWf_put {m : List Host.Cell} {size a : Nat} (hm : bytesWf m size) (ha : a < size) (v : Byte) :
    bytesWf (put m a v) size := by
  refine ⟨rising_put hm.1 a v, fun c hc => ?_⟩
  rcases mem_put hc with rfl | hc
  · exact ha
  · exact hm.2 c hc

theorem bytesWf_putRun {m : List Host.Cell} {size a : Nat} (hm : bytesWf m size) {vs : List Byte}
    (h : vs = [] ∨ a + vs.length ≤ size) : bytesWf (putRun m a vs) size :=
  ⟨rising_putRun hm.1 a vs, below_putRun hm.2 h⟩

/-! ### words -/

theorem readWord_cons (c : Nat × Word32) (m : List (Nat × Word32)) (a : Nat) :
    readWord (c :: m) a = if c.1 = a then c.2 else readWord m a := by
  unfold readWord
  rw [find_cons]
  split <;> rfl

theorem readWord_writeWord (m : List (Nat × Word32)) (a : Nat) (v : Word32) (b : Nat) :
    readWord (writeWord m a v) b = if b = a then v else readWord m b := by
  unfold readWord writeWord
  split
  · next h => rw [find_remove]; split <;> simp [h]
  · rw [find_put]; split <;> rfl

theorem wordsWf_writeWord {m : List (Nat × Word32)} {size a : Nat} (hm : wordsWf m size) (ha : a < size)
    (v : Word32) : wordsWf (writeWord m a v) size := by
  unfold writeWord
  split
  · exact ⟨rising_filter hm.1 _, fun c hc => hm.2.1 c (List.mem_filter.mp hc).1,
      fun c hc => hm.2.2 c (List.mem_filter.mp hc).1⟩
  · next hv =>
    refine ⟨rising_put hm.1 a v, fun c hc => ?_, fun c hc => ?_⟩
    · rcases mem_put hc with rfl | hc
      · exact ha
      · exact hm.2.1 c hc
    · rcases mem_put hc with rfl | hc
      · exact hv
      · exact hm.2.2 c hc

theorem mem_writeWord {m : List (Nat × Word32)} {a : Nat} {v : Word32} {c : Nat × Word32}
    (h : c ∈ writeWord m a v) : c = (a, v) ∨ c ∈ m := by
  unfold writeWord at h
  split at h
  · exact .inr (List.mem_filter.mp h).1
  · exact mem_put h

/-- The cell a rebase makes of one cell. -/
theorem mem_rebaseWords {m : List (Nat × Word32)} {delta : Nat} {c : Nat × Word32}
    (h : c ∈ rebaseWords m delta) :
    ∃ v, (c.1, v) ∈ m ∧ delta < v.toNat ∧ c.2 = BitVec.ofNat 32 (v.toNat - delta) := by
  obtain ⟨e, he, hc⟩ := List.mem_filterMap.mp h
  split at hc
  · next hlt =>
    obtain rfl := Option.some.inj hc
    exact ⟨e.2, he, hlt, rfl⟩
  · cases hc

theorem readWord_rebaseWords {m : List (Nat × Word32)} (hm : rising m) (delta : Nat) (a : Nat) :
    readWord (rebaseWords m delta) a =
      if delta < (readWord m a).toNat then BitVec.ofNat 32 ((readWord m a).toNat - delta) else 0#32 := by
  induction m with
  | nil => simp [readWord, rebaseWords]
  | cons c m ih =>
    obtain ⟨hx, hm'⟩ := List.pairwise_cons.mp hm
    have ih := ih hm'
    have key : c.1 = a → readWord (rebaseWords m delta) a = 0#32 := by
      intro hc
      unfold readWord
      cases hf : find (rebaseWords m delta) a with
      | none => rfl
      | some v =>
        obtain ⟨w, hw, -⟩ := mem_rebaseWords (mem_of_find hf)
        have := hx _ hw
        simp only at this; omega
    by_cases hd : delta < c.2.toNat
    · have he : rebaseWords (c :: m) delta =
          (c.1, BitVec.ofNat 32 (c.2.toNat - delta)) :: rebaseWords m delta := by
        simp [rebaseWords, hd]
      rw [he, readWord_cons, readWord_cons]
      by_cases hc : c.1 = a
      · simp only [hc, hd, if_true]
      · simp only [hc, if_false, ih]
    · have he : rebaseWords (c :: m) delta = rebaseWords m delta := by
        simp [rebaseWords, hd]
      rw [he, readWord_cons]
      by_cases hc : c.1 = a
      · simp only [hc, hd, if_true, if_false, key hc]
      · simp only [hc, if_false, ih]

theorem wordsWf_rebaseWords {m : List (Nat × Word32)} {size : Nat} (hm : wordsWf m size) (delta : Nat) :
    wordsWf (rebaseWords m delta) size := by
  refine ⟨?_, fun c hc => ?_, fun c hc => ?_⟩
  · unfold rising rebaseWords
    rw [List.pairwise_filterMap]
    refine hm.1.imp (fun {e e'} h c hc c' hc' => ?_)
    split at hc <;> cases hc
    split at hc' <;> cases hc'
    exact h
  · obtain ⟨v, hv, -⟩ := mem_rebaseWords hc
    exact hm.2.1 (c.1, v) hv
  · obtain ⟨v, hv, hlt, he⟩ := mem_rebaseWords hc
    rw [he]
    intro h0
    have h1 := congrArg BitVec.toNat h0
    have h2 := v.isLt
    simp only [BitVec.toNat_ofNat] at h1
    rw [Nat.mod_eq_of_lt (by omega)] at h1
    omega

end Sys2Proof.Machine.Memory
end

