-- ==== Sys2Proof/Laws/State.lean ====
section
/-! SUPPORT. One lemma per field per named update of the state, each true by definition, so that no proof unfolds a
record update. -/

namespace Sys2Proof.Machine

/-! ### withSide -/

@[simp] theorem withSide_m (s : State) (u : MatcherSide) :
    (s.withSide u).m = u.m := rfl

@[simp] theorem withSide_d (s : State) (u : MatcherSide) :
    (s.withSide u).d = s.d := rfl

@[simp] theorem withSide_e (s : State) (u : MatcherSide) :
    (s.withSide u).e = u.e := rfl

@[simp] theorem withSide_t (s : State) (u : MatcherSide) :
    (s.withSide u).t = s.t := rfl

@[simp] theorem withSide_inputs (s : State) (u : MatcherSide) :
    (s.withSide u).inputs = s.inputs := rfl

@[simp] theorem withSide_responses (s : State) (u : MatcherSide) :
    (s.withSide u).responses = s.responses := rfl

@[simp] theorem withSide_refused (s : State) (u : MatcherSide) :
    (s.withSide u).refused = s.refused := rfl

/-! ### respond -/

@[simp] theorem respond_m (s : State) (st : Status) (v : Nat) (bs : List Byte) :
    (respond s st v bs).m = s.m := rfl

@[simp] theorem respond_d (s : State) (st : Status) (v : Nat) (bs : List Byte) :
    (respond s st v bs).d = s.d := rfl

@[simp] theorem respond_e (s : State) (st : Status) (v : Nat) (bs : List Byte) :
    (respond s st v bs).e = s.e := rfl

@[simp] theorem respond_t (s : State) (st : Status) (v : Nat) (bs : List Byte) :
    (respond s st v bs).t = s.t := rfl

@[simp] theorem respond_inputs (s : State) (st : Status) (v : Nat) (bs : List Byte) :
    (respond s st v bs).inputs = s.inputs := rfl

@[simp] theorem respond_responses (s : State) (st : Status) (v : Nat) (bs : List Byte) :
    (respond s st v bs).responses = s.responses ++ [⟨st, BitVec.ofNat 32 v, bs⟩] := rfl

@[simp] theorem respond_refused (s : State) (st : Status) (v : Nat) (bs : List Byte) :
    (respond s st v bs).refused = s.refused := rfl

/-! ### setLatch_matcher -/

@[simp] theorem setLatch_matcher_m (f : FaultCode) (s : State) :
    (setLatch .matcher f s).m = { s.m with faulted := some f } := rfl

@[simp] theorem setLatch_matcher_d (f : FaultCode) (s : State) :
    (setLatch .matcher f s).d = s.d := rfl

@[simp] theorem setLatch_matcher_e (f : FaultCode) (s : State) :
    (setLatch .matcher f s).e = s.e := rfl

@[simp] theorem setLatch_matcher_t (f : FaultCode) (s : State) :
    (setLatch .matcher f s).t = s.t := rfl

@[simp] theorem setLatch_matcher_inputs (f : FaultCode) (s : State) :
    (setLatch .matcher f s).inputs = s.inputs := rfl

@[simp] theorem setLatch_matcher_responses (f : FaultCode) (s : State) :
    (setLatch .matcher f s).responses = s.responses := rfl

@[simp] theorem setLatch_matcher_refused (f : FaultCode) (s : State) :
    (setLatch .matcher f s).refused = s.refused := rfl

/-! ### setLatch_decoder -/

@[simp] theorem setLatch_decoder_m (f : FaultCode) (s : State) :
    (setLatch .decoder f s).m = s.m := rfl

@[simp] theorem setLatch_decoder_d (f : FaultCode) (s : State) :
    (setLatch .decoder f s).d = { s.d with faulted := some f } := rfl

@[simp] theorem setLatch_decoder_e (f : FaultCode) (s : State) :
    (setLatch .decoder f s).e = s.e := rfl

@[simp] theorem setLatch_decoder_t (f : FaultCode) (s : State) :
    (setLatch .decoder f s).t = s.t := rfl

@[simp] theorem setLatch_decoder_inputs (f : FaultCode) (s : State) :
    (setLatch .decoder f s).inputs = s.inputs := rfl

@[simp] theorem setLatch_decoder_responses (f : FaultCode) (s : State) :
    (setLatch .decoder f s).responses = s.responses := rfl

@[simp] theorem setLatch_decoder_refused (f : FaultCode) (s : State) :
    (setLatch .decoder f s).refused = s.refused := rfl

/-! ### raiseFault_matcher -/

@[simp] theorem raiseFault_matcher_m (f : FaultCode) (s : State) :
    (raiseFault .matcher f s).m = { s.m with faulted := some f } := rfl

@[simp] theorem raiseFault_matcher_d (f : FaultCode) (s : State) :
    (raiseFault .matcher f s).d = s.d := rfl

@[simp] theorem raiseFault_matcher_e (f : FaultCode) (s : State) :
    (raiseFault .matcher f s).e = s.e := rfl

@[simp] theorem raiseFault_matcher_t (f : FaultCode) (s : State) :
    (raiseFault .matcher f s).t = s.t := rfl

@[simp] theorem raiseFault_matcher_inputs (f : FaultCode) (s : State) :
    (raiseFault .matcher f s).inputs = s.inputs := rfl

@[simp] theorem raiseFault_matcher_responses (f : FaultCode) (s : State) :
    (raiseFault .matcher f s).responses = s.responses ++ [⟨.fault f, 0#32, []⟩] := rfl

@[simp] theorem raiseFault_matcher_refused (f : FaultCode) (s : State) :
    (raiseFault .matcher f s).refused = s.refused := rfl

/-! ### raiseFault_decoder -/

@[simp] theorem raiseFault_decoder_m (f : FaultCode) (s : State) :
    (raiseFault .decoder f s).m = s.m := rfl

@[simp] theorem raiseFault_decoder_d (f : FaultCode) (s : State) :
    (raiseFault .decoder f s).d = { s.d with faulted := some f } := rfl

@[simp] theorem raiseFault_decoder_e (f : FaultCode) (s : State) :
    (raiseFault .decoder f s).e = s.e := rfl

@[simp] theorem raiseFault_decoder_t (f : FaultCode) (s : State) :
    (raiseFault .decoder f s).t = s.t := rfl

@[simp] theorem raiseFault_decoder_inputs (f : FaultCode) (s : State) :
    (raiseFault .decoder f s).inputs = s.inputs := rfl

@[simp] theorem raiseFault_decoder_responses (f : FaultCode) (s : State) :
    (raiseFault .decoder f s).responses = s.responses ++ [⟨.fault f, 0#32, []⟩] := rfl

@[simp] theorem raiseFault_decoder_refused (f : FaultCode) (s : State) :
    (raiseFault .decoder f s).refused = s.refused := rfl

/-! ### refuseMode -/

@[simp] theorem refuseMode_m (s : State) :
    (refuseMode s).m = s.m := rfl

@[simp] theorem refuseMode_d (s : State) :
    (refuseMode s).d = s.d := rfl

@[simp] theorem refuseMode_e (s : State) :
    (refuseMode s).e = s.e := rfl

@[simp] theorem refuseMode_t (s : State) :
    (refuseMode s).t = s.t := rfl

@[simp] theorem refuseMode_inputs (s : State) :
    (refuseMode s).inputs = s.inputs := rfl

@[simp] theorem refuseMode_responses (s : State) :
    (refuseMode s).responses = s.responses ++ [⟨.refusedMode, 0#32, []⟩] := rfl

@[simp] theorem refuseMode_refused (s : State) :
    (refuseMode s).refused = true := rfl

/-! ### powerOn -/

@[simp] theorem powerOn_m (s : State) :
    (powerOn s).m = Matcher.powerOn (s.m.winEpoch + 1) := rfl

@[simp] theorem powerOn_d (s : State) :
    (powerOn s).d = Decoder.powerOn (s.d.epoch + 1) := rfl

@[simp] theorem powerOn_e (s : State) :
    (powerOn s).e = { s.e with err := none, log := [] } := rfl

@[simp] theorem powerOn_t (s : State) :
    (powerOn s).t = ⟨none, [], s.t.epoch + 1⟩ := rfl

@[simp] theorem powerOn_inputs (s : State) :
    (powerOn s).inputs = s.inputs := rfl

@[simp] theorem powerOn_responses (s : State) :
    (powerOn s).responses = s.responses := rfl

@[simp] theorem powerOn_refused (s : State) :
    (powerOn s).refused = false := rfl

/-! ### placeInput -/

@[simp] theorem placeInput_m (x : HostInput) (s : State) :
    (placeInput x s).m = s.m := rfl

@[simp] theorem placeInput_d (x : HostInput) (s : State) :
    (placeInput x s).d = s.d := rfl

@[simp] theorem placeInput_e (x : HostInput) (s : State) :
    (placeInput x s).e = s.e := rfl

@[simp] theorem placeInput_t (x : HostInput) (s : State) :
    (placeInput x s).t = s.t := rfl

@[simp] theorem placeInput_inputs (x : HostInput) (s : State) :
    (placeInput x s).inputs = x :: s.inputs := rfl

@[simp] theorem placeInput_responses (x : HostInput) (s : State) :
    (placeInput x s).responses = s.responses := rfl

@[simp] theorem placeInput_refused (x : HostInput) (s : State) :
    (placeInput x s).refused = s.refused := rfl

/-! ### takeToken -/

@[simp] theorem takeToken_m (t : Token) (s : State) :
    (takeToken t s).m = s.m := rfl

@[simp] theorem takeToken_d (t : Token) (s : State) :
    (takeToken t s).d = s.d := rfl

@[simp] theorem takeToken_e (t : Token) (s : State) :
    (takeToken t s).e = s.e := rfl

@[simp] theorem takeToken_t (t : Token) (s : State) :
    (takeToken t s).t = ⟨some (readToken t), expandToken (Config.freeStreamByte s.t.epoch) s.t.stream t, s.t.epoch⟩ := rfl

@[simp] theorem takeToken_inputs (t : Token) (s : State) :
    (takeToken t s).inputs = s.inputs := rfl

@[simp] theorem takeToken_responses (t : Token) (s : State) :
    (takeToken t s).responses = s.responses := rfl

@[simp] theorem takeToken_refused (t : Token) (s : State) :
    (takeToken t s).refused = s.refused := rfl

/-! ### putWin -/

@[simp] theorem putWin_configured (m : Matcher) (a : Nat) (bs : List Byte) :
    (putWin m a bs).configured = m.configured := rfl

@[simp] theorem putWin_faulted (m : Matcher) (a : Nat) (bs : List Byte) :
    (putWin m a bs).faulted = m.faulted := rfl

@[simp] theorem putWin_params (m : Matcher) (a : Nat) (bs : List Byte) :
    (putWin m a bs).params = m.params := rfl

@[simp] theorem putWin_index (m : Matcher) (a : Nat) (bs : List Byte) :
    (putWin m a bs).index = m.index := rfl

@[simp] theorem putWin_windowEnd (m : Matcher) (a : Nat) (bs : List Byte) :
    (putWin m a bs).windowEnd = m.windowEnd := rfl

@[simp] theorem putWin_blockStart (m : Matcher) (a : Nat) (bs : List Byte) :
    (putWin m a bs).blockStart = m.blockStart := rfl

@[simp] theorem putWin_hashOffset (m : Matcher) (a : Nat) (bs : List Byte) :
    (putWin m a bs).hashOffset = m.hashOffset := rfl

@[simp] theorem putWin_chainHead (m : Matcher) (a : Nat) (bs : List Byte) :
    (putWin m a bs).chainHead = m.chainHead := rfl

@[simp] theorem putWin_length (m : Matcher) (a : Nat) (bs : List Byte) :
    (putWin m a bs).length = m.length := rfl

@[simp] theorem putWin_offset (m : Matcher) (a : Nat) (bs : List Byte) :
    (putWin m a bs).offset = m.offset := rfl

@[simp] theorem putWin_byteAvailable (m : Matcher) (a : Nat) (bs : List Byte) :
    (putWin m a bs).byteAvailable = m.byteAvailable := rfl

@[simp] theorem putWin_maxInsertIndex (m : Matcher) (a : Nat) (bs : List Byte) :
    (putWin m a bs).maxInsertIndex = m.maxInsertIndex := rfl

@[simp] theorem putWin_sync (m : Matcher) (a : Nat) (bs : List Byte) :
    (putWin m a bs).sync = m.sync := rfl

@[simp] theorem putWin_err (m : Matcher) (a : Nat) (bs : List Byte) :
    (putWin m a bs).err = m.err := rfl

@[simp] theorem putWin_tokq (m : Matcher) (a : Nat) (bs : List Byte) :
    (putWin m a bs).tokq = m.tokq := rfl

@[simp] theorem putWin_win (m : Matcher) (a : Nat) (bs : List Byte) :
    (putWin m a bs).win = Memory.putRun m.win a bs := rfl

@[simp] theorem putWin_head (m : Matcher) (a : Nat) (bs : List Byte) :
    (putWin m a bs).head = m.head := rfl

@[simp] theorem putWin_prev (m : Matcher) (a : Nat) (bs : List Byte) :
    (putWin m a bs).prev = m.prev := rfl

@[simp] theorem putWin_winEpoch (m : Matcher) (a : Nat) (bs : List Byte) :
    (putWin m a bs).winEpoch = m.winEpoch := rfl

/-! ### putHead -/

@[simp] theorem putHead_configured (m : Matcher) (h : Nat) (v : Word32) :
    (putHead m h v).configured = m.configured := rfl

@[simp] theorem putHead_faulted (m : Matcher) (h : Nat) (v : Word32) :
    (putHead m h v).faulted = m.faulted := rfl

@[simp] theorem putHead_params (m : Matcher) (h : Nat) (v : Word32) :
    (putHead m h v).params = m.params := rfl

@[simp] theorem putHead_index (m : Matcher) (h : Nat) (v : Word32) :
    (putHead m h v).index = m.index := rfl

@[simp] theorem putHead_windowEnd (m : Matcher) (h : Nat) (v : Word32) :
    (putHead m h v).windowEnd = m.windowEnd := rfl

@[simp] theorem putHead_blockStart (m : Matcher) (h : Nat) (v : Word32) :
    (putHead m h v).blockStart = m.blockStart := rfl

@[simp] theorem putHead_hashOffset (m : Matcher) (h : Nat) (v : Word32) :
    (putHead m h v).hashOffset = m.hashOffset := rfl

@[simp] theorem putHead_chainHead (m : Matcher) (h : Nat) (v : Word32) :
    (putHead m h v).chainHead = m.chainHead := rfl

@[simp] theorem putHead_length (m : Matcher) (h : Nat) (v : Word32) :
    (putHead m h v).length = m.length := rfl

@[simp] theorem putHead_offset (m : Matcher) (h : Nat) (v : Word32) :
    (putHead m h v).offset = m.offset := rfl

@[simp] theorem putHead_byteAvailable (m : Matcher) (h : Nat) (v : Word32) :
    (putHead m h v).byteAvailable = m.byteAvailable := rfl

@[simp] theorem putHead_maxInsertIndex (m : Matcher) (h : Nat) (v : Word32) :
    (putHead m h v).maxInsertIndex = m.maxInsertIndex := rfl

@[simp] theorem putHead_sync (m : Matcher) (h : Nat) (v : Word32) :
    (putHead m h v).sync = m.sync := rfl

@[simp] theorem putHead_err (m : Matcher) (h : Nat) (v : Word32) :
    (putHead m h v).err = m.err := rfl

@[simp] theorem putHead_tokq (m : Matcher) (h : Nat) (v : Word32) :
    (putHead m h v).tokq = m.tokq := rfl

@[simp] theorem putHead_win (m : Matcher) (h : Nat) (v : Word32) :
    (putHead m h v).win = m.win := rfl

@[simp] theorem putHead_head (m : Matcher) (h : Nat) (v : Word32) :
    (putHead m h v).head = Memory.writeWord m.head h v := rfl

@[simp] theorem putHead_prev (m : Matcher) (h : Nat) (v : Word32) :
    (putHead m h v).prev = m.prev := rfl

@[simp] theorem putHead_winEpoch (m : Matcher) (h : Nat) (v : Word32) :
    (putHead m h v).winEpoch = m.winEpoch := rfl

/-! ### putPrev -/

@[simp] theorem putPrev_configured (m : Matcher) (p : Nat) (v : Word32) :
    (putPrev m p v).configured = m.configured := rfl

@[simp] theorem putPrev_faulted (m : Matcher) (p : Nat) (v : Word32) :
    (putPrev m p v).faulted = m.faulted := rfl

@[simp] theorem putPrev_params (m : Matcher) (p : Nat) (v : Word32) :
    (putPrev m p v).params = m.params := rfl

@[simp] theorem putPrev_index (m : Matcher) (p : Nat) (v : Word32) :
    (putPrev m p v).index = m.index := rfl

@[simp] theorem putPrev_windowEnd (m : Matcher) (p : Nat) (v : Word32) :
    (putPrev m p v).windowEnd = m.windowEnd := rfl

@[simp] theorem putPrev_blockStart (m : Matcher) (p : Nat) (v : Word32) :
    (putPrev m p v).blockStart = m.blockStart := rfl

@[simp] theorem putPrev_hashOffset (m : Matcher) (p : Nat) (v : Word32) :
    (putPrev m p v).hashOffset = m.hashOffset := rfl

@[simp] theorem putPrev_chainHead (m : Matcher) (p : Nat) (v : Word32) :
    (putPrev m p v).chainHead = m.chainHead := rfl

@[simp] theorem putPrev_length (m : Matcher) (p : Nat) (v : Word32) :
    (putPrev m p v).length = m.length := rfl

@[simp] theorem putPrev_offset (m : Matcher) (p : Nat) (v : Word32) :
    (putPrev m p v).offset = m.offset := rfl

@[simp] theorem putPrev_byteAvailable (m : Matcher) (p : Nat) (v : Word32) :
    (putPrev m p v).byteAvailable = m.byteAvailable := rfl

@[simp] theorem putPrev_maxInsertIndex (m : Matcher) (p : Nat) (v : Word32) :
    (putPrev m p v).maxInsertIndex = m.maxInsertIndex := rfl

@[simp] theorem putPrev_sync (m : Matcher) (p : Nat) (v : Word32) :
    (putPrev m p v).sync = m.sync := rfl

@[simp] theorem putPrev_err (m : Matcher) (p : Nat) (v : Word32) :
    (putPrev m p v).err = m.err := rfl

@[simp] theorem putPrev_tokq (m : Matcher) (p : Nat) (v : Word32) :
    (putPrev m p v).tokq = m.tokq := rfl

@[simp] theorem putPrev_win (m : Matcher) (p : Nat) (v : Word32) :
    (putPrev m p v).win = m.win := rfl

@[simp] theorem putPrev_head (m : Matcher) (p : Nat) (v : Word32) :
    (putPrev m p v).head = m.head := rfl

@[simp] theorem putPrev_prev (m : Matcher) (p : Nat) (v : Word32) :
    (putPrev m p v).prev = Memory.writeWord m.prev (p % 32768) v := rfl

@[simp] theorem putPrev_winEpoch (m : Matcher) (p : Nat) (v : Word32) :
    (putPrev m p v).winEpoch = m.winEpoch := rfl

/-! ### insertHash -/

@[simp] theorem insertHash_configured (m : Matcher) (p : Nat) :
    (insertHash m p).configured = m.configured := rfl

@[simp] theorem insertHash_faulted (m : Matcher) (p : Nat) :
    (insertHash m p).faulted = m.faulted := rfl

@[simp] theorem insertHash_params (m : Matcher) (p : Nat) :
    (insertHash m p).params = m.params := rfl

@[simp] theorem insertHash_index (m : Matcher) (p : Nat) :
    (insertHash m p).index = m.index := rfl

@[simp] theorem insertHash_windowEnd (m : Matcher) (p : Nat) :
    (insertHash m p).windowEnd = m.windowEnd := rfl

@[simp] theorem insertHash_blockStart (m : Matcher) (p : Nat) :
    (insertHash m p).blockStart = m.blockStart := rfl

@[simp] theorem insertHash_hashOffset (m : Matcher) (p : Nat) :
    (insertHash m p).hashOffset = m.hashOffset := rfl

@[simp] theorem insertHash_chainHead (m : Matcher) (p : Nat) :
    (insertHash m p).chainHead = m.chainHead := rfl

@[simp] theorem insertHash_length (m : Matcher) (p : Nat) :
    (insertHash m p).length = m.length := rfl

@[simp] theorem insertHash_offset (m : Matcher) (p : Nat) :
    (insertHash m p).offset = m.offset := rfl

@[simp] theorem insertHash_byteAvailable (m : Matcher) (p : Nat) :
    (insertHash m p).byteAvailable = m.byteAvailable := rfl

@[simp] theorem insertHash_maxInsertIndex (m : Matcher) (p : Nat) :
    (insertHash m p).maxInsertIndex = m.maxInsertIndex := rfl

@[simp] theorem insertHash_sync (m : Matcher) (p : Nat) :
    (insertHash m p).sync = m.sync := rfl

@[simp] theorem insertHash_err (m : Matcher) (p : Nat) :
    (insertHash m p).err = m.err := rfl

@[simp] theorem insertHash_tokq (m : Matcher) (p : Nat) :
    (insertHash m p).tokq = m.tokq := rfl

@[simp] theorem insertHash_win (m : Matcher) (p : Nat) :
    (insertHash m p).win = m.win := rfl

@[simp] theorem insertHash_head (m : Matcher) (p : Nat) :
    (insertHash m p).head = Memory.writeWord m.head (bucket m p) (BitVec.ofNat 32 (p + m.hashOffset)) := rfl

@[simp] theorem insertHash_prev (m : Matcher) (p : Nat) :
    (insertHash m p).prev = Memory.writeWord m.prev (p % 32768) (headWord m (bucket m p)) := rfl

@[simp] theorem insertHash_winEpoch (m : Matcher) (p : Nat) :
    (insertHash m p).winEpoch = m.winEpoch := rfl

/-! ### updateHead -/

@[simp] theorem updateHead_configured (m : Matcher) (p : Nat) :
    (updateHead m p).configured = m.configured := rfl

@[simp] theorem updateHead_faulted (m : Matcher) (p : Nat) :
    (updateHead m p).faulted = m.faulted := rfl

@[simp] theorem updateHead_params (m : Matcher) (p : Nat) :
    (updateHead m p).params = m.params := rfl

@[simp] theorem updateHead_index (m : Matcher) (p : Nat) :
    (updateHead m p).index = m.index := rfl

@[simp] theorem updateHead_windowEnd (m : Matcher) (p : Nat) :
    (updateHead m p).windowEnd = m.windowEnd := rfl

@[simp] theorem updateHead_blockStart (m : Matcher) (p : Nat) :
    (updateHead m p).blockStart = m.blockStart := rfl

@[simp] theorem updateHead_hashOffset (m : Matcher) (p : Nat) :
    (updateHead m p).hashOffset = m.hashOffset := rfl

@[simp] theorem updateHead_chainHead (m : Matcher) (p : Nat) :
    (updateHead m p).chainHead = ((headWord m (bucket m p)).toNat : Int) := rfl

@[simp] theorem updateHead_length (m : Matcher) (p : Nat) :
    (updateHead m p).length = m.length := rfl

@[simp] theorem updateHead_offset (m : Matcher) (p : Nat) :
    (updateHead m p).offset = m.offset := rfl

@[simp] theorem updateHead_byteAvailable (m : Matcher) (p : Nat) :
    (updateHead m p).byteAvailable = m.byteAvailable := rfl

@[simp] theorem updateHead_maxInsertIndex (m : Matcher) (p : Nat) :
    (updateHead m p).maxInsertIndex = m.maxInsertIndex := rfl

@[simp] theorem updateHead_sync (m : Matcher) (p : Nat) :
    (updateHead m p).sync = m.sync := rfl

@[simp] theorem updateHead_err (m : Matcher) (p : Nat) :
    (updateHead m p).err = m.err := rfl

@[simp] theorem updateHead_tokq (m : Matcher) (p : Nat) :
    (updateHead m p).tokq = m.tokq := rfl

@[simp] theorem updateHead_win (m : Matcher) (p : Nat) :
    (updateHead m p).win = m.win := rfl

@[simp] theorem updateHead_head (m : Matcher) (p : Nat) :
    (updateHead m p).head = Memory.writeWord m.head (bucket m p) (BitVec.ofNat 32 (p + m.hashOffset)) := rfl

@[simp] theorem updateHead_prev (m : Matcher) (p : Nat) :
    (updateHead m p).prev = Memory.writeWord m.prev (p % 32768) (headWord m (bucket m p)) := rfl

@[simp] theorem updateHead_winEpoch (m : Matcher) (p : Nat) :
    (updateHead m p).winEpoch = m.winEpoch := rfl

/-! ### appendToken -/

@[simp] theorem appendToken_configured (m : Matcher) (t : Token) :
    (appendToken m t).configured = m.configured := rfl

@[simp] theorem appendToken_faulted (m : Matcher) (t : Token) :
    (appendToken m t).faulted = m.faulted := rfl

@[simp] theorem appendToken_params (m : Matcher) (t : Token) :
    (appendToken m t).params = m.params := rfl

@[simp] theorem appendToken_index (m : Matcher) (t : Token) :
    (appendToken m t).index = m.index := rfl

@[simp] theorem appendToken_windowEnd (m : Matcher) (t : Token) :
    (appendToken m t).windowEnd = m.windowEnd := rfl

@[simp] theorem appendToken_blockStart (m : Matcher) (t : Token) :
    (appendToken m t).blockStart = m.blockStart := rfl

@[simp] theorem appendToken_hashOffset (m : Matcher) (t : Token) :
    (appendToken m t).hashOffset = m.hashOffset := rfl

@[simp] theorem appendToken_chainHead (m : Matcher) (t : Token) :
    (appendToken m t).chainHead = m.chainHead := rfl

@[simp] theorem appendToken_length (m : Matcher) (t : Token) :
    (appendToken m t).length = m.length := rfl

@[simp] theorem appendToken_offset (m : Matcher) (t : Token) :
    (appendToken m t).offset = m.offset := rfl

@[simp] theorem appendToken_byteAvailable (m : Matcher) (t : Token) :
    (appendToken m t).byteAvailable = m.byteAvailable := rfl

@[simp] theorem appendToken_maxInsertIndex (m : Matcher) (t : Token) :
    (appendToken m t).maxInsertIndex = m.maxInsertIndex := rfl

@[simp] theorem appendToken_sync (m : Matcher) (t : Token) :
    (appendToken m t).sync = m.sync := rfl

@[simp] theorem appendToken_err (m : Matcher) (t : Token) :
    (appendToken m t).err = m.err := rfl

@[simp] theorem appendToken_tokq (m : Matcher) (t : Token) :
    (appendToken m t).tokq = m.tokq ++ [t] := rfl

@[simp] theorem appendToken_win (m : Matcher) (t : Token) :
    (appendToken m t).win = m.win := rfl

@[simp] theorem appendToken_head (m : Matcher) (t : Token) :
    (appendToken m t).head = m.head := rfl

@[simp] theorem appendToken_prev (m : Matcher) (t : Token) :
    (appendToken m t).prev = m.prev := rfl

@[simp] theorem appendToken_winEpoch (m : Matcher) (t : Token) :
    (appendToken m t).winEpoch = m.winEpoch := rfl

/-! ### releaseLiteral -/

@[simp] theorem releaseLiteral_configured (m : Matcher) :
    (releaseLiteral m).configured = m.configured := rfl

@[simp] theorem releaseLiteral_faulted (m : Matcher) :
    (releaseLiteral m).faulted = m.faulted := rfl

@[simp] theorem releaseLiteral_params (m : Matcher) :
    (releaseLiteral m).params = m.params := rfl

@[simp] theorem releaseLiteral_index (m : Matcher) :
    (releaseLiteral m).index = m.index := rfl

@[simp] theorem releaseLiteral_windowEnd (m : Matcher) :
    (releaseLiteral m).windowEnd = m.windowEnd := rfl

@[simp] theorem releaseLiteral_blockStart (m : Matcher) :
    (releaseLiteral m).blockStart = m.blockStart := rfl

@[simp] theorem releaseLiteral_hashOffset (m : Matcher) :
    (releaseLiteral m).hashOffset = m.hashOffset := rfl

@[simp] theorem releaseLiteral_chainHead (m : Matcher) :
    (releaseLiteral m).chainHead = m.chainHead := rfl

@[simp] theorem releaseLiteral_length (m : Matcher) :
    (releaseLiteral m).length = m.length := rfl

@[simp] theorem releaseLiteral_offset (m : Matcher) :
    (releaseLiteral m).offset = m.offset := rfl

@[simp] theorem releaseLiteral_byteAvailable (m : Matcher) :
    (releaseLiteral m).byteAvailable = false := rfl

@[simp] theorem releaseLiteral_maxInsertIndex (m : Matcher) :
    (releaseLiteral m).maxInsertIndex = m.maxInsertIndex := rfl

@[simp] theorem releaseLiteral_sync (m : Matcher) :
    (releaseLiteral m).sync = m.sync := rfl

@[simp] theorem releaseLiteral_err (m : Matcher) :
    (releaseLiteral m).err = m.err := rfl

@[simp] theorem releaseLiteral_tokq (m : Matcher) :
    (releaseLiteral m).tokq = m.tokq := rfl

@[simp] theorem releaseLiteral_win (m : Matcher) :
    (releaseLiteral m).win = m.win := rfl

@[simp] theorem releaseLiteral_head (m : Matcher) :
    (releaseLiteral m).head = m.head := rfl

@[simp] theorem releaseLiteral_prev (m : Matcher) :
    (releaseLiteral m).prev = m.prev := rfl

@[simp] theorem releaseLiteral_winEpoch (m : Matcher) :
    (releaseLiteral m).winEpoch = m.winEpoch := rfl

/-! ### holdLiteral -/

@[simp] theorem holdLiteral_configured (m : Matcher) :
    (holdLiteral m).configured = m.configured := rfl

@[simp] theorem holdLiteral_faulted (m : Matcher) :
    (holdLiteral m).faulted = m.faulted := rfl

@[simp] theorem holdLiteral_params (m : Matcher) :
    (holdLiteral m).params = m.params := rfl

@[simp] theorem holdLiteral_index (m : Matcher) :
    (holdLiteral m).index = m.index := rfl

@[simp] theorem holdLiteral_windowEnd (m : Matcher) :
    (holdLiteral m).windowEnd = m.windowEnd := rfl

@[simp] theorem holdLiteral_blockStart (m : Matcher) :
    (holdLiteral m).blockStart = m.blockStart := rfl

@[simp] theorem holdLiteral_hashOffset (m : Matcher) :
    (holdLiteral m).hashOffset = m.hashOffset := rfl

@[simp] theorem holdLiteral_chainHead (m : Matcher) :
    (holdLiteral m).chainHead = m.chainHead := rfl

@[simp] theorem holdLiteral_length (m : Matcher) :
    (holdLiteral m).length = m.length := rfl

@[simp] theorem holdLiteral_offset (m : Matcher) :
    (holdLiteral m).offset = m.offset := rfl

@[simp] theorem holdLiteral_byteAvailable (m : Matcher) :
    (holdLiteral m).byteAvailable = true := rfl

@[simp] theorem holdLiteral_maxInsertIndex (m : Matcher) :
    (holdLiteral m).maxInsertIndex = m.maxInsertIndex := rfl

@[simp] theorem holdLiteral_sync (m : Matcher) :
    (holdLiteral m).sync = m.sync := rfl

@[simp] theorem holdLiteral_err (m : Matcher) :
    (holdLiteral m).err = m.err := rfl

@[simp] theorem holdLiteral_tokq (m : Matcher) :
    (holdLiteral m).tokq = m.tokq := rfl

@[simp] theorem holdLiteral_win (m : Matcher) :
    (holdLiteral m).win = m.win := rfl

@[simp] theorem holdLiteral_head (m : Matcher) :
    (holdLiteral m).head = m.head := rfl

@[simp] theorem holdLiteral_prev (m : Matcher) :
    (holdLiteral m).prev = m.prev := rfl

@[simp] theorem holdLiteral_winEpoch (m : Matcher) :
    (holdLiteral m).winEpoch = m.winEpoch := rfl

/-! ### clearMatch -/

@[simp] theorem clearMatch_configured (m : Matcher) :
    (clearMatch m).configured = m.configured := rfl

@[simp] theorem clearMatch_faulted (m : Matcher) :
    (clearMatch m).faulted = m.faulted := rfl

@[simp] theorem clearMatch_params (m : Matcher) :
    (clearMatch m).params = m.params := rfl

@[simp] theorem clearMatch_index (m : Matcher) :
    (clearMatch m).index = m.index := rfl

@[simp] theorem clearMatch_windowEnd (m : Matcher) :
    (clearMatch m).windowEnd = m.windowEnd := rfl

@[simp] theorem clearMatch_blockStart (m : Matcher) :
    (clearMatch m).blockStart = m.blockStart := rfl

@[simp] theorem clearMatch_hashOffset (m : Matcher) :
    (clearMatch m).hashOffset = m.hashOffset := rfl

@[simp] theorem clearMatch_chainHead (m : Matcher) :
    (clearMatch m).chainHead = m.chainHead := rfl

@[simp] theorem clearMatch_length (m : Matcher) :
    (clearMatch m).length = 3 := rfl

@[simp] theorem clearMatch_offset (m : Matcher) :
    (clearMatch m).offset = 0 := rfl

@[simp] theorem clearMatch_byteAvailable (m : Matcher) :
    (clearMatch m).byteAvailable = m.byteAvailable := rfl

@[simp] theorem clearMatch_maxInsertIndex (m : Matcher) :
    (clearMatch m).maxInsertIndex = m.maxInsertIndex := rfl

@[simp] theorem clearMatch_sync (m : Matcher) :
    (clearMatch m).sync = m.sync := rfl

@[simp] theorem clearMatch_err (m : Matcher) :
    (clearMatch m).err = m.err := rfl

@[simp] theorem clearMatch_tokq (m : Matcher) :
    (clearMatch m).tokq = m.tokq := rfl

@[simp] theorem clearMatch_win (m : Matcher) :
    (clearMatch m).win = m.win := rfl

@[simp] theorem clearMatch_head (m : Matcher) :
    (clearMatch m).head = m.head := rfl

@[simp] theorem clearMatch_prev (m : Matcher) :
    (clearMatch m).prev = m.prev := rfl

@[simp] theorem clearMatch_winEpoch (m : Matcher) :
    (clearMatch m).winEpoch = m.winEpoch := rfl

/-! ### clearMatcher -/

@[simp] theorem clearMatcher_configured (m : Matcher) :
    (clearMatcher m).configured = m.configured := rfl

@[simp] theorem clearMatcher_faulted (m : Matcher) :
    (clearMatcher m).faulted = m.faulted := rfl

@[simp] theorem clearMatcher_params (m : Matcher) :
    (clearMatcher m).params = m.params := rfl

@[simp] theorem clearMatcher_index (m : Matcher) :
    (clearMatcher m).index = 0 := rfl

@[simp] theorem clearMatcher_windowEnd (m : Matcher) :
    (clearMatcher m).windowEnd = 0 := rfl

@[simp] theorem clearMatcher_blockStart (m : Matcher) :
    (clearMatcher m).blockStart = 0 := rfl

@[simp] theorem clearMatcher_hashOffset (m : Matcher) :
    (clearMatcher m).hashOffset = 1 := rfl

@[simp] theorem clearMatcher_chainHead (m : Matcher) :
    (clearMatcher m).chainHead = -1 := rfl

@[simp] theorem clearMatcher_length (m : Matcher) :
    (clearMatcher m).length = 3 := rfl

@[simp] theorem clearMatcher_offset (m : Matcher) :
    (clearMatcher m).offset = 0 := rfl

@[simp] theorem clearMatcher_byteAvailable (m : Matcher) :
    (clearMatcher m).byteAvailable = false := rfl

@[simp] theorem clearMatcher_maxInsertIndex (m : Matcher) :
    (clearMatcher m).maxInsertIndex = 0 := rfl

@[simp] theorem clearMatcher_sync (m : Matcher) :
    (clearMatcher m).sync = false := rfl

@[simp] theorem clearMatcher_err (m : Matcher) :
    (clearMatcher m).err = .noError := rfl

@[simp] theorem clearMatcher_tokq (m : Matcher) :
    (clearMatcher m).tokq = [] := rfl

@[simp] theorem clearMatcher_win (m : Matcher) :
    (clearMatcher m).win = m.win := rfl

@[simp] theorem clearMatcher_head (m : Matcher) :
    (clearMatcher m).head = [] := rfl

@[simp] theorem clearMatcher_prev (m : Matcher) :
    (clearMatcher m).prev = [] := rfl

@[simp] theorem clearMatcher_winEpoch (m : Matcher) :
    (clearMatcher m).winEpoch = m.winEpoch := rfl

/-! ### putHist -/

@[simp] theorem putHist_configured (d : Decoder) (a : Nat) (c : Byte) :
    (putHist d a c).configured = d.configured := rfl

@[simp] theorem putHist_faulted (d : Decoder) (a : Nat) (c : Byte) :
    (putHist d a c).faulted = d.faulted := rfl

@[simp] theorem putHist_size (d : Decoder) (a : Nat) (c : Byte) :
    (putHist d a c).size = d.size := rfl

@[simp] theorem putHist_wrPos (d : Decoder) (a : Nat) (c : Byte) :
    (putHist d a c).wrPos = d.wrPos := rfl

@[simp] theorem putHist_rdPos (d : Decoder) (a : Nat) (c : Byte) :
    (putHist d a c).rdPos = d.rdPos := rfl

@[simp] theorem putHist_full (d : Decoder) (a : Nat) (c : Byte) :
    (putHist d a c).full = d.full := rfl

@[simp] theorem putHist_viewLen (d : Decoder) (a : Nat) (c : Byte) :
    (putHist d a c).viewLen = d.viewLen := rfl

@[simp] theorem putHist_stashPos (d : Decoder) (a : Nat) (c : Byte) :
    (putHist d a c).stashPos = d.stashPos := rfl

@[simp] theorem putHist_stashLen (d : Decoder) (a : Nat) (c : Byte) :
    (putHist d a c).stashLen = d.stashLen := rfl

@[simp] theorem putHist_hist (d : Decoder) (a : Nat) (c : Byte) :
    (putHist d a c).hist = Memory.put d.hist a c := rfl

@[simp] theorem putHist_epoch (d : Decoder) (a : Nat) (c : Byte) :
    (putHist d a c).epoch = d.epoch := rfl

/-! ### closeView -/

@[simp] theorem closeView_configured (d : Decoder) :
    (closeView d).configured = d.configured := rfl

@[simp] theorem closeView_faulted (d : Decoder) :
    (closeView d).faulted = d.faulted := rfl

@[simp] theorem closeView_size (d : Decoder) :
    (closeView d).size = d.size := rfl

@[simp] theorem closeView_wrPos (d : Decoder) :
    (closeView d).wrPos = d.wrPos := rfl

@[simp] theorem closeView_rdPos (d : Decoder) :
    (closeView d).rdPos = d.rdPos := rfl

@[simp] theorem closeView_full (d : Decoder) :
    (closeView d).full = d.full := rfl

@[simp] theorem closeView_viewLen (d : Decoder) :
    (closeView d).viewLen = 0 := rfl

@[simp] theorem closeView_stashPos (d : Decoder) :
    (closeView d).stashPos = d.stashPos := rfl

@[simp] theorem closeView_stashLen (d : Decoder) :
    (closeView d).stashLen = d.stashLen := rfl

@[simp] theorem closeView_hist (d : Decoder) :
    (closeView d).hist = d.hist := rfl

@[simp] theorem closeView_epoch (d : Decoder) :
    (closeView d).epoch = d.epoch := rfl

/-! ### The free bytes of a memory depend on its epoch only -/

theorem isFast_congr {m m' : Matcher} (h : m.params = m'.params) : isFast m = isFast m' := by
  unfold isFast; rw [h]

theorem winByte_congr {m m' : Matcher} (hw : m.win = m'.win) (he : m.winEpoch = m'.winEpoch) (a : Nat) :
    winByte m a = winByte m' a := by
  unfold winByte; rw [hw, he]

theorem winRun_congr {m m' : Matcher} (hw : m.win = m'.win) (he : m.winEpoch = m'.winEpoch) (a n : Nat) :
    winRun m a n = winRun m' a n := by
  unfold winRun; rw [hw, he]

end Sys2Proof.Machine
end

