-- ==== Sys2Proof/Laws/Search.lean ====
section
/-! SUPPORT. What the chain search answers (44_find_match.md R135 to R142): one lemma per function. -/

namespace Sys2Proof.Machine

/-! ### WIN reads -/

@[simp] theorem length_winRun (m : Matcher) (a n : Nat) : (winRun m a n).length = n := Memory.length_readRun _ _ _ _

theorem getElem?_winRun (m : Matcher) (a n k : Nat) :
    (winRun m a n)[k]? = if k < n then some (winByte m (a + k)) else none := Memory.getElem?_readRun _ _ _ _ _

/-! ### match_len (R135) -/

theorem commonLength_le_left (xs ys : List Byte) : commonLength xs ys ≤ xs.length := by
  induction xs generalizing ys with
  | nil => simp [commonLength]
  | cons x xs ih =>
    cases ys with
    | nil => simp [commonLength]
    | cons y ys =>
      simp only [commonLength, List.length_cons]
      split
      · have := ih ys; omega
      · omega

theorem commonLength_agree (xs ys : List Byte) (k : Nat) (h : k < commonLength xs ys) : xs[k]? = ys[k]? := by
  induction xs generalizing ys k with
  | nil => simp [commonLength] at h
  | cons x xs ih =>
    cases ys with
    | nil => simp [commonLength] at h
    | cons y ys =>
      simp only [commonLength] at h
      split at h
      · next hxy =>
        cases k with
        | zero => simp [hxy]
        | succ k => simpa using ih ys k (by omega)
      · omega

/-- Where the common start ends before both lists do, the lists differ. -/
theorem commonLength_differ (xs ys : List Byte) (hx : commonLength xs ys < xs.length)
    (hy : commonLength xs ys < ys.length) : xs[commonLength xs ys]? ≠ ys[commonLength xs ys]? := by
  induction xs generalizing ys with
  | nil => simp at hx
  | cons x xs ih =>
    cases ys with
    | nil => simp at hy
    | cons y ys =>
      by_cases hxy : x = y
      · simp only [commonLength, hxy, if_true, List.length_cons] at hx hy ⊢
        simpa using ih ys (by omega) (by omega)
      · simp [commonLength, hxy]

theorem matchLen_le (m : Matcher) (i pos mx : Nat) : matchLen m i pos mx ≤ mx := by
  have := commonLength_le_left (winRun m i mx) (winRun m pos mx)
  simpa [matchLen] using this

/-- Every byte before the match length agrees. -/
theorem matchLen_agree (m : Matcher) (i pos mx k : Nat) (h : k < matchLen m i pos mx) :
    winByte m (i + k) = winByte m (pos + k) := by
  have hk : k < mx := Nat.lt_of_lt_of_le h (matchLen_le m i pos mx)
  have := commonLength_agree _ _ k h
  rw [getElem?_winRun, getElem?_winRun, if_pos hk, if_pos hk] at this
  exact Option.some.inj this

/-- The byte at the match length differs, where the bound has not been reached. -/
theorem matchLen_differ (m : Matcher) (i pos mx : Nat) (h : matchLen m i pos mx < mx) :
    winByte m (i + matchLen m i pos mx) ≠ winByte m (pos + matchLen m i pos mx) := by
  have := commonLength_differ (winRun m i mx) (winRun m pos mx) (by simpa [matchLen] using h) (by simpa [matchLen] using h)
  rw [getElem?_winRun, getElem?_winRun] at this
  unfold matchLen at h ⊢
  rw [if_pos h, if_pos h] at this
  exact fun he => this (congrArg some he)

/-! ### The walk (R137, R138, R139) -/

/-- What a walk's running best is: nothing yet, or a match of the tie-break's form at `pos` (R139). -/
def GoodBest (m : Matcher) (pos mml : Nat) (best : Best) : Prop :=
  (best.ok = false ∧ best.length = 3 ∧ best.offset = 0) ∨
  (best.ok = true ∧ 4 ≤ best.length ∧ best.length ≤ mml ∧ 1 ≤ best.offset ∧ best.offset ≤ 32768 ∧ best.offset ≤ pos ∧
    (4 < best.length ∨ best.offset ≤ 4096) ∧
    ∀ k < best.length, winByte m (pos - best.offset + k) = winByte m (pos + k))

theorem improves_iff (n length dist : Nat) :
    improves n length dist = true ↔ length < n ∧ (4 < n ∨ dist ≤ 4096) := by
  simp [improves]

/-- One probe keeps the running best good, and never shortens it. -/
theorem probe_good {m : Matcher} {pos mml i : Nat} {best : Best} (hi : i < pos) (hfar : pos ≤ i + 32768)
    (hlen : 3 ≤ best.length) (hb : GoodBest m pos mml best) :
    GoodBest m pos mml (probe m pos mml i best) ∧
      (probe m pos mml i best = best ∨ best.length < (probe m pos mml i best).length) := by
  unfold probe
  split
  · by_cases himp : improves (matchLen m i pos mml) best.length (pos - i) = true
    · simp only [himp, if_true]
      obtain ⟨h1, h2⟩ := (improves_iff _ _ _).mp himp
      refine ⟨.inr ⟨rfl, (by omega : 4 ≤ matchLen m i pos mml), matchLen_le m i pos mml, ?_, ?_, ?_, h2, fun k hk => ?_⟩, .inr h1⟩
      · show 1 ≤ pos - i; omega
      · show pos - i ≤ 32768; omega
      · show pos - i ≤ pos; omega
      · show winByte m (pos - (pos - i) + k) = _
        rw [show pos - (pos - i) = i by omega]
        exact matchLen_agree m i pos mml k hk
    · simp only [himp]
      exact ⟨hb, .inl rfl⟩
  · exact ⟨hb, .inl rfl⟩

theorem goodBest_length {m : Matcher} {pos mml : Nat} {best : Best} (hb : GoodBest m pos mml best) :
    3 ≤ best.length := by
  rcases hb with ⟨-, h, -⟩ | ⟨-, h, -⟩ <;> omega

theorem prevWord_lt {m : Matcher} {bound : Nat} (hb : 0 < bound) (h : ∀ c ∈ m.prev, c.2.toNat < bound) (p : Nat) :
    (prevWord m p).toNat < bound := by
  unfold prevWord Memory.readWord
  cases hf : Memory.find m.prev (p % Config.windowSize) with
  | none => simpa using hb
  | some v => exact h _ (Memory.mem_of_find hf)

theorem headWord_lt {m : Matcher} {bound : Nat} (hb : 0 < bound) (h : ∀ c ∈ m.head, c.2.toNat < bound) (p : Nat) :
    (headWord m p).toNat < bound := by
  unfold headWord Memory.readWord
  cases hf : Memory.find m.head p with
  | none => simpa using hb
  | some v => exact h _ (Memory.mem_of_find hf)

/-- The walk answers, with a good best, from a candidate before `pos` and within reach, where every stored value is
that of a position before `pos`. -/
theorem walkChain_spec {m : Matcher} {pos mml nice : Nat} (hprev : ∀ c ∈ m.prev, c.2.toNat < pos + m.hashOffset)
    (hoff : 1 ≤ m.hashOffset) (htop : pos + mml ≤ 65536) (hnice : nice ≤ mml) :
    ∀ (tries i : Nat) (best : Best), i < pos → pos ≤ i + 32768 → best.length < mml → GoodBest m pos mml best →
      ∃ best', walkChain m pos mml nice tries i best = .ok best' ∧ GoodBest m pos mml best' := by
  intro tries
  induction tries with
  | zero => intro i best _ _ _ hb; exact ⟨best, rfl, hb⟩
  | succ tries ih =>
    intro i best hi hfar hlt hb
    obtain ⟨hg, hch⟩ := probe_good hi hfar (goodBest_length hb) hb
    unfold walkChain
    have hmax : ¬ Config.windowBytes < max i pos + max mml (best.length + 1) := by
      simp only [Config.windowBytes]; omega
    rw [if_neg hmax]
    simp only
    split
    · exact ⟨_, rfl, hg⟩
    · next hstop =>
      split
      · exact ⟨_, rfl, hg⟩
      · split
        · exact ⟨_, rfl, hg⟩
        · next hend =>
          have hp := prevWord_lt (by omega) hprev i
          simp only [Config.windowSize] at hend
          refine ih _ _ (by omega) (by omega) ?_ hg
          rcases hch with heq | hgt
          · rw [heq]; exact hlt
          · have hne : ((probe m pos mml i best).length != best.length) = true := by
              simp only [bne_iff_ne]; omega
            simp only [hne, Bool.true_and, decide_eq_true_eq] at hstop
            omega

/-- find_match answers (R136, R139): it reports nothing, or a match at `pos` whose bytes agree, of length 4 to
min(258, lookahead) and offset 1 to 32768 inside the window. -/
theorem findMatch_spec {m : Matcher} {pos prevHead lookahead : Nat}
    (hprev : ∀ c ∈ m.prev, c.2.toNat < pos + m.hashOffset) (hoff : 1 ≤ m.hashOffset) (htop : pos + lookahead ≤ 65536)
    (hla : 4 ≤ lookahead) (hi : prevHead < pos) (hfar : pos ≤ prevHead + 32768) :
    ∃ best, findMatch m pos prevHead 3 lookahead = .ok best ∧ GoodBest m pos (min 258 lookahead) best := by
  unfold findMatch
  exact walkChain_spec hprev hoff (by omega) (by omega) _ _ _ hi hfar (by simp; omega) (.inl ⟨rfl, rfl, rfl⟩)

end Sys2Proof.Machine
end

