-- ==== Sys2Proof/Laws/Insert.lean ====
section
/-! SUPPORT. What chain insertion does to HEAD and PREV (42_hash.md R119, R120, R124): a stored value is that of an
inserted position, and nothing but the two memories (and the latched head) changes. -/

namespace Sys2Proof.Machine

/-- HEAD and PREV are in canonical form and every stored value is below `bound`. -/
structure ChainsBelow (m : Matcher) (bound : Nat) : Prop where
  headWf : Memory.wordsWf m.head Config.hashSize
  prevWf : Memory.wordsWf m.prev Config.windowSize
  head_lt : ∀ c ∈ m.head, c.2.toNat < bound
  prev_lt : ∀ c ∈ m.prev, c.2.toNat < bound

theorem ChainsBelow.mono {m : Matcher} {b b' : Nat} (h : ChainsBelow m b) (hb : b ≤ b') : ChainsBelow m b' :=
  ⟨h.headWf, h.prevWf, fun c hc => Nat.lt_of_lt_of_le (h.head_lt c hc) hb,
    fun c hc => Nat.lt_of_lt_of_le (h.prev_lt c hc) hb⟩

theorem bucket_lt (m : Matcher) (p : Nat) : bucket m p < 131072 := Nat.mod_lt _ (by decide)

/-- insert(p) stores the value of `p` in HEAD and the old head in PREV; both stay below any bound above the value of
`p` (R119). -/
theorem insertHash_chains {m : Matcher} {p bound : Nat} (h : ChainsBelow m bound) (hp : p + m.hashOffset < bound)
    (hb : bound ≤ 4294967296) : ChainsBelow (insertHash m p) bound := by
  have hv : (BitVec.ofNat 32 (p + m.hashOffset)).toNat = p + m.hashOffset := by
    rw [BitVec.toNat_ofNat, Nat.mod_eq_of_lt (by omega)]
  refine ⟨?_, ?_, ?_, ?_⟩
  · exact Memory.wordsWf_writeWord h.headWf (bucket_lt m p) _
  · exact Memory.wordsWf_writeWord h.prevWf (Nat.mod_lt _ (by decide)) _
  · intro c hc
    rcases Memory.mem_writeWord hc with rfl | hc
    · simp only [hv]; exact hp
    · exact h.head_lt c hc
  · intro c hc
    rcases Memory.mem_writeWord hc with rfl | hc
    · exact headWord_lt (by omega) h.head_lt _
    · exact h.prev_lt c hc

/-- insertRange changes HEAD and PREV only, and keeps every stored value below any bound above the inserted
positions' values (R150). -/
theorem insertRange_spec (n : Nat) : ∀ (p : Nat) (m : Matcher) (bound : Nat), ChainsBelow m bound →
    p + n + m.hashOffset ≤ bound → bound ≤ 4294967296 →
    ∃ h q, insertRange n p m = { m with head := h, prev := q } ∧ ChainsBelow { m with head := h, prev := q } bound := by
  induction n with
  | zero => intro p m bound h _ _; exact ⟨m.head, m.prev, rfl, h⟩
  | succ n ih =>
    intro p m bound h hp hb
    unfold insertRange
    split
    · obtain ⟨hh, qq, he, hc⟩ := ih (p + 1) (insertHash m p) bound (insertHash_chains h (by omega) hb)
        (by simp only [insertHash_hashOffset]; omega) hb
      exact ⟨hh, qq, he, hc⟩
    · exact ih (p + 1) m bound h (by omega) hb

/-- insertAll changes HEAD and PREV only, with the same bound (R129). -/
theorem insertAll_spec (n : Nat) : ∀ (p : Nat) (m : Matcher) (bound : Nat), ChainsBelow m bound →
    p + n + m.hashOffset ≤ bound → bound ≤ 4294967296 →
    ∃ h q, insertAll n p m = { m with head := h, prev := q } ∧ ChainsBelow { m with head := h, prev := q } bound := by
  induction n with
  | zero => intro p m bound h _ _; exact ⟨m.head, m.prev, rfl, h⟩
  | succ n ih =>
    intro p m bound h hp hb
    unfold insertAll
    obtain ⟨hh, qq, he, hc⟩ := ih (p + 1) (insertHash m p) bound (insertHash_chains h (by omega) hb)
      (by simp only [insertHash_hashOffset]; omega) hb
    exact ⟨hh, qq, he, hc⟩

/-- The hash update of an iteration: HEAD takes the current position's value, PREV and M.chain_head only values of
earlier positions (R146, R120). -/
theorem hashStep_spec {m : Matcher} (h : ChainsBelow m (m.index + m.hashOffset)) (hpos : 1 ≤ m.hashOffset)
    (hch : m.chainHead < (m.index : Int) + m.hashOffset) (hb : m.index + m.hashOffset + 1 ≤ 4294967296) :
    ∃ hd pv c, hashStep m = { m with head := hd, prev := pv, chainHead := c } ∧
      ChainsBelow { m with head := hd, prev := pv, chainHead := c } (m.index + m.hashOffset + 1) ∧
      (∀ e ∈ pv, e.2.toNat < m.index + m.hashOffset) ∧ c < (m.index : Int) + m.hashOffset := by
  unfold hashStep
  split
  · have hc := insertHash_chains (p := m.index) (h.mono (Nat.le_succ _)) (by omega) hb
    refine ⟨_, _, _, rfl, ⟨hc.headWf, hc.prevWf, hc.head_lt, hc.prev_lt⟩, ?_, ?_⟩
    · intro e he
      rcases Memory.mem_writeWord he with rfl | he
      · exact headWord_lt (by omega) h.head_lt _
      · exact h.prev_lt e he
    · have := headWord_lt (by omega) h.head_lt (bucket m m.index)
      omega
  · have h' := h.mono (Nat.le_succ _)
    exact ⟨m.head, m.prev, m.chainHead, rfl, h', h.prev_lt, hch⟩

end Sys2Proof.Machine
end

