-- ==== Sys2Proof/Laws/Tokens.lean ====
section
/-! SUPPORT. The laws of the token operations (40_token.md R100 to R106). -/

namespace Sys2Proof.Machine

/-- A match token as a number: the three fields do not overlap (R84). -/
theorem makeMatch_toNat {length distance : Nat} (h1 : length ≤ 258) (h2 : distance ≤ 4194304) :
    (makeMatch length distance).toNat = 1073741824 + (length - 3) * 4194304 + (distance - 1) := by
  have e1 : (BitVec.ofNat 32 (length - 3) <<< 22).toNat = 4194304 * (length - 3) := by
    rw [BitVec.toNat_shiftLeft, BitVec.toNat_ofNat, Nat.shiftLeft_eq, Nat.mod_eq_of_lt (by omega),
      Nat.mod_eq_of_lt (by omega)]
    omega
  have e2 : (BitVec.ofNat 32 (distance - 1)).toNat = distance - 1 := by
    rw [BitVec.toNat_ofNat, Nat.mod_eq_of_lt (by omega)]
  have e3 : (1073741824 ||| 4194304 * (length - 3) : Nat) = 4194304 * (256 + (length - 3)) := by
    have := Nat.two_pow_add_eq_or_of_lt (i := 30) (b := 4194304 * (length - 3)) (by omega) 1
    norm_num at this
    rw [← this]; omega
  have e4 : (4194304 * (256 + (length - 3)) ||| (distance - 1) : Nat) =
      4194304 * (256 + (length - 3)) + (distance - 1) := by
    have := Nat.two_pow_add_eq_or_of_lt (i := 22) (b := distance - 1) (by omega) (256 + (length - 3))
    norm_num at this
    rw [← this]
  unfold makeMatch
  rw [BitVec.toNat_or, BitVec.toNat_or, e1, e2]
  show (1073741824 ||| 4194304 * (length - 3)) ||| (distance - 1) = _
  rw [e3, e4]; omega

theorem tokenKind_toNat (t : Token) : (tokenKind t).toNat = t.toNat / 1073741824 % 4 := by
  simp [tokenKind, BitVec.extractLsb'_toNat, Nat.shiftRight_eq_div_pow]

theorem tokenXlength_toNat (t : Token) : (tokenXlength t).toNat = t.toNat / 4194304 % 256 := by
  simp [tokenXlength, BitVec.extractLsb'_toNat, Nat.shiftRight_eq_div_pow]

theorem tokenXoffset_toNat (t : Token) : (tokenXoffset t).toNat = t.toNat % 4194304 := by
  simp [tokenXoffset, BitVec.extractLsb'_toNat]

theorem isMatch_makeMatch {length distance : Nat} (h1 : length ≤ 258) (h2 : distance ≤ 4194304) :
    isMatch (makeMatch length distance) = true := by
  unfold isMatch
  rw [beq_iff_eq]
  apply BitVec.eq_of_toNat_eq
  rw [tokenKind_toNat, makeMatch_toNat h1 h2]
  simp only [BitVec.toNat_ofNat]; omega

theorem isLiteral_makeMatch {length distance : Nat} (h1 : length ≤ 258) (h2 : distance ≤ 4194304) :
    isLiteral (makeMatch length distance) = false := by
  have := isMatch_makeMatch h1 h2
  unfold isMatch at this
  unfold isLiteral
  rw [beq_iff_eq] at this
  rw [this]; decide

theorem wireLength_makeMatch {length distance : Nat} (h0 : 3 ≤ length) (h1 : length ≤ 258)
    (h2 : distance ≤ 4194304) : wireLength (makeMatch length distance) = length := by
  unfold wireLength
  rw [tokenXlength_toNat, makeMatch_toNat h1 h2]
  show _ / 4194304 % 256 + 3 = _
  omega

theorem wireDistance_makeMatch {length distance : Nat} (h1 : length ≤ 258) (h0 : 1 ≤ distance)
    (h2 : distance ≤ 4194304) : wireDistance (makeMatch length distance) = distance := by
  unfold wireDistance
  rw [tokenXoffset_toNat, makeMatch_toNat h1 h2]
  show _ % 4194304 + 1 = _
  omega

theorem makeLiteral_toNat (b : Byte) : (makeLiteral b).toNat = b.toNat := by
  have := b.isLt
  unfold makeLiteral
  rw [BitVec.toNat_setWidth, Nat.mod_eq_of_lt (by omega)]

theorem isLiteral_makeLiteral (b : Byte) : isLiteral (makeLiteral b) = true := by
  have := b.isLt
  unfold isLiteral
  rw [beq_iff_eq]
  apply BitVec.eq_of_toNat_eq
  rw [tokenKind_toNat, makeLiteral_toNat]
  simp only [BitVec.toNat_ofNat]; omega

theorem isMatch_makeLiteral (b : Byte) : isMatch (makeLiteral b) = false := by
  have := isLiteral_makeLiteral b
  unfold isLiteral at this
  unfold isMatch
  rw [beq_iff_eq] at this
  rw [this]; decide

theorem tokenLiteral_makeLiteral (b : Byte) : tokenLiteral (makeLiteral b) = b := by
  apply BitVec.eq_of_toNat_eq
  have := b.isLt
  simp only [tokenLiteral, BitVec.extractLsb'_toNat, makeLiteral_toNat, Nat.shiftRight_zero]
  omega

/-- No literal word is a match word (R105). -/
theorem makeLiteral_ne_makeMatch (b : Byte) {length distance : Nat} (h1 : length ≤ 258) (h2 : distance ≤ 4194304) :
    makeLiteral b ≠ makeMatch length distance := fun h =>
  Bool.false_ne_true ((isMatch_makeLiteral b).symm.trans (h ▸ isMatch_makeMatch h1 h2))

/-! ### Expansion (R106) -/

/-- A literal token adds its byte. -/
theorem expandToken_makeLiteral (free : Nat → Byte) (stream : List Byte) (b : Byte) :
    expandToken free stream (makeLiteral b) = stream ++ [b] := by
  unfold expandToken
  rw [isLiteral_makeLiteral, if_pos rfl, tokenLiteral_makeLiteral]

/-- A match token adds the bytes it copies. -/
theorem expandToken_makeMatch (free : Nat → Byte) (stream : List Byte) {length distance : Nat}
    (h0 : 3 ≤ length) (h1 : length ≤ 258) (h2 : 1 ≤ distance) (h3 : distance ≤ 4194304) :
    expandToken free stream (makeMatch length distance) = appendCopy free distance length stream := by
  unfold expandToken
  rw [isLiteral_makeMatch h1 h3, isMatch_makeMatch h1 h3, wireLength_makeMatch h0 h1 h3,
    wireDistance_makeMatch h1 h2 h3]
  simp

@[simp] theorem expandTokens_nil (free : Nat → Byte) (stream : List Byte) : expandTokens free stream [] = stream := rfl

theorem expandTokens_append (free : Nat → Byte) (stream : List Byte) (ts ts' : List Token) :
    expandTokens free stream (ts ++ ts') = expandTokens free (expandTokens free stream ts) ts' :=
  List.foldl_append

theorem expandTokens_singleton (free : Nat → Byte) (stream : List Byte) (t : Token) :
    expandTokens free stream [t] = expandToken free stream t := rfl

@[simp] theorem length_appendCopy (free : Nat → Byte) (distance n : Nat) (stream : List Byte) :
    (appendCopy free distance n stream).length = stream.length + n := by
  induction n generalizing stream with
  | zero => rfl
  | succ n ih => rw [appendCopy, ih]; simp only [List.length_append, List.length_singleton]; omega

/-- Where a longer list repeats itself `distance` back, copying from its first `at_` bytes gives its first
`at_ + n` bytes. -/
theorem appendCopy_of_repeats (free : Nat → Byte) (full : List Byte) (distance n at_ : Nat) (hd : 1 ≤ distance)
    (hda : distance ≤ at_) (hn : at_ + n ≤ full.length)
    (hrep : ∀ k < n, full[at_ + k]? = full[at_ + k - distance]?) :
    appendCopy free distance n (full.take at_) = full.take (at_ + n) := by
  induction n generalizing at_ with
  | zero => rfl
  | succ n ih =>
    have hlt : at_ < full.length := by omega
    have hstep : full.take at_ ++ [byteBack free (full.take at_) distance] = full.take (at_ + 1) := by
      have h0 := hrep 0 (by omega)
      simp only [Nat.add_zero] at h0
      have hlen : (full.take at_).length = at_ := by simp; omega
      have hb : byteBack free (full.take at_) distance = full[at_] := by
        unfold byteBack
        rw [hlen, if_pos hda, List.getD_eq_getElem?_getD, List.getElem?_take, if_pos (by omega), ← h0,
          List.getElem?_eq_getElem hlt]
        rfl
      rw [hb, List.take_add_one, List.getElem?_eq_getElem hlt]
      rfl
    rw [appendCopy, hstep, ih (at_ + 1) (by omega) (by omega)]
    · congr 1; omega
    · intro k hk
      have := hrep (k + 1) (by omega)
      rw [show at_ + 1 + k = at_ + (k + 1) by omega]
      exact this

end Sys2Proof.Machine
end

