-- ==== Sys2Proof/Laws/Loop.lean ====
section
/-! SUPPORT. The lazy loop (45_lazy_loop.md R143 to R158): what one iteration can do, from a state that meets the
invariants, and from that what a whole step does. F_INTERNAL and the model's stops never come out of it (R144). -/

namespace Sys2Proof.Machine

/-! ### Invariant inside a step -/

/-- What holds at the top of every iteration: the invariants, no stream error, no Emitter error. -/
structure Ready (u : MatcherSide) : Prop where
  shape : u.m.Shape
  live : u.m.Live
  err : u.m.err = .noError
  emitter : u.e.err = none

/-- What a step leaves alone. -/
structure SameBase (m m' : Matcher) : Prop where
  configured : m'.configured = m.configured
  faulted : m'.faulted = m.faulted
  params : m'.params = m.params
  windowEnd : m'.windowEnd = m.windowEnd
  hashOffset : m'.hashOffset = m.hashOffset
  sync : m'.sync = m.sync
  win : m'.win = m.win
  winEpoch : m'.winEpoch = m.winEpoch

theorem SameBase.refl (m : Matcher) : SameBase m m := ⟨rfl, rfl, rfl, rfl, rfl, rfl, rfl, rfl⟩

theorem SameBase.trans {m m' m'' : Matcher} (h : SameBase m m') (h' : SameBase m' m'') : SameBase m m'' :=
  ⟨h'.configured.trans h.configured, h'.faulted.trans h.faulted, h'.params.trans h.params,
    h'.windowEnd.trans h.windowEnd, h'.hashOffset.trans h.hashOffset, h'.sync.trans h.sync, h'.win.trans h.win,
    h'.winEpoch.trans h.winEpoch⟩

theorem hashOffset_bounds {m : Matcher} (h : ∃ k ≤ 511, m.hashOffset = 1 + 32768 * k) :
    1 ≤ m.hashOffset ∧ m.hashOffset ≤ 16744449 := by
  obtain ⟨k, hk, he⟩ := h
  omega

/-- What every part of an iteration leaves alone: `SameBase`, M.block_start, M.err and M.max_insert_index. -/
structure Keeps (m m' : Matcher) : Prop extends SameBase m m' where
  blockStart : m'.blockStart = m.blockStart
  err : m'.err = m.err
  maxInsert : m'.maxInsertIndex = m.maxInsertIndex

theorem Keeps.refl (m : Matcher) : Keeps m m := ⟨SameBase.refl m, rfl, rfl, rfl⟩

theorem Keeps.trans {m m' m'' : Matcher} (h : Keeps m m') (h' : Keeps m' m'') : Keeps m m'' :=
  ⟨h.toSameBase.trans h'.toSameBase, h'.blockStart.trans h.blockStart, h'.err.trans h.err,
    h'.maxInsert.trans h.maxInsert⟩

theorem Keeps.isFast {m m' : Matcher} (h : Keeps m m') : isFast m' = isFast m := isFast_congr h.params

theorem Keeps.winByte {m m' : Matcher} (h : Keeps m m') (a : Nat) : winByte m' a = winByte m a :=
  winByte_congr h.win h.winEpoch a

/-! ### The search of an iteration -/

/-- M.length and M.offset hold no match, or a match at M.index (R148, R139). `m` gives the position, `m2` the match. -/
def MatchAt (m m2 : Matcher) : Prop :=
  (m2.length = 3 ∧ m2.offset = 0) ∨
    (4 ≤ m2.length ∧ m2.length ≤ 258 ∧ m.index + m2.length ≤ m.windowEnd ∧ 1 ≤ m2.offset ∧ m2.offset ≤ 32768 ∧
      m2.offset ≤ m.index ∧ ∀ k < m2.length, winByte m (m.index - m2.offset + k) = winByte m (m.index + k))

theorem MatchAt.length_ge {m m2 : Matcher} (h : MatchAt m m2) : 3 ≤ m2.length := by
  rcases h with ⟨h, -⟩ | ⟨h, -⟩ <;> omega

theorem MatchAt.length_le {m m2 : Matcher} (h : MatchAt m m2) : m2.length ≤ 258 := by
  rcases h with ⟨h, -⟩ | ⟨-, h, -⟩ <;> omega

theorem MatchAt.offset_le {m m2 : Matcher} (h : MatchAt m m2) : m2.offset ≤ 32768 := by
  rcases h with ⟨-, h⟩ | ⟨-, -, -, -, h, -⟩ <;> omega

/-- The Matcher after the hash update and the search of an iteration at `m`: only HEAD, PREV, M.chain_head, M.length
and M.offset may differ (R146 to R148). -/
structure Found (m m2 : Matcher) : Prop where
  keeps : Keeps m m2
  index : m2.index = m.index
  tokq : m2.tokq = m.tokq
  byteAvailable : m2.byteAvailable = m.byteAvailable
  chains : ChainsBelow m2 (m.index + m.hashOffset + 1)
  chainHead_lt : m2.chainHead < (m.index : Int) + m.hashOffset
  found : MatchAt m m2

/-- The search condition gives a candidate before M.index and within reach, and at least 4 bytes to compare (R147). -/
theorem searches_bounds {m : Matcher} {lookahead prevLength : Nat} (h : searches m lookahead prevLength = true)
    (hp : 3 ≤ prevLength) :
    max ((m.index : Int) - 32768) 0 ≤ m.chainHead - m.hashOffset ∧ 4 ≤ lookahead := by
  simp only [searches, Bool.and_eq_true, Bool.or_eq_true, decide_eq_true_eq] at h
  refine ⟨h.1, ?_⟩
  rcases h.2 with ⟨-, h⟩ | ⟨⟨-, h⟩, -⟩ <;> omega

/-- The search answers, from a Matcher whose stored values are those of earlier positions (R148). -/
theorem searchStep_spec {m : Matcher} {la pl : Nat} (hl : m.length = 3) (ho : m.offset = 0) (hpl : 3 ≤ pl)
    (hprev : ∀ c ∈ m.prev, c.2.toNat < m.index + m.hashOffset) (hoff : 1 ≤ m.hashOffset)
    (hch : m.chainHead < (m.index : Int) + m.hashOffset) (htop : m.index + la ≤ 65536)
    (hla : m.index + la ≤ m.windowEnd) :
    ∃ l o, searchStep m la pl = .ok { m with length := l, offset := o } ∧
      MatchAt m { m with length := l, offset := o } := by
  unfold searchStep
  split
  · next hsr =>
    obtain ⟨h1, h2⟩ := searches_bounds hsr hpl
    obtain ⟨best, hf, hg⟩ := findMatch_spec (m := m) (pos := m.index)
      (prevHead := (m.chainHead - (m.hashOffset : Int)).toNat) (lookahead := la)
      hprev hoff htop h2 (by omega) (by omega)
    rw [show Config.searchStartLength = 3 from rfl, hf]
    rcases hg with ⟨hok, -, -⟩ | ⟨hok, h1, h2, h3, h4, h5, -, h7⟩
    · refine ⟨3, 0, ?_, .inl ⟨rfl, rfl⟩⟩
      simp only [hok, Bool.false_eq_true, if_false]
      cases m; simp_all
    · refine ⟨best.length, best.offset, by simp only [hok, if_true], .inr ⟨h1, ?_, ?_, h3, h4, h5, h7⟩⟩
      · show best.length ≤ 258; omega
      · show m.index + best.length ≤ m.windowEnd; omega
  · refine ⟨3, 0, ?_, .inl ⟨rfl, rfl⟩⟩
    cases m; simp_all

/-- Hash update and search of an iteration answer (R146 to R148), and leave the carried match to compare with. -/
theorem search_spec {m : Matcher} (hs : m.Shape) (hl : m.Live) :
    (hashStep m).length = m.length ∧ (hashStep m).offset = m.offset ∧
    ∃ m2, searchStep (clearMatch (hashStep m)) (m.windowEnd - m.index) m.length = .ok m2 ∧ Found m m2 := by
  obtain ⟨hoff1, hoff2⟩ := hashOffset_bounds hs.hashOffset_range
  have hwe := hs.windowEnd_le
  have hix := hs.index_le
  have hlen := hs.length_ge
  simp only [Config.windowBytes, Config.searchStartLength] at hwe hlen
  obtain ⟨hd, pv, c, he, hch, hpv, hc⟩ := hashStep_spec (m := m)
    ⟨hs.headWf, hs.prevWf, hl.head_lt, hl.prev_lt⟩ hoff1 hl.chainHead_lt (by omega)
  obtain ⟨l, o, hse, hma⟩ := searchStep_spec
    (m := clearMatch { m with head := hd, prev := pv, chainHead := c }) (la := m.windowEnd - m.index)
    (pl := m.length) rfl rfl hlen hpv hoff1 hc
    (show m.index + (m.windowEnd - m.index) ≤ 65536 by omega) (show m.index + (m.windowEnd - m.index) ≤ m.windowEnd by omega)
  rw [he]
  exact ⟨rfl, rfl, _, hse, ⟨⟨⟨rfl, rfl, rfl, rfl, rfl, rfl, rfl, rfl⟩, rfl, rfl, rfl⟩, rfl, rfl, rfl,
    ⟨hch.headWf, hch.prevWf, hch.head_lt, hch.prev_lt⟩, hc, hma⟩⟩

/-! ### The block flush -/

/-- A block flush sends one request; where the Emitter answers NONE the queue is emptied, else the error is latched and
the queue stays (R152, R158). -/
theorem flushTokens_spec (x : Nat) (u : MatcherSide) (hx : 0 < x) :
    ((emitRequest u.e (flushRequest u.m x)).err = none ∧
      flushTokens x u = (true, ⟨{ u.m with blockStart := x, tokq := [] }, emitRequest u.e (flushRequest u.m x)⟩)) ∨
    (∃ c, (emitRequest u.e (flushRequest u.m x)).err = some c ∧
      flushTokens x u = (false, ⟨{ u.m with blockStart := x, err := .io c }, emitRequest u.e (flushRequest u.m x)⟩)) := by
  unfold flushTokens
  rw [if_pos hx]
  simp only [latchEmitterErr]
  cases he : (emitRequest u.e (flushRequest u.m x)).err with
  | none =>
    left
    refine ⟨rfl, ?_⟩
    simp only [flushRequest] at he ⊢
    simp only [he]
  | some c =>
    right
    refine ⟨c, rfl, ?_⟩
    simp only [flushRequest] at he ⊢
    simp only [he]

@[simp] theorem drawAnswer_log (e : Emitter) : (drawAnswer e).log = e.log := by
  unfold drawAnswer
  split
  · rfl
  · split <;> rfl

@[simp] theorem emitRequest_log (e : Emitter) (r : LogEntry) : (emitRequest e r).log = e.log ++ [r] := by
  simp [emitRequest]

/-- An Emitter with an error keeps it (R29, R70). -/
theorem emitRequest_err_sticky {e : Emitter} {c : Word32} (h : e.err = some c) (r : LogEntry) :
    (emitRequest e r).err = some c := by
  simp [emitRequest, drawAnswer, h]


/-! ### One position (R146 to R151) -/

/-- A literal or match queued: only M.tokq changes (R13). -/
theorem appendToken_keeps (m : Matcher) (t : Token) : Keeps m (appendToken m t) :=
  ⟨⟨rfl, rfl, rfl, rfl, rfl, rfl, rfl, rfl⟩, rfl, rfl, rfl⟩

/-- What a position's turn does, before a flush at the cap: the token it queues (if any), the position the flush would
go up to, and the Matcher the loop goes on with. -/
inductive Emission (m : Matcher) : Option Token → Nat → Matcher → Prop where
  /-- A fast-skip level queues the match found at M.index (R149, R150). -/
  | fastMatch (m' : Matcher) (len off : Nat) (fast : isFast m = true) (range : 4 ≤ len ∧ len ≤ 258 ∧ 1 ≤ off ∧ off ≤ 32768)
      (reach : off ≤ m.index) (agree : ∀ k < len, winByte m (m.index - off + k) = winByte m (m.index + k))
      (held : m'.byteAvailable = m.byteAvailable) (index : m'.index = m.index + len)
      (queue : m'.tokq = m.tokq ++ [makeMatch len off]) :
      Emission m (some (makeMatch len off)) (m.index + len) m'
  /-- A lazy level queues the match carried over, which starts at M.index − 1 (R149, R150). -/
  | lazyMatch (m' : Matcher) (lazy : isFast m = false) (range : 4 ≤ m.length ∧ m.length ≤ 258 ∧ 1 ≤ m.offset ∧ m.offset ≤ 32768)
      (held : m'.byteAvailable = false) (index : m'.index = m.index + m.length - 1) (length : m'.length = 3)
      (queue : m'.tokq = m.tokq ++ [makeMatch m.length m.offset]) :
      Emission m (some (makeMatch m.length m.offset)) (m.index + m.length - 1) m'
  /-- A fast-skip level queues the byte at M.index (R151). -/
  | fastLiteral (m' : Matcher) (fast : isFast m = true) (held : m'.byteAvailable = m.byteAvailable)
      (index : m'.index = m.index + 1) (queue : m'.tokq = m.tokq ++ [makeLiteral (winByte m m.index)]) :
      Emission m (some (makeLiteral (winByte m m.index))) (m.index + 1) m'
  /-- A lazy level queues the pending byte and holds the current one back (R151). -/
  | lazyLiteral (m' : Matcher) (lazy : isFast m = false) (was : m.byteAvailable = true) (held : m'.byteAvailable = true)
      (found : MatchAt m m') (index : m'.index = m.index + 1)
      (queue : m'.tokq = m.tokq ++ [makeLiteral (winByte m (m.index - 1))]) :
      Emission m (some (makeLiteral (winByte m (m.index - 1)))) m.index m'
  /-- A lazy level holds the first byte back and queues nothing (R151). -/
  | hold (m' : Matcher) (lazy : isFast m = false) (was : m.byteAvailable = false) (held : m'.byteAvailable = true)
      (found : MatchAt m m') (index : m'.index = m.index + 1) (queue : m'.tokq = m.tokq) :
      Emission m none 0 m'

/-- The invariants of the Matcher the loop goes on with, but for the token cap. -/
structure Advanced (m m' : Matcher) : Prop where
  keeps : Keeps m m'
  chains : ChainsBelow m' (m'.index + m'.hashOffset)
  chainHead_lt : m'.chainHead < (m'.index : Int) + m'.hashOffset
  index_lt : m.index < m'.index
  index_le : m'.index ≤ m.windowEnd
  length_ge : 3 ≤ m'.length
  length_le : m'.length ≤ 258
  offset_le : m'.offset ≤ 32768
  carried : isFast m' = false → 4 ≤ m'.length → 1 ≤ m'.offset ∧ m'.index + m'.length ≤ m'.windowEnd + 1

/-- The unconditional invariants of an advanced Matcher. -/
theorem Advanced.shape {m m' : Matcher} (h : Advanced m m') (hs : m.Shape) (hq : m'.tokq.length ≤ 16384) :
    m'.Shape where
  winWf := by rw [h.keeps.win]; exact hs.winWf
  headWf := h.chains.headWf
  prevWf := h.chains.prevWf
  index_le := by rw [h.keeps.windowEnd]; exact h.index_le
  windowEnd_le := by rw [h.keeps.windowEnd]; exact hs.windowEnd_le
  tokq_le := hq
  hashOffset_range := by rw [h.keeps.hashOffset]; exact hs.hashOffset_range
  length_ge := h.length_ge
  length_le := h.length_le
  offset_le := h.offset_le
  maxInsert_ge := by rw [h.keeps.maxInsert]; exact hs.maxInsert_ge
  maxInsert_le := by rw [h.keeps.maxInsert]; exact hs.maxInsert_le
  params_row := by rw [h.keeps.configured, h.keeps.params]; exact hs.params_row

/-- A queued token is followed by a flush position just after its bytes: the cursor, less the pending literal (R151). -/
theorem Emission.flushAt {m m' : Matcher} {t : Token} {x : Nat} (he : Emission m (some t) x m') (hl : m.Live) :
    x + pendingCount m' = m'.index := by
  unfold pendingCount
  cases he with
  | fastMatch _ _ _ fast _ _ _ held index => rw [held, hl.fastHeld fast]; simp [index]
  | lazyMatch _ _ _ held index => rw [held]; simp [index]
  | fastLiteral _ fast held index => rw [held, hl.fastHeld fast]; simp [index]
  | lazyLiteral _ _ _ held _ index => rw [held]; simp [index]

/-- M.block_start keeps its meaning through a position's turn without a flush. -/
theorem Emission.block {m m' : Matcher} {t : Option Token} {x : Nat} (he : Emission m t x m') (ha : Advanced m m')
    (hl : m.Live) : m'.BlockStart := by
  have hb := hl.block
  have hk := ha.keeps.blockStart
  unfold Matcher.BlockStart pendingCount at hb ⊢
  simp only [Config.maxMatchLength, Config.blockStartNone] at hb ⊢
  rw [hk]
  cases he with
  | fastMatch _ len off fast range reach agree held index queue =>
    have h0 := hl.fastHeld fast
    rw [held, queue, index]
    simp only [h0, List.length_append, List.length_singleton, Bool.false_eq_true, if_false] at hb ⊢
    omega
  | lazyMatch _ lz range held index length queue =>
    rw [held, queue, index]
    simp only [List.length_append, List.length_singleton, Bool.false_eq_true, if_false]
    split at hb <;> omega
  | fastLiteral _ fast held index queue =>
    have h0 := hl.fastHeld fast
    rw [held, queue, index]
    simp only [h0, List.length_append, List.length_singleton, Bool.false_eq_true, if_false] at hb ⊢
    omega
  | lazyLiteral _ lz was held found index queue =>
    rw [held, queue, index]
    simp only [was, List.length_append, List.length_singleton, if_true] at hb ⊢
    omega
  | hold _ lz was held found index queue =>
    rw [held, queue, index]
    simp only [was, if_true, Bool.false_eq_true, if_false] at hb ⊢
    omega

theorem Emission.fastHeld {m m' : Matcher} {t : Option Token} {x : Nat} (he : Emission m t x m') (ha : Advanced m m')
    (hl : m.Live) (hf : isFast m' = true) : m'.byteAvailable = false := by
  rw [ha.keeps.isFast] at hf
  cases he with
  | fastMatch _ _ _ fast _ _ _ held => rw [held]; exact hl.fastHeld fast
  | lazyMatch _ lz => rw [lz] at hf; cases hf
  | fastLiteral _ fast held => rw [held]; exact hl.fastHeld fast
  | lazyLiteral _ lz => rw [lz] at hf; cases hf
  | hold _ lz => rw [lz] at hf; cases hf

/-- A position's turn queues a token the Matcher may produce, or none (R85). -/
theorem Emission.tokens {m m' : Matcher} {t : Option Token} {x : Nat} (he : Emission m t x m') (hl : m.Live) :
    ∀ tok ∈ m'.tokq, Produced tok := by
  have h0 := hl.tokens
  cases he with
  | fastMatch _ len off fast range reach agree held index queue =>
    rw [queue]; intro tok ht
    rcases List.mem_append.mp ht with ht | ht
    · exact h0 tok ht
    · exact .inr ⟨len, off, range.1, range.2.1, range.2.2.1, range.2.2.2, List.mem_singleton.mp ht⟩
  | lazyMatch _ lz range held index length queue =>
    rw [queue]; intro tok ht
    rcases List.mem_append.mp ht with ht | ht
    · exact h0 tok ht
    · exact .inr ⟨_, _, range.1, range.2.1, range.2.2.1, range.2.2.2, List.mem_singleton.mp ht⟩
  | fastLiteral _ fast held index queue =>
    rw [queue]; intro tok ht
    rcases List.mem_append.mp ht with ht | ht
    · exact h0 tok ht
    · exact .inl ⟨_, List.mem_singleton.mp ht⟩
  | lazyLiteral _ lz was held found index queue =>
    rw [queue]; intro tok ht
    rcases List.mem_append.mp ht with ht | ht
    · exact h0 tok ht
    · exact .inl ⟨_, List.mem_singleton.mp ht⟩
  | hold _ lz was held found index queue => rw [queue]; exact h0

/-- The invariants of an advanced Matcher whose stream has no error. -/
theorem Advanced.live {m m' : Matcher} {t : Option Token} {x : Nat} (h : Advanced m m') (he : Emission m t x m') (hl : m.Live)
    (hq : m'.tokq.length < 16384) : m'.Live where
  tokq_lt := hq
  head_lt := h.chains.head_lt
  prev_lt := h.chains.prev_lt
  chainHead_lt := h.chainHead_lt
  carried := h.carried
  pending := fun _ => Nat.lt_of_le_of_lt (Nat.zero_le _) h.index_lt
  queued := fun _ => Nat.lt_of_le_of_lt (Nat.zero_le _) h.index_lt
  fastHeld := he.fastHeld h hl
  block := he.block h hl
  tokens := he.tokens hl

/-- The cursor after a match in a fast-skip level (R150). -/
theorem passMatch_fast {m : Matcher} {bound : Nat} (pl : Nat) (hf : isFast m = true) (hc : ChainsBelow m bound)
    (hb : bound ≤ m.index + m.length + m.hashOffset) (hl : 1 ≤ m.length)
    (hlim : m.index + m.length + m.hashOffset ≤ 4294967296) :
    ∃ hd pv, passMatch m pl = { m with head := hd, prev := pv, index := m.index + m.length } ∧
      ChainsBelow { m with head := hd, prev := pv } (m.index + m.length + m.hashOffset) := by
  unfold passMatch
  split
  · simp only []
    obtain ⟨hd, pv, he, hcc⟩ := insertRange_spec (m.index + m.length - (m.index + 1)) (m.index + 1) m
      (m.index + m.length + m.hashOffset) (hc.mono hb) (by omega) hlim
    exact ⟨hd, pv, by rw [he], hcc⟩
  · exact ⟨m.head, m.prev, rfl, hc.mono hb⟩

/-- The cursor after a match in a lazy level (R150). -/
theorem passMatch_lazy {m : Matcher} {bound : Nat} {pl : Nat} (hf : isFast m = false) (hc : ChainsBelow m bound)
    (hb : bound ≤ m.index + pl - 1 + m.hashOffset) (hl : m.length ≤ 258) (hpl : 2 ≤ pl)
    (hlim : m.index + pl - 1 + m.hashOffset ≤ 4294967296) :
    ∃ hd pv, passMatch m pl =
        { m with head := hd, prev := pv, index := m.index + pl - 1, byteAvailable := false, length := 3 } ∧
      ChainsBelow { m with head := hd, prev := pv } (m.index + pl - 1 + m.hashOffset) := by
  have hfsh : m.length ≤ m.params.fsh := by
    have : m.params.fsh = 2147483647 := by simpa [isFast] using hf
    omega
  unfold passMatch
  rw [if_pos hfsh]
  simp only [hf]
  obtain ⟨hd, pv, he, hcc⟩ := insertRange_spec (m.index + pl - 1 - (m.index + 1)) (m.index + 1) m
    (m.index + pl - 1 + m.hashOffset) (hc.mono hb) (by omega) hlim
  refine ⟨hd, pv, ?_, hcc⟩
  simp only [Bool.false_eq_true, if_false]
  rw [he]
  rfl

theorem matchInRange_of {len off : Nat} (h1 : 3 ≤ len) (h2 : len ≤ 258) (h3 : 1 ≤ off) (h4 : off ≤ 32768) :
    matchInRange len off = true := by
  simp [matchInRange, h1, h2, h3, h4]

/-- The end of a position's turn where something is queued (R153): the loop goes on; or it goes on after a flush of the
full block; or that flush fails, and the step returns. -/
def TurnsTo (u : MatcherSide) (x : Nat) (m' : Matcher) (r : Turn) : Prop :=
  (m'.tokq.length ≠ 16384 ∧ r = .again ⟨m', u.e⟩) ∨
  (m'.tokq.length = 16384 ∧ (emitRequest u.e (flushRequest m' x)).err = none ∧
    r = .again ⟨{ m' with blockStart := x, tokq := [] }, emitRequest u.e (flushRequest m' x)⟩) ∨
  (∃ c m'', m'.tokq.length = 16384 ∧ (emitRequest u.e (flushRequest m' x)).err = some c ∧ m''.err = .io c ∧ m''.Shape ∧ SameBase u.m m'' ∧
    m''.tokq = m'.tokq ∧ r = .ended ⟨m'', emitRequest u.e (flushRequest m' x)⟩)

/-- The shape of a Matcher whose block flush failed. -/
theorem Matcher.Shape.failed {m : Matcher} (h : m.Shape) (x : Nat) (c : Word32) :
    Matcher.Shape { m with blockStart := x, err := .io c } :=
  ⟨h.winWf, h.headWf, h.prevWf, h.index_le, h.windowEnd_le, h.tokq_le, h.hashOffset_range, h.length_ge, h.length_le,
    h.offset_le, h.maxInsert_ge, h.maxInsert_le, h.params_row⟩

/-- The cap after an append (R153), where the turn then goes on with the update `k`, which touches neither the queue
nor the window. -/
theorem turnsTo_capFlush {u : MatcherSide} {x : Nat} {m1 : Matcher} {k : MatcherSide → MatcherSide} {m' : Matcher}
    (hk : k ⟨m1, u.e⟩ = ⟨m', u.e⟩)
    (hk' : k ⟨{ m1 with blockStart := x, tokq := [] }, emitRequest u.e (flushRequest m1 x)⟩ =
      ⟨{ m' with blockStart := x, tokq := [] }, emitRequest u.e (flushRequest m1 x)⟩)
    (hr : flushRequest m1 x = flushRequest m' x) (hq : m1.tokq = m'.tokq) (hs : m1.Shape) (hb : SameBase u.m m1)
    (hx : 0 < x) : TurnsTo u x m' (capFlush x ⟨m1, u.e⟩ k) := by
  unfold capFlush TurnsTo
  rw [← hq, ← hr]
  by_cases hc : m1.tokq.length = 16384
  · rw [if_pos hc]
    rcases flushTokens_spec x ⟨m1, u.e⟩ hx with ⟨he, hf⟩ | ⟨c, he, hf⟩
    · refine .inr (.inl ⟨hc, he, ?_⟩)
      rw [hf]
      exact congrArg Turn.again hk'
    · refine .inr (.inr ⟨c, _, hc, he, rfl, hs.failed x c, ⟨hb.configured, hb.faulted, hb.params, hb.windowEnd, hb.hashOffset,
        hb.sync, hb.win, hb.winEpoch⟩, rfl, ?_⟩)
      rw [hf]
  · rw [if_neg hc]
    exact .inl ⟨hc, congrArg Turn.again hk⟩

/-- The Matcher after the search is as good as the one before it. -/
theorem Found.shape {m m2 : Matcher} (h : Found m m2) (hs : m.Shape) : m2.Shape where
  winWf := by rw [h.keeps.win]; exact hs.winWf
  headWf := h.chains.headWf
  prevWf := h.chains.prevWf
  index_le := by rw [h.keeps.windowEnd, h.index]; exact hs.index_le
  windowEnd_le := by rw [h.keeps.windowEnd]; exact hs.windowEnd_le
  tokq_le := by rw [h.tokq]; exact hs.tokq_le
  hashOffset_range := by rw [h.keeps.hashOffset]; exact hs.hashOffset_range
  length_ge := h.found.length_ge
  length_le := h.found.length_le
  offset_le := h.found.offset_le
  maxInsert_ge := by rw [h.keeps.maxInsert]; exact hs.maxInsert_ge
  maxInsert_le := by rw [h.keeps.maxInsert]; exact hs.maxInsert_le
  params_row := by rw [h.keeps.configured, h.keeps.params]; exact hs.params_row

/-- The shape with one more token in the queue. -/
theorem Matcher.Shape.append {m : Matcher} (h : m.Shape) (t : Token) (hq : m.tokq.length < 16384) :
    (appendToken m t).Shape :=
  ⟨h.winWf, h.headWf, h.prevWf, h.index_le, h.windowEnd_le,
    by simp only [appendToken, List.length_append, List.length_singleton, Config.maxFlateBlockTokens]; omega,
    h.hashOffset_range, h.length_ge, h.length_le, h.offset_le, h.maxInsert_ge, h.maxInsert_le, h.params_row⟩

/-- How a position's turn ends: an `Emission`, an `Advanced` Matcher, and the cap. -/
def Turned (u : MatcherSide) (r : Turn) : Prop :=
  ∃ t x m', Emission u.m t x m' ∧ Advanced u.m m' ∧
    ((t = none ∧ m'.tokq.length < 16384 ∧ r = .again ⟨m', u.e⟩) ∨ ((∃ tok, t = some tok) ∧ TurnsTo u x m' r))

theorem emitMatch_turned {u0 u : MatcherSide} {m2 : Matcher} (hs : u.m.Shape) (hl : u.m.Live)
    (hlt : u.m.index < u.m.windowEnd) (hf : Found u.m m2) (hem : emitsMatch m2 u.m.length = true) :
    Turned u (emitMatch u0 ⟨m2, u.e⟩ u.m.length u.m.offset) := by
  obtain ⟨hoff1, hoff2⟩ := hashOffset_bounds hs.hashOffset_range
  have hwe := hs.windowEnd_le
  have hle := hs.length_le
  have hol := hs.offset_le
  have hq := hl.tokq_lt
  simp only [Config.windowBytes, Config.maxMatchLength, Config.maxMatchOffset, Config.maxFlateBlockTokens] at hwe hle hol hq
  have hl3 := hf.found.length_ge
  have hl258 := hf.found.length_le
  have hix := hf.index
  have hho := hf.keeps.hashOffset
  have hch := hf.chainHead_lt
  have hfa := hf.keeps.isFast
  unfold emitMatch
  cases hfast : isFast u.m with
  | true =>
    rw [hfast] at hfa
    have hl4 : 4 ≤ m2.length := by simpa [emitsMatch, hfa] using hem
    rcases hf.found with ⟨h3, -⟩ | ⟨-, -, hend, ho1, ho2, ho3, hag⟩
    · omega
    simp only [hfa, if_true]
    rw [if_pos (matchInRange_of hl3 hl258 ho1 ho2)]
    obtain ⟨hd, pv, hp, hcc⟩ := passMatch_fast (m := appendToken m2 (makeMatch m2.length m2.offset))
      (bound := u.m.index + u.m.hashOffset + 1) u.m.length hfa
      ⟨hf.chains.headWf, hf.chains.prevWf, hf.chains.head_lt, hf.chains.prev_lt⟩
      (by simp only [appendToken]; omega) (by simp only [appendToken]; omega) (by simp only [appendToken]; omega)
    rw [hp]
    generalize hm' : ({ appendToken m2 (makeMatch m2.length m2.offset) with
      head := hd, prev := pv, index := (appendToken m2 (makeMatch m2.length m2.offset)).index +
        (appendToken m2 (makeMatch m2.length m2.offset)).length } : Matcher) = m'
    have hk : Keeps m2 m' := by subst hm'; exact ⟨⟨rfl, rfl, rfl, rfl, rfl, rfl, rfl, rfl⟩, rfl, rfl, rfl⟩
    have hi' : m'.index = u.m.index + m2.length := by subst hm'; show m2.index + m2.length = _; omega
    have hq' : m'.tokq = u.m.tokq ++ [makeMatch m2.length m2.offset] := by
      subst hm'; show m2.tokq ++ _ = _; rw [hf.tokq]
    have hadv : Advanced u.m m' := by
      refine ⟨hf.keeps.trans hk, ?_, ?_, by omega, by omega, ?_, ?_, ?_, ?_⟩
      · rw [hk.hashOffset, hho, hi']
        subst hm'
        exact ⟨hcc.headWf, hcc.prevWf,
          fun c hc => by have := hcc.head_lt c hc; simp only [appendToken] at this; omega,
          fun c hc => by have := hcc.prev_lt c hc; simp only [appendToken] at this; omega⟩
      · rw [hk.hashOffset, hho, hi']; subst hm'; show m2.chainHead < _; omega
      · subst hm'; exact hl3
      · subst hm'; exact hl258
      · subst hm'; exact ho2
      · intro h; rw [hk.isFast, hfa] at h; cases h
    refine ⟨_, _, m', .fastMatch m' m2.length m2.offset hfast ⟨hl4, hl258, ho1, ho2⟩ ho3 hag ?_ hi' hq', hadv, .inr ⟨⟨_, rfl⟩, ?_⟩⟩
    · subst hm'; exact hf.byteAvailable
    · rw [hi']
      exact turnsTo_capFlush rfl rfl rfl rfl (hadv.shape hs (by rw [hq']; simp; omega)) hadv.keeps.toSameBase (by omega)
  | false =>
    rw [hfast] at hfa
    have hpl : 4 ≤ u.m.length ∧ m2.length ≤ u.m.length := by simpa [emitsMatch, hfa] using hem
    obtain ⟨hca1, hca2⟩ := hl.carried hfast hpl.1
    simp only [hfa, Bool.false_eq_true, if_false]
    rw [if_pos (matchInRange_of (by omega) hle hca1 hol)]
    obtain ⟨hd, pv, hp, hcc⟩ := passMatch_lazy (m := appendToken m2 (makeMatch u.m.length u.m.offset))
      (bound := u.m.index + u.m.hashOffset + 1) (pl := u.m.length) hfa
      ⟨hf.chains.headWf, hf.chains.prevWf, hf.chains.head_lt, hf.chains.prev_lt⟩
      (by simp only [appendToken]; omega) (by simp only [appendToken]; omega) (by omega)
      (by simp only [appendToken]; omega)
    rw [hp]
    generalize hm' : ({ appendToken m2 (makeMatch u.m.length u.m.offset) with
      head := hd, prev := pv, index := (appendToken m2 (makeMatch u.m.length u.m.offset)).index + u.m.length - 1,
      byteAvailable := false, length := 3 } : Matcher) = m'
    have hk : Keeps m2 m' := by subst hm'; exact ⟨⟨rfl, rfl, rfl, rfl, rfl, rfl, rfl, rfl⟩, rfl, rfl, rfl⟩
    have hi' : m'.index = u.m.index + u.m.length - 1 := by subst hm'; show m2.index + u.m.length - 1 = _; omega
    have hl' : m'.length = 3 := by subst hm'; rfl
    have hq' : m'.tokq = u.m.tokq ++ [makeMatch u.m.length u.m.offset] := by
      subst hm'; show m2.tokq ++ _ = _; rw [hf.tokq]
    have hadv : Advanced u.m m' := by
      refine ⟨hf.keeps.trans hk, ?_, ?_, by omega, by omega, by omega, by omega, ?_, by omega⟩
      · rw [hk.hashOffset, hho, hi']
        subst hm'
        exact ⟨hcc.headWf, hcc.prevWf,
          fun c hc => by have := hcc.head_lt c hc; simp only [appendToken] at this; omega,
          fun c hc => by have := hcc.prev_lt c hc; simp only [appendToken] at this; omega⟩
      · rw [hk.hashOffset, hho, hi']; subst hm'; show m2.chainHead < _; omega
      · subst hm'; exact hf.found.offset_le
    refine ⟨_, _, m', .lazyMatch m' hfast ⟨hpl.1, hle, hca1, hol⟩ (by subst hm'; rfl) hi' hl' hq', hadv, .inr ⟨⟨_, rfl⟩, ?_⟩⟩
    rw [hi']
    exact turnsTo_capFlush rfl rfl rfl rfl (hadv.shape hs (by rw [hq']; simp; omega)) hadv.keeps.toSameBase (by omega)

/-- The Matcher after a literal (R151): the cursor moves by one, and a lazy level holds a byte back. -/
theorem passLiteral_spec (m : Matcher) (e : Emitter) :
    passLiteral ⟨m, e⟩ = ⟨{ m with index := m.index + 1, byteAvailable := !isFast m || m.byteAvailable }, e⟩ := by
  unfold passLiteral
  cases h : isFast m <;> simp [holdLiteral]

/-- The cursor moved by one from a searched position. -/
theorem Found.advanced {m m2 : Matcher} (hf : Found m m2) (hlt : m.index < m.windowEnd) {m' : Matcher}
    (hk : Keeps m2 m') (hi : m'.index = m2.index + 1) (hh : m'.head = m2.head) (hp : m'.prev = m2.prev)
    (hc : m'.chainHead = m2.chainHead) (hl : m'.length = m2.length) (ho : m'.offset = m2.offset) :
    Advanced m m' ∧ MatchAt m m' := by
  have hix := hf.index
  have hho := hf.keeps.hashOffset
  have hwe := hf.keeps.windowEnd
  have hch := hf.chainHead_lt
  have hfd : MatchAt m m' := by
    have := hf.found
    unfold MatchAt at this ⊢
    rw [hl, ho]; exact this
  refine ⟨⟨hf.keeps.trans hk, ?_, ?_, by omega, by omega, hfd.length_ge, hfd.length_le, hfd.offset_le, ?_⟩, hfd⟩
  · rw [hk.hashOffset, hho, hi, hix]
    refine ⟨by rw [hh]; exact hf.chains.headWf, by rw [hp]; exact hf.chains.prevWf, ?_, ?_⟩
    · intro c hc; rw [hh] at hc; have := hf.chains.head_lt c hc; omega
    · intro c hc; rw [hp] at hc; have := hf.chains.prev_lt c hc; omega
  · rw [hk.hashOffset, hho, hi, hix, hc]; omega
  · intro _ h4
    rw [hk.windowEnd, hwe]
    rcases hfd with ⟨h3, -⟩ | ⟨-, -, h5, h6, -⟩ <;> omega

theorem emitLiteral_turned {u : MatcherSide} {m2 : Matcher} (hs : u.m.Shape) (hl : u.m.Live)
    (hlt : u.m.index < u.m.windowEnd) (hf : Found u.m m2) : Turned u (emitLiteral ⟨m2, u.e⟩) := by
  have hq := hl.tokq_lt
  simp only [Config.maxFlateBlockTokens] at hq
  have hix := hf.index
  have hfa := hf.keeps.isFast
  have hba := hf.byteAvailable
  have hsh (t : Token) : (appendToken m2 t).Shape := (hf.shape hs).append t (by rw [hf.tokq]; exact hq)
  unfold emitLiteral
  cases hfast : isFast u.m with
  | true =>
    rw [hfast] at hfa
    simp only [hfa, Bool.true_or, if_true, Bool.not_true, Bool.false_and, Bool.false_eq_true, if_false]
    rw [hf.keeps.winByte, hix]
    obtain ⟨ha, -⟩ := hf.advanced hlt (m' := (passLiteral ⟨appendToken m2 (makeLiteral (winByte u.m u.m.index)), u.e⟩).m)
      (by rw [passLiteral_spec]; exact ⟨⟨rfl, rfl, rfl, rfl, rfl, rfl, rfl, rfl⟩, rfl, rfl, rfl⟩)
      (by rw [passLiteral_spec]; rfl) (by rw [passLiteral_spec]; rfl) (by rw [passLiteral_spec]; rfl)
      (by rw [passLiteral_spec]; rfl) (by rw [passLiteral_spec]; rfl) (by rw [passLiteral_spec]; rfl)
    refine ⟨_, _, _, .fastLiteral _ hfast ?_ ?_ ?_, ha, .inr ⟨⟨_, rfl⟩, turnsTo_capFlush ?_ ?_ ?_ ?_ (hsh _)
      (hf.keeps.trans (appendToken_keeps m2 _)).toSameBase (by omega)⟩⟩
    · rw [passLiteral_spec]
      show (!isFast m2 || m2.byteAvailable) = _
      rw [hfa, hba]; rfl
    · rw [passLiteral_spec]; show m2.index + 1 = _; rw [hix]
    · rw [passLiteral_spec]; show m2.tokq ++ _ = _; rw [hf.tokq]
    · rw [passLiteral_spec]
    · rw [passLiteral_spec, passLiteral_spec]; rfl
    · rw [passLiteral_spec]; rfl
    · rw [passLiteral_spec]
  | false =>
    rw [hfast] at hfa
    cases hav : u.m.byteAvailable with
    | true =>
      rw [hav] at hba
      have hp := hl.pending hav
      have h0 : (u.m.index == 0) = false := by rw [beq_eq_false_iff_ne]; omega
      simp only [hfa, hba, Bool.false_or, if_true, Bool.not_false, Bool.true_and, hix, h0, Bool.false_eq_true, if_false]
      rw [hf.keeps.winByte, Nat.sub_add_cancel hp]
      obtain ⟨ha, hm⟩ := hf.advanced hlt (m' := (passLiteral ⟨appendToken m2 (makeLiteral (winByte u.m (u.m.index - 1))), u.e⟩).m)
        (by rw [passLiteral_spec]; exact ⟨⟨rfl, rfl, rfl, rfl, rfl, rfl, rfl, rfl⟩, rfl, rfl, rfl⟩)
        (by rw [passLiteral_spec]; rfl) (by rw [passLiteral_spec]; rfl) (by rw [passLiteral_spec]; rfl)
        (by rw [passLiteral_spec]; rfl) (by rw [passLiteral_spec]; rfl) (by rw [passLiteral_spec]; rfl)
      refine ⟨_, _, _, .lazyLiteral _ hfast hav ?_ hm ?_ ?_, ha, .inr ⟨⟨_, rfl⟩, turnsTo_capFlush ?_ ?_ ?_ ?_ (hsh _)
        (hf.keeps.trans (appendToken_keeps m2 _)).toSameBase hp⟩⟩
      · rw [passLiteral_spec]
        show (!isFast m2 || m2.byteAvailable) = _
        rw [hfa]; rfl
      · rw [passLiteral_spec]; show m2.index + 1 = _; rw [hix]
      · rw [passLiteral_spec]; show m2.tokq ++ _ = _; rw [hf.tokq]
      · rw [passLiteral_spec]
      · rw [passLiteral_spec, passLiteral_spec]; rfl
      · rw [passLiteral_spec]; rfl
      · rw [passLiteral_spec]
    | false =>
      rw [hav] at hba
      simp only [hfa, hba, Bool.or_self, Bool.false_eq_true, if_false]
      obtain ⟨ha, hm⟩ := hf.advanced hlt (m' := (passLiteral ⟨m2, u.e⟩).m)
        (by rw [passLiteral_spec]; exact ⟨⟨rfl, rfl, rfl, rfl, rfl, rfl, rfl, rfl⟩, rfl, rfl, rfl⟩)
        (by rw [passLiteral_spec]) (by rw [passLiteral_spec]) (by rw [passLiteral_spec])
        (by rw [passLiteral_spec]) (by rw [passLiteral_spec]) (by rw [passLiteral_spec])
      refine ⟨_, _, _, .hold _ hfast hav ?_ hm ?_ ?_, ha, .inl ⟨rfl, ?_, ?_⟩⟩
      · rw [passLiteral_spec]
        show (!isFast m2 || m2.byteAvailable) = _
        rw [hfa]; rfl
      · rw [passLiteral_spec]; show m2.index + 1 = _; rw [hix]
      · rw [passLiteral_spec]; show m2.tokq = _; rw [hf.tokq]
      · rw [passLiteral_spec]; show m2.tokq.length < _; rw [hf.tokq]; exact hq
      · rw [passLiteral_spec]

/-- One position of the pending data (R146 to R151): F_INTERNAL and the model's stops do not come out of it. -/
theorem scanPosition_turned {u : MatcherSide} (hs : u.m.Shape) (hl : u.m.Live) (hlt : u.m.index < u.m.windowEnd) :
    Turned u (scanPosition u) := by
  obtain ⟨hlen, hoff, m2, hse, hf⟩ := search_spec hs hl
  unfold scanPosition
  simp only [hlen, hoff, hse]
  split
  · next hem => exact emitMatch_turned hs hl hlt hf hem
  · exact emitLiteral_turned hs hl hlt hf

/-! ### One iteration (R143) -/

/-- The entries are block flushes, each a request the Matcher may send (R152). -/
def OnlyBlocks (l : List LogEntry) : Prop :=
  ∀ r ∈ l, (∃ tokens window, r = .emitBlock tokens false window) ∧ GoodRequest r

/-- How an error-free or failed turn or step leaves the Matcher's side. -/
structure Ends (u u' : MatcherSide) : Prop where
  base : SameBase u.m u'.m
  shape : u'.m.Shape
  log : ∃ l, u'.e.log = u.e.log ++ l ∧ OnlyBlocks l
  outcome : (u'.m.err = .noError ∧ u'.e.err = none ∧ u'.m.Live ∧
      (u'.m.sync = false → u'.m.windowEnd < u'.m.index + 262) ∧
      (u'.m.sync = true → u'.m.index = u'.m.windowEnd ∧ u'.m.tokq = [] ∧ u'.m.byteAvailable = false)) ∨
    (∃ c, u'.m.err = .io c ∧ u'.e.err = some c)

theorem onlyBlocks_nil : OnlyBlocks [] := by intro r hr; simp at hr

theorem onlyBlocks_request {m : Matcher} (x : Nat) (h1 : m.tokq ≠ []) (h2 : m.tokq.length ≤ 16384)
    (h3 : ∀ t ∈ m.tokq, Produced t) : OnlyBlocks [flushRequest m x] := by
  intro r hr
  rw [List.mem_singleton] at hr
  subst hr
  exact ⟨⟨_, _, rfl⟩, rfl, List.length_pos_iff.mpr h1, h2, h3⟩

theorem OnlyBlocks.append {l l' : List LogEntry} (h : OnlyBlocks l) (h' : OnlyBlocks l') : OnlyBlocks (l ++ l') := by
  intro r hr
  rcases List.mem_append.mp hr with hr | hr
  · exact h r hr
  · exact h' r hr

theorem Ends.trans {u u' u'' : MatcherSide} (hb : SameBase u.m u'.m) (hl : ∃ l, u'.e.log = u.e.log ++ l ∧ OnlyBlocks l)
    (h : Ends u' u'') : Ends u u'' := by
  refine ⟨hb.trans h.base, h.shape, ?_, h.outcome⟩
  obtain ⟨l, h1, h2⟩ := hl
  obtain ⟨l', h3, h4⟩ := h.log
  exact ⟨l ++ l', by rw [h3, h1, List.append_assoc], h2.append h4⟩

/-- A turn that goes on or ends, from a ready state. -/
def GoodTurn (u : MatcherSide) (r : Turn) : Prop :=
  (∃ u', r = .again u' ∧ Ready u' ∧ SameBase u.m u'.m ∧ u.m.index < u'.m.index ∧
    ∃ l, u'.e.log = u.e.log ++ l ∧ OnlyBlocks l) ∨ (∃ u', r = .ended u' ∧ Ends u u')

theorem Advanced.tokq_le {u : MatcherSide} {t : Option Token} {x : Nat} {m' : Matcher} (he : Emission u.m t x m')
    (hl : u.m.Live) : m'.tokq.length ≤ 16384 := by
  have hq := hl.tokq_lt
  simp only [Config.maxFlateBlockTokens] at hq
  cases he <;> (rename_i queue; rw [queue]; (try simp only [List.length_append, List.length_singleton]); omega)

/-- The same after a flush of the full block (R153). -/
theorem Advanced.flushed_live {m m' : Matcher} {t : Token} {x : Nat} (h : Advanced m m') (he : Emission m (some t) x m')
    (hl : m.Live) : Matcher.Live { m' with blockStart := x, tokq := [] } where
  tokq_lt := by simp
  head_lt := h.chains.head_lt
  prev_lt := h.chains.prev_lt
  chainHead_lt := h.chainHead_lt
  carried := h.carried
  pending := fun _ => Nat.lt_of_le_of_lt (Nat.zero_le _) h.index_lt
  queued := fun h' => absurd rfl h'
  fastHeld := he.fastHeld h hl
  block := by
    have hx := he.flushAt hl
    exact .inl ⟨Nat.le_of_eq hx, Nat.le_of_eq hx.symm⟩
  tokens := by simp

theorem Turned.good {u : MatcherSide} {r : Turn} (h : Turned u r) (hr : Ready u) : GoodTurn u r := by
  obtain ⟨t, x, m', he, ha, hres⟩ := h
  have hq := Advanced.tokq_le he hr.live
  have hb := ha.keeps.toSameBase
  have herr : m'.err = .noError := ha.keeps.err.trans hr.err
  have hgo (hlt : m'.tokq.length < 16384) : Ready ⟨m', u.e⟩ := ⟨ha.shape hr.shape hq, ha.live he hr.live hlt, herr, hr.emitter⟩
  have hone (h : 16384 ≤ m'.tokq.length) : OnlyBlocks [flushRequest m' x] :=
    onlyBlocks_request x (by rintro h0; rw [h0] at h; simp at h) hq (he.tokens hr.live)
  rcases hres with ⟨-, hlt, rfl⟩ | ⟨⟨tok, rfl⟩, ⟨hne, rfl⟩ | ⟨hfull, hn, rfl⟩ | ⟨c, m'', hfull, hc, hm, hsh, hsb, -, rfl⟩⟩
  · exact .inl ⟨_, rfl, hgo hlt, hb, ha.index_lt, [], by simp, onlyBlocks_nil⟩
  · exact .inl ⟨_, rfl, hgo (by omega), hb, ha.index_lt, [], by simp, onlyBlocks_nil⟩
  · refine .inl ⟨_, rfl, ⟨?_, ha.flushed_live he hr.live, herr, hn⟩, ?_, ha.index_lt, [flushRequest m' x], by simp,
      hone (by rw [hfull])⟩
    · have hs := ha.shape hr.shape hq
      exact ⟨hs.winWf, hs.headWf, hs.prevWf, hs.index_le, hs.windowEnd_le, by simp, hs.hashOffset_range, hs.length_ge,
        hs.length_le, hs.offset_le, hs.maxInsert_ge, hs.maxInsert_le, hs.params_row⟩
    · exact ⟨hb.configured, hb.faulted, hb.params, hb.windowEnd, hb.hashOffset, hb.sync, hb.win, hb.winEpoch⟩
  · exact .inr ⟨_, rfl, hsb, hsh, ⟨[flushRequest m' x], by simp, hone (by rw [hfull])⟩, .inr ⟨c, hm, hc⟩⟩

/-- The Matcher with the pending literal queued, at the end of the data (R145). -/
def settled (m : Matcher) : Matcher :=
  if m.byteAvailable then releaseLiteral (appendToken m (makeLiteral (winByte m (m.index - 1)))) else m

theorem settled_shape {m : Matcher} (hs : m.Shape) (hl : m.Live) : (settled m).Shape := by
  unfold settled
  split
  · have := hs.append (makeLiteral (winByte m (m.index - 1))) hl.tokq_lt
    exact ⟨this.winWf, this.headWf, this.prevWf, this.index_le, this.windowEnd_le, this.tokq_le, this.hashOffset_range,
      this.length_ge, this.length_le, this.offset_le, this.maxInsert_ge, this.maxInsert_le, this.params_row⟩
  · exact hs

theorem settled_keeps (m : Matcher) : Keeps m (settled m) := by
  unfold settled
  split
  · exact ⟨⟨rfl, rfl, rfl, rfl, rfl, rfl, rfl, rfl⟩, rfl, rfl, rfl⟩
  · exact Keeps.refl m

theorem settled_index (m : Matcher) : (settled m).index = m.index := by unfold settled; split <;> rfl

theorem settled_length (m : Matcher) : (settled m).length = m.length := by unfold settled; split <;> rfl

theorem settled_offset (m : Matcher) : (settled m).offset = m.offset := by unfold settled; split <;> rfl

theorem settled_byteAvailable (m : Matcher) : (settled m).byteAvailable = false := by
  unfold settled
  split
  · rfl
  · next h => simpa using h

theorem settled_tokq (m : Matcher) : (settled m).tokq =
    if m.byteAvailable then m.tokq ++ [makeLiteral (winByte m (m.index - 1))] else m.tokq := by
  unfold settled; split <;> rfl

theorem settled_chains {m : Matcher} (hl : m.Live) :
    (∀ c ∈ (settled m).head, c.2.toNat < m.index + m.hashOffset) ∧
    (∀ c ∈ (settled m).prev, c.2.toNat < m.index + m.hashOffset) ∧
    (settled m).chainHead < (m.index : Int) + m.hashOffset := by
  unfold settled; split <;> exact ⟨hl.head_lt, hl.prev_lt, hl.chainHead_lt⟩

/-- The end of the data (R145): the pending literal is queued; what is queued is flushed. -/
theorem endOfData_eq {u : MatcherSide} (hl : u.m.Live) :
    endOfData u = if (settled u.m).tokq = [] then .ended { u with m := settled u.m }
      else .ended (flushTokens u.m.index { u with m := settled u.m }).2 := by
  unfold endOfData
  have h0 : (u.m.byteAvailable && u.m.index == 0) = false := by
    cases hb : u.m.byteAvailable with
    | false => rfl
    | true =>
      have := hl.pending hb
      rw [Bool.true_and, beq_eq_false_iff_ne]; omega
  rw [h0]
  simp only [Bool.false_eq_true, if_false]
  have hset : (if u.m.byteAvailable = true then
      releaseLiteral (appendToken u.m (makeLiteral (winByte u.m (u.m.index - 1)))) else u.m) = settled u.m := rfl
  rw [hset, settled_index]
  by_cases hq : (settled u.m).tokq = []
  · rw [if_pos hq, if_neg (by rw [hq]; simp)]
  · rw [if_neg hq, if_pos (List.length_pos_iff.mpr hq)]

theorem settled_queued {m : Matcher} (hl : m.Live) (h : (settled m).tokq ≠ []) : 1 ≤ m.index := by
  cases hb : m.byteAvailable with
  | true => exact hl.pending hb
  | false =>
    rw [settled_tokq, hb] at h
    exact hl.queued h

theorem settled_tokens {m : Matcher} (hl : m.Live) : ∀ t ∈ (settled m).tokq, Produced t := by
  rw [settled_tokq]
  split
  · intro t ht
    rcases List.mem_append.mp ht with ht | ht
    · exact hl.tokens t ht
    · exact .inl ⟨_, List.mem_singleton.mp ht⟩
  · exact hl.tokens

theorem settled_fastHeld (m : Matcher) (_ : isFast (settled m) = true) : (settled m).byteAvailable = false :=
  settled_byteAvailable m

/-- Queueing the pending literal leaves M.block_start its meaning. -/
theorem settled_block {m : Matcher} (hl : m.Live) : (settled m).BlockStart := by
  have hb := hl.block
  have hk := (settled_keeps m).blockStart
  unfold Matcher.BlockStart pendingCount at hb ⊢
  rw [hk, settled_index, settled_byteAvailable, settled_tokq]
  cases h : m.byteAvailable with
  | true =>
    simp only [h, Config.maxMatchLength, List.length_append, List.length_singleton, if_true, Bool.false_eq_true, if_false] at hb ⊢
    omega
  | false => simp only [h, Bool.false_eq_true, if_false] at hb ⊢; exact hb

/-- The Matcher at the end of the data, with the queue empty, is as good as before. -/
theorem settled_live {m m' : Matcher} (hl : m.Live)
    (hm : m' = settled m ∨ m' = { settled m with blockStart := m.index, tokq := [] }) (hq : m'.tokq = []) : m'.Live := by
  obtain ⟨h1, h2, h3⟩ := settled_chains hl
  have hk := settled_keeps m
  have hcar : isFast (settled m) = false → 4 ≤ (settled m).length →
      1 ≤ (settled m).offset ∧ (settled m).index + (settled m).length ≤ (settled m).windowEnd + 1 := by
    intro hf h4
    rw [settled_offset, settled_index, settled_length, hk.windowEnd]
    rw [hk.isFast] at hf
    rw [settled_length] at h4
    exact hl.carried hf h4
  have hpe : (settled m).byteAvailable = true → 1 ≤ (settled m).index := by
    intro h; rw [settled_byteAvailable] at h; cases h
  rw [← settled_index m, ← hk.hashOffset] at h1 h2 h3
  rcases hm with rfl | rfl
  · exact ⟨by rw [hq]; simp, h1, h2, h3, hcar, hpe, fun h => absurd hq h, settled_fastHeld m, settled_block hl,
      settled_tokens hl⟩
  · refine ⟨by simp, h1, h2, h3, hcar, hpe, fun h => absurd rfl h, settled_fastHeld m, .inl ?_, by simp⟩
    show m.index + pendingCount (settled m) ≤ (settled m).index ∧ (settled m).index ≤ m.index + pendingCount (settled m) + 258 * 0
    unfold pendingCount
    rw [settled_byteAvailable, settled_index]
    simp

theorem endOfData_good {u : MatcherSide} (hr : Ready u) (hix : u.m.index = u.m.windowEnd) :
    ∃ u', endOfData u = .ended u' ∧ Ends u u' := by
  have hk := settled_keeps u.m
  have hs := settled_shape hr.shape hr.live
  rw [endOfData_eq hr.live]
  by_cases hq : (settled u.m).tokq = []
  · rw [if_pos hq]
    exact ⟨_, rfl, hk.toSameBase, hs, ⟨[], by simp, onlyBlocks_nil⟩,
      .inl ⟨hk.err.trans hr.err, hr.emitter, settled_live hr.live (.inl rfl) hq,
        fun _ => by show (settled u.m).windowEnd < (settled u.m).index + 262; rw [settled_index, hk.windowEnd]; omega,
        fun _ => ⟨by show (settled u.m).index = (settled u.m).windowEnd; rw [settled_index, hk.windowEnd]; exact hix,
          hq, settled_byteAvailable _⟩⟩⟩
  · rw [if_neg hq]
    rcases flushTokens_spec u.m.index { u with m := settled u.m } (settled_queued hr.live hq) with ⟨he, hf⟩ | ⟨c, he, hf⟩
    · rw [hf]
      refine ⟨_, rfl, ⟨hk.configured, hk.faulted, hk.params, hk.windowEnd, hk.hashOffset, hk.sync, hk.win, hk.winEpoch⟩,
        ⟨hs.winWf, hs.headWf, hs.prevWf, hs.index_le, hs.windowEnd_le, by simp, hs.hashOffset_range, hs.length_ge,
          hs.length_le, hs.offset_le, hs.maxInsert_ge, hs.maxInsert_le, hs.params_row⟩,
        ⟨_, emitRequest_log _ _, onlyBlocks_request _ hq hs.tokq_le (settled_tokens hr.live)⟩,
        .inl ⟨hk.err.trans hr.err, he, settled_live hr.live (.inr rfl) rfl, ?_, fun _ => ⟨?_, rfl, settled_byteAvailable _⟩⟩⟩
      · intro _
        show (settled u.m).windowEnd < (settled u.m).index + 262
        rw [settled_index, hk.windowEnd]; omega
      · show (settled u.m).index = (settled u.m).windowEnd
        rw [settled_index, hk.windowEnd]; exact hix
    · rw [hf]
      exact ⟨_, rfl, ⟨hk.configured, hk.faulted, hk.params, hk.windowEnd, hk.hashOffset, hk.sync, hk.win, hk.winEpoch⟩,
        hs.failed _ _, ⟨_, emitRequest_log _ _, onlyBlocks_request _ hq hs.tokq_le (settled_tokens hr.live)⟩, .inr ⟨c, rfl, he⟩⟩

/-- One iteration from a ready state goes on, further along, or ends well; F_INTERNAL is not raised (R143, R144). -/
theorem iterate_good {u : MatcherSide} (hr : Ready u) : GoodTurn u (iterate u) := by
  have hle := hr.shape.index_le
  unfold iterate
  rw [if_neg (by omega)]
  split
  · next h =>
    simp only [Bool.and_eq_true, decide_eq_true_eq, Bool.not_eq_true', Config.lookaheadMin] at h
    exact .inr ⟨u, rfl, SameBase.refl _, hr.shape, ⟨[], by simp, onlyBlocks_nil⟩,
      .inl ⟨hr.err, hr.emitter, hr.live, fun _ => by omega, fun hs => by rw [h.2] at hs; cases hs⟩⟩
  · split
    · exact .inr (endOfData_good hr (by omega))
    · exact (scanPosition_turned hr.shape hr.live (by omega)).good hr

/-! ### The whole step (R143) -/

/-- With a unit of fuel for each position left and one more, the loop ends well. -/
theorem runLoop_good : ∀ (fuel : Nat) (u : MatcherSide), Ready u → u.m.windowEnd - u.m.index < fuel →
    ∃ u', runLoop fuel u = .ok u' ∧ Ends u u' := by
  intro fuel
  induction fuel with
  | zero => intro u _ h; omega
  | succ fuel ih =>
    intro u hr hf
    unfold runLoop
    rcases iterate_good hr with ⟨u', h1, h2, h3, h4, h5⟩ | ⟨u', h1, h2⟩
    · rw [h1]
      have hle := h2.shape.index_le
      have hwe := h3.windowEnd
      obtain ⟨u'', h6, h7⟩ := ih u' h2 (by omega)
      exact ⟨u'', h6, Ends.trans h3 h5 h7⟩
    · rw [h1]
      exact ⟨u', rfl, h2⟩

/-- The step's M.max_insert_index (R143). -/
def armed (u : MatcherSide) : MatcherSide := { u with m := { u.m with maxInsertIndex := (u.m.windowEnd : Int) - 3 } }

theorem Ready.armed {u : MatcherSide} (hr : Ready u) : Ready (armed u) := by
  have hs := hr.shape
  have hl := hr.live
  have hwe := hs.windowEnd_le
  simp only [Config.windowBytes] at hwe
  exact ⟨⟨hs.winWf, hs.headWf, hs.prevWf, hs.index_le, hs.windowEnd_le, hs.tokq_le, hs.hashOffset_range, hs.length_ge,
      hs.length_le, hs.offset_le, by show (-3 : Int) ≤ u.m.windowEnd - 3; omega,
      by show (u.m.windowEnd : Int) - 3 ≤ 65533; omega, hs.params_row⟩,
    ⟨hl.tokq_lt, hl.head_lt, hl.prev_lt, hl.chainHead_lt, hl.carried, hl.pending, hl.queued,
      hl.fastHeld, hl.block, hl.tokens⟩, hr.err, hr.emitter⟩

/-- A step from a ready state answers: every position that had its look-ahead has been processed, or, under M.sync, all of
the data and the queue; or the Emitter reported an error, which M.err holds. It neither raises F_INTERNAL nor stops the model
(R143, R144, R168). -/
theorem matcherStep_good {u : MatcherSide} (hr : Ready u) : ∃ u', matcherStep u = .ok u' ∧ Ends u u' := by
  have hwe := hr.shape.windowEnd_le
  unfold matcherStep
  split
  · next h =>
    simp only [Bool.and_eq_true, decide_eq_true_eq, Bool.not_eq_true', Config.lookaheadMin] at h
    exact ⟨u, rfl, SameBase.refl _, hr.shape, ⟨[], by simp, onlyBlocks_nil⟩,
      .inl ⟨hr.err, hr.emitter, hr.live, fun _ => h.1, fun hs => by rw [h.2] at hs; cases hs⟩⟩
  · rw [if_neg (by omega)]
    obtain ⟨u', h1, h2⟩ := runLoop_good (u.m.windowEnd - u.m.index + 1) (armed u) hr.armed (Nat.lt_succ_self _)
    exact ⟨u', h1, Ends.trans (u' := armed u) ⟨rfl, rfl, rfl, rfl, rfl, rfl, rfl, rfl⟩ ⟨[], by simp [armed], onlyBlocks_nil⟩ h2⟩

end Sys2Proof.Machine
end

