-- ==== Sys2Proof/Laws/Window.lean ====
section
/-! SUPPORT. Window fill, shift, rebase and priming (43_window.md R125 to R134): each keeps the invariants, and what it
does to the bytes and the cursors. -/

namespace Sys2Proof.Machine

/-- What fill, shift and rebase leave alone. -/
structure SameSetup (m m' : Matcher) : Prop where
  configured : m'.configured = m.configured
  faulted : m'.faulted = m.faulted
  params : m'.params = m.params
  sync : m'.sync = m.sync
  err : m'.err = m.err
  tokq : m'.tokq = m.tokq
  byteAvailable : m'.byteAvailable = m.byteAvailable
  length : m'.length = m.length
  offset : m'.offset = m.offset
  maxInsert : m'.maxInsertIndex = m.maxInsertIndex
  winEpoch : m'.winEpoch = m.winEpoch

theorem SameSetup.trans {m m' m'' : Matcher} (h : SameSetup m m') (h' : SameSetup m' m'') : SameSetup m m'' :=
  ⟨h'.configured.trans h.configured, h'.faulted.trans h.faulted, h'.params.trans h.params, h'.sync.trans h.sync,
    h'.err.trans h.err, h'.tokq.trans h.tokq, h'.byteAvailable.trans h.byteAvailable, h'.length.trans h.length,
    h'.offset.trans h.offset, h'.maxInsert.trans h.maxInsert, h'.winEpoch.trans h.winEpoch⟩

/-! ### WIN after a run is written -/

theorem winByte_putWin (m : Matcher) (a : Nat) (bs : List Byte) (b : Nat) :
    winByte (putWin m a bs) b = if a ≤ b ∧ b < a + bs.length then bs.getD (b - a) 0#8 else winByte m b :=
  Memory.readByte_putRun _ _ _ _ _

/-! ### rebase (R127) -/

theorem rebase_setup (m : Matcher) : SameSetup m (rebase m) := ⟨rfl, rfl, rfl, rfl, rfl, rfl, rfl, rfl, rfl, rfl, rfl⟩

theorem rebase_shape {m : Matcher} (winWf : Memory.bytesWf m.win Config.windowBytes)
    (headWf : Memory.wordsWf m.head Config.hashSize) (prevWf : Memory.wordsWf m.prev Config.windowSize)
    (h1 : m.index ≤ m.windowEnd) (h2 : m.windowEnd ≤ 65536) (h3 : m.tokq.length ≤ 16384) (h4 : 3 ≤ m.length)
    (h5 : m.length ≤ 258) (h6 : m.offset ≤ 32768) (h7 : -3 ≤ m.maxInsertIndex) (h8 : m.maxInsertIndex ≤ 65533)
    (h9 : m.configured = true → ∃ l, 2 ≤ l ∧ l ≤ 9 ∧ m.params = levelRow l) : (rebase m).Shape :=
  ⟨winWf, Memory.wordsWf_rebaseWords headWf _, Memory.wordsWf_rebaseWords prevWf _, h1, h2, h3, ⟨0, by omega, rfl⟩, h4, h5,
    h6, h7, h8, h9⟩

/-- Every value keeps its place before M.index under a rebase (R127, R128). -/
theorem rebase_live {m : Matcher} (hl : m.Live) (ho : 1 ≤ m.hashOffset) : (rebase m).Live := by
  have hlt (l : List (Nat × Word32)) (h : ∀ c ∈ l, c.2.toNat < m.index + m.hashOffset) :
      ∀ c ∈ Memory.rebaseWords l (m.hashOffset - 1), c.2.toNat < m.index + 1 := by
    intro c hc
    obtain ⟨v, hv, hd, he⟩ := Memory.mem_rebaseWords hc
    have := h _ hv
    have hv32 := v.isLt
    simp only at this
    rw [he, BitVec.toNat_ofNat, Nat.mod_eq_of_lt (by omega)]
    omega
  have hch := hl.chainHead_lt
  exact ⟨hl.tokq_lt, hlt _ hl.head_lt, hlt _ hl.prev_lt,
    by show m.chainHead - ((m.hashOffset - 1 : Nat) : Int) < (m.index : Int) + ((1 : Nat) : Int); omega,
    hl.carried, hl.pending, hl.queued, hl.fastHeld, hl.block, hl.tokens⟩

/-! ### shift_window (R126) -/

/-- The slide, field by field. A proof by unfolding compares positions with the constant 32768 subtracted one by one. -/
theorem slideWindow_eq (m : Matcher) : slideWindow m =
    { m with
      win := (putWin m 0 (winRun m 32768 32768)).win
      index := m.index - 32768
      windowEnd := m.windowEnd - 32768
      blockStart := shiftBlockStart m.blockStart
      hashOffset := m.hashOffset + 32768 } := rfl

@[simp] theorem slideWindow_index (m : Matcher) : (slideWindow m).index = m.index - 32768 := by rw [slideWindow_eq]

@[simp] theorem slideWindow_windowEnd (m : Matcher) : (slideWindow m).windowEnd = m.windowEnd - 32768 := by
  rw [slideWindow_eq]

@[simp] theorem slideWindow_blockStart (m : Matcher) : (slideWindow m).blockStart = shiftBlockStart m.blockStart := by
  rw [slideWindow_eq]

@[simp] theorem slideWindow_hashOffset (m : Matcher) : (slideWindow m).hashOffset = m.hashOffset + 32768 := by
  rw [slideWindow_eq]

@[simp] theorem slideWindow_chainHead (m : Matcher) : (slideWindow m).chainHead = m.chainHead := by rw [slideWindow_eq]

@[simp] theorem slideWindow_win (m : Matcher) : (slideWindow m).win = (putWin m 0 (winRun m 32768 32768)).win := by
  rw [slideWindow_eq]

@[simp] theorem slideWindow_head (m : Matcher) : (slideWindow m).head = m.head := by rw [slideWindow_eq]

@[simp] theorem slideWindow_prev (m : Matcher) : (slideWindow m).prev = m.prev := by rw [slideWindow_eq]

theorem slideWindow_setup (m : Matcher) : SameSetup m (slideWindow m) := by
  constructor <;> rw [slideWindow_eq]

/-- The rebase runs after the slide exactly where the hash offset passed its maximum (R126). -/
theorem shiftWindow_cases (m : Matcher) :
    (16777216 < m.hashOffset + 32768 ∧ shiftWindow m = rebase (slideWindow m)) ∨
    (m.hashOffset + 32768 ≤ 16777216 ∧ shiftWindow m = slideWindow m) := by
  unfold shiftWindow
  simp only [slideWindow_hashOffset]
  by_cases h : 16777216 < m.hashOffset + 32768
  · exact .inl ⟨h, if_pos h⟩
  · exact .inr ⟨Nat.le_of_not_lt h, if_neg h⟩

theorem shiftWindow_setup (m : Matcher) : SameSetup m (shiftWindow m) := by
  rcases shiftWindow_cases m with ⟨-, h⟩ | ⟨-, h⟩ <;> rw [h]
  · exact (slideWindow_setup m).trans (rebase_setup _)
  · exact slideWindow_setup m

theorem shiftWindow_index (m : Matcher) : (shiftWindow m).index = m.index - 32768 := by
  rcases shiftWindow_cases m with ⟨-, h⟩ | ⟨-, h⟩ <;> rw [h] <;>
    simp only [rebase, slideWindow_index]

theorem shiftWindow_windowEnd (m : Matcher) : (shiftWindow m).windowEnd = m.windowEnd - 32768 := by
  rcases shiftWindow_cases m with ⟨-, h⟩ | ⟨-, h⟩ <;> rw [h] <;>
    simp only [rebase, slideWindow_windowEnd]

theorem shiftWindow_blockStart (m : Matcher) : (shiftWindow m).blockStart = shiftBlockStart m.blockStart := by
  rcases shiftWindow_cases m with ⟨-, h⟩ | ⟨-, h⟩ <;> rw [h] <;>
    simp only [rebase, slideWindow_blockStart]

theorem shiftWindow_win (m : Matcher) : (shiftWindow m).win = (putWin m 0 (winRun m 32768 32768)).win := by
  rcases shiftWindow_cases m with ⟨-, h⟩ | ⟨-, h⟩ <;> rw [h] <;>
    simp only [rebase, slideWindow_win]

/-- After a shift the lower half of WIN holds what the upper half held (R126). -/
theorem winByte_shiftWindow {m : Matcher} {a : Nat} (h : a < 32768) : winByte (shiftWindow m) a = winByte m (a + 32768) := by
  rw [winByte_congr (shiftWindow_win m) (shiftWindow_setup m).winEpoch a, winByte_putWin,
    length_winRun, if_pos (by omega), List.getD_eq_getElem?_getD, getElem?_winRun, if_pos (by omega)]
  show winByte m _ = _
  congr 1; omega

theorem shiftWindow_shape {m : Matcher} (hs : m.Shape) : (shiftWindow m).Shape := by
  have hwin : Memory.bytesWf (putWin m 0 (winRun m 32768 32768)).win 65536 :=
    Memory.bytesWf_putRun hs.winWf (.inr (by rw [length_winRun]; decide))
  obtain ⟨k, hk, he⟩ := hs.hashOffset_range
  have h1 := hs.index_le
  have h2 := hs.windowEnd_le
  simp only [Config.windowBytes] at h2
  have hx := slideWindow_setup m
  have hi : (slideWindow m).index ≤ (slideWindow m).windowEnd := by rw [slideWindow_index, slideWindow_windowEnd]; omega
  have hwe : (slideWindow m).windowEnd ≤ 65536 := by rw [slideWindow_windowEnd]; omega
  rw [← slideWindow_win] at hwin
  rcases shiftWindow_cases m with ⟨-, h⟩ | ⟨h, h'⟩
  · rw [h]
    exact rebase_shape hwin (by rw [slideWindow_head]; exact hs.headWf) (by rw [slideWindow_prev]; exact hs.prevWf) hi hwe
      (by rw [hx.tokq]; exact hs.tokq_le) (by rw [hx.length]; exact hs.length_ge) (by rw [hx.length]; exact hs.length_le)
      (by rw [hx.offset]; exact hs.offset_le) (by rw [hx.maxInsert]; exact hs.maxInsert_ge)
      (by rw [hx.maxInsert]; exact hs.maxInsert_le) (by rw [hx.configured, hx.params]; exact hs.params_row)
  · rw [h']
    exact ⟨hwin, by rw [slideWindow_head]; exact hs.headWf, by rw [slideWindow_prev]; exact hs.prevWf, hi, hwe,
      by rw [hx.tokq]; exact hs.tokq_le, ⟨k + 1, by omega, by rw [slideWindow_hashOffset]; omega⟩,
      by rw [hx.length]; exact hs.length_ge, by rw [hx.length]; exact hs.length_le, by rw [hx.offset]; exact hs.offset_le,
      by rw [hx.maxInsert]; exact hs.maxInsert_ge, by rw [hx.maxInsert]; exact hs.maxInsert_le,
      by rw [hx.configured, hx.params]; exact hs.params_row⟩

theorem shiftWindow_live {m : Matcher} (hs : m.Shape) (hl : m.Live) (hi : 65274 ≤ m.index) : (shiftWindow m).Live := by
  have h1 := hs.index_le
  have hx := slideWindow_setup m
  have hslide : (slideWindow m).Live := by
    refine ⟨by rw [hx.tokq]; exact hl.tokq_lt, ?_, ?_, ?_, ?_, ?_, ?_, ?_, ?_,
      by rw [hx.tokq]; exact hl.tokens⟩
    · intro c hc
      rw [slideWindow_head] at hc
      have := hl.head_lt c hc
      rw [slideWindow_index, slideWindow_hashOffset]
      omega
    · intro c hc
      rw [slideWindow_prev] at hc
      have := hl.prev_lt c hc
      rw [slideWindow_index, slideWindow_hashOffset]
      omega
    · have := hl.chainHead_lt
      rw [slideWindow_index, slideWindow_hashOffset, slideWindow_chainHead]
      omega
    · rw [isFast_congr hx.params, hx.length, hx.offset, slideWindow_index, slideWindow_windowEnd]
      intro hf h4
      obtain ⟨h5, h6⟩ := hl.carried hf h4
      exact ⟨h5, by omega⟩
    · intro _; rw [slideWindow_index]; omega
    · intro _; rw [slideWindow_index]; omega
    · rw [isFast_congr hx.params, hx.byteAvailable]; exact hl.fastHeld
    · have hb := hl.block
      have hq := hl.tokq_lt
      unfold Matcher.BlockStart pendingCount at hb ⊢
      rw [hx.byteAvailable, hx.tokq, slideWindow_index, slideWindow_blockStart]
      unfold shiftBlockStart
      simp only [Config.windowSize, Config.maxMatchLength, Config.blockStartNone, Config.maxFlateBlockTokens] at hb hq ⊢
      generalize (if m.byteAvailable = true then 1 else 0) = e at *
      split <;> omega
  rcases shiftWindow_cases m with ⟨-, h⟩ | ⟨-, h⟩ <;> rw [h]
  · exact rebase_live hslide (by rw [slideWindow_hashOffset]; omega)
  · exact hslide

/-! ### fill (R125) -/

theorem appendWindow_setup (m : Matcher) (b : List Byte) : SameSetup m (appendWindow m b).1 :=
  ⟨rfl, rfl, rfl, rfl, rfl, rfl, rfl, rfl, rfl, rfl, rfl⟩

/-- The copied bytes stand at the old end; every other byte of WIN is unchanged. -/
theorem winByte_appendWindow (m : Matcher) (b : List Byte) (a : Nat) :
    winByte (appendWindow m b).1 a =
      if m.windowEnd ≤ a ∧ a < m.windowEnd + (appendWindow m b).2 then b.getD (a - m.windowEnd) 0#8
      else winByte m a := by
  have hk : (appendWindow m b).2 = min b.length (65536 - m.windowEnd) := rfl
  have hw : winByte (appendWindow m b).1 a = winByte (putWin m m.windowEnd (b.take (appendWindow m b).2)) a := rfl
  rw [hw, winByte_putWin, List.length_take]
  by_cases h : m.windowEnd ≤ a ∧ a < m.windowEnd + (appendWindow m b).2
  · rw [if_pos h, if_pos (by omega), List.getD_eq_getElem?_getD, List.getD_eq_getElem?_getD, List.getElem?_take,
      if_pos (by omega)]
  · rw [if_neg h, if_neg (by omega)]

theorem appendWindow_shape {m : Matcher} (hs : m.Shape) (b : List Byte) : (appendWindow m b).1.Shape := by
  have h1 := hs.index_le
  have h2 := hs.windowEnd_le
  simp only [Config.windowBytes] at h2
  have hwe : (appendWindow m b).1.windowEnd = m.windowEnd + min b.length (65536 - m.windowEnd) := rfl
  refine ⟨?_, hs.headWf, hs.prevWf, ?_, ?_, hs.tokq_le, hs.hashOffset_range, hs.length_ge, hs.length_le, hs.offset_le,
    hs.maxInsert_ge, hs.maxInsert_le, hs.params_row⟩
  · refine Memory.bytesWf_putRun hs.winWf (.inr ?_)
    rw [List.length_take]
    show m.windowEnd + min (min b.length (65536 - m.windowEnd)) b.length ≤ 65536
    omega
  · rw [hwe]; show m.index ≤ _; omega
  · rw [hwe]; show _ ≤ 65536; omega

theorem appendWindow_live {m : Matcher} (hl : m.Live) (b : List Byte) : (appendWindow m b).1.Live := by
  refine ⟨hl.tokq_lt, hl.head_lt, hl.prev_lt, hl.chainHead_lt, ?_, hl.pending, hl.queued, hl.fastHeld, hl.block, hl.tokens⟩
  intro hf h4
  obtain ⟨h5, h6⟩ := hl.carried hf h4
  refine ⟨h5, ?_⟩
  show m.index + m.length ≤ m.windowEnd + min b.length (65536 - m.windowEnd) + 1
  omega

/-- The Matcher fill copies into: shifted where the cursor has come far enough (R125). -/
def roomy (m : Matcher) : Matcher := if 65274 ≤ m.index then shiftWindow m else m

/-- fill answers: it makes room, then copies (R125). -/
theorem fill_eq {m : Matcher} (hs : m.Shape) (b : List Byte) : fill m b = .ok (appendWindow (roomy m) b) := by
  have h1 := hs.index_le
  have h2 := hs.windowEnd_le
  simp only [Config.windowBytes] at h2
  unfold fill roomy
  simp only [Config.shiftThreshold, Config.windowSize, Config.windowBytes]
  split
  · rw [if_neg (by omega), if_neg (by omega)]
  · rw [if_neg (by omega)]

theorem roomy_shape {m : Matcher} (hs : m.Shape) : (roomy m).Shape := by
  unfold roomy; split
  · exact shiftWindow_shape hs
  · exact hs

theorem roomy_live {m : Matcher} (hs : m.Shape) (hl : m.Live) : (roomy m).Live := by
  unfold roomy; split
  · next h => exact shiftWindow_live hs hl h
  · exact hl

theorem SameSetup.refl (m : Matcher) : SameSetup m m := ⟨rfl, rfl, rfl, rfl, rfl, rfl, rfl, rfl, rfl, rfl, rfl⟩

theorem roomy_setup (m : Matcher) : SameSetup m (roomy m) := by
  unfold roomy; split
  · exact shiftWindow_setup m
  · exact SameSetup.refl m

/-- After a step without an error fill copies at least one byte (R132). -/
theorem fill_progress {m : Matcher} (hs : m.Shape) (hend : m.windowEnd < m.index + 262) {b : List Byte} (hb : b ≠ []) :
    1 ≤ (appendWindow (roomy m) b).2 := by
  have h1 := hs.index_le
  have h2 := hs.windowEnd_le
  simp only [Config.windowBytes] at h2
  have hl := List.length_pos_iff.mpr hb
  have hk : (appendWindow (roomy m) b).2 = min b.length (65536 - (roomy m).windowEnd) := rfl
  have hr : (roomy m).windowEnd < 65536 := by
    unfold roomy; split
    · rw [shiftWindow_windowEnd]; omega
    · omega
  omega

/-! ### fill_window (R129) -/

theorem length_tail (n : Nat) (l : List Byte) : (tail n l).length = min n l.length := by
  unfold tail; rw [List.length_drop]; omega

/-- What priming an empty window does: the kept tail of the dictionary at 0, HEAD and PREV of its positions. -/
theorem primeWindow_spec {m : Matcher} {dict : List Byte}
    (hh : Memory.wordsWf m.head Config.hashSize) (hp : Memory.wordsWf m.prev Config.windowSize)
    (hhl : ∀ c ∈ m.head, c.2.toNat < m.hashOffset) (hpl : ∀ c ∈ m.prev, c.2.toNat < m.hashOffset)
    (ho : 1 ≤ m.hashOffset) (ho2 : m.hashOffset ≤ 16744449) :
    ∃ hd pv, primeWindow m dict =
        { m with win := Memory.putRun m.win 0 (tail 32768 dict), head := hd, prev := pv,
                 windowEnd := (tail 32768 dict).length, index := (tail 32768 dict).length,
                 blockStart := (tail 32768 dict).length } ∧
      ChainsBelow { m with head := hd, prev := pv } ((tail 32768 dict).length + m.hashOffset) := by
  have hlen := length_tail 32768 dict
  obtain ⟨hd, pv, he, hc⟩ := insertAll_spec ((tail 32768 dict).length - 3) 0 (putWin m 0 (tail 32768 dict))
    ((tail 32768 dict).length + m.hashOffset)
    ⟨hh, hp, fun c hc => Nat.lt_of_lt_of_le (hhl c hc) (Nat.le_add_left _ _),
      fun c hc => Nat.lt_of_lt_of_le (hpl c hc) (Nat.le_add_left _ _)⟩
    (by show 0 + _ + m.hashOffset ≤ _; omega) (by omega)
  refine ⟨hd, pv, ?_, ⟨hc.headWf, hc.prevWf, hc.head_lt, hc.prev_lt⟩⟩
  unfold primeWindow
  simp only [Config.windowSize, Config.fillSetsBlockStart, if_true]
  rw [he]
  rfl

end Sys2Proof.Machine
end

