-- ==== Sys2Proof/Laws/Commands.lean ====
section
/-! SUPPORT. The Matcher commands' pseudocode (46_matcher_commands.md R159 to R172) from a state that meets the
invariants: each body answers, and how. -/

namespace Sys2Proof.Machine

/-! ### The Matcher's side -/

/-- The invariants of the Matcher's side of the state. -/
structure SideInv (u : MatcherSide) : Prop where
  m : u.m.Inv
  sticky : ∀ c, u.e.err = some c ↔ u.m.err = .io c

theorem State.Inv.side {s : State} (h : s.Inv) : SideInv s.side := ⟨h.m, h.sticky⟩

theorem SideInv.ready {u : MatcherSide} (h : SideInv u) (he : u.m.err = .noError) : Ready u := by
  refine ⟨h.m.shape, h.m.live he, he, ?_⟩
  cases hc : u.e.err with
  | none => rfl
  | some c => rw [(h.sticky c).mp hc] at he; cases he

theorem Ready.side {u : MatcherSide} (h : Ready u) (hs : u.m.sync = false) : SideInv u :=
  ⟨⟨h.shape, fun _ => h.live, fun _ => hs⟩, fun c => by rw [h.emitter, h.err]; exact ⟨nofun, nofun⟩⟩

/-- The side after a failure: M.err holds the Emitter's code. -/
theorem sideInv_failed {u : MatcherSide} {c : Word32} (hs : u.m.Shape) (h1 : u.m.err = .io c) (h2 : u.e.err = some c) :
    SideInv u :=
  ⟨⟨hs, fun h => (by rw [h1] at h; cases h), fun h => (by rw [h1] at h; cases h)⟩,
    fun c' => by rw [h1, h2, Option.some.injEq, StreamErr.io.injEq]⟩

/-- What every command between M_CONFIG and M_RESET leaves alone. -/
structure Kept (m m' : Matcher) : Prop where
  configured : m'.configured = m.configured
  faulted : m'.faulted = m.faulted
  params : m'.params = m.params
  winEpoch : m'.winEpoch = m.winEpoch

theorem Kept.refl (m : Matcher) : Kept m m := ⟨rfl, rfl, rfl, rfl⟩

theorem Kept.trans {m m' m'' : Matcher} (h : Kept m m') (h' : Kept m' m'') : Kept m m'' :=
  ⟨h'.configured.trans h.configured, h'.faulted.trans h.faulted, h'.params.trans h.params, h'.winEpoch.trans h.winEpoch⟩

theorem SameBase.kept {m m' : Matcher} (h : SameBase m m') : Kept m m' :=
  ⟨h.configured, h.faulted, h.params, h.winEpoch⟩

theorem SameSetup.kept {m m' : Matcher} (h : SameSetup m m') : Kept m m' :=
  ⟨h.configured, h.faulted, h.params, h.winEpoch⟩

/-! ### The checks before a body (R159, R204) -/

/-- A faulted Matcher answers its latched code and nothing else happens (R203). -/
theorem matcherCommand_faulted {s : State} {f : FaultCode} (h : s.m.faulted = some f) (nc : Bool)
    (body : MatcherSide → Verdict MatcherSide) : matcherCommand nc body s = .next (respond s (.fault f) 0 []) := by
  unfold matcherCommand; rw [h]

/-- A configured Matcher without a fault runs the body. -/
theorem matcherCommand_run {s : State} (hf : s.m.faulted = none) {nc : Bool} (hc : nc = false ∨ s.m.configured = true)
    (body : MatcherSide → Verdict MatcherSide) : matcherCommand nc body s = finishMatcher s (body s.side) := by
  unfold matcherCommand
  rw [hf]
  rcases hc with rfl | hc
  · rfl
  · simp only [hc, Bool.not_true, Bool.and_false, Bool.false_eq_true, if_false]

/-- An unconfigured Matcher raises F_NOT_CONFIGURED. -/
theorem matcherCommand_unconfigured {s : State} (hf : s.m.faulted = none) (hc : s.m.configured = false)
    (body : MatcherSide → Verdict MatcherSide) :
    matcherCommand true body s = .next (raiseFault .matcher .notConfigured s) := by
  unfold matcherCommand; rw [hf]; simp only [hc, Bool.not_false, Bool.and_self, if_true]

theorem shortCircuit_live {u : MatcherSide} (h : u.m.err = .noError) (body : MatcherSide → Verdict MatcherSide) :
    shortCircuit body u = body u := by unfold shortCircuit; rw [h]

theorem shortCircuit_err {u : MatcherSide} (h : u.m.err ≠ .noError) (body : MatcherSide → Verdict MatcherSide) :
    shortCircuit body u = errResponse u := by
  unfold shortCircuit
  split
  · next h' => exact absurd h' h
  · rfl

theorem errResponse_io {u : MatcherSide} {c : Word32} (h : u.m.err = .io c) :
    errResponse u = .reply u .io c.toNat [] := by unfold errResponse; rw [h]; rfl

/-! ### A step inside a command -/

/-- A step from a ready state gives its command the state it ends in: F_INTERNAL is not raised (R144). -/
theorem withStep_good {u : MatcherSide} (hr : Ready u) :
    ∃ u', matcherStep u = .ok u' ∧ Ends u u' ∧ ∀ k : MatcherSide → Verdict MatcherSide, withStep u k = k u' := by
  obtain ⟨u', h1, h2⟩ := matcherStep_good hr
  exact ⟨u', h1, h2, fun k => by unfold withStep; rw [h1]⟩

/-! ### clear_matcher and M_CONFIG, M_RESET, M_FILL_WINDOW -/

theorem clearMatcher_shape {m : Matcher} (hw : Memory.bytesWf m.win Config.windowBytes)
    (hp : m.configured = true → ∃ l, 2 ≤ l ∧ l ≤ 9 ∧ m.params = levelRow l) : (clearMatcher m).Shape where
  winWf := hw
  headWf := ⟨List.Pairwise.nil, by simp, by simp⟩
  prevWf := ⟨List.Pairwise.nil, by simp, by simp⟩
  index_le := Nat.le_refl _
  windowEnd_le := Nat.zero_le _
  tokq_le := by simp
  hashOffset_range := ⟨0, by omega, rfl⟩
  length_ge := by simp
  length_le := by simp
  offset_le := by simp
  maxInsert_ge := by simp
  maxInsert_le := by simp
  params_row := hp

theorem clearMatcher_live (m : Matcher) : (clearMatcher m).Live where
  tokq_lt := by simp
  head_lt := by simp
  prev_lt := by simp
  chainHead_lt := by simp
  carried := fun _ h => absurd h (by simp)
  pending := fun h => by simp at h
  queued := fun h => by simp at h
  fastHeld := fun _ => rfl
  block := .inl ⟨Nat.le_refl _, Nat.zero_le _⟩
  tokens := by simp

/-- The levels of the table (R110). -/
theorem resolveLevel_range {v : Int} {l : Nat} (h : resolveLevel v = .deflate l) : 2 ≤ l ∧ l ≤ 9 := by
  unfold resolveLevel at h
  split at h
  · cases h; omega
  · split at h
    · cases h; omega
    · split at h <;> cases h

/-- The Matcher after a good M_CONFIG (R160, R162). -/
theorem config_inv {m : Matcher} {e : Emitter} {l : Nat} (hw : Memory.bytesWf m.win Config.windowBytes) (h2 : 2 ≤ l) (h9 : l ≤ 9) :
    SideInv ⟨{ clearMatcher { m with params := levelRow l } with configured := true }, { e with err := none, log := [] }⟩ := by
  have hs := clearMatcher_shape (m := { m with params := levelRow l, configured := true }) hw (fun _ => ⟨l, h2, h9, rfl⟩)
  have hl := clearMatcher_live { m with params := levelRow l, configured := true }
  exact ⟨⟨hs, fun _ => hl, fun _ => rfl⟩, fun c => ⟨nofun, nofun⟩⟩

/-- The Matcher primed with `n` bytes, given the memories after priming. -/
theorem primed_inv {u : MatcherSide} (hi : SideInv u) (he : u.m.err = .noError) (hx : u.m.index = 0) (hw : u.m.windowEnd = 0)
    {n : Nat} (hn : n ≤ 65536) {win : List Host.Cell} {hd pv : List (Nat × Word32)}
    (hwin : Memory.bytesWf win Config.windowBytes) (hc : ChainsBelow { u.m with head := hd, prev := pv } (n + u.m.hashOffset)) :
    SideInv ⟨{ u.m with win := win, head := hd, prev := pv, windowEnd := n, index := n, blockStart := n }, u.e⟩ := by
  have hs := hi.m.shape
  have hl := hi.m.live he
  have hcl := hl.chainHead_lt
  rw [hx] at hcl
  refine ⟨⟨⟨hwin, hc.headWf, hc.prevWf, Nat.le_refl _, hn, hs.tokq_le, hs.hashOffset_range, hs.length_ge, hs.length_le,
    hs.offset_le, hs.maxInsert_ge, hs.maxInsert_le, hs.params_row⟩, fun _ => ⟨hl.tokq_lt, hc.head_lt, hc.prev_lt, ?_, ?_, ?_, ?_,
    hl.fastHeld, ?_, hl.tokens⟩,
    hi.m.notSync⟩, hi.sticky⟩
  · show u.m.chainHead < (n : Int) + u.m.hashOffset; omega
  · intro hf h4
    obtain ⟨h5, h6⟩ := hl.carried hf h4
    have : 4 ≤ u.m.length := h4
    omega
  · intro h; exact absurd (hl.pending h) (by omega)
  · intro h; exact absurd (hl.queued h) (by omega)
  · have hb : u.m.byteAvailable = false := by
      cases hb : u.m.byteAvailable with
      | false => rfl
      | true => have := hl.pending hb; omega
    unfold Matcher.BlockStart pendingCount
    simp only [hb, Bool.false_eq_true, if_false]
    exact .inl ⟨Nat.le_refl _, Nat.le_add_right _ _⟩

/-- Priming keeps a Matcher with an empty window good (R129). -/
theorem primeWindow_inv {u : MatcherSide} (hi : SideInv u) (he : u.m.err = .noError) (hx : u.m.index = 0)
    (hw : u.m.windowEnd = 0) (dict : List Byte) :
    SideInv ⟨primeWindow u.m dict, u.e⟩ ∧ Kept u.m (primeWindow u.m dict) := by
  have hs := hi.m.shape
  have hl := hi.m.live he
  obtain ⟨ho1, ho2⟩ := hashOffset_bounds hs.hashOffset_range
  have hlen := length_tail 32768 dict
  have hhl := hl.head_lt
  have hpl := hl.prev_lt
  rw [hx, Nat.zero_add] at hhl hpl
  obtain ⟨hd, pv, hp, hc⟩ := primeWindow_spec (m := u.m) (dict := dict) hs.headWf hs.prevWf hhl hpl ho1 ho2
  have hn : (tail 32768 dict).length ≤ 65536 := by omega
  have hwin : Memory.bytesWf (Memory.putRun u.m.win 0 (tail 32768 dict)) Config.windowBytes :=
    Memory.bytesWf_putRun hs.winWf (.inr (by rw [Nat.zero_add]; exact hn))
  rw [hp]
  exact ⟨primed_inv hi he hx hw hn hwin hc, rfl, rfl, rfl, rfl⟩

/-! ### M_WRITE (R166) -/

/-- The Matcher after one round's fill. -/
theorem filled_ready {u u1 : MatcherSide} (h : Ends u u1) (he : u1.m.err = .noError) (b : List Byte) :
    Ready { u1 with m := (appendWindow (roomy u1.m) b).1 } := by
  rcases h.outcome with ⟨h1, h2, h3, -, -⟩ | ⟨c, h1, -⟩
  · exact ⟨appendWindow_shape (roomy_shape h.shape) b, appendWindow_live (roomy_live h.shape h3) b,
      (roomy_setup u1.m).err.trans h1, h2⟩
  · rw [h1] at he; cases he

/-- How M_WRITE leaves the Matcher's side. -/
structure Written (u u' : MatcherSide) : Prop where
  kept : Kept u.m u'.m
  log : ∃ l, u'.e.log = u.e.log ++ l ∧ OnlyBlocks l

theorem Written.trans {u u' u'' : MatcherSide} (h : Written u u') (h' : Written u' u'') : Written u u'' := by
  obtain ⟨l, h1, h2⟩ := h.log
  obtain ⟨l', h3, h4⟩ := h'.log
  exact ⟨h.kept.trans h'.kept, l ++ l', by rw [h3, h1, List.append_assoc], h2.append h4⟩

/-- The loop of M_WRITE takes all its bytes, or ends at the Emitter's error; it never runs out of rounds (R132, R166). -/
theorem writeLoop_good (total : Nat) : ∀ (fuel : Nat) (bs : List Byte) (u : MatcherSide), Ready u → u.m.sync = false →
    bs.length ≤ fuel →
    ∃ u', Written u u' ∧
      ((writeLoop total fuel bs u = .reply u' .ok total [] ∧ Ready u' ∧ u'.m.sync = false) ∨
       (∃ c, writeLoop total fuel bs u = .reply u' .io c.toNat [] ∧ u'.m.Shape ∧ u'.m.err = .io c ∧ u'.e.err = some c)) := by
  intro fuel
  induction fuel with
  | zero =>
    intro bs u hr hs hlen
    cases bs with
    | nil => exact ⟨u, ⟨Kept.refl _, [], by simp, onlyBlocks_nil⟩, .inl ⟨rfl, hr, hs⟩⟩
    | cons b bs => simp at hlen
  | succ fuel ih =>
    intro bs u hr hs hlen
    cases bs with
    | nil => exact ⟨u, ⟨Kept.refl _, [], by simp, onlyBlocks_nil⟩, .inl ⟨rfl, hr, hs⟩⟩
    | cons b bs =>
      obtain ⟨u1, -, hends, hk⟩ := withStep_good hr
      unfold writeLoop
      rw [hk, fill_eq hends.shape]
      have hset := (roomy_setup u1.m).trans (appendWindow_setup (roomy u1.m) (b :: bs))
      have hs1 : u1.m.sync = false := hends.base.sync.trans hs
      have hw1 : Written u { u1 with m := (appendWindow (roomy u1.m) (b :: bs)).1 } :=
        ⟨hends.base.kept.trans hset.kept, hends.log⟩
      simp only
      rcases hends.outcome with ⟨h1, h2, h3, h4, -⟩ | ⟨c, h1, h2⟩
      · have hp := fill_progress hends.shape (h4 hs1) (List.cons_ne_nil b bs)
        have hr2 := filled_ready hends h1 (b :: bs)
        rw [hset.err, h1]
        simp only [List.length_cons] at hlen
        obtain ⟨u', hw, hres⟩ := ih ((b :: bs).drop (appendWindow (roomy u1.m) (b :: bs)).2)
          { u1 with m := (appendWindow (roomy u1.m) (b :: bs)).1 } hr2 (hset.sync.trans hs1)
          (by rw [List.length_drop, List.length_cons]; omega)
        exact ⟨u', hw1.trans hw, hres⟩
      · rw [hset.err, h1]
        refine ⟨_, hw1, .inr ⟨c, ?_, appendWindow_shape (roomy_shape hends.shape) _, hset.err.trans h1, h2⟩⟩
        exact errResponse_io (hset.err.trans h1)

/-! ### M_SYNC_FLUSH and M_CLOSE (R168, R169) -/

theorem Ready.beginSync {u : MatcherSide} (hr : Ready u) : Ready (beginSync u) := by
  have hs := hr.shape
  have hl := hr.live
  exact ⟨⟨hs.winWf, hs.headWf, hs.prevWf, hs.index_le, hs.windowEnd_le, hs.tokq_le, hs.hashOffset_range, hs.length_ge,
      hs.length_le, hs.offset_le, hs.maxInsert_ge, hs.maxInsert_le, hs.params_row⟩,
    ⟨hl.tokq_lt, hl.head_lt, hl.prev_lt, hl.chainHead_lt, hl.carried, hl.pending, hl.queued, hl.fastHeld, hl.block, hl.tokens⟩, hr.err, hr.emitter⟩

/-- Everything given to the Matcher has been tokenized and sent (R168). -/
structure Drained (m : Matcher) : Prop where
  index : m.index = m.windowEnd
  tokq : m.tokq = []
  byteAvailable : m.byteAvailable = false

/-- Latching the Emitter's answer (R168, R169). -/
theorem latchEmitterErr_cases (u : MatcherSide) :
    (u.e.err = none ∧ latchEmitterErr u = u) ∨
    (∃ c, u.e.err = some c ∧ latchEmitterErr u = { u with m := { u.m with err := .io c } }) := by
  unfold latchEmitterErr
  cases u.e.err with
  | none => exact .inl ⟨rfl, rfl⟩
  | some c => exact .inr ⟨c, rfl, rfl⟩

theorem Matcher.Shape.withErr {m : Matcher} (h : m.Shape) (x : StreamErr) : Matcher.Shape { m with err := x } :=
  ⟨h.winWf, h.headWf, h.prevWf, h.index_le, h.windowEnd_le, h.tokq_le, h.hashOffset_range, h.length_ge, h.length_le,
    h.offset_le, h.maxInsert_ge, h.maxInsert_le, h.params_row⟩

theorem Matcher.Shape.withSync {m : Matcher} (h : m.Shape) (x : Bool) : Matcher.Shape { m with sync := x } :=
  ⟨h.winWf, h.headWf, h.prevWf, h.index_le, h.windowEnd_le, h.tokq_le, h.hashOffset_range, h.length_ge, h.length_le,
    h.offset_le, h.maxInsert_ge, h.maxInsert_le, h.params_row⟩

theorem Matcher.Live.withSync {m : Matcher} (h : m.Live) (x : Bool) : Matcher.Live { m with sync := x } :=
  ⟨h.tokq_lt, h.head_lt, h.prev_lt, h.chainHead_lt, h.carried, h.pending, h.queued, h.fastHeld, h.block, h.tokens⟩

/-- The end of M_SYNC_FLUSH, from the state its step ends in. -/
def syncEnd (u1 : MatcherSide) : MatcherSide := endSync (match u1.m.err with | .noError => syncMarkers u1 | _ => u1)

theorem syncFlushBody_of_step {u u1 : MatcherSide} (hk : ∀ k : MatcherSide → Verdict MatcherSide, withStep (beginSync u) k = k u1) :
    ((syncEnd u1).m.err = .noError → syncFlushBody u = .reply (syncEnd u1) .ok 0 []) ∧
    (∀ c, (syncEnd u1).m.err = .io c → syncFlushBody u = .reply (syncEnd u1) .io c.toNat []) := by
  have h : syncFlushBody u = match (syncEnd u1).m.err with | .noError => .reply (syncEnd u1) .ok 0 [] | _ => errResponse (syncEnd u1) := by
    unfold syncFlushBody
    rw [hk]
    rfl
  constructor
  · intro he; rw [h, he]
  · intro c he; rw [h, he]; exact errResponse_io he

/-- M_SYNC_FLUSH from a ready state: it answers OK with everything drained and both markers sent, or the Emitter's
error, with both markers sent or none (R168). -/
theorem syncFlushBody_good {u : MatcherSide} (hr : Ready u) :
    ∃ u', Kept u.m u'.m ∧ u'.m.windowEnd = u.m.windowEnd ∧ u'.m.win = u.m.win ∧ u'.m.hashOffset = u.m.hashOffset ∧ SideInv u' ∧ u'.m.sync = false ∧
      ((syncFlushBody u = .reply u' .ok 0 [] ∧ u'.m.err = .noError ∧ Drained u'.m ∧
          ∃ l, u'.e.log = u.e.log ++ l ++ [.emitStoredHeader 0#16 false, .emitFlush] ∧ OnlyBlocks l) ∨
       (∃ c, syncFlushBody u = .reply u' .io c.toNat [] ∧ u'.m.err = .io c ∧ ∃ l, OnlyBlocks l ∧ (u'.e.log = u.e.log ++ l ∨
          u'.e.log = u.e.log ++ l ++ [.emitStoredHeader 0#16 false, .emitFlush]))) := by
  obtain ⟨u1, -, hends, hk⟩ := withStep_good hr.beginSync
  obtain ⟨hok, hio⟩ := syncFlushBody_of_step hk
  have hb := hends.base
  have hs1 : u1.m.sync = true := hb.sync
  have hcase : (u1.m.err = .noError ∧ u1.e.err = none ∧ u1.m.Live ∧ Drained u1.m) ∨ ∃ c, u1.m.err = .io c ∧ u1.e.err = some c := by
    rcases hends.outcome with ⟨h1, h2, h3, -, h5⟩ | h
    · obtain ⟨h6, h7, h8⟩ := h5 hs1
      exact .inl ⟨h1, h2, h3, h6, h7, h8⟩
    · exact .inr h
  rcases hcase with ⟨h1, h2, h3, h5⟩ | ⟨c, h1, h2⟩
  · have hv : syncEnd u1 = endSync (syncMarkers u1) := by unfold syncEnd; rw [h1]
    rcases latchEmitterErr_cases { u1 with e := emitRequest (emitRequest u1.e (.emitStoredHeader 0#16 false)) .emitFlush }
      with ⟨he, hl⟩ | ⟨c, he, hl⟩
    · have hv' : syncEnd u1 = ⟨{ u1.m with sync := false }, emitRequest (emitRequest u1.e (.emitStoredHeader 0#16 false)) .emitFlush⟩ := by
        rw [hv]; unfold syncMarkers; rw [hl]; rfl
      have herr : (syncEnd u1).m.err = .noError := by rw [hv']; exact h1
      refine ⟨syncEnd u1, ?_, by rw [hv']; exact hb.windowEnd, by rw [hv']; exact hb.win, by rw [hv']; exact hb.hashOffset, ?_, by rw [hv'],
        .inl ⟨hok herr, herr, ?_, ?_⟩⟩
      · rw [hv']; exact ⟨hb.configured, hb.faulted, hb.params, hb.winEpoch⟩
      · rw [hv']; exact Ready.side ⟨hends.shape.withSync false, h3.withSync false, h1, he⟩ rfl
      · rw [hv']; exact ⟨h5.index, h5.tokq, h5.byteAvailable⟩
      · obtain ⟨l, h9, h10⟩ := hends.log
        refine ⟨l, ?_, h10⟩
        rw [hv', emitRequest_log, emitRequest_log, h9]
        simp [beginSync]
    · have hv' : syncEnd u1 = ⟨{ u1.m with sync := false, err := .io c }, emitRequest (emitRequest u1.e (.emitStoredHeader 0#16 false)) .emitFlush⟩ := by
        rw [hv]; unfold syncMarkers; rw [hl]; rfl
      have herr : (syncEnd u1).m.err = .io c := by rw [hv']
      refine ⟨syncEnd u1, ?_, by rw [hv']; exact hb.windowEnd, by rw [hv']; exact hb.win, by rw [hv']; exact hb.hashOffset, ?_, by rw [hv'],
        .inr ⟨c, hio c herr, herr, ?_⟩⟩
      · rw [hv']; exact ⟨hb.configured, hb.faulted, hb.params, hb.winEpoch⟩
      · rw [hv']; exact sideInv_failed ((hends.shape.withErr (.io c)).withSync false) rfl he
      · obtain ⟨l, h9, h10⟩ := hends.log
        refine ⟨l, h10, .inr ?_⟩
        rw [hv', emitRequest_log, emitRequest_log, h9]
        simp [beginSync]
  · have hv : syncEnd u1 = ⟨{ u1.m with sync := false }, u1.e⟩ := by unfold syncEnd; rw [h1]; rfl
    have herr : (syncEnd u1).m.err = .io c := by rw [hv]; exact h1
    refine ⟨syncEnd u1, ?_, by rw [hv]; exact hb.windowEnd, by rw [hv]; exact hb.win, by rw [hv]; exact hb.hashOffset, ?_, by rw [hv],
      .inr ⟨c, hio c herr, herr, ?_⟩⟩
    · rw [hv]; exact ⟨hb.configured, hb.faulted, hb.params, hb.winEpoch⟩
    · rw [hv]; exact sideInv_failed (hends.shape.withSync false) h1 h2
    · obtain ⟨l, h9, h10⟩ := hends.log
      exact ⟨l, h10, .inl (by rw [hv]; exact h9)⟩

/-- One request of M_CLOSE (R169). -/
theorem closeRequest_cases (r : LogEntry) (u : MatcherSide) (k : MatcherSide → Verdict MatcherSide) :
    ((emitRequest u.e r).err = none ∧ closeRequest r u k = k { u with e := emitRequest u.e r }) ∨
    (∃ c, (emitRequest u.e r).err = some c ∧
      closeRequest r u k = .reply ⟨{ u.m with err := .io c }, emitRequest u.e r⟩ .io c.toNat []) := by
  unfold closeRequest
  rcases latchEmitterErr_cases { u with e := emitRequest u.e r } with ⟨he, hl⟩ | ⟨c, he, hl⟩
  · left
    refine ⟨he, ?_⟩
    rw [hl]; simp only at he ⊢; rw [he]
  · right
    refine ⟨c, he, ?_⟩
    rw [hl]; simp only at he ⊢; rw [he]; rfl

/-- M_CLOSE from a ready state: it answers OK with everything drained, both end requests sent and the stream closed, or the
Emitter's error, with nothing sent after the request that failed (R169). -/
theorem closeBody_good {u : MatcherSide} (hr : Ready u) :
    ∃ u', Kept u.m u'.m ∧ u'.m.windowEnd = u.m.windowEnd ∧ u'.m.win = u.m.win ∧ u'.m.hashOffset = u.m.hashOffset ∧ SideInv u' ∧
      ((closeBody u = .reply u' .ok 0 [] ∧ u'.m.err = .closed ∧ u'.m.sync = true ∧ u'.e.err = none ∧ Drained u'.m ∧
          ∃ l, u'.e.log = u.e.log ++ l ++ [.emitStoredHeader 0#16 true, .emitFlush] ∧ OnlyBlocks l) ∨
       (∃ c, closeBody u = .reply u' .io c.toNat [] ∧ u'.m.err = .io c ∧ ∃ l, OnlyBlocks l ∧ (u'.e.log = u.e.log ++ l ∨
          u'.e.log = u.e.log ++ l ++ [.emitStoredHeader 0#16 true] ∨
          u'.e.log = u.e.log ++ l ++ [.emitStoredHeader 0#16 true, .emitFlush]))) := by
  obtain ⟨u1, -, hends, hk⟩ := withStep_good hr.beginSync
  unfold closeBody
  rw [hr.err]
  simp only
  rw [hk]
  have hb := hends.base
  have hs1 : u1.m.sync = true := hb.sync
  rcases hends.outcome with ⟨h1, h2, h3, -, h5⟩ | ⟨c, h1, h2⟩
  · obtain ⟨h6, h7, h8⟩ := h5 hs1
    rw [h1]
    simp only
    rcases closeRequest_cases (.emitStoredHeader 0#16 true) u1 (fun u2 =>
      closeRequest .emitFlush u2 fun u3 => .reply (markClosed u3) .ok 0 []) with ⟨he, hl⟩ | ⟨c, he, hl⟩
    · rw [hl]
      rcases closeRequest_cases .emitFlush { u1 with e := emitRequest u1.e (.emitStoredHeader 0#16 true) }
        (fun u3 => .reply (markClosed u3) .ok 0 []) with ⟨he2, hl2⟩ | ⟨c, he2, hl2⟩
      · rw [hl2]
        refine ⟨⟨{ u1.m with err := .closed }, emitRequest (emitRequest u1.e (.emitStoredHeader 0#16 true)) .emitFlush⟩,
          ⟨hb.configured, hb.faulted, hb.params, hb.winEpoch⟩, hb.windowEnd, hb.win, hb.hashOffset,
          ⟨⟨hends.shape.withErr .closed, nofun, nofun⟩, fun c => ?_⟩, .inl ⟨rfl, rfl, hs1, he2, ⟨h6, h7, h8⟩, ?_⟩⟩
        · rw [he2]; exact ⟨nofun, nofun⟩
        · obtain ⟨l, h9, h10⟩ := hends.log
          refine ⟨l, ?_, h10⟩
          rw [emitRequest_log, emitRequest_log, h9]
          simp [beginSync]
      · rw [hl2]
        obtain ⟨l, h9, h10⟩ := hends.log
        exact ⟨⟨{ u1.m with err := .io c }, emitRequest (emitRequest u1.e (.emitStoredHeader 0#16 true)) .emitFlush⟩,
          ⟨hb.configured, hb.faulted, hb.params, hb.winEpoch⟩, hb.windowEnd, hb.win, hb.hashOffset,
          sideInv_failed (hends.shape.withErr (.io c)) rfl he2,
          .inr ⟨c, rfl, rfl, l, h10, .inr (.inr (by rw [emitRequest_log, emitRequest_log, h9]; simp [beginSync]))⟩⟩
    · rw [hl]
      obtain ⟨l, h9, h10⟩ := hends.log
      exact ⟨⟨{ u1.m with err := .io c }, emitRequest u1.e (.emitStoredHeader 0#16 true)⟩,
        ⟨hb.configured, hb.faulted, hb.params, hb.winEpoch⟩, hb.windowEnd, hb.win, hb.hashOffset,
        sideInv_failed (hends.shape.withErr (.io c)) rfl he,
        .inr ⟨c, rfl, rfl, l, h10, .inr (.inl (by rw [emitRequest_log, h9]; simp [beginSync]))⟩⟩
  · rw [h1]
    obtain ⟨l, h9, h10⟩ := hends.log
    exact ⟨u1, ⟨hb.configured, hb.faulted, hb.params, hb.winEpoch⟩, hb.windowEnd, hb.win, hb.hashOffset, sideInv_failed hends.shape h1 h2,
      .inr ⟨c, errResponse_io h1, h1, l, h10, .inl (by rw [h9]; simp [beginSync])⟩⟩

end Sys2Proof.Machine
end

