-- ==== Sys2Proof/Laws/Calm.lean ====
section
/-! SUPPORT. An Emitter with enough NONE answers ready lets a Matcher command succeed (20_memory.md R70; log 6): a turn of the
loop draws at most one answer and moves M.index, the end of the data draws one, the markers two. -/

namespace Sys2Proof.Machine

theorem Calm.mono {e : Emitter} {n n' : Nat} (h : Calm e n) (hn : n' ≤ n) : Calm e n' :=
  ⟨h.1, Nat.le_trans hn h.2.1, h.2.2⟩

/-- A request to a calm Emitter is answered NONE and uses one answer. -/
theorem Calm.request {e : Emitter} {n : Nat} (h : Calm e (n + 1)) (r : LogEntry) :
    (emitRequest e r).err = none ∧ Calm (emitRequest e r) n := by
  obtain ⟨h1, h2, h3⟩ := h
  unfold emitRequest drawAnswer
  simp only [h1]
  cases ha : e.answers with
  | nil => rw [ha] at h2; simp at h2
  | cons a rest =>
    rw [ha] at h2 h3
    have ha0 : a = none := h3 a (by simp)
    subst ha0
    simp only [List.length_cons] at h2
    exact ⟨rfl, rfl, by show n ≤ rest.length; omega, fun b hb => h3 b (List.mem_cons_of_mem _ hb)⟩

/-- A turn at a position goes on and uses at most one answer. -/
theorem Turned.calm {u : MatcherSide} {r : Turn} (h : Turned u r) {n : Nat} (hc : Calm u.e (n + 1)) :
    ∃ u', r = .again u' ∧ Calm u'.e n := by
  obtain ⟨t, x, m', -, -, hres⟩ := h
  rcases hres with ⟨-, -, rfl⟩ | ⟨-, ⟨-, rfl⟩ | ⟨-, -, rfl⟩ | ⟨c, m'', -, he, -, -, -, -, -⟩⟩
  · exact ⟨_, rfl, hc.mono (Nat.le_succ n)⟩
  · exact ⟨_, rfl, hc.mono (Nat.le_succ n)⟩
  · exact ⟨_, rfl, (hc.request _).2⟩
  · rw [(hc.request _).1] at he; cases he

/-- The end of the data uses at most one answer and does not fail. -/
theorem endOfData_calm {u : MatcherSide} (hr : Ready u) {n : Nat} (hc : Calm u.e (n + 1)) :
    ∃ u', endOfData u = .ended u' ∧ u'.m.err = .noError ∧ Calm u'.e n := by
  rw [endOfData_eq hr.live]
  have hk := settled_keeps u.m
  by_cases hq : (settled u.m).tokq = []
  · rw [if_pos hq]
    exact ⟨_, rfl, hk.err.trans hr.err, hc.mono (Nat.le_succ n)⟩
  · rw [if_neg hq]
    rcases flushTokens_spec u.m.index { u with m := settled u.m } (settled_queued hr.live hq) with ⟨-, hf⟩ | ⟨c, he, -⟩
    · rw [hf]
      exact ⟨_, rfl, hk.err.trans hr.err, (hc.request _).2⟩
    · rw [(hc.request _).1] at he; cases he

/-- The answers a step may use: one for each pending position, and one at the end of the data under M.sync. -/
def stepDraws (m : Matcher) : Nat := m.windowEnd - m.index + (if m.sync then 1 else 0)

theorem runLoop_calm : ∀ (fuel : Nat) (u u' : MatcherSide) (n : Nat), Ready u → u.m.windowEnd - u.m.index < fuel →
    Calm u.e (stepDraws u.m + n) → runLoop fuel u = .ok u' →
    u'.m.err = .noError ∧ Calm u'.e (u'.m.windowEnd - u'.m.index + n) := by
  intro fuel
  induction fuel with
  | zero => intro u u' n _ h; omega
  | succ fuel ih =>
    intro u u' n hr hf hc h
    have hle := hr.shape.index_le
    have hgood := iterate_good hr
    unfold stepDraws at hc
    unfold runLoop at h
    unfold iterate at h hgood
    rw [if_neg (by omega)] at h hgood
    by_cases hend : u.m.windowEnd - u.m.index < 262 ∧ u.m.sync = false
    · rw [if_pos (by simp [hend.1, hend.2])] at h
      simp only [Except.ok.injEq] at h
      subst h
      exact ⟨hr.err, hc.mono (by omega)⟩
    · have hend' : ¬(decide (u.m.windowEnd - u.m.index < Config.lookaheadMin) && !u.m.sync) = true := by
        simpa using hend
      rw [if_neg (by simpa using hend')] at h hgood
      by_cases h0 : u.m.windowEnd - u.m.index = 0
      · rw [if_pos h0] at h
        have hsync : u.m.sync = true := by
          cases hs : u.m.sync with
          | true => rfl
          | false => exact absurd ⟨by omega, hs⟩ hend
        rw [hsync] at hc
        obtain ⟨v, h1, h2, h3⟩ := endOfData_calm hr (n := n) (hc.mono (by simp))
        obtain ⟨w, h4, h5⟩ := endOfData_good hr (by omega)
        rw [h1] at h h4
        cases h; cases h4
        refine ⟨h2, h3.mono ?_⟩
        rcases h5.outcome with ⟨-, -, -, -, h6⟩ | ⟨c, h6, -⟩
        · have := (h6 (h5.base.sync.trans hsync)).1; omega
        · rw [h2] at h6; cases h6
      · rw [if_neg h0] at h hgood
        obtain ⟨v, h1, h2⟩ := (scanPosition_turned hr.shape hr.live (by omega)).calm (n := stepDraws u.m + n - 1)
          (hc.mono (by unfold stepDraws; omega))
        rw [h1] at h hgood
        rcases hgood with ⟨w, h3, h4, h5, h6, -⟩ | ⟨w, h3, -⟩
        · cases h3
          have hle' := h4.shape.index_le
          have hwe := h5.windowEnd
          have hsy := h5.sync
          refine ih v u' n h4 (by omega) (h2.mono ?_) h
          unfold stepDraws
          rw [hsy, hwe]
          rw [hwe] at hle'
          omega
        · cases h3

/-- A step with answers for every pending position, and one more under M.sync, does not fail. -/
theorem matcherStep_calm {u u' : MatcherSide} {n : Nat} (hr : Ready u) (hc : Calm u.e (stepDraws u.m + n))
    (h : matcherStep u = .ok u') : u'.m.err = .noError ∧ Calm u'.e (u'.m.windowEnd - u'.m.index + n) := by
  have hwe := hr.shape.windowEnd_le
  unfold matcherStep at h
  split at h
  · cases h
    exact ⟨hr.err, hc.mono (by unfold stepDraws; omega)⟩
  · rw [if_neg (by omega)] at h
    exact runLoop_calm _ (armed u) u' n hr.armed (Nat.lt_succ_self _) hc h

/-- M_WRITE with answers for every byte pending or written does not fail. -/
theorem writeLoop_calm (total : Nat) : ∀ (fuel : Nat) (bs : List Byte) (u : MatcherSide), Ready u → u.m.sync = false →
    bs.length ≤ fuel → Calm u.e (u.m.windowEnd - u.m.index + bs.length) →
    ∃ u', writeLoop total fuel bs u = .reply u' .ok total [] ∧ Ready u' := by
  intro fuel
  induction fuel with
  | zero =>
    intro bs u hr hs hlen hc
    cases bs with
    | nil => exact ⟨u, rfl, hr⟩
    | cons b bs => simp at hlen
  | succ fuel ih =>
    intro bs u hr hs hlen hc
    cases bs with
    | nil => exact ⟨u, rfl, hr⟩
    | cons b bs =>
      obtain ⟨u1, hstep, hends, hk⟩ := withStep_good hr
      obtain ⟨h1, h2⟩ := matcherStep_calm (n := (b :: bs).length) hr (by unfold stepDraws; rw [hs]; simpa using hc) hstep
      unfold writeLoop
      rw [hk, fill_eq hends.shape]
      have hset := (roomy_setup u1.m).trans (appendWindow_setup (roomy u1.m) (b :: bs))
      have hs1 : u1.m.sync = false := hends.base.sync.trans hs
      rcases hends.outcome with ⟨-, -, h3, h4, -⟩ | ⟨c, h5, -⟩
      · have hp := fill_progress hends.shape (h4 hs1) (List.cons_ne_nil b bs)
        have hr2 := filled_ready hends h1 (b :: bs)
        simp only
        rw [hset.err, h1]
        simp only [List.length_cons] at hlen
        refine ih _ _ hr2 (hset.sync.trans hs1) (by rw [List.length_drop, List.length_cons]; omega) (h2.mono ?_)
        have hidx : u1.m.windowEnd - u1.m.index = (roomy u1.m).windowEnd - (roomy u1.m).index := by
          have := hends.shape.index_le
          unfold roomy
          split
          · rw [shiftWindow_windowEnd, shiftWindow_index]; omega
          · rfl
        have h6 : (appendWindow (roomy u1.m) (b :: bs)).2 ≤ (b :: bs).length := Nat.min_le_left _ _
        have h7 : (appendWindow (roomy u1.m) (b :: bs)).1.windowEnd = (roomy u1.m).windowEnd + (appendWindow (roomy u1.m) (b :: bs)).2 := rfl
        have h8 : (appendWindow (roomy u1.m) (b :: bs)).1.index = (roomy u1.m).index := rfl
        have h9 := (roomy_shape hends.shape).index_le
        rw [List.length_drop, h7, h8]
        omega
      · rw [h1] at h5; cases h5

/-- M_SYNC_FLUSH with answers for every pending byte, the end of the data and both markers does not fail. -/
theorem syncFlushBody_calm {u : MatcherSide} (hr : Ready u) (hc : Calm u.e (u.m.windowEnd - u.m.index + 3)) :
    ∃ u', syncFlushBody u = .reply u' .ok 0 [] := by
  obtain ⟨u1, hstep, -, hk⟩ := withStep_good hr.beginSync
  obtain ⟨h1, h2⟩ := matcherStep_calm (n := 2) hr.beginSync (by unfold stepDraws; exact hc) hstep
  have h2 := h2.mono (n' := 2) (by omega)
  have h3 := (h2.request (.emitStoredHeader 0#16 false)).2.request .emitFlush
  refine ⟨syncEnd u1, (syncFlushBody_of_step hk).1 ?_⟩
  have : syncMarkers u1 = { u1 with e := emitRequest (emitRequest u1.e (.emitStoredHeader 0#16 false)) .emitFlush } := by
    unfold syncMarkers latchEmitterErr
    rw [h3.1]
  show (endSync (match u1.m.err with | .noError => syncMarkers u1 | _ => u1)).m.err = .noError
  rw [h1, this]
  exact h1

/-- M_CLOSE likewise. -/
theorem closeBody_calm {u : MatcherSide} (hr : Ready u) (hc : Calm u.e (u.m.windowEnd - u.m.index + 3)) :
    ∃ u', closeBody u = .reply u' .ok 0 [] := by
  obtain ⟨u1, hstep, -, hk⟩ := withStep_good hr.beginSync
  obtain ⟨h1, h2⟩ := matcherStep_calm (n := 2) hr.beginSync (by unfold stepDraws; exact hc) hstep
  have h2 := h2.mono (n' := 2) (by omega)
  have h3 := h2.request (.emitStoredHeader 0#16 true)
  have h4 := h3.2.request .emitFlush
  unfold closeBody
  rw [hr.err]
  simp only
  rw [hk, h1]
  simp only
  rcases closeRequest_cases (.emitStoredHeader 0#16 true) u1 (fun u2 =>
      closeRequest .emitFlush u2 fun u3 => .reply (markClosed u3) .ok 0 []) with ⟨-, hl⟩ | ⟨c, he, -⟩
  · rw [hl]
    rcases closeRequest_cases .emitFlush { u1 with e := emitRequest u1.e (.emitStoredHeader 0#16 true) }
        (fun u3 => .reply (markClosed u3) .ok 0 []) with ⟨-, hl2⟩ | ⟨c, he, -⟩
    · exact ⟨_, hl2⟩
    · rw [h4.1] at he; cases he
  · rw [h3.1] at he; cases he

end Sys2Proof.Machine
end

