-- ==== Sys2Proof/Laws/Codec.lean ====
section
/-! SUPPORT. The fields of command words and token words (30_encoding.md R75, R76, R84): reading a field of a word built
from fields gives the field; and what decoding a command packet can answer. -/

namespace Sys2Proof

/-! ### Command words (R75) -/

theorem commandWord_toNat (op : BitVec 8) (a : Word32) (b : BitVec 24) :
    (commandWord op a b).toNat = b.toNat * 1099511627776 + a.toNat * 256 + op.toNat := by
  have ha := a.isLt
  have ho := op.isLt
  unfold commandWord
  rw [BitVec.toNat_append, BitVec.toNat_append, ← Nat.shiftLeft_add_eq_or_of_lt ho,
    ← Nat.shiftLeft_add_eq_or_of_lt ha, Nat.shiftLeft_eq, Nat.shiftLeft_eq]
  omega

theorem opField_toNat (w : Word64) : (opField w).toNat = w.toNat % 256 := by
  simp [opField, BitVec.extractLsb'_toNat]

theorem aField_toNat (w : Word64) : (aField w).toNat = w.toNat / 256 % 4294967296 := by
  simp [aField, BitVec.extractLsb'_toNat, Nat.shiftRight_eq_div_pow]

theorem bField_toNat (w : Word64) : (bField w).toNat = w.toNat / 1099511627776 % 16777216 := by
  simp [bField, BitVec.extractLsb'_toNat, Nat.shiftRight_eq_div_pow]

@[simp] theorem opField_commandWord (op : BitVec 8) (a : Word32) (b : BitVec 24) : opField (commandWord op a b) = op := by
  apply BitVec.eq_of_toNat_eq
  have ho := op.isLt
  rw [opField_toNat, commandWord_toNat]; omega

@[simp] theorem aField_commandWord (op : BitVec 8) (a : Word32) (b : BitVec 24) : aField (commandWord op a b) = a := by
  apply BitVec.eq_of_toNat_eq
  have ho := op.isLt
  have ha := a.isLt
  rw [aField_toNat, commandWord_toNat]; omega

@[simp] theorem bField_commandWord (op : BitVec 8) (a : Word32) (b : BitVec 24) : bField (commandWord op a b) = b := by
  apply BitVec.eq_of_toNat_eq
  have ho := op.isLt
  have ha := a.isLt
  have hb := b.isLt
  rw [bField_toNat, commandWord_toNat]; omega

/-- A word is built from its own fields: no bit of a command word lies outside OP, A and B (R75). -/
theorem commandWord_fields (w : Word64) : commandWord (opField w) (aField w) (bField w) = w := by
  apply BitVec.eq_of_toNat_eq
  have hw := w.isLt
  rw [commandWord_toNat, opField_toNat, aField_toNat, bField_toNat]; omega

/-! ### Byte operands (R76) -/

@[simp] theorem fitsByte_setWidth {n : Nat} (h : 8 ≤ n) (c : Byte) : fitsByte (c.setWidth n) = true := by
  have hc := c.isLt
  have : 2 ^ 8 ≤ 2 ^ n := Nat.pow_le_pow_right (by decide) h
  unfold fitsByte
  rw [decide_eq_true_eq, BitVec.toNat_setWidth, Nat.mod_eq_of_lt (by omega)]
  exact hc

@[simp] theorem lowByte_setWidth {n : Nat} (h : 8 ≤ n) (c : Byte) : lowByte (c.setWidth n) = c := by
  apply BitVec.eq_of_toNat_eq
  have hc := c.isLt
  have : 2 ^ 8 ≤ 2 ^ n := Nat.pow_le_pow_right (by decide) h
  have hn : c.toNat % 2 ^ n = c.toNat := Nat.mod_eq_of_lt (by omega)
  unfold lowByte
  rw [BitVec.extractLsb'_toNat, BitVec.toNat_setWidth, Nat.shiftRight_zero, hn, Nat.mod_eq_of_lt hc]

/-- A field that fits a byte is that byte, zero-extended. -/
theorem setWidth_lowByte {n : Nat} {v : BitVec n} (h : fitsByte v = true) : (lowByte v).setWidth n = v := by
  apply BitVec.eq_of_toNat_eq
  have hv := v.isLt
  have hlt : v.toNat < 256 := by simpa [fitsByte] using h
  unfold lowByte
  rw [BitVec.toNat_setWidth, BitVec.extractLsb'_toNat, Nat.shiftRight_zero, Nat.mod_eq_of_lt hlt, Nat.mod_eq_of_lt hv]

/-! ### Token words (R84) -/

theorem matchToken_toNat (xlength : BitVec 8) (xoffset : BitVec 22) :
    (0b01#2 ++ xlength ++ xoffset : BitVec 32).toNat = 1073741824 + xlength.toNat * 4194304 + xoffset.toNat := by
  have hl := xlength.isLt
  have ho := xoffset.isLt
  rw [BitVec.toNat_append, BitVec.toNat_append, ← Nat.shiftLeft_add_eq_or_of_lt ho,
    ← Nat.shiftLeft_add_eq_or_of_lt hl, Nat.shiftLeft_eq, Nat.shiftLeft_eq]
  simp only [BitVec.toNat_ofNat]
  omega

end Sys2Proof

namespace Sys2Proof.Machine

/-! ### What decoding a command packet answers -/

/-- The field check, as the instruction it lets through (R204). -/
theorem fieldCheck_cases (u : UnitName) (zeros : Bool) (count len : Nat) (i : Instr) :
    (zeros = true ∧ len = count ∧ fieldCheck u zeros count len i = .ok i) ∨
      (¬ (zeros = true ∧ len = count) ∧ fieldCheck u zeros count len i = .error (.badField u)) := by
  unfold fieldCheck
  cases zeros <;> by_cases h : len = count <;> simp [h]

theorem beq_zero_iff {n : Nat} (b : BitVec n) : (b == 0) = true ↔ b.toNat = 0 := by
  rw [beq_iff_eq]; exact ⟨fun h => by simp [h], fun h => BitVec.eq_of_toNat_eq (by simpa using h)⟩

/-- A row of the table, from the check its arm of the decoder makes. -/
theorem row_cases {r : Except DecodeError Instr} {use : FieldUse × FieldUse} {a b len count : Nat} {zeros : Bool} {u : UnitName}
    {i : Instr} (hr : r = fieldCheck u zeros count len i) (hi : unitOfInstr i = some u)
    (h : FieldsLegal use a b len ↔ zeros = true ∧ len = count) :
    (FieldsLegal use a b len ∧ ∃ i, r = .ok i ∧ unitOfInstr i = some u) ∨
      (¬ FieldsLegal use a b len ∧ r = .error (.badField u)) := by
  rcases fieldCheck_cases u zeros count len i with ⟨h1, h2, h3⟩ | ⟨h1, h2⟩
  · exact .inl ⟨h.mpr ⟨h1, h2⟩, i, hr.trans h3, hi⟩
  · exact .inr ⟨fun h' => h1 (h.mp h'), hr.trans h2⟩

/-- The opcodes of the two tables. -/
def opcodes : List Nat := [0x10, 0x11, 0x12, 0x13, 0x14, 0x15, 0x20, 0x21, 0x22, 0x23, 0x24, 0x25, 0x26, 0x27, 0x28, 0x29, 0x2A, 0x2B,
  0x2C, 0x2D]

/-- What decoding a command packet can answer: an undefined opcode; an instruction of the unit the opcode selects, where the
fields are legal; an illegal field (R76 to R79, R82, R201, R204). -/
theorem decode_command_cases (w : Word64) (payload : List Byte) :
    (commandRow (opField w).toNat = none ∧ decode (.command w payload) = .error (.badOpcode (unitOf (opField w)))) ∨
    ∃ row u, commandRow (opField w).toNat = some row ∧ unitOf (opField w) = some u ∧
      ((FieldsLegal row (aField w).toNat (bField w).toNat payload.length ∧
          ∃ i, decode (.command w payload) = .ok i ∧ unitOfInstr i = some u) ∨
        (¬ FieldsLegal row (aField w).toNat (bField w).toNat payload.length ∧
          decode (.command w payload) = .error (.badField u))) := by
  have hd : decode (.command w payload) = decodeFields w payload payload.length := rfl
  rw [hd]
  by_cases hop : (opField w).toNat ∈ opcodes
  · right
    simp only [opcodes, List.mem_cons, List.not_mem_nil, or_false] at hop
    rcases hop with h | h | h | h | h | h | h | h | h | h | h | h | h | h | h | h | h | h | h | h
    all_goals
      simp only [decodeFields, unitOf, commandRow, h]
      refine ⟨_, _, rfl, rfl, row_cases rfl rfl ?_⟩
      simp only [FieldsLegal, FieldUse.Legal, Bool.and_eq_true, beq_zero_iff, fitsByte, decide_eq_true_eq, reduceCtorEq,
        false_or, true_or, or_true, and_true, true_and]
      try omega
  · left
    simp only [opcodes, List.mem_cons, List.not_mem_nil, or_false, not_or] at hop
    unfold decodeFields commandRow
    constructor
    · split <;> first | rfl | omega
    · simp only
      split <;> first | rfl | omega

end Sys2Proof.Machine
end

