-- ==== Sys2Proof/Laws/Coverage.lean ====
section
/-! SUPPORT. The tokens stand for the input (20_memory.md R62, 45_lazy_loop.md R156): what `Covers` says is kept by an
iteration, a step, a fill and the commands. -/

namespace Sys2Proof.Machine

/-! ### The tokens of the log -/

theorem sentTokens_append_block (log : List LogEntry) (ts : List Token) (isFinal : Bool) (w : Option (List Byte)) :
    sentTokens (log ++ [.emitBlock ts isFinal w]) = sentTokens log ++ ts := by
  unfold sentTokens; rw [List.foldl_append]; rfl

theorem sentTokens_append_header (log : List LogEntry) (n : BitVec 16) (isFinal : Bool) :
    sentTokens (log ++ [.emitStoredHeader n isFinal]) = sentTokens log := by
  unfold sentTokens; rw [List.foldl_append]; rfl

theorem sentTokens_append_flush (log : List LogEntry) : sentTokens (log ++ [.emitFlush]) = sentTokens log := by
  unfold sentTokens; rw [List.foldl_append]; rfl

theorem sentTokens_append_rebound (log : List LogEntry) : sentTokens (log ++ [.sinkRebound]) = [] := by
  unfold sentTokens; rw [List.foldl_append]; rfl

theorem sinceRebound_append {r : LogEntry} (h : r ≠ .sinkRebound) (log : List LogEntry) :
    sinceRebound (log ++ [r]) = sinceRebound log ++ [r] := by
  unfold sinceRebound
  rw [List.foldl_append]
  cases r <;> first | rfl | exact absurd rfl h

theorem sinceRebound_append_rebound (log : List LogEntry) : sinceRebound (log ++ [.sinkRebound]) = [] := by
  unfold sinceRebound; rw [List.foldl_append]; rfl

/-- The tokens sent are those of the requests since the last M_CONFIG or M_RESET. -/
theorem sentTokens_sinceRebound (log : List LogEntry) : sentTokens (sinceRebound log) = sentTokens log := by
  induction log using List.reverseRecOn with
  | nil => rfl
  | append_singleton log r ih =>
    cases r with
    | emitBlock ts f w =>
      rw [sinceRebound_append (r := .emitBlock ts f w) nofun, sentTokens_append_block, sentTokens_append_block, ih]
    | emitStoredHeader n f =>
      rw [sinceRebound_append (r := .emitStoredHeader n f) nofun, sentTokens_append_header, sentTokens_append_header, ih]
    | emitFlush => rw [sinceRebound_append (r := .emitFlush) nofun, sentTokens_append_flush, sentTokens_append_flush, ih]
    | sinkRebound => rw [sinceRebound_append_rebound, sentTokens_append_rebound]; rfl

/-- One more request keeps the slices' agreement, if its own slice agrees. -/
theorem slicesAgree_append {dict : List Byte} {log : List LogEntry} {r : LogEntry} (h : SlicesAgree dict log)
    (hr : ∀ tokens isFinal window, r = .emitBlock tokens isFinal (some window) →
      ∀ free, expandTokens free dict (sentTokens log ++ tokens) = expandTokens free dict (sentTokens log) ++ window) :
    SlicesAgree dict (log ++ [r]) := by
  intro before tokens isFinal window after he
  rcases List.eq_nil_or_concat after with rfl | ⟨after', r', rfl⟩
  · obtain ⟨h1, h2⟩ := List.append_inj' he rfl
    rw [← h1]
    exact hr tokens isFinal window (List.cons.inj h2).1
  · rw [List.concat_eq_append, ← List.cons_append, ← List.append_assoc] at he
    obtain ⟨h1, -⟩ := List.append_inj' he rfl
    exact h before tokens isFinal window after' h1

/-! ### The stream under the window -/

/-- A byte of the window is the byte of the stream above it. -/
theorem Covers.byte {dict stream : List Byte} {u : MatcherSide} (h : Covers dict stream u) {a : Nat} (ha : a < u.m.windowEnd) :
    stream[windowBase stream u.m + a]? = some (winByte u.m a) := by
  have hw := congrArg (fun l => l[a]?) h.window
  simp only [getElem?_winRun, if_pos ha, List.getElem?_drop, Nat.zero_add] at hw
  exact hw.symm

/-- The stream ends where the window ends. -/
theorem Covers.top {dict stream : List Byte} {u : MatcherSide} (h : Covers dict stream u) :
    windowBase stream u.m + u.m.windowEnd = stream.length := by
  have := h.windowEnd_le
  unfold windowBase; omega

theorem take_append_byte {stream : List Byte} {n : Nat} {b : Byte} (h : stream[n]? = some b) :
    stream.take n ++ [b] = stream.take (n + 1) := by
  rw [List.take_add_one, h]; rfl

/-- The bytes of a match found in the window repeat bytes of the stream. -/
theorem Covers.repeats {dict stream : List Byte} {u : MatcherSide} (h : Covers dict stream u) {len off : Nat}
    (hend : u.m.index + len ≤ u.m.windowEnd) (hoff : off ≤ u.m.index)
    (hag : ∀ k < len, winByte u.m (u.m.index - off + k) = winByte u.m (u.m.index + k)) :
    ∀ k < len, stream[windowBase stream u.m + u.m.index + k]? = stream[windowBase stream u.m + u.m.index + k - off]? := by
  intro k hk
  rw [Nat.add_assoc, h.byte (show u.m.index + k < u.m.windowEnd by omega),
    show windowBase stream u.m + (u.m.index + k) - off = windowBase stream u.m + (u.m.index - off + k) by omega,
    h.byte (show u.m.index - off + k < u.m.windowEnd by omega), hag k hk]

/-- The same side with other registers, where everything `Covers` reads is the same. -/
theorem Covers.of_eq {dict stream : List Byte} {u u' : MatcherSide} (h : Covers dict stream u) (hp : u'.m.params = u.m.params)
    (hw : u'.m.win = u.m.win) (hep : u'.m.winEpoch = u.m.winEpoch) (hwe : u'.m.windowEnd = u.m.windowEnd)
    (hi : u'.m.index = u.m.index) (hb : u'.m.byteAvailable = u.m.byteAvailable) (hl : u'.m.length = u.m.length)
    (ho : u'.m.offset = u.m.offset) (hbs : u'.m.blockStart = u.m.blockStart) (hq : u'.m.tokq = u.m.tokq)
    (hlog : u'.e.log = u.e.log) : Covers dict stream u' := by
  have hbase : windowBase stream u'.m = windowBase stream u.m := by unfold windowBase; rw [hwe]
  have hpc : pendingCount u'.m = pendingCount u.m := by unfold pendingCount; rw [hb]
  have hf := isFast_congr (m := u'.m) (m' := u.m) hp
  refine ⟨by rw [hwe]; exact h.windowEnd_le, ?_, ?_, ?_, ?_, by rw [hlog]; exact h.slices, ?_⟩
  · rw [winRun_congr hw hep, hwe, hbase]; exact h.window
  · rw [hq, hlog, hbase, hi, hpc]; exact h.tokens
  · rw [hbase, hi, hpc]; exact h.dict_le
  · rw [hbase, hi, hbs, hlog]; exact h.block
  · rw [hf, hl, hb, ho, hbase, hi]; exact h.carried

/-! ### One iteration (R156) -/

/-- An advanced Matcher, with a token queued or not, covers the same stream up to its new cursor. -/
theorem Emission.covers {dict stream : List Byte} {u : MatcherSide} {t : Option Token} {x : Nat} {m' : Matcher}
    (he : Emission u.m t x m') (ha : Advanced u.m m') (hs : u.m.Shape) (hl : u.m.Live) (h : Covers dict stream u) :
    Covers dict stream ⟨m', u.e⟩ := by
  have hk := ha.keeps
  have hwe := hk.windowEnd
  have htop := h.top
  have hbase : windowBase stream m' = windowBase stream u.m := by unfold windowBase; rw [hwe]
  have hdict := h.dict_le
  have hfm := hk.isFast
  have hlt := ha.index_lt
  have hle := ha.index_le
  have hwin : winRun m' 0 m'.windowEnd = stream.drop (windowBase stream m') := by
    rw [winRun_congr hk.win hk.winEpoch, hwe, hbase]; exact h.window
  have hwl : m'.windowEnd ≤ stream.length := by rw [hwe]; exact h.windowEnd_le
  have hblock (hle : u.m.blockStart ≤ m'.index) : u.m.blockStart ≤ u.m.index := by
    have hb := hl.block
    have hq := hl.tokq_lt
    have hwe := hs.windowEnd_le
    unfold Matcher.BlockStart at hb
    have hp : pendingCount u.m ≤ 1 := by unfold pendingCount; split <;> omega
    simp only [Config.maxMatchLength, Config.blockStartNone, Config.maxFlateBlockTokens, Config.windowBytes] at hb hq hwe
    omega
  have mk (tk : ∀ free, expandTokens free dict (sentTokens u.e.log ++ m'.tokq) =
        stream.take (windowBase stream u.m + m'.index - pendingCount m'))
      (hd : dict.length ≤ windowBase stream u.m + m'.index - pendingCount m')
      (hc : isFast u.m = false → 4 ≤ m'.length → m'.byteAvailable = true ∧ m'.offset ≤ windowBase stream u.m + m'.index - 1 ∧
        ∀ k < m'.length, stream[windowBase stream u.m + m'.index - 1 + k]? =
          stream[windowBase stream u.m + m'.index - 1 + k - m'.offset]?) : Covers dict stream ⟨m', u.e⟩ :=
    ⟨hwl, hwin, by simpa only [hbase] using tk, by simpa only [hbase] using hd,
      by
        intro hle free
        rw [hk.blockStart] at hle
        rw [hbase, hk.blockStart]
        exact h.block (hblock hle) free,
      h.slices, by simpa only [hbase, hfm] using hc⟩
  have carry (hf : MatchAt u.m m') (hi : m'.index = u.m.index + 1) (hb : m'.byteAvailable = true) (h4 : 4 ≤ m'.length) :
      m'.byteAvailable = true ∧ m'.offset ≤ windowBase stream u.m + m'.index - 1 ∧
        ∀ k < m'.length, stream[windowBase stream u.m + m'.index - 1 + k]? =
          stream[windowBase stream u.m + m'.index - 1 + k - m'.offset]? := by
    rcases hf with ⟨h3, -⟩ | ⟨-, -, hend, -, -, hreach, hag⟩
    · omega
    · rw [show windowBase stream u.m + m'.index - 1 = windowBase stream u.m + u.m.index by omega]
      exact ⟨hb, by omega, h.repeats hend hreach hag⟩
  have htok := h.tokens
  cases he with
  | fastMatch _ len off fast range reach agree held index queue =>
    have hb := hl.fastHeld fast
    have hp : pendingCount u.m = 0 := by unfold pendingCount; rw [hb]; rfl
    have hp' : pendingCount m' = 0 := by unfold pendingCount; rw [held, hb]; rfl
    rw [hp] at hdict htok
    refine mk (fun free => ?_) (by rw [hp', index]; omega) (fun hf => by rw [fast] at hf; cases hf)
    rw [queue, ← List.append_assoc, expandTokens_append, htok, expandTokens_singleton, hp', index,
      expandToken_makeMatch _ _ (by omega) (by omega) (by omega) (by omega),
      appendCopy_of_repeats free stream off len (windowBase stream u.m + u.m.index - 0) (by omega) (by omega) (by omega)]
    · congr 1; omega
    · exact h.repeats (by omega) reach agree
  | lazyMatch _ lz range held index length queue =>
    obtain ⟨hb, hreach, hrep⟩ := h.carried lz range.1
    obtain ⟨-, hend⟩ := hl.carried lz range.1
    have hidx := hl.pending hb
    have hp : pendingCount u.m = 1 := by unfold pendingCount; rw [hb]; rfl
    have hp' : pendingCount m' = 0 := by unfold pendingCount; rw [held]; rfl
    rw [hp] at hdict htok
    refine mk (fun free => ?_) (by rw [hp', index]; omega) (fun _ h4 => by omega)
    rw [queue, ← List.append_assoc, expandTokens_append, htok, expandTokens_singleton, hp', index,
      expandToken_makeMatch _ _ (by omega) (by omega) (by omega) (by omega),
      appendCopy_of_repeats free stream u.m.offset u.m.length (windowBase stream u.m + u.m.index - 1) (by omega) hreach (by omega) hrep]
    congr 1; omega
  | fastLiteral _ fast held index queue =>
    have hb := hl.fastHeld fast
    have hp : pendingCount u.m = 0 := by unfold pendingCount; rw [hb]; rfl
    have hp' : pendingCount m' = 0 := by unfold pendingCount; rw [held, hb]; rfl
    rw [hp] at hdict htok
    refine mk (fun free => ?_) (by rw [hp', index]; omega) (fun hf => by rw [fast] at hf; cases hf)
    rw [queue, ← List.append_assoc, expandTokens_append, htok, expandTokens_singleton, hp', index, expandToken_makeLiteral,
      Nat.sub_zero, Nat.sub_zero, take_append_byte (h.byte (by omega))]
    rfl
  | lazyLiteral _ lz was held found index queue =>
    have hidx := hl.pending was
    have hp : pendingCount u.m = 1 := by unfold pendingCount; rw [was]; rfl
    have hp' : pendingCount m' = 1 := by unfold pendingCount; rw [held]; rfl
    rw [hp] at hdict htok
    refine mk (fun free => ?_) (by rw [hp', index]; omega)
      (fun _ h4 => carry found index held h4)
    have hbyte := h.byte (a := u.m.index - 1) (by omega)
    rw [queue, ← List.append_assoc, expandTokens_append, htok, expandTokens_singleton, hp', index, expandToken_makeLiteral,
      show windowBase stream u.m + u.m.index - 1 = windowBase stream u.m + (u.m.index - 1) by omega, take_append_byte hbyte]
    congr 1; omega
  | hold _ lz was held found index queue =>
    have hp : pendingCount u.m = 0 := by unfold pendingCount; rw [was]; rfl
    have hp' : pendingCount m' = 1 := by unfold pendingCount; rw [held]; rfl
    rw [hp] at hdict htok
    refine mk (fun free => ?_) (by rw [hp', index]; omega)
      (fun _ h4 => carry found index held h4)
    rw [queue, htok, hp', index]
    congr 1

/-- A flush moves the queue's tokens into the log. -/
theorem sentTokens_request (e : Emitter) (m : Matcher) (x : Nat) :
    sentTokens (emitRequest e (flushRequest m x)).log = sentTokens e.log ++ m.tokq := by
  rw [emitRequest_log]; exact sentTokens_append_block _ _ _ _

/-- A block flush at the end of the queued tokens' bytes keeps `Covers` (R152): the queue moves into the log, and the slice
is the tokens' bytes. -/
theorem Covers.flushed {dict stream : List Byte} {m : Matcher} {e : Emitter} {x : Nat} (h : Covers dict stream ⟨m, e⟩)
    (hix : m.index ≤ m.windowEnd) (hx : x + pendingCount m = m.index) :
    Covers dict stream ⟨{ m with blockStart := x, tokq := [] }, emitRequest e (flushRequest m x)⟩ := by
  have htop := h.top
  have htok := h.tokens
  simp only at htop htok
  have hat : windowBase stream m + m.index - pendingCount m = windowBase stream m + x := by omega
  rw [hat] at htok
  have hlog : sentTokens (emitRequest e (flushRequest m x)).log = sentTokens e.log ++ m.tokq := sentTokens_request e m x
  have hslices : SlicesAgree dict (sinceRebound (emitRequest e (flushRequest m x)).log) := by
    rw [emitRequest_log, sinceRebound_append (by unfold flushRequest; exact nofun)]
    refine slicesAgree_append h.slices (fun tokens isFinal window he free => ?_)
    rw [sentTokens_sinceRebound]
    unfold flushRequest at he
    injection he with h1 h2 h3
    by_cases hle : m.blockStart ≤ x
    · rw [if_pos hle] at h3
      injection h3 with h3
      subst h1
      rw [htok free, h.block (show m.blockStart ≤ m.index by omega) free, ← h3]
      refine List.ext_getElem? (fun j => ?_)
      rw [List.getElem?_take]
      by_cases hj : j < windowBase stream m + m.blockStart
      · rw [if_pos (by omega), List.getElem?_append_left (by rw [List.length_take]; show j < min (windowBase stream m + m.blockStart) _; omega),
          List.getElem?_take, if_pos hj]
      · have hlen : (stream.take (windowBase stream m + m.blockStart)).length = windowBase stream m + m.blockStart := by
          rw [List.length_take]; omega
        rw [List.getElem?_append_right (by show (stream.take (windowBase stream m + m.blockStart)).length ≤ j; omega)]
        show _ = (winRun m m.blockStart (x - m.blockStart))[j - (stream.take (windowBase stream m + m.blockStart)).length]?
        rw [getElem?_winRun, hlen]
        by_cases hjx : j < windowBase stream m + x
        · rw [if_pos hjx, if_pos (by omega), show j = windowBase stream m + (j - windowBase stream m) by omega,
            show m.blockStart + (windowBase stream m + (j - windowBase stream m) - (windowBase stream m + m.blockStart)) =
              j - windowBase stream m by omega]
          exact h.byte (a := j - windowBase stream m) (show j - windowBase stream m < m.windowEnd by omega)
        · rw [if_neg hjx, if_neg (by omega)]
    · rw [if_neg hle] at h3; cases h3
  refine ⟨h.windowEnd_le, h.window, fun free => ?_, h.dict_le, fun _ free => ?_, hslices, h.carried⟩
  · rw [hlog, List.append_nil, htok free]
    show _ = stream.take (windowBase stream m + m.index - pendingCount m)
    rw [hat]
  · rw [hlog, htok free]; rfl

/-- A position's turn keeps `Covers`, unless the Emitter failed. -/
theorem Turned.covers {dict stream : List Byte} {u : MatcherSide} {r : Turn} (h : Turned u r) (hs : u.m.Shape) (hl : u.m.Live)
    (hc : Covers dict stream u) :
    (∀ u', r = .again u' → Covers dict stream u') ∧ (∀ u', r = .ended u' → u'.m.err ≠ .noError) := by
  obtain ⟨t, x, m', he, ha, hres⟩ := h
  have hc' := he.covers ha hs hl hc
  have hq := Advanced.tokq_le he hl
  have hs' := ha.shape hs hq
  rcases hres with ⟨-, -, rfl⟩ | ⟨⟨tok, rfl⟩, ⟨-, rfl⟩ | ⟨-, -, rfl⟩ | ⟨c, m'', -, -, hm, -, -, -, rfl⟩⟩
  · exact ⟨fun _ h => (by cases h; exact hc'), fun _ h => (by cases h)⟩
  · exact ⟨fun _ h => (by cases h; exact hc'), fun _ h => (by cases h)⟩
  · refine ⟨fun _ h => ?_, fun _ h => (by cases h)⟩
    cases h
    exact hc'.flushed hs'.index_le (he.flushAt hl)
  · exact ⟨fun _ h => (by cases h), fun _ h => (by cases h; rw [hm]; exact nofun)⟩

/-- Queueing the pending literal keeps `Covers`. -/
theorem settled_covers {dict stream : List Byte} {u : MatcherSide} (hl : u.m.Live) (hc : Covers dict stream u)
    (hix : u.m.index = u.m.windowEnd) : Covers dict stream ⟨settled u.m, u.e⟩ := by
  have hk := settled_keeps u.m
  have hbase : windowBase stream (settled u.m) = windowBase stream u.m := by unfold windowBase; rw [hk.windowEnd]
  have hp' : pendingCount (settled u.m) = 0 := by unfold pendingCount; rw [settled_byteAvailable]; rfl
  have hdict := hc.dict_le
  have htok := hc.tokens
  have htop := hc.top
  refine ⟨by rw [hk.windowEnd]; exact hc.windowEnd_le, ?_, fun free => ?_, ?_,
    by rw [hk.blockStart, settled_index, hbase]; exact hc.block, hc.slices, ?_⟩
  · rw [winRun_congr hk.win hk.winEpoch, hk.windowEnd, hbase]; exact hc.window
  · simp only [settled_tokq, settled_index, hbase, hp']
    cases hb : u.m.byteAvailable with
    | false =>
      have hp : pendingCount u.m = 0 := by unfold pendingCount; rw [hb]; rfl
      rw [hp] at htok
      exact htok free
    | true =>
      have hp : pendingCount u.m = 1 := by unfold pendingCount; rw [hb]; rfl
      have hidx := hl.pending hb
      rw [hp] at htok
      rw [if_pos rfl, ← List.append_assoc, expandTokens_append, htok, expandTokens_singleton, expandToken_makeLiteral,
        show windowBase stream u.m + u.m.index - 1 = windowBase stream u.m + (u.m.index - 1) by omega,
        take_append_byte (hc.byte (by omega))]
      congr 1; omega
  · rw [hbase, hp', settled_index]; omega
  · rw [hk.isFast, settled_length]
    intro hf h4
    have := hl.carried hf h4
    have : 4 ≤ u.m.length := h4
    omega

/-- An iteration keeps `Covers`, unless the Emitter failed. -/
theorem iterate_covers {dict stream : List Byte} {u : MatcherSide} (hr : Ready u) (hc : Covers dict stream u) :
    (∀ u', iterate u = .again u' → Covers dict stream u') ∧
    (∀ u', iterate u = .ended u' → u'.m.err = .noError → Covers dict stream u') := by
  have hle := hr.shape.index_le
  unfold iterate
  rw [if_neg (by omega)]
  split
  · exact ⟨fun _ h => (by cases h), fun _ h _ => by cases h; exact hc⟩
  · split
    · have hset := settled_covers hr.live hc (by omega)
      rw [endOfData_eq hr.live]
      split
      · exact ⟨fun _ h => (by cases h), fun _ h _ => by cases h; exact hset⟩
      · next hq =>
        refine ⟨fun _ h => (by cases h), fun _ h herr => ?_⟩
        cases h
        rcases flushTokens_spec u.m.index { u with m := settled u.m } (settled_queued hr.live hq) with ⟨he, hf⟩ | ⟨c, he, hf⟩
        · rw [hf]
          have hs := settled_shape hr.shape hr.live
          have hp : pendingCount (settled u.m) = 0 := by unfold pendingCount; rw [settled_byteAvailable]; rfl
          exact hset.flushed hs.index_le (by rw [hp, settled_index, Nat.add_zero])
        · rw [hf] at herr; cases herr
    · have := (scanPosition_turned hr.shape hr.live (by omega)).covers hr.shape hr.live hc
      exact ⟨this.1, fun u' h he => absurd he (this.2 u' h)⟩

theorem runLoop_covers {dict stream : List Byte} : ∀ (fuel : Nat) (u u' : MatcherSide), Ready u → Covers dict stream u →
    runLoop fuel u = .ok u' → u'.m.err = .noError → Covers dict stream u' := by
  intro fuel
  induction fuel with
  | zero => intro u u' _ hc h _; cases h; exact hc
  | succ fuel ih =>
    intro u u' hr hc h herr
    obtain ⟨h1, h2⟩ := iterate_covers hr hc
    unfold runLoop at h
    rcases iterate_good hr with ⟨v, hv, hrv, -⟩ | ⟨v, hv, -⟩
    · rw [hv] at h
      exact ih v u' hrv (h1 v hv) h herr
    · rw [hv] at h
      cases h
      exact h2 _ hv herr

/-- A step keeps `Covers`, unless the Emitter failed (R156). -/
theorem matcherStep_covers {dict stream : List Byte} {u u' : MatcherSide} (hr : Ready u) (hc : Covers dict stream u)
    (h : matcherStep u = .ok u') (herr : u'.m.err = .noError) : Covers dict stream u' := by
  unfold matcherStep at h
  split at h
  · cases h; exact hc
  · split at h
    · cases h
    · exact runLoop_covers _ (armed u) u' hr.armed (hc.of_eq rfl rfl rfl rfl rfl rfl rfl rfl rfl rfl rfl) h herr

/-! ### Fill, write and the other commands -/

/-- Where WIN's bytes, the cursors and nothing else `Covers` reads move down together, the stream is covered as before. -/
theorem Covers.moved {dict stream : List Byte} {u u' : MatcherSide} (h : Covers dict stream u) {n : Nat}
    (hn : n ≤ u.m.index) (hp : u'.m.params = u.m.params) (hb : u'.m.byteAvailable = u.m.byteAvailable)
    (hl : u'.m.length = u.m.length) (ho : u'.m.offset = u.m.offset) (hi : u'.m.index = u.m.index - n)
    (hle : u.m.index ≤ u.m.windowEnd)
    (hwe : u'.m.windowEnd = u.m.windowEnd - n) (hq : u'.m.tokq = u.m.tokq) (he : u'.e = u.e)
    (hbs : u'.m.blockStart ≤ u'.m.index → u'.m.blockStart + n = u.m.blockStart)
    (hw : ∀ a < u'.m.windowEnd, winByte u'.m a = winByte u.m (a + n)) : Covers dict stream u' := by
  have htop := h.top
  have hbase : windowBase stream u'.m = windowBase stream u.m + n := by unfold windowBase at *; rw [hwe]; omega
  have hat : windowBase stream u'.m + u'.m.index = windowBase stream u.m + u.m.index := by rw [hbase, hi]; omega
  have hpc : pendingCount u'.m = pendingCount u.m := by unfold pendingCount; rw [hb]
  have hf := isFast_congr (m := u'.m) (m' := u.m) hp
  have hwl := h.windowEnd_le
  refine ⟨by omega, ?_, ?_, ?_, ?_, by rw [he]; exact h.slices, ?_⟩
  · refine List.ext_getElem? (fun k => ?_)
    rw [getElem?_winRun, List.getElem?_drop, Nat.zero_add]
    by_cases hk : k < u'.m.windowEnd
    · rw [if_pos hk, hw k hk, hbase, Nat.add_assoc, Nat.add_comm n k, h.byte (by omega)]
    · rw [if_neg hk, List.getElem?_eq_none (by omega)]
  · rw [he, hq, hat, hpc]; exact h.tokens
  · rw [hat, hpc]; exact h.dict_le
  · intro hle free
    have hb' := hbs hle
    rw [he, show windowBase stream u'.m + u'.m.blockStart = windowBase stream u.m + u.m.blockStart by omega]
    exact h.block (by omega) free
  · rw [hf, hl, hb, ho, hat]; exact h.carried

/-- A shift keeps `Covers` (R126): the stream is the same, the window holds a shorter end of it. -/
theorem roomy_covers {dict stream : List Byte} {u : MatcherSide} (hs : u.m.Shape) (h : Covers dict stream u) :
    Covers dict stream ⟨roomy u.m, u.e⟩ := by
  have hle := hs.index_le
  have hwe := hs.windowEnd_le
  simp only [Config.windowBytes] at hwe
  by_cases hi : 65274 ≤ u.m.index
  · have hr : roomy u.m = shiftWindow u.m := if_pos hi
    rw [hr]
    have hx := shiftWindow_setup u.m
    have hw : ∀ a < (shiftWindow u.m).windowEnd, winByte (shiftWindow u.m) a = winByte u.m (a + 32768) := by
      intro a ha
      rw [shiftWindow_windowEnd] at ha
      exact winByte_shiftWindow (by omega)
    have hi' := shiftWindow_index u.m
    have hwe' := shiftWindow_windowEnd u.m
    have hbs : (shiftWindow u.m).blockStart ≤ (shiftWindow u.m).index → (shiftWindow u.m).blockStart + 32768 = u.m.blockStart := by
      rw [shiftWindow_blockStart, hi']
      unfold shiftBlockStart
      simp only [Config.windowSize, Config.blockStartNone]
      split <;> omega
    generalize shiftWindow u.m = m' at *
    exact h.moved (u' := ⟨m', u.e⟩) (n := 32768) (by omega) hx.params hx.byteAvailable hx.length hx.offset hi' hle hwe'
      hx.tokq rfl hbs hw
  · have hr : roomy u.m = u.m := if_neg hi
    rw [hr]; exact h

/-- A copy into the window makes the stream longer by the copied bytes (R125). -/
theorem appendWindow_covers {dict stream : List Byte} {u : MatcherSide} (hs : u.m.Shape) (hl : u.m.Live)
    (h : Covers dict stream u) (b : List Byte) :
    Covers dict (stream ++ b.take (appendWindow u.m b).2) ⟨(appendWindow u.m b).1, u.e⟩ := by
  have hix := hs.index_le
  have hk : (appendWindow u.m b).2 = min b.length (65536 - u.m.windowEnd) := rfl
  generalize hkk : (appendWindow u.m b).2 = k at *
  have hwe : (appendWindow u.m b).1.windowEnd = u.m.windowEnd + k := by rw [← hkk]; rfl
  have htop := h.top
  have hlen : (stream ++ b.take k).length = stream.length + k := by
    rw [List.length_append, List.length_take]; omega
  have hbase : windowBase (stream ++ b.take k) (appendWindow u.m b).1 = windowBase stream u.m := by
    unfold windowBase at *; rw [hlen, hwe]; omega
  have hset := appendWindow_setup u.m b
  have hi : (appendWindow u.m b).1.index = u.m.index := rfl
  have hpc : pendingCount (appendWindow u.m b).1 = pendingCount u.m := by unfold pendingCount; rw [hset.byteAvailable]
  have hf := isFast_congr hset.params
  have hblk : (appendWindow u.m b).1.blockStart = u.m.blockStart := rfl
  refine ⟨by rw [hwe, hlen]; have := h.windowEnd_le; omega, ?_, fun free => ?_, ?_, ?_, h.slices, ?_⟩
  · refine List.ext_getElem? (fun j => ?_)
    rw [getElem?_winRun, List.getElem?_drop, Nat.zero_add, hbase, hwe, winByte_appendWindow, hkk]
    by_cases h1 : j < u.m.windowEnd
    · rw [if_pos (by omega), if_neg (by omega), List.getElem?_append_left (by omega), h.byte h1]
    · by_cases h2 : j < u.m.windowEnd + k
      · rw [if_pos h2, if_pos (by omega), List.getElem?_append_right (by omega),
          show windowBase stream u.m + j - stream.length = j - u.m.windowEnd by omega, List.getElem?_take, if_pos (by omega),
          List.getD_eq_getElem?_getD, List.getElem?_eq_getElem (show j - u.m.windowEnd < b.length by omega)]
        rfl
      · rw [if_neg h2, List.getElem?_append_right (by omega), List.getElem?_eq_none (by rw [List.length_take]; omega)]
  · rw [hset.tokq, hbase, hi, hpc, List.take_append_of_le_length (by omega)]; exact h.tokens free
  · rw [hbase, hi, hpc]; exact h.dict_le
  · rw [hblk, hi, hbase]
    intro hle free
    rw [List.take_append_of_le_length (by omega)]
    exact h.block hle free
  · rw [hf, hset.length, hset.byteAvailable, hset.offset, hbase, hi]
    intro hfa h4
    obtain ⟨h5, h6, h7⟩ := h.carried hfa h4
    obtain ⟨-, h8⟩ := hl.carried hfa h4
    have h9 := hl.pending h5
    refine ⟨h5, h6, fun j hj => ?_⟩
    rw [List.getElem?_append_left (by omega), List.getElem?_append_left (by omega)]
    exact h7 j hj

/-- The loop of M_WRITE makes the stream longer by its bytes, unless the Emitter failed (R166). -/
theorem writeLoop_covers (total : Nat) {dict : List Byte} : ∀ (fuel : Nat) (bs stream : List Byte) (u u' : MatcherSide),
    Ready u → u.m.sync = false → Covers dict stream u → writeLoop total fuel bs u = .reply u' .ok total [] →
    Covers dict (stream ++ bs) u' := by
  intro fuel
  induction fuel with
  | zero =>
    intro bs stream u u' _ _ hc h
    cases bs with
    | nil => cases h; rw [List.append_nil]; exact hc
    | cons b bs => cases h
  | succ fuel ih =>
    intro bs stream u u' hr hs hc h
    cases bs with
    | nil => cases h; rw [List.append_nil]; exact hc
    | cons b bs =>
      obtain ⟨u1, hstep, hends, hk⟩ := withStep_good hr
      unfold writeLoop at h
      rw [hk, fill_eq hends.shape] at h
      simp only at h
      have hset := (roomy_setup u1.m).trans (appendWindow_setup (roomy u1.m) (b :: bs))
      rcases hends.outcome with ⟨h1, h2, h3, h4, -⟩ | ⟨c, h1, h2⟩
      · rw [hset.err, h1] at h
        have hc1 := matcherStep_covers hr hc hstep h1
        have hc2 := appendWindow_covers (u := ⟨roomy u1.m, u1.e⟩) (roomy_shape hends.shape) (roomy_live hends.shape h3)
          (roomy_covers hends.shape hc1) (b :: bs)
        have := ih _ _ _ _ (filled_ready hends h1 (b :: bs)) (hset.sync.trans (hends.base.sync.trans hs)) hc2 h
        rwa [List.append_assoc, List.take_append_drop] at this
      · rw [hset.err, h1] at h
        have := errResponse_io (u := { u1 with m := (appendWindow (roomy u1.m) (b :: bs)).1 }) (hset.err.trans h1)
        simp only at h
        rw [this] at h
        cases h

/-- A cleared Matcher covers the empty stream. -/
theorem clearMatcher_covers {m : Matcher} {e : Emitter} (he : sinceRebound e.log = []) : Covers [] [] ⟨clearMatcher m, e⟩ where
  windowEnd_le := Nat.le_refl _
  window := rfl
  tokens free := by rw [← sentTokens_sinceRebound, he]; rfl
  dict_le := Nat.zero_le _
  block _ free := by rw [← sentTokens_sinceRebound, he]; rfl
  slices := by rw [he]; intro before _ _ _ _ h; cases before <;> cases h
  carried _ h := absurd h (by simp)

/-- A window that holds just `kept`, with nothing sent or queued, covers it. -/
theorem primed_covers {u u' : MatcherSide} {kept : List Byte} (he : u'.e = u.e) (hlog : sinceRebound u.e.log = [])
    (hbs : u'.m.blockStart = kept.length)
    (hq : u'.m.tokq = []) (hb : u'.m.byteAvailable = false) (hl : isFast u'.m = false → u'.m.length ≤ 3)
    (hwe : u'.m.windowEnd = kept.length) (hi : u'.m.index = kept.length)
    (hw : ∀ a < kept.length, winByte u'.m a = kept.getD a 0#8) : Covers kept kept u' := by
  have hbase : windowBase kept u'.m = 0 := by unfold windowBase; omega
  have hp : pendingCount u'.m = 0 := by unfold pendingCount; rw [hb]; rfl
  have hsent : sentTokens u.e.log = [] := by rw [← sentTokens_sinceRebound, hlog]; rfl
  refine ⟨by omega, ?_, fun free => ?_, by omega, fun _ free => ?_, ?_, fun hf h4 => ?_⟩
  · refine List.ext_getElem? (fun j => ?_)
    rw [getElem?_winRun, List.getElem?_drop, Nat.zero_add, hbase, Nat.zero_add, hwe]
    by_cases hj : j < kept.length
    · rw [if_pos hj, hw j hj, List.getD_eq_getElem?_getD, List.getElem?_eq_getElem hj]; rfl
    · rw [if_neg hj, List.getElem?_eq_none (by omega)]
  · rw [he, hsent, hq, hbase, hp, hi, Nat.zero_add, Nat.sub_zero, List.take_length]; rfl
  · rw [he, hsent, hbase, hbs, Nat.zero_add, List.take_length]; rfl
  · rw [he, hlog]; intro before _ _ _ _ h; cases before <;> cases h
  · have : 4 ≤ u'.m.length := h4
    have := hl hf
    omega

/-- A Matcher primed with `kept` covers it. -/
theorem primed_covers_of_eq {u : MatcherSide} {m' : Matcher} {kept : List Byte} {hd pv : List (Nat × Word32)}
    (hi : SideInv u) (he : u.m.err = .noError) (hx : u.m.index = 0) (hw : u.m.windowEnd = 0)
    (hlog : sinceRebound u.e.log = [])
    (hp : m' = { u.m with win := Memory.putRun u.m.win 0 kept, head := hd, prev := pv, windowEnd := kept.length,
                          index := kept.length, blockStart := kept.length }) :
    Covers kept kept ⟨m', u.e⟩ := by
  have hl := hi.m.live he
  have hb : u.m.byteAvailable = false := by
    cases hb : u.m.byteAvailable with
    | false => rfl
    | true => have := hl.pending hb; omega
  have hq : u.m.tokq = [] := by
    by_contra hq
    have := hl.queued hq; omega
  have hlen : isFast u.m = false → u.m.length ≤ 3 := by
    intro hf
    by_contra h4
    have := hl.carried hf (show 4 ≤ u.m.length by omega)
    omega
  have hwin : m'.win = (putWin u.m 0 kept).win := by rw [hp]; rfl
  have hep : m'.winEpoch = u.m.winEpoch := by rw [hp]
  have hfa : isFast m' = isFast u.m := isFast_congr (by rw [hp])
  refine primed_covers (u := u) rfl hlog (by rw [hp]) (by rw [hp]; exact hq) (by rw [hp]; exact hb)
    (fun h => by rw [hp]; exact hlen (hfa ▸ h)) (by rw [hp]) (by rw [hp]) (fun a ha => ?_)
  rw [winByte_congr hwin hep, winByte_putWin, if_pos (by omega), Nat.sub_zero]

/-- A primed window covers the kept dictionary (R129). -/
theorem primeWindow_covers {u : MatcherSide} (hi : SideInv u) (he : u.m.err = .noError) (hx : u.m.index = 0)
    (hw : u.m.windowEnd = 0) (hlog : sinceRebound u.e.log = []) (dict : List Byte) :
    Covers (tail 32768 dict) (tail 32768 dict) ⟨primeWindow u.m dict, u.e⟩ := by
  have hs := hi.m.shape
  have hl := hi.m.live he
  obtain ⟨ho1, ho2⟩ := hashOffset_bounds hs.hashOffset_range
  have hhl := hl.head_lt
  have hpl := hl.prev_lt
  rw [hx, Nat.zero_add] at hhl hpl
  obtain ⟨hd, pv, hp, -⟩ := primeWindow_spec (m := u.m) (dict := dict) hs.headWf hs.prevWf hhl hpl ho1 ho2
  exact primed_covers_of_eq hi he hx hw hlog hp

/-- A marker request keeps `Covers` (R168, R169). -/
theorem Covers.marker {dict stream : List Byte} {u u' : MatcherSide} (h : Covers dict stream u) {r : LogEntry}
    (hr : (∃ n f, r = .emitStoredHeader n f) ∨ r = .emitFlush) (hm : u'.m.params = u.m.params) (hw : u'.m.win = u.m.win)
    (hep : u'.m.winEpoch = u.m.winEpoch) (hwe : u'.m.windowEnd = u.m.windowEnd) (hi : u'.m.index = u.m.index)
    (hb : u'.m.byteAvailable = u.m.byteAvailable) (hl : u'.m.length = u.m.length) (ho : u'.m.offset = u.m.offset)
    (hbs : u'.m.blockStart = u.m.blockStart) (hq : u'.m.tokq = u.m.tokq) (hlog : u'.e.log = u.e.log ++ [r]) :
    Covers dict stream u' := by
  have hsent : sentTokens (u.e.log ++ [r]) = sentTokens u.e.log := by
    rcases hr with ⟨n, f, rfl⟩ | rfl
    · exact sentTokens_append_header _ _ _
    · exact sentTokens_append_flush _
  have hne : r ≠ .sinkRebound := by rcases hr with ⟨n, f, rfl⟩ | rfl <;> exact nofun
  have hsl : SlicesAgree dict (sinceRebound (u.e.log ++ [r])) := by
    rw [sinceRebound_append hne]
    refine slicesAgree_append h.slices (fun tokens isFinal window he => ?_)
    rcases hr with ⟨n, f, rfl⟩ | rfl <;> cases he
  have h0 := h.of_eq (u' := ⟨u'.m, u.e⟩) hm hw hep hwe hi hb hl ho hbs hq rfl
  exact ⟨h0.windowEnd_le, h0.window, by rw [hlog, hsent]; exact h0.tokens, h0.dict_le, by rw [hlog, hsent]; exact h0.block,
    by rw [hlog]; exact hsl, h0.carried⟩

/-- Once everything is drained the tokens sent stand for the whole stream (R62, R156, R168). -/
theorem Covers.drained {dict stream : List Byte} {u : MatcherSide} (h : Covers dict stream u) (hd : Drained u.m) :
    ∀ free, expandTokens free dict (sentTokens u.e.log) = stream := by
  intro free
  have htop := h.top
  have hp : pendingCount u.m = 0 := by unfold pendingCount; rw [hd.byteAvailable]; rfl
  have := h.tokens free
  rw [hd.tokq, List.append_nil, hp, hd.index, Nat.sub_zero, htop, List.take_length] at this
  exact this

/-- M_CLOSE that closes the stream keeps `Covers` and leaves everything drained (R169): the step, then two markers. -/
theorem closeBody_covers {dict stream : List Byte} {u u' : MatcherSide} (hr : Ready u) (hc : Covers dict stream u)
    (h : closeBody u = .reply u' .ok 0 []) : Covers dict stream u' ∧ Drained u'.m := by
  obtain ⟨u1, hstep, hends, hk⟩ := withStep_good hr.beginSync
  unfold closeBody at h
  rw [hr.err] at h
  simp only at h
  rw [hk] at h
  rcases hends.outcome with ⟨h1, -, -, -, h5⟩ | ⟨c, h1, -⟩
  · rw [h1] at h
    simp only at h
    have hc0 : Covers dict stream (beginSync u) := hc.of_eq rfl rfl rfl rfl rfl rfl rfl rfl rfl rfl rfl
    have hc1 := matcherStep_covers hr.beginSync hc0 hstep h1
    rcases closeRequest_cases (.emitStoredHeader 0#16 true) u1 (fun u2 =>
        closeRequest .emitFlush u2 fun u3 => .reply (markClosed u3) .ok 0 []) with ⟨-, hl⟩ | ⟨c, -, hl⟩
    · rw [hl] at h
      rcases closeRequest_cases .emitFlush { u1 with e := emitRequest u1.e (.emitStoredHeader 0#16 true) }
          (fun u3 => .reply (markClosed u3) .ok 0 []) with ⟨-, hl2⟩ | ⟨c, -, hl2⟩
      · rw [hl2] at h
        cases h
        obtain ⟨h6, h7, h8⟩ := h5 hends.base.sync
        refine ⟨?_, h6, h7, h8⟩
        have hc2 := hc1.marker (u' := ⟨u1.m, emitRequest u1.e (.emitStoredHeader 0#16 true)⟩) (.inl ⟨_, _, rfl⟩) rfl rfl rfl rfl rfl rfl
          rfl rfl rfl rfl (emitRequest_log _ _)
        exact hc2.marker (.inr rfl) rfl rfl rfl rfl rfl rfl rfl rfl rfl rfl (emitRequest_log _ _)
      · rw [hl2] at h; cases h
    · rw [hl] at h; cases h
  · rw [h1] at h
    have := errResponse_io h1
    simp only at h
    rw [this] at h; cases h

end Sys2Proof.Machine
end

