-- ==== Sys2Proof/Laws/Decoder.lean ====
section
/-! SUPPORT. The DictDecoder (47_dictdecoder.md R173 to R199): the checks before a body, the copy loops, and that every
body keeps the invariants. -/

namespace Sys2Proof.Machine

/-! ### The checks before a body (R175, R204) -/

theorem decoderCommand_faulted {s : State} {f : FaultCode} (h : s.d.faulted = some f) (p : Preamble)
    (body : Decoder → Decoder → Verdict Decoder) : decoderCommand p body s = .next (respond s (.fault f) 0 []) := by
  unfold decoderCommand; rw [h]

theorem decoderCommand_unconfigured {s : State} (hf : s.d.faulted = none) (hc : s.d.configured = false) (p : Preamble)
    (body : Decoder → Decoder → Verdict Decoder) :
    decoderCommand p body s = .next (raiseFault .decoder .notConfigured s) := by
  unfold decoderCommand; rw [hf]; simp only [hc, Bool.false_eq_true, if_false]

theorem decoderCommand_stashed {s : State} (hf : s.d.faulted = none) (hc : s.d.configured = true) (hs : 0 < s.d.stashLen)
    {p : Preamble} (hp : p.blockedByStash = true) (body : Decoder → Decoder → Verdict Decoder) :
    decoderCommand p body s = .next (raiseFault .decoder .ddStashPending s) := by
  unfold decoderCommand; rw [hf]; simp only [hc, hp, hs, if_true, decide_true, Bool.and_self]

/-- A configured DictDecoder without a fault runs the body, where no staged byte blocks the command. -/
theorem decoderCommand_run {s : State} (hf : s.d.faulted = none) (hc : s.d.configured = true) {p : Preamble}
    (hp : p.blockedByStash = false ∨ s.d.stashLen = 0) (body : Decoder → Decoder → Verdict Decoder) :
    decoderCommand p body s = finishDecoder s (body s.d (if p.closesView then closeView s.d else s.d)) := by
  have : (p.blockedByStash && decide (0 < s.d.stashLen)) = false := by
    rcases hp with hp | hp
    · rw [hp]; rfl
    · rw [hp]; simp
  unfold decoderCommand; rw [hf]; simp only [hc, this, if_true, Bool.false_eq_true, if_false]

/-! ### Bytes of HIST -/

theorem histByte_putHist (d : Decoder) (a : Nat) (c : Byte) (b : Nat) :
    histByte (putHist d a c) b = if b = a then c else histByte d b := Memory.readByte_put _ _ _ _ _

theorem histByte_congr {d d' : Decoder} (hh : d.hist = d'.hist) (he : d.epoch = d'.epoch) (a : Nat) :
    histByte d a = histByte d' a := by unfold histByte; rw [hh, he]

@[simp] theorem length_histRun (d : Decoder) (a n : Nat) : (histRun d a n).length = n := Memory.length_readRun _ _ _ _

theorem getElem?_histRun (d : Decoder) (a n k : Nat) :
    (histRun d a n)[k]? = if k < n then some (histByte d (a + k)) else none := Memory.getElem?_readRun _ _ _ _ _

/-! ### The copy loop (R182) -/

/-- The place `dist` back in the circle of HIST. -/
theorem circle {w dist size : Nat} (h1 : dist ≤ size) (h2 : w < size) :
    (((w : Int) - dist) % size).toNat = if dist ≤ w then w - dist else w + size - dist := by
  split
  · rw [Int.emod_eq_of_lt (by omega) (by omega)]; omega
  · rw [← Int.add_emod_right, Int.emod_eq_of_lt (by omega) (by omega)]; omega

/-- What a copy loop leaves alone. -/
structure SameHist (d d' : Decoder) : Prop where
  configured : d'.configured = d.configured
  faulted : d'.faulted = d.faulted
  size : d'.size = d.size
  rdPos : d'.rdPos = d.rdPos
  full : d'.full = d.full
  viewLen : d'.viewLen = d.viewLen
  stashPos : d'.stashPos = d.stashPos
  stashLen : d'.stashLen = d.stashLen
  epoch : d'.epoch = d.epoch

theorem SameHist.refl (d : Decoder) : SameHist d d := ⟨rfl, rfl, rfl, rfl, rfl, rfl, rfl, rfl, rfl⟩

theorem SameHist.trans {d d' d'' : Decoder} (h : SameHist d d') (h' : SameHist d' d'') : SameHist d d'' :=
  ⟨h'.configured.trans h.configured, h'.faulted.trans h.faulted, h'.size.trans h.size, h'.rdPos.trans h.rdPos,
    h'.full.trans h.full, h'.viewLen.trans h.viewLen, h'.stashPos.trans h.stashPos, h'.stashLen.trans h.stashLen,
    h'.epoch.trans h.epoch⟩

/-- One byte of the copy loop. -/
def copyOne (dist : Nat) (d : Decoder) : Decoder :=
  { putHist d d.wrPos (histByte d (((d.wrPos : Int) - dist) % d.size).toNat) with wrPos := d.wrPos + 1 }

theorem copyBytes_succ (dist n : Nat) (d : Decoder) : copyBytes dist (n + 1) d = copyBytes dist n (copyOne dist d) := rfl

theorem copyOne_same (dist : Nat) (d : Decoder) : SameHist d (copyOne dist d) :=
  ⟨rfl, rfl, rfl, rfl, rfl, rfl, rfl, rfl, rfl⟩

theorem histByte_copyOne (dist : Nat) (d : Decoder) (b : Nat) : histByte (copyOne dist d) b =
    if b = d.wrPos then histByte d (((d.wrPos : Int) - dist) % d.size).toNat else histByte d b :=
  histByte_putHist _ _ _ _

/-- The copy loop moves the write cursor by its count, writes the bytes from the cursor on and no other, and each byte is the
one `dist` back in the circle: an earlier byte of the same call where the source lies below the byte, else what HIST held
before the call (R182, R183). -/
theorem copyBytes_spec (dist : Nat) : ∀ (n : Nat) (d : Decoder), 1 ≤ dist → dist ≤ d.size → d.wrPos + n ≤ d.size →
    Memory.bytesWf d.hist d.size →
    SameHist d (copyBytes dist n d) ∧ (copyBytes dist n d).wrPos = d.wrPos + n ∧
      Memory.bytesWf (copyBytes dist n d).hist d.size ∧
      (∀ a, a < d.wrPos ∨ d.wrPos + n ≤ a → histByte (copyBytes dist n d) a = histByte d a) ∧
      ∀ k < n, histByte (copyBytes dist n d) (d.wrPos + k) =
        if dist ≤ d.wrPos + k then histByte (copyBytes dist n d) (d.wrPos + k - dist)
        else histByte d (d.wrPos + k + d.size - dist) := by
  intro n
  induction n with
  | zero => intro d _ _ _ hw; exact ⟨SameHist.refl d, rfl, hw, fun _ _ => rfl, fun k hk => by omega⟩
  | succ n ih =>
    intro d h1 h2 h3 hw
    rw [copyBytes_succ]
    have hpos : (copyOne dist d).wrPos = d.wrPos + 1 := rfl
    have hsz : (copyOne dist d).size = d.size := rfl
    have hwf : Memory.bytesWf (copyOne dist d).hist d.size := Memory.bytesWf_put hw (show d.wrPos < d.size by omega) _
    obtain ⟨i1, i2, i3, i4, i5⟩ := ih (copyOne dist d) h1 h2 (by omega) hwf
    have hcirc := circle (w := d.wrPos) h2 (by omega)
    refine ⟨(copyOne_same dist d).trans i1, by omega, i3, fun a ha => ?_, fun k hk => ?_⟩
    · rw [i4 a (by omega), histByte_copyOne, if_neg (by omega)]
    · cases k with
      | zero =>
        rw [i4 (d.wrPos + 0) (by omega), histByte_copyOne, if_pos (by omega), hcirc]
        simp only [Nat.add_zero]
        split
        · rw [i4 (d.wrPos - dist) (by omega), histByte_copyOne, if_neg (by omega)]
        · rfl
      | succ k =>
        have := i5 k (by omega)
        rw [hpos, hsz, show d.wrPos + 1 + k = d.wrPos + (k + 1) by omega] at this
        rw [this]
        split
        · rfl
        · rw [histByte_copyOne]
          split
          · next he =>
            rw [hcirc, he]
            have hdz : dist = d.size + k + 1 := by omega
            omega
          · rfl

/-! ### The copy of DD_TRY_WRITE_COPY (R185) -/

/-- The forward copy writes the same bytes as the copy loop where the source does not wrap (R185, R186). -/
theorem copyForward_spec (dist : Nat) : ∀ (n k : Nat) (d : Decoder), 1 ≤ dist → dist ≤ d.wrPos → d.wrPos + k + n ≤ d.size →
    Memory.bytesWf d.hist d.size →
    SameHist d (copyForward dist n k d) ∧ (copyForward dist n k d).wrPos = d.wrPos ∧
      (copyForward dist n k d).hist = (copyBytes dist n { d with wrPos := d.wrPos + k }).hist ∧
      Memory.bytesWf (copyForward dist n k d).hist d.size := by
  intro n
  induction n with
  | zero => intro k d _ _ _ hw; exact ⟨SameHist.refl d, rfl, rfl, hw⟩
  | succ n ih =>
    intro k d h1 h2 h3 hw
    have hcirc := circle (w := d.wrPos + k) (dist := dist) (size := d.size) (by omega) (by omega)
    rw [if_pos (by omega)] at hcirc
    have hstep : putHist d (d.wrPos + k) (histByte d (d.wrPos + k - dist)) =
        { copyOne dist { d with wrPos := d.wrPos + k } with wrPos := d.wrPos } := by
      unfold copyOne
      simp only
      rw [hcirc]
      rfl
    obtain ⟨i1, i2, i3, i4⟩ := ih (k + 1) (putHist d (d.wrPos + k) (histByte d (d.wrPos + k - dist))) h1 h2
      (by simp only [putHist_wrPos, putHist_size]; omega) (Memory.bytesWf_put hw (by omega) _)
    have hput : SameHist d (putHist d (d.wrPos + k) (histByte d (d.wrPos + k - dist))) :=
      ⟨rfl, rfl, rfl, rfl, rfl, rfl, rfl, rfl, rfl⟩
    refine ⟨hput.trans i1, i2, ?_, i4⟩
    show (copyForward dist n (k + 1) _).hist = _
    rw [i3, copyBytes_succ, hstep]
    rfl

/-! ### The invariants -/

theorem Decoder.Inv.closeView {d : Decoder} (h : d.Inv) : (closeView d).Inv :=
  ⟨h.histWf, h.rd_le, h.wr_le, by simpa using h.wr_le, h.stash_le, h.size_range⟩

theorem Decoder.Inv.faulted {d : Decoder} (h : d.Inv) (f : Option FaultCode) : Decoder.Inv { d with faulted := f } :=
  ⟨h.histWf, h.rd_le, h.wr_le, h.view_le, h.stash_le, h.size_range⟩

theorem Decoder.Inv.hist_size_le {d : Decoder} (h : d.Inv) : histSize d ≤ d.size := by
  unfold histSize; split
  · exact Nat.le_refl _
  · exact h.wr_le

theorem sizeAllowed_range {n : Nat} (h : sizeAllowed n = true) : 1 ≤ n ∧ n ≤ Config.ddSizeMax := by
  simp only [sizeAllowed, Bool.and_eq_true, Bool.or_eq_true, decide_eq_true_eq] at h
  refine ⟨h.1, ?_⟩
  rcases h.2 with h2 | h2
  · unfold Config.ddSizeMax; omega
  · exact h2

theorem initDecoder_inv (d : Decoder) {n : Nat} (h : sizeAllowed n = true) (dict : List Byte) : (initDecoder d n dict).Inv := by
  have hlen : (tail n dict).length ≤ n := by unfold tail; rw [List.length_drop]; omega
  have hr := sizeAllowed_range h
  have hcur : (if (tail n dict).length = n then 0 else (tail n dict).length) ≤ n := by split <;> omega
  refine ⟨Memory.bytesWf_putRun ⟨List.Pairwise.nil, by simp⟩ (.inr (by rw [Nat.zero_add]; exact hlen)), Nat.le_refl _, hcur, ?_, ?_,
    fun _ => hr⟩
  · show (if _ then _ else _) + 0 ≤ n
    exact hcur
  · show 0 + 0 ≤ n; omega

/-- Both drains keep the invariants (R188). -/
theorem drainAdvance_inv {d : Decoder} (h : d.Inv) (hv : d.viewLen = 0) : (drainAdvance d).Inv := by
  have hw := h.wr_le
  have hst := h.stash_le
  unfold drainAdvance
  split
  · exact ⟨h.histWf, Nat.le_refl _, Nat.zero_le _, by show 0 + d.viewLen ≤ d.size; omega, hst, h.size_range⟩
  · exact ⟨h.histWf, Nat.le_refl _, hw, by show d.wrPos + d.viewLen ≤ d.size; omega, hst, h.size_range⟩

/-- A write cursor moved inside HIST, with the view closed. -/
theorem Decoder.Inv.advance {d d' : Decoder} (h : d.Inv) (hs : SameHist d d') (hv : d.viewLen = 0)
    (h1 : d.wrPos ≤ d'.wrPos) (h2 : d'.wrPos ≤ d.size) (hw : Memory.bytesWf d'.hist d.size) : d'.Inv := by
  have hrd := h.rd_le
  refine ⟨by rw [hs.size]; exact hw, by rw [hs.rdPos]; omega, by rw [hs.size]; omega, by rw [hs.viewLen, hs.size]; omega, ?_, ?_⟩
  · rw [hs.stashPos, hs.stashLen, hs.size]; exact h.stash_le
  · rw [hs.configured, hs.size]; exact h.size_range

theorem ddSizeMax_lt : Config.ddSizeMax < 4294967296 := by unfold Config.ddSizeMax; omega

/-- A DictDecoder command's end, from a state that meets the invariant: OK with a state that meets it, the value below 2^32 and
as many data bytes as the value where the command returns data; or a fault, for its cause (R202). -/
def Settles (i : Instr) (s : State) (v : Verdict Decoder) : Prop :=
  (∃ d' value data, v = .reply d' .ok value data ∧ d'.Inv ∧ d'.faulted = s.d.faulted ∧ d'.configured = s.d.configured ∧
    value < 4294967296 ∧ (((∀ max, i ≠ .ddStashRead max) ∧ i ≠ .ddReadFlush ∧ data = []) ∨
      ((i = .ddReadFlush ∨ ∃ max, i = .ddStashRead max) ∧ data.length = value))) ∨
  (∃ f, v = .raise s.d f ∧ FaultCause i s f)

theorem size_lt {d : Decoder} (h : d.Inv) (hc : d.configured = true) : d.size < 4294967296 := by
  have := (h.size_range hc).2
  have := ddSizeMax_lt
  omega

theorem writeByteBody_settles (c : Byte) {s : State} (h : s.d.Inv) :
    Settles (.ddWriteByte c) s (writeByteBody c s.d (closeView s.d)) := by
  have hw := h.wr_le
  unfold writeByteBody storeHist
  split
  · next he => exact .inr ⟨_, rfl, c, rfl, he⟩
  · next hne =>
    have hne : ¬ s.d.wrPos = s.d.size := hne
    have hlt : s.d.wrPos < s.d.size := by omega
    rw [if_pos (show (closeView s.d).wrPos < (closeView s.d).size from hlt)]
    refine .inl ⟨_, _, _, rfl, h.closeView.advance ⟨rfl, rfl, rfl, rfl, rfl, rfl, rfl, rfl, rfl⟩ rfl ?_ ?_ ?_, rfl, rfl,
      by decide, .inl ⟨nofun, nofun, rfl⟩⟩
    · show s.d.wrPos ≤ s.d.wrPos + 1; omega
    · show s.d.wrPos + 1 ≤ s.d.size; omega
    · exact Memory.bytesWf_put h.histWf hlt c

theorem writeSliceBody_settles (maxLen : Word32) {s : State} (h : s.d.Inv) :
    Settles (.ddWriteSlice maxLen) s (writeSliceBody maxLen.toNat s.d (closeView s.d)) := by
  have hw := h.wr_le
  have hm := maxLen.isLt
  refine .inl ⟨_, _, _, rfl, ⟨h.histWf, h.rd_le, h.wr_le, ?_, h.stash_le, h.size_range⟩, rfl, rfl, ?_, .inl ⟨nofun, nofun, rfl⟩⟩
  · show s.d.wrPos + min maxLen.toNat (s.d.size - s.d.wrPos) ≤ s.d.size
    omega
  · show min maxLen.toNat (s.d.size - s.d.wrPos) < _
    omega

theorem slicePutBody_settles (k : Word32) (c : Byte) {s : State} (h : s.d.Inv) :
    Settles (.ddSlicePut k c) s (slicePutBody k.toNat c s.d s.d) := by
  have hv := h.view_le
  unfold slicePutBody storeHist
  split
  · next hk => exact .inr ⟨_, rfl, k, c, rfl, hk⟩
  · rw [if_pos (by omega)]
    exact .inl ⟨_, _, _, rfl, ⟨Memory.bytesWf_put h.histWf (by omega) c, h.rd_le, h.wr_le, h.view_le, h.stash_le, h.size_range⟩,
      rfl, rfl, by decide, .inl ⟨nofun, nofun, rfl⟩⟩

theorem writeMarkBody_settles (n : Word32) {s : State} (h : s.d.Inv) :
    Settles (.ddWriteMark n) s (writeMarkBody n.toNat s.d (closeView s.d)) := by
  have hw := h.wr_le
  unfold writeMarkBody
  split
  · next hlt =>
    have hlt : s.d.size < s.d.wrPos + n.toNat := hlt
    exact .inr ⟨_, rfl, n, rfl, by omega⟩
  · next hle =>
    have hle : ¬ s.d.size < s.d.wrPos + n.toNat := hle
    refine .inl ⟨_, _, _, rfl, h.closeView.advance ⟨rfl, rfl, rfl, rfl, rfl, rfl, rfl, rfl, rfl⟩ rfl ?_ ?_ h.histWf, rfl, rfl,
      by decide, .inl ⟨nofun, nofun, rfl⟩⟩
    · show s.d.wrPos ≤ s.d.wrPos + n.toNat; omega
    · show s.d.wrPos + n.toNat ≤ s.d.size; omega

theorem writeCopyBody_settles (dist : Word32) (len : BitVec 24) {s : State} (h : s.d.Inv) :
    Settles (.ddWriteCopy dist len) s (writeCopyBody dist.toNat len.toNat s.d (closeView s.d)) := by
  have hw := h.wr_le
  have hh := h.hist_size_le
  have hl := len.isLt
  unfold writeCopyBody
  split
  · next hd => exact .inr ⟨_, rfl, .inl ⟨dist, len, rfl, hd⟩⟩
  · next hd =>
    have hd : ¬ (dist.toNat = 0 ∨ histSize s.d < dist.toNat) := hd
    have hc : copyCount (closeView s.d) len.toNat = min (s.d.wrPos + len.toNat) s.d.size - s.d.wrPos := rfl
    obtain ⟨h1, h2, h3, -, -⟩ := copyBytes_spec dist.toNat (copyCount (closeView s.d) len.toNat) (closeView s.d) (by omega)
      (show dist.toNat ≤ s.d.size by omega) (show s.d.wrPos + _ ≤ s.d.size by omega) h.histWf
    refine .inl ⟨_, _, _, rfl, h.closeView.advance h1 rfl ?_ ?_ h3, h1.faulted, h1.configured, ?_, .inl ⟨nofun, nofun, rfl⟩⟩
    · rw [h2]; exact Nat.le_add_right _ _
    · rw [h2]; show s.d.wrPos + _ ≤ s.d.size; omega
    · rw [hc]; omega

theorem tryWriteCopyBody_settles (dist : Word32) (len : BitVec 24) {s : State} (h : s.d.Inv) :
    Settles (.ddTryWriteCopy dist len) s (tryWriteCopyBody dist.toNat len.toNat s.d (closeView s.d)) := by
  have hl := len.isLt
  unfold tryWriteCopyBody
  split
  · next hd => exact .inr ⟨_, rfl, .inr ⟨dist, len, rfl, hd⟩⟩
  · split
    · exact .inl ⟨_, _, _, rfl, h.closeView, rfl, rfl, by decide, .inl ⟨nofun, nofun, rfl⟩⟩
    · next hd =>
      have hd : ¬ (s.d.wrPos < dist.toNat ∨ s.d.size < s.d.wrPos + len.toNat) := hd
      obtain ⟨h1, h2, -, h4⟩ := copyForward_spec dist.toNat len.toNat 0 (closeView s.d) (by omega) (show dist.toNat ≤ s.d.wrPos by omega)
        (show s.d.wrPos + 0 + len.toNat ≤ s.d.size by omega) h.histWf
      refine .inl ⟨_, _, _, rfl, h.closeView.advance
        ⟨h1.configured, h1.faulted, h1.size, h1.rdPos, h1.full, h1.viewLen, h1.stashPos, h1.stashLen, h1.epoch⟩ rfl ?_ ?_ h4,
        h1.faulted, h1.configured, by omega, .inl ⟨nofun, nofun, rfl⟩⟩
      · show s.d.wrPos ≤ (copyForward dist.toNat len.toNat 0 (closeView s.d)).wrPos + len.toNat
        rw [h2]; exact Nat.le_add_right _ _
      · show (copyForward dist.toNat len.toNat 0 (closeView s.d)).wrPos + len.toNat ≤ s.d.size
        rw [h2]; show s.d.wrPos + len.toNat ≤ s.d.size; omega

theorem drainAdvance_unit (d : Decoder) : (drainAdvance d).faulted = d.faulted ∧ (drainAdvance d).configured = d.configured := by
  unfold drainAdvance; split <;> exact ⟨rfl, rfl⟩

theorem readFlushBody_settles {s : State} (h : s.d.Inv) (hc : s.d.configured = true) :
    Settles .ddReadFlush s (readFlushBody s.d (closeView s.d)) := by
  have hrd := h.rd_le
  have hw := h.wr_le
  have hz := size_lt h hc
  unfold readFlushBody loadHist
  rw [if_pos (show (closeView s.d).rdPos + availRead (closeView s.d) ≤ (closeView s.d).size from
    (by omega : s.d.rdPos + (s.d.wrPos - s.d.rdPos) ≤ s.d.size))]
  refine .inl ⟨_, _, _, rfl, drainAdvance_inv h.closeView rfl, (drainAdvance_unit _).1, (drainAdvance_unit _).2, ?_,
    .inr ⟨.inl rfl, length_histRun _ _ _⟩⟩
  show s.d.wrPos - s.d.rdPos < _
  omega

theorem stashFlushBody_settles {s : State} (h : s.d.Inv) (hc : s.d.configured = true) :
    Settles .ddStashFlush s (stashFlushBody s.d (closeView s.d)) := by
  have hrd := h.rd_le
  have hw := h.wr_le
  have hz := size_lt h hc
  refine .inl ⟨_, _, _, rfl, drainAdvance_inv ⟨h.histWf, hrd, hw, by simpa using hw, ?_, h.size_range⟩ rfl, (drainAdvance_unit _).1,
    (drainAdvance_unit _).2, ?_, .inl ⟨nofun, nofun, rfl⟩⟩
  · show s.d.rdPos + (s.d.wrPos - s.d.rdPos) ≤ s.d.size
    omega
  · show s.d.wrPos - s.d.rdPos < _
    omega

theorem stashReadBody_settles (max : Word32) {s : State} (h : s.d.Inv) :
    Settles (.ddStashRead max) s (stashReadBody max.toNat s.d (closeView s.d)) := by
  have hst := h.stash_le
  have hm := max.isLt
  unfold stashReadBody loadHist
  simp only
  rw [if_pos (show (closeView s.d).stashPos + min max.toNat (closeView s.d).stashLen ≤ (closeView s.d).size from
    (by omega : s.d.stashPos + min max.toNat s.d.stashLen ≤ s.d.size))]
  refine .inl ⟨_, _, _, rfl, ⟨h.histWf, h.rd_le, h.wr_le, by simpa using h.wr_le, ?_, h.size_range⟩, rfl, rfl, by omega,
    .inr ⟨.inr ⟨max, rfl⟩, length_histRun _ _ _⟩⟩
  show s.d.stashPos + min max.toNat s.d.stashLen + (s.d.stashLen - min max.toNat s.d.stashLen) ≤ s.d.size
  omega

/-- A query answers a quantity below 2^32 and closes the view (R197). -/
theorem query_settles {i : Instr} (hi : (∀ max, i ≠ .ddStashRead max) ∧ i ≠ .ddReadFlush) {s : State} (h : s.d.Inv) {n : Nat}
    (hn : n < 4294967296) : Settles i s (.reply (closeView s.d) .ok n []) :=
  .inl ⟨_, _, _, rfl, h.closeView, rfl, rfl, hn, .inl ⟨hi.1, hi.2, rfl⟩⟩

end Sys2Proof.Machine
end

