-- ==== Sys2Proof/Laws/Exec.lean ====
section
/-! SUPPORT. What an instruction can do, said once for each unit: the shape every command has (checks, body, end), and from a
state that meets the invariant what the body answers and leaves (60_exceptions.md R200, R203, R204). -/

namespace Sys2Proof.Machine

/-! ### Matcher commands -/

/-- The pseudocode of a Matcher command behind its checks. -/
def matcherBody : Instr → MatcherSide → Verdict MatcherSide
  | .mConfig level => configBody level
  | .mReset dict => resetBody dict
  | .mFillWindow dict => shortCircuit (fillWindowBody dict)
  | .mWrite data => shortCircuit (writeBody data)
  | .mSyncFlush => shortCircuit syncFlushBody
  | .mClose => closeBody
  | _ => fun _ => .refuse

theorem exec_matcher {i : Instr} (h : unitOfInstr i = some .matcher) (s : State) :
    exec i s = matcherCommand (!constructs i) (matcherBody i) s := by
  cases i <;> first | rfl | cases h

/-- How a Matcher command that answers leaves the Matcher's side. -/
structure MatcherDone (i : Instr) (u u' : MatcherSide) (status : Status) (value : Nat) : Prop where
  inv : SideInv u'
  faulted : u'.m.faulted = u.m.faulted
  configured : u.m.configured = true → u'.m.configured = true
  log : (∃ l, u'.e.log = u.e.log ++ l ∧ ∀ r ∈ l, GoodRequest r) ∨ u'.e.log = []
  answer : status = .ok ∨ (status = .io ∧ ∃ c, u'.m.err = .io c ∧ value = c.toNat) ∨
    ((status = .closed ∨ status = .invalidLevel) ∧ value = 0)
  sticky : ∀ c, u.e.err = some c → (∀ a, i ≠ .mConfig a) → (∀ dict, i ≠ .mReset dict) → u'.e = u.e

theorem SideInv.emitter_none {u : MatcherSide} (h : SideInv u) (he : u.m.err = .noError) : u.e.err = none :=
  (h.ready he).emitter

/-- A command that a stream error cuts short changes nothing (R159, R206). -/
theorem matcherDone_same {i : Instr} {u : MatcherSide} {status : Status} {value : Nat} (hi : SideInv u)
    (h : status = .ok ∨ (status = .io ∧ ∃ c, u.m.err = .io c ∧ value = c.toNat) ∨
      ((status = .closed ∨ status = .invalidLevel) ∧ value = 0)) : MatcherDone i u u status value :=
  ⟨hi, rfl, id, .inl ⟨[], by simp, by simp⟩, h, fun _ _ _ _ => rfl⟩

theorem errResponse_done {i : Instr} {u : MatcherSide} (hi : SideInv u) (he : u.m.err ≠ .noError) :
    ∃ status value, errResponse u = .reply u status value [] ∧ MatcherDone i u u status value := by
  refine ⟨_, _, rfl, matcherDone_same hi ?_⟩
  cases h : u.m.err with
  | noError => exact absurd h he
  | closed => exact .inr (.inr ⟨.inl rfl, rfl⟩)
  | io c => exact .inr (.inl ⟨rfl, c, rfl, rfl⟩)

theorem onlyBlocks_good {l : List LogEntry} (h : OnlyBlocks l) : ∀ r ∈ l, GoodRequest r := fun r hr => (h r hr).2

theorem good_markers {l : List LogEntry} (h : OnlyBlocks l) (isFinal : Bool) :
    ∀ r ∈ l ++ [.emitStoredHeader 0#16 isFinal, .emitFlush], GoodRequest r := by
  intro r hr
  simp only [List.mem_append, List.mem_cons, List.not_mem_nil, or_false] at hr
  rcases hr with hr | rfl | rfl
  · exact (h r hr).2
  · exact rfl
  · exact trivial

theorem configBody_done (level : Word32) {u : MatcherSide} (hi : SideInv u) :
    (∃ u' status value, configBody level u = .reply u' status value [] ∧ MatcherDone (.mConfig level) u u' status value) ∨
    (configBody level u = .refuse ∧ resolveLevel (levelOperand level) = .otherMode) := by
  unfold configBody
  cases h : resolveLevel (levelOperand level) with
  | invalid => exact .inl ⟨u, _, _, rfl, matcherDone_same hi (.inr (.inr ⟨.inr rfl, rfl⟩))⟩
  | otherMode => exact .inr ⟨rfl, rfl⟩
  | deflate l =>
    obtain ⟨h2, h9⟩ := resolveLevel_range h
    exact .inl ⟨_, _, _, rfl, config_inv hi.m.shape.winWf h2 h9, rfl, fun _ => rfl, .inr rfl, .inl rfl,
      fun _ _ ha _ => absurd rfl (ha level)⟩

theorem resetBody_eq (dict : List Byte) (u : MatcherSide) : resetBody dict u =
    .reply ⟨if 0 < dict.length then primeWindow (clearMatcher u.m) dict else clearMatcher u.m,
      { u.e with err := none, log := u.e.log ++ [.sinkRebound] }⟩ .ok 0 [] := rfl

theorem resetBody_done (dict : List Byte) {u : MatcherSide} (hi : SideInv u) :
    ∃ u' status value, resetBody dict u = .reply u' status value [] ∧ MatcherDone (.mReset dict) u u' status value := by
  have hs := clearMatcher_shape (m := u.m) hi.m.shape.winWf hi.m.shape.params_row
  have hl := clearMatcher_live u.m
  have hc : SideInv ⟨clearMatcher u.m, { u.e with err := none, log := u.e.log ++ [.sinkRebound] }⟩ :=
    ⟨⟨hs, fun _ => hl, fun _ => rfl⟩, fun c => ⟨nofun, nofun⟩⟩
  have hlog : ∃ l, u.e.log ++ [.sinkRebound] = u.e.log ++ l ∧ ∀ r ∈ l, GoodRequest r :=
    ⟨[.sinkRebound], rfl, by simp [GoodRequest]⟩
  by_cases hd : 0 < dict.length
  · obtain ⟨h1, h2⟩ := primeWindow_inv hc rfl rfl rfl dict
    refine ⟨⟨primeWindow (clearMatcher u.m) dict, { u.e with err := none, log := u.e.log ++ [.sinkRebound] }⟩, .ok, 0, ?_,
      h1, h2.faulted, fun h => h2.configured.trans h, .inl hlog, .inl rfl, fun _ _ _ hr => absurd rfl (hr dict)⟩
    rw [resetBody_eq, if_pos hd]
  · refine ⟨⟨clearMatcher u.m, { u.e with err := none, log := u.e.log ++ [.sinkRebound] }⟩, .ok, 0, ?_, hc, rfl, id, .inl hlog,
      .inl rfl, fun _ _ _ hr => absurd rfl (hr dict)⟩
    rw [resetBody_eq, if_neg hd]

theorem fillWindowBody_done (dict : List Byte) {u : MatcherSide} (hi : SideInv u) (he : u.m.err = .noError) :
    (∃ u' status value, fillWindowBody dict u = .reply u' status value [] ∧ MatcherDone (.mFillWindow dict) u u' status value) ∨
    (fillWindowBody dict u = .raise u .fillStale ∧ (u.m.index ≠ 0 ∨ u.m.windowEnd ≠ 0)) := by
  unfold fillWindowBody windowEmpty
  by_cases h : u.m.index = 0 ∧ u.m.windowEnd = 0
  · obtain ⟨h1, h2⟩ := primeWindow_inv hi he h.1 h.2 dict
    rw [if_pos (by simp [h.1, h.2])]
    refine .inl ⟨_, _, _, rfl, h1, h2.faulted, fun h => h2.configured.trans h, .inl ⟨[], by simp, by simp⟩, .inl rfl,
      fun _ _ _ _ => rfl⟩
  · rw [if_neg (by simpa using h)]
    have h' : u.m.index ≠ 0 ∨ u.m.windowEnd ≠ 0 := by omega
    exact .inr ⟨rfl, h'⟩

theorem writeBody_done (data : List Byte) {u : MatcherSide} (hi : SideInv u) (he : u.m.err = .noError) :
    ∃ u' status value, writeBody data u = .reply u' status value [] ∧ MatcherDone (.mWrite data) u u' status value := by
  obtain ⟨u', hw, h⟩ := writeLoop_good data.length data.length data u (hi.ready he) (hi.m.notSync he) (Nat.le_refl _)
  obtain ⟨l, h1, h2⟩ := hw.log
  have hnone := hi.emitter_none he
  rcases h with ⟨h3, h4, h5⟩ | ⟨c, h3, h4, h5, h6⟩
  · exact ⟨u', _, _, h3, h4.side h5, hw.kept.faulted, fun h => hw.kept.configured.trans h, .inl ⟨l, h1, onlyBlocks_good h2⟩, .inl rfl,
      fun c hc _ _ => by rw [hnone] at hc; cases hc⟩
  · exact ⟨u', _, _, h3, sideInv_failed h4 h5 h6, hw.kept.faulted, fun h => hw.kept.configured.trans h,
      .inl ⟨l, h1, onlyBlocks_good h2⟩, .inr (.inl ⟨rfl, c, h5, rfl⟩), fun c hc _ _ => by rw [hnone] at hc; cases hc⟩

theorem syncFlushBody_done {u : MatcherSide} (hi : SideInv u) (he : u.m.err = .noError) :
    ∃ u' status value, syncFlushBody u = .reply u' status value [] ∧ MatcherDone .mSyncFlush u u' status value := by
  have hnone := hi.emitter_none he
  obtain ⟨u', hk, -, -, -, hi', -, h⟩ := syncFlushBody_good (hi.ready he)
  rcases h with ⟨h1, -, -, l, h2, h3⟩ | ⟨c, h1, h2, l, h3, h4⟩
  · exact ⟨u', _, _, h1, hi', hk.faulted, fun h => hk.configured.trans h,
      .inl ⟨_, by rw [h2, List.append_assoc], good_markers h3 false⟩, .inl rfl, fun c hc _ _ => by rw [hnone] at hc; cases hc⟩
  · refine ⟨u', _, _, h1, hi', hk.faulted, fun h => hk.configured.trans h, .inl ?_, .inr (.inl ⟨rfl, c, h2, rfl⟩),
      fun c hc _ _ => by rw [hnone] at hc; cases hc⟩
    rcases h4 with h4 | h4
    · exact ⟨l, h4, onlyBlocks_good h3⟩
    · exact ⟨_, by rw [h4, List.append_assoc], good_markers h3 false⟩

theorem closeBody_done {u : MatcherSide} (hi : SideInv u) :
    ∃ u' status value, closeBody u = .reply u' status value [] ∧ MatcherDone .mClose u u' status value := by
  cases he : u.m.err with
  | closed =>
    refine ⟨u, .ok, 0, ?_, matcherDone_same hi (.inl rfl)⟩
    unfold closeBody; rw [he]
  | io c =>
    refine ⟨u, .io, c.toNat, ?_, matcherDone_same hi (.inr (.inl ⟨rfl, c, he, rfl⟩))⟩
    unfold closeBody; rw [he]; exact errResponse_io he
  | noError =>
    have hnone := hi.emitter_none he
    obtain ⟨u', hk, -, -, -, hi', h⟩ := closeBody_good (hi.ready he)
    rcases h with ⟨h1, -, -, -, -, l, h2, h3⟩ | ⟨c, h1, h2, l, h3, h4⟩
    · exact ⟨u', _, _, h1, hi', hk.faulted, fun h => hk.configured.trans h,
        .inl ⟨_, by rw [h2, List.append_assoc], good_markers h3 true⟩, .inl rfl, fun c hc _ _ => by rw [hnone] at hc; cases hc⟩
    · refine ⟨u', _, _, h1, hi', hk.faulted, fun h => hk.configured.trans h, .inl ?_, .inr (.inl ⟨rfl, c, h2, rfl⟩),
        fun c hc _ _ => by rw [hnone] at hc; cases hc⟩
      rcases h4 with h4 | h4 | h4
      · exact ⟨l, h4, onlyBlocks_good h3⟩
      · exact ⟨_, by rw [h4, List.append_assoc], fun r hr => good_markers h3 true r (by
          rcases List.mem_append.mp hr with hr | hr
          · exact List.mem_append_left _ hr
          · exact List.mem_append_right _ (by simp at hr; simp [hr]))⟩
      · exact ⟨_, by rw [h4, List.append_assoc], good_markers h3 true⟩

/-- A Matcher command's body, from a state that meets the invariant: it answers; or M_FILL_WINDOW finds a window that is not
empty; or M_CONFIG is refused. The model never stops and F_INTERNAL is never raised (R144, R200). -/
theorem matcherBody_done {i : Instr} (hu : unitOfInstr i = some .matcher) {u : MatcherSide} (hi : SideInv u) :
    (∃ u' status value, matcherBody i u = .reply u' status value [] ∧ MatcherDone i u u' status value) ∨
    (∃ dict, i = .mFillWindow dict ∧ matcherBody i u = .raise u .fillStale ∧ u.m.err = .noError ∧
      (u.m.index ≠ 0 ∨ u.m.windowEnd ≠ 0)) ∨
    (∃ level, i = .mConfig level ∧ matcherBody i u = .refuse ∧ resolveLevel (levelOperand level) = .otherMode) := by
  have hshort (body : MatcherSide → Verdict MatcherSide) (h : u.m.err ≠ .noError) :
      ∃ u' status value, shortCircuit body u = .reply u' status value [] ∧ MatcherDone i u u' status value := by
    obtain ⟨status, value, h1, h2⟩ := errResponse_done (i := i) hi h
    exact ⟨u, status, value, by rw [shortCircuit_err h, h1], h2⟩
  cases i with
  | mConfig level =>
    rcases configBody_done level hi with h | ⟨h1, h2⟩
    · exact .inl h
    · exact .inr (.inr ⟨level, rfl, h1, h2⟩)
  | mReset dict => exact .inl (resetBody_done dict hi)
  | mFillWindow dict =>
    have hb : matcherBody (.mFillWindow dict) u = shortCircuit (fillWindowBody dict) u := rfl
    rw [hb]
    by_cases he : u.m.err = .noError
    · rw [shortCircuit_live he]
      rcases fillWindowBody_done dict hi he with h | ⟨h1, h2⟩
      · exact .inl h
      · exact .inr (.inl ⟨dict, rfl, h1, he, h2⟩)
    · exact .inl (hshort (fillWindowBody dict) he)
  | mWrite data =>
    have hb : matcherBody (.mWrite data) u = shortCircuit (writeBody data) u := rfl
    rw [hb]
    by_cases he : u.m.err = .noError
    · rw [shortCircuit_live he]; exact .inl (writeBody_done data hi he)
    · exact .inl (hshort (writeBody data) he)
  | mSyncFlush =>
    have hb : matcherBody .mSyncFlush u = shortCircuit syncFlushBody u := rfl
    rw [hb]
    by_cases he : u.m.err = .noError
    · rw [shortCircuit_live he]; exact .inl (syncFlushBody_done hi he)
    · exact .inl (hshort syncFlushBody he)
  | mClose => exact .inl (closeBody_done hi)
  | _ => cases hu

/-! ### DictDecoder commands -/

/-- How R175 treats a DictDecoder command. -/
def preambleOf : Instr → Preamble
  | .ddSlicePut _ _ => puttingSlice
  | .ddStashLen => querying
  | .ddStashRead _ => querying
  | .ddHistSize => querying
  | .ddAvailRead => querying
  | .ddAvailWrite => querying
  | _ => writing

/-- The pseudocode of a DictDecoder command but DD_INIT behind its checks. -/
def decoderBody : Instr → Decoder → Decoder → Verdict Decoder
  | .ddWriteByte c => writeByteBody c
  | .ddWriteSlice maxLen => writeSliceBody maxLen.toNat
  | .ddSlicePut k c => slicePutBody k.toNat c
  | .ddWriteMark n => writeMarkBody n.toNat
  | .ddWriteCopy dist len => writeCopyBody dist.toNat len.toNat
  | .ddTryWriteCopy dist len => tryWriteCopyBody dist.toNat len.toNat
  | .ddReadFlush => readFlushBody
  | .ddStashFlush => stashFlushBody
  | .ddStashLen => fun _ d => .reply d .ok d.stashLen []
  | .ddStashRead max => stashReadBody max.toNat
  | .ddHistSize => fun _ d => .reply d .ok (histSize d) []
  | .ddAvailRead => fun _ d => .reply d .ok (availRead d) []
  | .ddAvailWrite => fun _ d => .reply d .ok (availWrite d) []
  | _ => fun _ _ => .refuse

theorem exec_decoder {i : Instr} (h : unitOfInstr i = some .decoder) (hc : constructs i = false) (s : State) :
    exec i s = decoderCommand (preambleOf i) (decoderBody i) s := by
  cases i <;> first | (cases hc; done) | (cases h; done) | rfl

theorem preambleOf_blocked {i : Instr} (h : unitOfInstr i = some .decoder) (hc : constructs i = false) :
    (preambleOf i).blockedByStash = blockedByStash i := by
  cases i <;> first | (cases hc; done) | (cases h; done) | rfl

/-- What the body of a DictDecoder command is handed besides the unit before it: the view closed, where the command closes it
(R175). -/
def handed (p : Preamble) (d : Decoder) : Decoder := if p.closesView then closeView d else d

/-- A DictDecoder command's body, from a state that meets the invariant: it answers OK, or raises a fault for its cause. The
model never stops (R199, R202). -/
theorem decoderBody_settles {i : Instr} (hu : unitOfInstr i = some .decoder) (hc : constructs i = false) {s : State} (h : s.d.Inv)
    (hconf : s.d.configured = true) : Settles i s (decoderBody i s.d (handed (preambleOf i) s.d)) := by
  have hz := size_lt h hconf
  have hw := h.wr_le
  have hst := h.stash_le
  have hh := h.hist_size_le
  cases i with
  | ddWriteByte c => exact writeByteBody_settles c h
  | ddWriteSlice maxLen => exact writeSliceBody_settles maxLen h
  | ddSlicePut k c => exact slicePutBody_settles k c h
  | ddWriteMark n => exact writeMarkBody_settles n h
  | ddWriteCopy dist len => exact writeCopyBody_settles dist len h
  | ddTryWriteCopy dist len => exact tryWriteCopyBody_settles dist len h
  | ddReadFlush => exact readFlushBody_settles h hconf
  | ddStashFlush => exact stashFlushBody_settles h hconf
  | ddStashRead max => exact stashReadBody_settles max h
  | ddStashLen => exact query_settles (i := .ddStashLen) ⟨nofun, nofun⟩ h (by show s.d.stashLen < _; omega)
  | ddHistSize => exact query_settles (i := .ddHistSize) ⟨nofun, nofun⟩ h (by show histSize s.d < _; omega)
  | ddAvailRead => exact query_settles (i := .ddAvailRead) ⟨nofun, nofun⟩ h (by show s.d.wrPos - s.d.rdPos < _; omega)
  | ddAvailWrite => exact query_settles (i := .ddAvailWrite) ⟨nofun, nofun⟩ h (by show s.d.size - s.d.wrPos < _; omega)
  | ddInit size dict => cases hc
  | _ => cases hu

/-! ### What an instruction can do -/

/-- Every end of a Matcher command, from a state that meets the invariant: the latched fault; the missing configuration; the
body's answer; a window that is not empty; a refused level. -/
theorem exec_matcher_cases {i : Instr} (hu : unitOfInstr i = some .matcher) {s : State} (h : s.Inv) :
    (∃ f, s.m.faulted = some f ∧ exec i s = .next (respond s (.fault f) 0 [])) ∨
    (s.m.faulted = none ∧ constructs i = false ∧ s.m.configured = false ∧
      exec i s = .next (raiseFault .matcher .notConfigured s)) ∨
    (s.m.faulted = none ∧ (constructs i = false → s.m.configured = true) ∧
      ((∃ u' status value, matcherBody i s.side = .reply u' status value [] ∧ MatcherDone i s.side u' status value ∧
          exec i s = .next (respond (s.withSide u') status value [])) ∨
        (∃ dict, i = .mFillWindow dict ∧ s.m.err = .noError ∧ (s.m.index ≠ 0 ∨ s.m.windowEnd ≠ 0) ∧
          exec i s = .next (raiseFault .matcher .fillStale s)) ∨
        (∃ level, i = .mConfig level ∧ resolveLevel (levelOperand level) = .otherMode ∧ exec i s = .next (refuseMode s)))) := by
  rw [exec_matcher hu]
  cases hf : s.m.faulted with
  | some f => exact .inl ⟨f, rfl, matcherCommand_faulted hf _ _⟩
  | none =>
    cases hk : constructs i with
    | false =>
      cases hc : s.m.configured with
      | false => exact .inr (.inl ⟨rfl, rfl, rfl, matcherCommand_unconfigured hf hc _⟩)
      | true =>
        refine .inr (.inr ⟨rfl, fun _ => rfl, ?_⟩)
        rw [matcherCommand_run hf (.inr hc)]
        rcases matcherBody_done hu h.side with ⟨u', st, v, h1, h2⟩ | ⟨dict, h1, h2, h3, h4⟩ | ⟨level, h1, h2, h3⟩
        · exact .inl ⟨u', st, v, h1, h2, by rw [h1]; rfl⟩
        · exact .inr (.inl ⟨dict, h1, h3, h4, by rw [h2]; rfl⟩)
        · exact .inr (.inr ⟨level, h1, h3, by rw [h2]; rfl⟩)
    | true =>
      refine .inr (.inr ⟨rfl, nofun, ?_⟩)
      rw [matcherCommand_run hf (nc := !true) (.inl rfl)]
      rcases matcherBody_done hu h.side with ⟨u', st, v, h1, h2⟩ | ⟨dict, h1, h2, h3, h4⟩ | ⟨level, h1, h2, h3⟩
      · exact .inl ⟨u', st, v, h1, h2, by rw [h1]; rfl⟩
      · exact .inr (.inl ⟨dict, h1, h3, h4, by rw [h2]; rfl⟩)
      · exact .inr (.inr ⟨level, h1, h3, by rw [h2]; rfl⟩)

/-- DD_INIT's three ends (R173). -/
theorem exec_ddInit_cases (size : Word32) (dict : List Byte) (s : State) :
    (∃ f, s.d.faulted = some f ∧ exec (.ddInit size dict) s = .next (respond s (.fault f) 0 [])) ∨
    (s.d.faulted = none ∧ sizeAllowed size.toNat = true ∧
      exec (.ddInit size dict) s = .next (respond { s with d := initDecoder s.d size.toNat dict } .ok 0 [])) ∨
    (s.d.faulted = none ∧ sizeAllowed size.toNat = false ∧
      exec (.ddInit size dict) s = .next (respond { s with d := closeView s.d } .ddBadSize 0 [])) := by
  have he : exec (.ddInit size dict) s = execDdInit size dict s := rfl
  rw [he]
  unfold execDdInit
  cases hf : s.d.faulted with
  | some f => exact .inl ⟨f, rfl, rfl⟩
  | none =>
    cases ha : sizeAllowed size.toNat with
    | true => exact .inr (.inl ⟨rfl, rfl, rfl⟩)
    | false => exact .inr (.inr ⟨rfl, rfl, rfl⟩)

/-- Every end of a DictDecoder command but DD_INIT, from a unit that meets the invariant: the latched fault; the missing
configuration; staged bytes; the body's answer; a fault for its cause. -/
theorem exec_decoder_cases {i : Instr} (hu : unitOfInstr i = some .decoder) (hc : constructs i = false) {s : State} (h : s.d.Inv) :
    (∃ f, s.d.faulted = some f ∧ exec i s = .next (respond s (.fault f) 0 [])) ∨
    (s.d.faulted = none ∧ s.d.configured = false ∧ exec i s = .next (raiseFault .decoder .notConfigured s)) ∨
    (s.d.faulted = none ∧ s.d.configured = true ∧ blockedByStash i = true ∧ 0 < s.d.stashLen ∧
      exec i s = .next (raiseFault .decoder .ddStashPending s)) ∨
    (s.d.faulted = none ∧ s.d.configured = true ∧ (blockedByStash i = true → s.d.stashLen = 0) ∧
      ∃ v, v = decoderBody i s.d (handed (preambleOf i) s.d) ∧ Settles i s v ∧ exec i s = finishDecoder s v) := by
  rw [exec_decoder hu hc]
  cases hf : s.d.faulted with
  | some f => exact .inl ⟨f, rfl, decoderCommand_faulted hf _ _⟩
  | none =>
    cases hconf : s.d.configured with
    | false => exact .inr (.inl ⟨rfl, rfl, decoderCommand_unconfigured hf hconf _ _⟩)
    | true =>
      have hp := preambleOf_blocked hu hc
      by_cases hb : blockedByStash i = true ∧ 0 < s.d.stashLen
      · exact .inr (.inr (.inl ⟨rfl, rfl, hb.1, hb.2, decoderCommand_stashed hf hconf hb.2 (hp.trans hb.1) _⟩))
      · have hb' : blockedByStash i = true → s.d.stashLen = 0 := fun h1 => by
          have : ¬ 0 < s.d.stashLen := fun h2 => hb ⟨h1, h2⟩
          omega
        refine .inr (.inr (.inr ⟨rfl, rfl, hb', _, rfl, decoderBody_settles hu hc h hconf, decoderCommand_run hf hconf ?_ _⟩))
        cases hbl : blockedByStash i with
        | false => exact .inl (hp.trans hbl)
        | true => exact .inr (hb' hbl)

/-- A token word touches only the token reader (R62, R106). -/
theorem exec_token {i : Instr} (hu : unitOfInstr i = none) (s : State) : ∃ r, exec i s = .next { s with t := r } := by
  cases i with
  | tokenLit b => exact ⟨_, rfl⟩
  | tokenMatch x o => exact ⟨_, rfl⟩
  | _ => cases hu

/-- The latch is no part of the invariant. -/
theorem Matcher.Inv.faulted {m : Matcher} (h : m.Inv) (f : Option FaultCode) : Matcher.Inv { m with faulted := f } where
  shape := ⟨h.shape.winWf, h.shape.headWf, h.shape.prevWf, h.shape.index_le, h.shape.windowEnd_le, h.shape.tokq_le,
    h.shape.hashOffset_range, h.shape.length_ge, h.shape.length_le, h.shape.offset_le, h.shape.maxInsert_ge, h.shape.maxInsert_le,
    h.shape.params_row⟩
  live := fun he =>
    have hl := h.live he
    ⟨hl.tokq_lt, hl.head_lt, hl.prev_lt, hl.chainHead_lt, hl.carried, hl.pending, hl.queued, hl.fastHeld, hl.block, hl.tokens⟩
  notSync := h.notSync

/-! ### The invariant -/

/-- The Matcher at power-on meets its invariant (R220). -/
theorem matcher_powerOn_inv (k : Nat) : (Matcher.powerOn k).Inv where
  shape := ⟨⟨List.Pairwise.nil, nofun⟩, ⟨List.Pairwise.nil, nofun, nofun⟩, ⟨List.Pairwise.nil, nofun, nofun⟩, Nat.le_refl _,
    Nat.zero_le _, Nat.zero_le _, ⟨0, by decide, rfl⟩, Nat.le_refl _, (by decide : 3 ≤ 258), Nat.zero_le _,
    (by decide : (-3 : Int) ≤ 0), (by decide : (0 : Int) ≤ 65533), nofun⟩
  live := fun _ => ⟨(by decide : 0 < 16384), nofun, nofun, (by decide : (-1 : Int) < ((0 : Nat) : Int) + ((1 : Nat) : Int)),
    fun _ h => absurd h (by decide : ¬ (4 ≤ 3)), nofun, fun h => absurd rfl h, fun _ => rfl,
    .inl ⟨Nat.zero_le _, Nat.zero_le _⟩, nofun⟩
  notSync := fun _ => rfl

/-- The DictDecoder at power-on meets its invariant (R220). -/
theorem decoder_powerOn_inv (k : Nat) : (Decoder.powerOn k).Inv :=
  ⟨⟨List.Pairwise.nil, nofun⟩, Nat.le_refl _, Nat.le_refl _, Nat.le_refl _, Nat.le_refl _, nofun⟩

/-- Every instruction keeps the invariant. -/
theorem exec_inv {i : Instr} {s t : State} (h : s.Inv) (he : exec i s = .next t) : t.Inv := by
  cases hu : unitOfInstr i with
  | none =>
    obtain ⟨r, h1⟩ := exec_token hu s
    rw [h1] at he; cases he; exact ⟨h.m, h.d, h.sticky⟩
  | some u =>
    cases u with
    | matcher =>
      rcases exec_matcher_cases hu h with ⟨f, h1, h2⟩ | ⟨h1, h2, h3, h4⟩ |
        ⟨h1, h2, ⟨u', st, v, h3, h4, h5⟩ | ⟨dict, h3, h4, h5, h6⟩ | ⟨l, h3, h4, h5⟩⟩
      · rw [h2] at he; cases he; exact ⟨h.m, h.d, h.sticky⟩
      · rw [h4] at he; cases he
        exact ⟨h.m.faulted _, h.d, h.sticky⟩
      · rw [h5] at he; cases he
        exact ⟨h4.inv.m, h.d, h4.inv.sticky⟩
      · rw [h6] at he; cases he
        exact ⟨h.m.faulted _, h.d, h.sticky⟩
      · rw [h5] at he; cases he
        exact ⟨h.m, h.d, h.sticky⟩
    | decoder =>
      cases hc : constructs i with
      | true =>
        cases i with
        | ddInit size dict =>
          rcases exec_ddInit_cases size dict s with ⟨f, h1, h2⟩ | ⟨h1, h2, h3⟩ | ⟨h1, h2, h3⟩
          · rw [h2] at he; cases he; exact ⟨h.m, h.d, h.sticky⟩
          · rw [h3] at he; cases he; exact ⟨h.m, initDecoder_inv _ h2 _, h.sticky⟩
          · rw [h3] at he; cases he; exact ⟨h.m, h.d.closeView, h.sticky⟩
        | mConfig l => cases hu
        | _ => cases hc
      | false =>
        rcases exec_decoder_cases hu hc h.d with ⟨f, h1, h2⟩ | ⟨h1, h2, h3⟩ | ⟨h1, h2, h3, h4, h5⟩ |
          ⟨h1, h2, h3, v, h4, h5, h6⟩
        · rw [h2] at he; cases he; exact ⟨h.m, h.d, h.sticky⟩
        · rw [h3] at he; cases he; exact ⟨h.m, h.d.faulted _, h.sticky⟩
        · rw [h5] at he; cases he; exact ⟨h.m, h.d.faulted _, h.sticky⟩
        · rw [h6] at he
          rcases h5 with ⟨d', value, data, e1, e2, -⟩ | ⟨f, e1, -⟩
          · rw [e1] at he; cases he; exact ⟨h.m, e2, h.sticky⟩
          · rw [e1] at he; cases he; exact ⟨h.m, h.d.faulted _, h.sticky⟩

/-- A word for no unit, as the fields it writes (R201). -/
theorem raiseNoUnit_eq (s : State) : raiseNoUnit s = { s with
      m := { s.m with faulted := some (s.m.faulted.getD .badOpcode) }
      d := { s.d with faulted := some (s.d.faulted.getD .badOpcode) }
      responses := s.responses ++ [⟨.fault .badOpcode, 0#32, []⟩] } := by
  rcases s with ⟨⟨_, mf, _⟩, ⟨_, df, _⟩, _, _, _, _, _⟩
  cases mf <;> cases df <;> rfl

/-! ### The canonical form of the memories (R50, R51) -/

/-- The invariant holds the memories in canonical form. -/
theorem State.Inv.memory {s : State} (h : s.Inv) : Memory.wf s :=
  ⟨h.m.shape.winWf, h.m.shape.headWf, h.m.shape.prevWf, h.d.histWf⟩

theorem memory_reset : Memory.wf State.reset :=
  ⟨⟨List.Pairwise.nil, by simp [State.reset, Matcher.powerOn]⟩,
    ⟨List.Pairwise.nil, by simp [State.reset, Matcher.powerOn], by simp [State.reset, Matcher.powerOn]⟩,
    ⟨List.Pairwise.nil, by simp [State.reset, Matcher.powerOn], by simp [State.reset, Matcher.powerOn]⟩,
    ⟨List.Pairwise.nil, by simp [State.reset, Decoder.powerOn]⟩⟩

end Sys2Proof.Machine
end

