-- ==== Sys2Proof/Laws/PerInstr.lean ====
section
/-! SUPPORT. One fact about every instruction as syntax, a lemma per constructor: the packet of a well-formed instruction
announces its own payload, and selects a unit or a token type (30_encoding.md R75, R79, R84). -/

namespace Sys2Proof.Laws.Encoded

/-- A command's payload is as long as its word says and its opcode selects a unit; a token's type is literal or match. -/
def Statement (i : Instr) : Prop :=
  wellFormed i = true →
    match encode i with
    | .command w payload => payload.length = payloadCount w ∧ unitOf (opField w) ≠ none
    | .token t => tokenKind t = 0b00#2 ∨ tokenKind t = 0b01#2

theorem mConfig (level : Word32) : Statement (.mConfig level) := by
  intro _; simp [encode, payloadCount, unitOf]

theorem count32 {dict : List Byte} (h : decide (dict.length < 4294967296) = true) :
    (BitVec.ofNat 32 dict.length).toNat = dict.length := by
  rw [decide_eq_true_eq] at h
  rw [BitVec.toNat_ofNat, Nat.mod_eq_of_lt h]

theorem mReset (dict : List Byte) : Statement (.mReset dict) := by
  intro h
  refine ⟨?_, by simp [unitOf]⟩
  unfold payloadCount
  rw [opField_commandWord, aField_commandWord]
  exact (count32 h).symm

theorem mFillWindow (dict : List Byte) : Statement (.mFillWindow dict) := by
  intro h
  refine ⟨?_, by simp [unitOf]⟩
  unfold payloadCount
  rw [opField_commandWord, aField_commandWord]
  exact (count32 h).symm

theorem mWrite (data : List Byte) : Statement (.mWrite data) := by
  intro h
  refine ⟨?_, by simp [unitOf]⟩
  unfold payloadCount
  rw [opField_commandWord, aField_commandWord]
  exact (count32 h).symm

theorem mSyncFlush : Statement .mSyncFlush := by intro _; simp [encode, payloadCount, unitOf]

theorem mClose : Statement .mClose := by intro _; simp [encode, payloadCount, unitOf]

theorem ddInit (size : Word32) (dict : List Byte) : Statement (.ddInit size dict) := by
  intro h
  refine ⟨?_, by simp [unitOf]⟩
  have h : dict.length < 16777216 := by simpa [wellFormed] using h
  unfold payloadCount
  rw [opField_commandWord, bField_commandWord]
  show dict.length = (BitVec.ofNat 24 dict.length).toNat
  rw [BitVec.toNat_ofNat, Nat.mod_eq_of_lt h]

theorem ddWriteByte (c : Byte) : Statement (.ddWriteByte c) := by intro _; simp [encode, payloadCount, unitOf]

theorem ddWriteSlice (maxLen : Word32) : Statement (.ddWriteSlice maxLen) := by
  intro _; simp [encode, payloadCount, unitOf]

theorem ddSlicePut (k : Word32) (c : Byte) : Statement (.ddSlicePut k c) := by
  intro _; simp [encode, payloadCount, unitOf]

theorem ddWriteMark (n : Word32) : Statement (.ddWriteMark n) := by intro _; simp [encode, payloadCount, unitOf]

theorem ddWriteCopy (dist : Word32) (len : BitVec 24) : Statement (.ddWriteCopy dist len) := by
  intro _; simp [encode, payloadCount, unitOf]

theorem ddTryWriteCopy (dist : Word32) (len : BitVec 24) : Statement (.ddTryWriteCopy dist len) := by
  intro _; simp [encode, payloadCount, unitOf]

theorem ddReadFlush : Statement .ddReadFlush := by intro _; simp [encode, payloadCount, unitOf]

theorem ddStashFlush : Statement .ddStashFlush := by intro _; simp [encode, payloadCount, unitOf]

theorem ddStashLen : Statement .ddStashLen := by intro _; simp [encode, payloadCount, unitOf]

theorem ddStashRead (max : Word32) : Statement (.ddStashRead max) := by intro _; simp [encode, payloadCount, unitOf]

theorem ddHistSize : Statement .ddHistSize := by intro _; simp [encode, payloadCount, unitOf]

theorem ddAvailRead : Statement .ddAvailRead := by intro _; simp [encode, payloadCount, unitOf]

theorem ddAvailWrite : Statement .ddAvailWrite := by intro _; simp [encode, payloadCount, unitOf]

theorem tokenKind_toNat' (t : Token) : (tokenKind t).toNat = t.toNat / 1073741824 % 4 := by
  simp [tokenKind, BitVec.extractLsb'_toNat, Nat.shiftRight_eq_div_pow]

theorem tokenLit (b : Byte) : Statement (.tokenLit b) := by
  intro _
  refine .inl (BitVec.eq_of_toNat_eq ?_)
  have hb := b.isLt
  rw [tokenKind_toNat', BitVec.toNat_setWidth, Nat.mod_eq_of_lt (by omega), BitVec.toNat_ofNat]
  omega

theorem tokenMatch (xlength : BitVec 8) (xoffset : BitVec 22) : Statement (.tokenMatch xlength xoffset) := by
  intro _
  refine .inr (BitVec.eq_of_toNat_eq ?_)
  have hl := xlength.isLt
  have ho := xoffset.isLt
  rw [tokenKind_toNat', matchToken_toNat, BitVec.toNat_ofNat]
  omega

end Sys2Proof.Laws.Encoded
end

