-- ==== Sys2Proof/Laws/Simulation.lean ====
section
/-! SUPPORT. Two Matchers that differ only in window bytes no rule reads, and two emitter logs that differ only in how they
begin, do the same (20_memory.md R52, 46_matcher_commands.md R163, R171): one lemma per function of a step and of a command. -/

namespace Sys2Proof.Machine

/-! ### Another window, another start of the log -/

/-- The Matcher with another list of window bytes, of another power-on. -/
def graft (w : List Host.Cell) (k : Nat) (m : Matcher) : Matcher := { m with win := w, winEpoch := k }

/-- The Emitter with more entries before its log. -/
def prepend (p : List LogEntry) (e : Emitter) : Emitter := { e with log := p ++ e.log }

/-- Both. -/
def view (p : List LogEntry) (w : List Host.Cell) (k : Nat) (u : MatcherSide) : MatcherSide := ⟨graft w k u.m, prepend p u.e⟩

/-- The other window holds the same valid bytes. -/
def Agrees (w : List Host.Cell) (k : Nat) (m : Matcher) : Prop := ∀ a < m.windowEnd, winByte (graft w k m) a = winByte m a

theorem Agrees.of_eq {w : List Host.Cell} {k : Nat} {m m' : Matcher} (h : Agrees w k m) (hw : m'.win = m.win)
    (he : m'.winEpoch = m.winEpoch) (hn : m'.windowEnd = m.windowEnd) : Agrees w k m' := by
  intro a ha
  have h1 : winByte m' a = winByte m a := winByte_congr hw he a
  have h2 : winByte (graft w k m') a = winByte (graft w k m) a := winByte_congr rfl rfl a
  rw [h1, h2]
  exact h a (by omega)

theorem Agrees.base {w : List Host.Cell} {k : Nat} {m m' : Matcher} (h : Agrees w k m) (hb : SameBase m m') : Agrees w k m' :=
  h.of_eq hb.win hb.winEpoch hb.windowEnd

theorem Agrees.run {w : List Host.Cell} {k : Nat} {m : Matcher} (h : Agrees w k m) {a n : Nat} (hn : a + n ≤ m.windowEnd) :
    winRun (graft w k m) a n = winRun m a n := by
  refine List.ext_getElem? (fun j => ?_)
  rw [getElem?_winRun, getElem?_winRun]
  split
  · rw [h (a + j) (by omega)]
  · rfl

/-! ### Hashing and insertion -/

theorem Agrees.bucket {w : List Host.Cell} {k : Nat} {m : Matcher} (h : Agrees w k m) {p : Nat} (hp : p + 4 ≤ m.windowEnd) :
    bucket (graft w k m) p = bucket m p := by
  unfold Machine.bucket hash4
  rw [h.run hp]

theorem insertHash_graft {w : List Host.Cell} {k : Nat} {m : Matcher} (h : Agrees w k m) {p : Nat} (hp : p + 4 ≤ m.windowEnd) :
    insertHash (graft w k m) p = graft w k (insertHash m p) := by
  unfold insertHash
  simp only
  rw [h.bucket hp]
  rfl

theorem updateHead_graft {w : List Host.Cell} {k : Nat} {m : Matcher} (h : Agrees w k m) {p : Nat} (hp : p + 4 ≤ m.windowEnd) :
    updateHead (graft w k m) p = graft w k (updateHead m p) := by
  unfold updateHead
  rw [insertHash_graft h hp, h.bucket hp]
  rfl

theorem insertHash_base (m : Matcher) (p : Nat) : SameBase m (insertHash m p) := ⟨rfl, rfl, rfl, rfl, rfl, rfl, rfl, rfl⟩

theorem insertRange_graft {w : List Host.Cell} {k : Nat} (n : Nat) : ∀ (p : Nat) (m : Matcher), Agrees w k m →
    m.maxInsertIndex = (m.windowEnd : Int) - 3 → insertRange n p (graft w k m) = graft w k (insertRange n p m) := by
  induction n with
  | zero => intro p m _ _; rfl
  | succ n ih =>
    intro p m h hm
    unfold insertRange
    by_cases hp : (p : Int) < m.maxInsertIndex
    · rw [if_pos hp, if_pos (show (p : Int) < (graft w k m).maxInsertIndex from hp), insertHash_graft h (by omega)]
      exact ih _ _ (h.base (insertHash_base m p)) hm
    · rw [if_neg hp, if_neg (show ¬ (p : Int) < (graft w k m).maxInsertIndex from hp)]
      exact ih _ _ h hm

theorem insertAll_graft {w : List Host.Cell} {k : Nat} (n : Nat) : ∀ (p : Nat) (m : Matcher),
    (∀ a < p + n + 3, winByte (graft w k m) a = winByte m a) → insertAll n p (graft w k m) = graft w k (insertAll n p m) := by
  induction n with
  | zero => intro p m _; rfl
  | succ n ih =>
    intro p m h
    unfold insertAll
    have hb : bucket (graft w k m) p = bucket m p := by
      unfold bucket hash4
      rw [show winRun (graft w k m) p 4 = winRun m p 4 from List.ext_getElem? (fun j => by
        rw [getElem?_winRun, getElem?_winRun]
        split
        · rw [h (p + j) (by omega)]
        · rfl)]
    have hi : insertHash (graft w k m) p = graft w k (insertHash m p) := by
      unfold insertHash
      simp only
      rw [hb]
      rfl
    rw [hi]
    exact ih _ _ (fun a ha => h a (by omega))

theorem hashStep_graft {w : List Host.Cell} {k : Nat} {m : Matcher} (h : Agrees w k m)
    (hm : m.maxInsertIndex = (m.windowEnd : Int) - 3) : hashStep (graft w k m) = graft w k (hashStep m) := by
  unfold hashStep
  by_cases hp : (m.index : Int) < m.maxInsertIndex
  · rw [if_pos hp, if_pos (show ((graft w k m).index : Int) < (graft w k m).maxInsertIndex from hp)]
    exact updateHead_graft (p := m.index) h (by omega)
  · rw [if_neg hp, if_neg (show ¬ ((graft w k m).index : Int) < (graft w k m).maxInsertIndex from hp)]

/-! ### The search -/

theorem probe_graft {w : List Host.Cell} {k : Nat} {m : Matcher} (h : Agrees w k m) {pos mml i : Nat} {best : Best}
    (hi : i < pos) (hlt : best.length < mml) (htop : pos + mml ≤ m.windowEnd) :
    probe (graft w k m) pos mml i best = probe m pos mml i best := by
  unfold probe matchLen
  rw [h (i + best.length) (by omega), h (pos + best.length) (by omega), h.run (a := i) (n := mml) (by omega),
    h.run (a := pos) (n := mml) htop]

theorem walkChain_graft {w : List Host.Cell} {k : Nat} {m : Matcher} (h : Agrees w k m) {pos mml nice : Nat}
    (hprev : ∀ c ∈ m.prev, c.2.toNat < pos + m.hashOffset) (hoff : 1 ≤ m.hashOffset) (htop : pos + mml ≤ m.windowEnd)
    (hnice : nice ≤ mml) :
    ∀ (tries i : Nat) (best : Best), i < pos → pos ≤ i + 32768 → best.length < mml → GoodBest m pos mml best →
      walkChain (graft w k m) pos mml nice tries i best = walkChain m pos mml nice tries i best := by
  intro tries
  induction tries with
  | zero => intro i best _ _ _ _; rfl
  | succ tries ih =>
    intro i best hi hfar hlt hb
    obtain ⟨hg, hch⟩ := probe_good hi hfar (goodBest_length hb) hb
    unfold walkChain
    rw [probe_graft h hi hlt htop]
    show _ = if _ then _ else _
    have hpw : prevWord (graft w k m) i = prevWord m i := rfl
    have hho : (graft w k m).hashOffset = m.hashOffset := rfl
    rw [hpw, hho]
    split
    · rfl
    · simp only
      split
      · rfl
      · next hstop =>
        split
        · rfl
        · split
          · rfl
          · next hend =>
            have hp := prevWord_lt (by omega) hprev i
            simp only [Config.windowSize] at hend
            refine ih _ _ (by omega) (by omega) ?_ hg
            rcases hch with heq | hgt
            · rw [heq]; exact hlt
            · have hne : ((probe m pos mml i best).length != best.length) = true := by
                simp only [bne_iff_ne]; omega
              simp only [hne, Bool.true_and, decide_eq_true_eq] at hstop
              omega

theorem searchStep_graft {w : List Host.Cell} {k : Nat} {m : Matcher} {la pl : Nat} (h : Agrees w k m) (hpl : 3 ≤ pl)
    (hprev : ∀ c ∈ m.prev, c.2.toNat < m.index + m.hashOffset) (hoff : 1 ≤ m.hashOffset)
    (hch : m.chainHead < (m.index : Int) + m.hashOffset) (hla : m.index + la ≤ m.windowEnd) :
    searchStep (graft w k m) la pl = (searchStep m la pl).map (graft w k) := by
  unfold searchStep
  have hs : searches (graft w k m) la pl = searches m la pl := rfl
  rw [hs]
  split
  · next hsr =>
    obtain ⟨h1, h2⟩ := searches_bounds hsr hpl
    have hf : findMatch (graft w k m) (graft w k m).index ((graft w k m).chainHead - (graft w k m).hashOffset).toNat
        Config.searchStartLength la = findMatch m m.index (m.chainHead - m.hashOffset).toNat Config.searchStartLength la := by
      unfold findMatch
      exact walkChain_graft (pos := m.index) h hprev hoff (by omega) (Nat.min_le_right _ _) _ (m.chainHead - m.hashOffset).toNat _
        (by omega) (by omega) (by simp; omega) (.inl ⟨rfl, rfl, rfl⟩)
    rw [hf]
    cases findMatch m m.index (m.chainHead - m.hashOffset).toNat Config.searchStartLength la with
    | error f => rfl
    | ok best =>
      simp only [Except.map]
      cases best.ok <;> rfl
  · rfl

/-! ### The emitter port and the block flush -/

theorem drawAnswer_prepend (p : List LogEntry) (e : Emitter) : drawAnswer (prepend p e) = prepend p (drawAnswer e) := by
  obtain ⟨err, log, answers, draws⟩ := e
  cases err with
  | some c => rfl
  | none => cases answers <;> rfl

theorem emitRequest_prepend (p : List LogEntry) (e : Emitter) (r : LogEntry) :
    emitRequest (prepend p e) r = prepend p (emitRequest e r) := by
  unfold emitRequest
  rw [← drawAnswer_prepend]
  show drawAnswer _ = drawAnswer _
  simp [prepend, List.append_assoc]

theorem latchEmitterErr_view (p : List LogEntry) (w : List Host.Cell) (k : Nat) (u : MatcherSide) :
    latchEmitterErr (view p w k u) = view p w k (latchEmitterErr u) := by
  obtain ⟨m, err, log, answers, draws⟩ := u
  cases err <;> rfl

theorem flushTokens_view (p : List LogEntry) {w : List Host.Cell} {k : Nat} {u : MatcherSide} (h : Agrees w k u.m) {x : Nat}
    (hx : x ≤ u.m.windowEnd) : flushTokens x (view p w k u) = ((flushTokens x u).1, view p w k (flushTokens x u).2) := by
  unfold flushTokens
  by_cases h0 : 0 < x
  · rw [if_pos h0, if_pos h0]
    have hw : (if (view p w k u).m.blockStart ≤ x then
          some (winRun (view p w k u).m (view p w k u).m.blockStart (x - (view p w k u).m.blockStart)) else none) =
        if u.m.blockStart ≤ x then some (winRun u.m u.m.blockStart (x - u.m.blockStart)) else none := by
      show (if u.m.blockStart ≤ x then some (winRun (graft w k u.m) u.m.blockStart (x - u.m.blockStart)) else none) = _
      by_cases hb : u.m.blockStart ≤ x
      · rw [if_pos hb, if_pos hb, h.run (by omega)]
      · rw [if_neg hb, if_neg hb]
    simp only [hw]
    generalize (if u.m.blockStart ≤ x then some (winRun u.m u.m.blockStart (x - u.m.blockStart)) else none) = o
    have hreq : emitRequest (view p w k u).e (.emitBlock (view p w k u).m.tokq false o) =
        prepend p (emitRequest u.e (.emitBlock u.m.tokq false o)) := emitRequest_prepend p u.e _
    rw [hreq]
    generalize emitRequest u.e (.emitBlock u.m.tokq false o) = e1
    obtain ⟨err, log, answers, draws⟩ := e1
    cases err <;> rfl
  · rw [if_neg h0, if_neg h0]
    rfl

/-! ### One iteration -/

/-- The same end, for another window and another start of the log. -/
def Turn.map (f : MatcherSide → MatcherSide) : Turn → Turn
  | .again u => .again (f u)
  | .ended u => .ended (f u)
  | .internal u => .internal (f u)
  | .stop s => .stop s

theorem capFlush_view (p : List LogEntry) {w : List Host.Cell} {k : Nat} {u : MatcherSide} (h : Agrees w k u.m) {x : Nat}
    (hx : x ≤ u.m.windowEnd) {g : MatcherSide → MatcherSide} (hg : ∀ v, g (view p w k v) = view p w k (g v)) :
    capFlush x (view p w k u) g = (capFlush x u g).map (view p w k) := by
  unfold capFlush
  have ht : (view p w k u).m.tokq = u.m.tokq := rfl
  rw [ht]
  by_cases hc : u.m.tokq.length = Config.maxFlateBlockTokens
  · rw [if_pos hc, if_pos hc, flushTokens_view p h hx]
    obtain ⟨b, v⟩ := flushTokens x u
    cases b
    · rfl
    · simp only [hg, Turn.map]
  · rw [if_neg hc, if_neg hc, hg]
    rfl

theorem passMatch_graft {w : List Host.Cell} {k : Nat} {m : Matcher} (h : Agrees w k m)
    (hm : m.maxInsertIndex = (m.windowEnd : Int) - 3) (pl : Nat) : passMatch (graft w k m) pl = graft w k (passMatch m pl) := by
  unfold passMatch
  have h1 : (graft w k m).length = m.length := rfl
  have h2 : (graft w k m).params = m.params := rfl
  have h3 : isFast (graft w k m) = isFast m := rfl
  have h4 : (graft w k m).index = m.index := rfl
  rw [h1, h2, h3, h4]
  split
  · dsimp only
    rw [insertRange_graft _ _ _ h hm]
    cases isFast m <;> rfl
  · rfl

theorem insertRange_base (n : Nat) : ∀ (p : Nat) (m : Matcher), SameBase m (insertRange n p m) := by
  induction n with
  | zero => intro p m; exact SameBase.refl m
  | succ n ih =>
    intro p m
    unfold insertRange
    split
    · exact (insertHash_base m p).trans (ih _ _)
    · exact ih _ _

theorem passMatch_base (m : Matcher) (pl : Nat) : SameBase m (passMatch m pl) := by
  have h (n p : Nat) := insertRange_base n p m
  unfold passMatch
  dsimp only
  split
  · cases isFast m
    · exact ⟨(h _ _).configured, (h _ _).faulted, (h _ _).params, (h _ _).windowEnd, (h _ _).hashOffset, (h _ _).sync,
        (h _ _).win, (h _ _).winEpoch⟩
    · exact ⟨(h _ _).configured, (h _ _).faulted, (h _ _).params, (h _ _).windowEnd, (h _ _).hashOffset, (h _ _).sync,
        (h _ _).win, (h _ _).winEpoch⟩
  · exact ⟨rfl, rfl, rfl, rfl, rfl, rfl, rfl, rfl⟩

/-- The cursor after a match (R150). -/
theorem passMatch_index (m : Matcher) (pl : Nat) : (passMatch m pl).index =
    if m.length ≤ m.params.fsh ∧ isFast m = false then m.index + pl - 1 else m.index + m.length := by
  unfold passMatch
  dsimp only
  by_cases h : m.length ≤ m.params.fsh
  · rw [if_pos h]
    cases hf : isFast m
    · simp [h, releaseLiteral]
    · simp
  · rw [if_neg h, if_neg (fun h' => h h'.1)]

theorem emitMatch_view (p : List LogEntry) {w : List Host.Cell} {k : Nat} {u0 u : MatcherSide} (h : Agrees w k u.m)
    (hm : u.m.maxInsertIndex = (u.m.windowEnd : Int) - 3) (pl po : Nat)
    (hx : (if u.m.length ≤ u.m.params.fsh ∧ isFast u.m = false then u.m.index + pl - 1 else u.m.index + u.m.length) ≤ u.m.windowEnd) :
    emitMatch (view p w k u0) (view p w k u) pl po = (emitMatch u0 u pl po).map (view p w k) := by
  unfold emitMatch
  have h3 : isFast (view p w k u).m = isFast u.m := rfl
  have h4 : (view p w k u).m.length = u.m.length := rfl
  have h5 : (view p w k u).m.offset = u.m.offset := rfl
  simp only [h3, h4, h5]
  generalize (if isFast u.m = true then u.m.length else pl) = len
  generalize (if isFast u.m = true then u.m.offset else po) = off
  split
  · have ha : appendToken (view p w k u).m (makeMatch len off) = graft w k (appendToken u.m (makeMatch len off)) := rfl
    rw [ha, passMatch_graft (h.base (appendToken_keeps _ _).toSameBase) hm]
    have hb := (appendToken_keeps u.m (makeMatch len off)).toSameBase.trans (passMatch_base (appendToken u.m (makeMatch len off)) pl)
    exact capFlush_view p (u := { u with m := passMatch (appendToken u.m (makeMatch len off)) pl }) (h.base hb)
      (by show (passMatch _ pl).index ≤ (passMatch _ pl).windowEnd; rw [hb.windowEnd, passMatch_index]; exact hx) (fun _ => rfl)
  · rfl

theorem passLiteral_view (p : List LogEntry) (w : List Host.Cell) (k : Nat) (u : MatcherSide) :
    passLiteral (view p w k u) = view p w k (passLiteral u) := by
  unfold passLiteral
  have h3 : isFast (view p w k u).m = isFast u.m := rfl
  rw [h3]
  cases isFast u.m <;> rfl

theorem emitLiteral_view (p : List LogEntry) {w : List Host.Cell} {k : Nat} {u : MatcherSide} (h : Agrees w k u.m)
    (hlt : u.m.index < u.m.windowEnd) (hp : isFast u.m = false → u.m.byteAvailable = true → 1 ≤ u.m.index) :
    emitLiteral (view p w k u) = (emitLiteral u).map (view p w k) := by
  unfold emitLiteral
  have h3 : isFast (view p w k u).m = isFast u.m := rfl
  have h4 : (view p w k u).m.byteAvailable = u.m.byteAvailable := rfl
  have h5 : (view p w k u).m.index = u.m.index := rfl
  rw [h3, h4, h5]
  cases hf : isFast u.m with
  | true =>
    simp only [Bool.true_or, if_true, Bool.not_true, Bool.false_and, Bool.false_eq_true, if_false]
    have hb : winByte (view p w k u).m u.m.index = winByte u.m u.m.index := h _ hlt
    rw [hb]
    exact capFlush_view p (u := { u with m := appendToken u.m (makeLiteral (winByte u.m u.m.index)) })
      (h.base (appendToken_keeps _ _).toSameBase) hlt (passLiteral_view p w k)
  | false =>
    cases hba : u.m.byteAvailable with
    | false => simp only [Bool.or_self, Bool.false_eq_true, if_false, passLiteral_view, Turn.map]
    | true =>
      have hi := hp hf hba
      have h0 : (u.m.index == 0) = false := by rw [beq_eq_false_iff_ne]; omega
      simp only [Bool.false_or, if_true, Bool.not_false, Bool.true_and, h0, Bool.false_eq_true, if_false]
      have hb : winByte (view p w k u).m (u.m.index - 1) = winByte u.m (u.m.index - 1) := h _ (by omega)
      rw [hb]
      exact capFlush_view p (u := { u with m := appendToken u.m (makeLiteral (winByte u.m (u.m.index - 1))) })
        (h.base (appendToken_keeps _ _).toSameBase) (show u.m.index - 1 + 1 ≤ u.m.windowEnd by omega) (passLiteral_view p w k)

theorem Matcher.Live.graft {m : Matcher} (h : m.Live) (w : List Host.Cell) (k : Nat) : (Machine.graft w k m).Live :=
  ⟨h.tokq_lt, h.head_lt, h.prev_lt, h.chainHead_lt, h.carried, h.pending, h.queued, h.fastHeld, h.block, h.tokens⟩

theorem endOfData_view (p : List LogEntry) {w : List Host.Cell} {k : Nat} {u : MatcherSide} (h : Agrees w k u.m) (hl : u.m.Live)
    (hi : u.m.index ≤ u.m.windowEnd) : endOfData (view p w k u) = (endOfData u).map (view p w k) := by
  have hs : settled (graft w k u.m) = graft w k (settled u.m) := by
    unfold settled
    show (if u.m.byteAvailable = true then _ else _) = _
    cases hb : u.m.byteAvailable with
    | false => rfl
    | true =>
      have hp := hl.pending hb
      simp only [if_true]
      have hw : winByte (graft w k u.m) ((graft w k u.m).index - 1) = winByte u.m (u.m.index - 1) :=
        h (u.m.index - 1) (by omega)
      rw [hw]
      rfl
  rw [endOfData_eq (u := view p w k u) (hl.graft w k), endOfData_eq hl]
  show (if (settled (graft w k u.m)).tokq = [] then _ else _) = _
  have h1 : ({ view p w k u with m := settled (view p w k u).m } : MatcherSide) = view p w k { u with m := settled u.m } := by
    show MatcherSide.mk (settled (graft w k u.m)) _ = _
    rw [hs]; rfl
  rw [h1, hs]
  show (if (settled u.m).tokq = [] then _ else _) = _
  by_cases hq : (settled u.m).tokq = []
  · rw [if_pos hq, if_pos hq]; rfl
  · rw [if_neg hq, if_neg hq]
    have hk := settled_keeps u.m
    rw [show (view p w k u).m.index = u.m.index from rfl,
      flushTokens_view p (u := { u with m := settled u.m }) (h.base hk.toSameBase) (by show u.m.index ≤ (settled u.m).windowEnd; rw [hk.windowEnd]; exact hi)]
    rfl

theorem scanPosition_view (p : List LogEntry) {w : List Host.Cell} {k : Nat} {u : MatcherSide} (h : Agrees w k u.m)
    (hs : u.m.Shape) (hl : u.m.Live) (hlt : u.m.index < u.m.windowEnd) (hm : u.m.maxInsertIndex = (u.m.windowEnd : Int) - 3) :
    scanPosition (view p w k u) = (scanPosition u).map (view p w k) := by
  obtain ⟨hlen, hoff, m2, hse, hf⟩ := search_spec hs hl
  obtain ⟨hoff1, hoff2⟩ := hashOffset_bounds hs.hashOffset_range
  have hwe := hs.windowEnd_le
  have hle := hs.length_ge
  simp only [Config.windowBytes, Config.searchStartLength] at hwe hle
  obtain ⟨hd, pv, c, he, hch, hpv, hc⟩ := hashStep_spec (m := u.m)
    ⟨hs.headWf, hs.prevWf, hl.head_lt, hl.prev_lt⟩ hoff1 hl.chainHead_lt (by omega)
  have ha : Agrees w k (clearMatch (hashStep u.m)) := h.of_eq (by rw [he]; rfl) (by rw [he]; rfl) (by rw [he]; rfl)
  have hsv : searchStep (graft w k (clearMatch (hashStep u.m))) (u.m.windowEnd - u.m.index) u.m.length = .ok (graft w k m2) := by
    rw [searchStep_graft ha hle (by rw [he]; exact hpv) (by rw [he]; exact hoff1) (by rw [he]; exact hc)
      (by rw [he]; show u.m.index + (u.m.windowEnd - u.m.index) ≤ u.m.windowEnd; omega), hse]
    rfl
  unfold scanPosition
  have hh : hashStep (view p w k u).m = graft w k (hashStep u.m) := hashStep_graft h hm
  have hla : (view p w k u).m.windowEnd - (view p w k u).m.index = u.m.windowEnd - u.m.index := rfl
  have hcl : clearMatch (graft w k (hashStep u.m)) = graft w k (clearMatch (hashStep u.m)) := rfl
  have hgl : (graft w k (hashStep u.m)).length = u.m.length := hlen
  have hgo : (graft w k (hashStep u.m)).offset = u.m.offset := hoff
  simp only [hh, hla, hcl, hgl, hgo, hsv, hlen, hoff, hse]
  have ha2 : Agrees w k m2 := h.base hf.keeps.toSameBase
  have hem : emitsMatch (graft w k m2) u.m.length = emitsMatch m2 u.m.length := rfl
  rw [hem]
  have hix := hf.index
  have hwd := hf.keeps.windowEnd
  have hfa := hf.keeps.isFast
  split
  · next hemit =>
    refine emitMatch_view p (u := { u with m := m2 }) ha2 (by show m2.maxInsertIndex = _; rw [hf.keeps.maxInsert, hwd]; exact hm) _ _ ?_
    show (if m2.length ≤ m2.params.fsh ∧ isFast m2 = false then m2.index + u.m.length - 1 else m2.index + m2.length) ≤ m2.windowEnd
    rw [hix, hwd]
    simp only [emitsMatch, Bool.or_eq_true, Bool.and_eq_true, decide_eq_true_eq, Config.minMatchLength] at hemit
    cases hfast : isFast m2 with
    | true =>
      rw [hfast] at hemit
      have h4 : 4 ≤ m2.length := by simpa using hemit
      rw [if_neg (by simp)]
      rcases hf.found with ⟨h3, -⟩ | ⟨-, -, h5, -⟩ <;> omega
    | false =>
      rw [hfast] at hemit
      have h4 : 4 ≤ u.m.length ∧ m2.length ≤ u.m.length := by simpa using hemit
      have h5 := hf.found.length_le
      have h6 : m2.params.fsh = 2147483647 := by simpa [isFast] using hfast
      rw [if_pos ⟨by omega, rfl⟩]
      have := hl.carried (hfa ▸ hfast) h4.1
      omega
  · refine emitLiteral_view p (u := { u with m := m2 }) ha2 (by show m2.index < m2.windowEnd; omega) (fun _ hb => ?_)
    show 1 ≤ m2.index
    rw [hix]
    exact hl.pending (hf.byteAvailable ▸ hb)

/-- One iteration (R143). -/
theorem iterate_view (p : List LogEntry) {w : List Host.Cell} {k : Nat} {u : MatcherSide} (h : Agrees w k u.m)
    (hs : u.m.Shape) (hl : u.m.Live) (hm : u.m.maxInsertIndex = (u.m.windowEnd : Int) - 3) :
    iterate (view p w k u) = (iterate u).map (view p w k) := by
  have hi := hs.index_le
  unfold iterate
  have e1 : (view p w k u).m.windowEnd = u.m.windowEnd := rfl
  have e2 : (view p w k u).m.index = u.m.index := rfl
  have e3 : (view p w k u).m.sync = u.m.sync := rfl
  have hn : ¬ u.m.windowEnd < u.m.index := by omega
  simp only [e1, e2, e3, hn, if_false]
  split
  · rfl
  · split
    · exact endOfData_view p h hl hi
    · exact scanPosition_view p h hs hl (by omega) hm

/-- A turn that goes on keeps M.max_insert_index. -/
theorem iterate_armed {u u' : MatcherSide} (hr : Ready u) (h : iterate u = .again u') :
    u'.m.maxInsertIndex = u.m.maxInsertIndex := by
  unfold iterate at h
  split at h
  · cases h
  · split at h
    · cases h
    · split at h
      · rw [endOfData_eq hr.live] at h
        split at h <;> cases h
      · obtain ⟨t, x, m', he, ha, hres⟩ := scanPosition_turned hr.shape hr.live (by omega : u.m.index < u.m.windowEnd)
        rw [h] at hres
        rcases hres with ⟨-, -, hr'⟩ | ⟨-, ⟨-, hr'⟩ | ⟨-, -, hr'⟩ | ⟨c, m'', -, -, -, -, -, -, hr'⟩⟩
        · cases hr'; exact ha.keeps.maxInsert
        · cases hr'; exact ha.keeps.maxInsert
        · cases hr'; exact ha.keeps.maxInsert
        · cases hr'

/-! ### The whole step -/

/-- The same end of a step. -/
def stepMap (f : MatcherSide → MatcherSide) : Except Halt MatcherSide → Except Halt MatcherSide
  | .ok u => .ok (f u)
  | .error (.internal u) => .error (.internal (f u))
  | .error (.stop s) => .error (.stop s)

theorem runLoop_view (p : List LogEntry) {w : List Host.Cell} {k : Nat} : ∀ (fuel : Nat) (u : MatcherSide), Ready u →
    Agrees w k u.m → u.m.maxInsertIndex = (u.m.windowEnd : Int) - 3 →
    runLoop fuel (view p w k u) = stepMap (view p w k) (runLoop fuel u) := by
  intro fuel
  induction fuel with
  | zero => intro u _ _ _; rfl
  | succ fuel ih =>
    intro u hr ha hm
    unfold runLoop
    rw [iterate_view p ha hr.shape hr.live hm]
    rcases iterate_good hr with ⟨u', h1, h2, h3, -, -⟩ | ⟨u', h1, -⟩
    · rw [h1]
      exact ih u' h2 (ha.base h3) ((iterate_armed hr h1).trans (by rw [h3.windowEnd]; exact hm))
    · rw [h1]; rfl

theorem matcherStep_view (p : List LogEntry) {w : List Host.Cell} {k : Nat} {u : MatcherSide} (hr : Ready u) (ha : Agrees w k u.m) :
    matcherStep (view p w k u) = stepMap (view p w k) (matcherStep u) := by
  have hwe := hr.shape.windowEnd_le
  unfold matcherStep
  have e1 : (view p w k u).m.windowEnd = u.m.windowEnd := rfl
  have e2 : (view p w k u).m.index = u.m.index := rfl
  have e3 : (view p w k u).m.sync = u.m.sync := rfl
  have hn : ¬ Config.windowBytes < u.m.windowEnd := by omega
  simp only [e1, e2, e3, hn, if_false]
  split
  · rfl
  · exact runLoop_view p _ (armed u) hr.armed ha rfl

theorem withStep_view (p : List LogEntry) {w : List Host.Cell} {k : Nat} {u u1 : MatcherSide} (hr : Ready u) (ha : Agrees w k u.m)
    (h : matcherStep u = .ok u1) (c : MatcherSide → Verdict MatcherSide) : withStep (view p w k u) c = c (view p w k u1) := by
  unfold withStep
  rw [matcherStep_view p hr ha, h]
  rfl

/-! ### Filling the window -/

theorem shiftWindow_graft {w : List Host.Cell} {k : Nat} {m : Matcher} (h : Agrees w k m) (hw : m.windowEnd ≤ 65536) :
    ∃ w', shiftWindow (graft w k m) = graft w' k (shiftWindow m) ∧ Agrees w' k (shiftWindow m) := by
  have hwe := shiftWindow_windowEnd m
  refine ⟨(putWin (graft w k m) 0 (winRun (graft w k m) 32768 32768)).win, ?_, fun a ha => ?_⟩
  · have h1 : slideWindow (graft w k m) =
        graft (putWin (graft w k m) 0 (winRun (graft w k m) 32768 32768)).win k (slideWindow m) := by
      rw [slideWindow_eq (graft w k m)]
      generalize (putWin (graft w k m) 0 (winRun (graft w k m) 32768 32768)).win = X
      rw [slideWindow_eq m]
      simp only [graft]
    rcases shiftWindow_cases m with ⟨hc, h2⟩ | ⟨hc, h2⟩
    · rcases shiftWindow_cases (graft w k m) with ⟨-, h3⟩ | ⟨hc', -⟩
      · rw [h2, h3, h1]; rfl
      · exact absurd hc (Nat.not_lt.mpr hc')
    · rcases shiftWindow_cases (graft w k m) with ⟨hc', -⟩ | ⟨-, h3⟩
      · exact absurd hc' (Nat.not_lt.mpr hc)
      · rw [h2, h3, h1]
  · rw [winByte_shiftWindow (m := m) (by omega)]
    have h1 (bs : List Byte) (m' : Matcher) : winByte (graft (putWin (graft w k m) 0 bs).win k m') a =
        winByte (putWin (graft w k m) 0 bs) a := rfl
    rw [h1, winByte_putWin, length_winRun, if_pos (by omega), List.getD_eq_getElem?_getD, getElem?_winRun, if_pos (by omega)]
    rw [show 32768 + (a - 0) = a + 32768 by omega]
    exact h (a + 32768) (by omega)

theorem roomy_graft {w : List Host.Cell} {k : Nat} {m : Matcher} (h : Agrees w k m) (hw : m.windowEnd ≤ 65536) :
    ∃ w', roomy (graft w k m) = graft w' k (roomy m) ∧ Agrees w' k (roomy m) := by
  unfold roomy
  show ∃ w', (if 65274 ≤ m.index then _ else _) = _ ∧ _
  split
  · exact shiftWindow_graft h hw
  · exact ⟨w, rfl, h⟩

theorem appendWindow_graft {w : List Host.Cell} {k : Nat} {m : Matcher} (h : Agrees w k m) (b : List Byte) :
    ∃ w', appendWindow (graft w k m) b = (graft w' k (appendWindow m b).1, (appendWindow m b).2) ∧
      Agrees w' k (appendWindow m b).1 := by
  refine ⟨(appendWindow (graft w k m) b).1.win, rfl, fun a ha => ?_⟩
  have h1 : winByte (graft (appendWindow (graft w k m) b).1.win k (appendWindow m b).1) a =
      winByte (appendWindow (graft w k m) b).1 a := winByte_congr rfl rfl a
  have h2 : (appendWindow (graft w k m) b).2 = (appendWindow m b).2 := rfl
  have h3 : (appendWindow m b).1.windowEnd = m.windowEnd + (appendWindow m b).2 := rfl
  rw [h1, winByte_appendWindow, winByte_appendWindow, h2]
  show (if m.windowEnd ≤ a ∧ a < m.windowEnd + _ then _ else _) = _
  split
  · rfl
  · exact h a (by omega)

theorem fill_graft {w : List Host.Cell} {k : Nat} {m : Matcher} (h : Agrees w k m) (hs : m.Shape) (b : List Byte) :
    ∃ w', fill (graft w k m) b = .ok (graft w' k (appendWindow (roomy m) b).1, (appendWindow (roomy m) b).2) ∧
      Agrees w' k (appendWindow (roomy m) b).1 := by
  have h1 := hs.index_le
  have h2 := hs.windowEnd_le
  simp only [Config.windowBytes] at h2
  have hf : fill (graft w k m) b = .ok (appendWindow (roomy (graft w k m)) b) := by
    have e1 : (graft w k m).index = m.index := rfl
    have e2 : (graft w k m).windowEnd = m.windowEnd := rfl
    unfold fill roomy
    simp only [Config.shiftThreshold, Config.windowSize, Config.windowBytes, e1, e2]
    split
    · rw [if_neg (by omega), if_neg (by omega)]
    · rw [if_neg (by omega)]
  obtain ⟨w1, h3, h4⟩ := roomy_graft h h2
  obtain ⟨w2, h5, h6⟩ := appendWindow_graft h4 b
  exact ⟨w2, by rw [hf, h3, h5], h6⟩

/-- The window primed with these bytes (R129). -/
def primed (m : Matcher) (kept : List Byte) : Matcher :=
  { insertAll (kept.length - 3) 0 (putWin m 0 kept) with
    windowEnd := kept.length, index := kept.length, blockStart := kept.length }

theorem primeWindow_eq (m : Matcher) (dict : List Byte) : primeWindow m dict = primed m (tail 32768 dict) := by
  unfold primeWindow primed
  simp only [Config.windowSize, Config.fillSetsBlockStart, if_true]

theorem insertAll_base (n : Nat) : ∀ (p : Nat) (m : Matcher), SameBase m (insertAll n p m) := by
  induction n with
  | zero => intro p m; exact SameBase.refl m
  | succ n ih => intro p m; exact (insertHash_base m p).trans (ih _ _)

theorem primed_graft (w : List Host.Cell) (k : Nat) (m : Matcher) (kept : List Byte) :
    primed (graft w k m) kept = graft (Memory.putRun w 0 kept) k (primed m kept) ∧
      Agrees (Memory.putRun w 0 kept) k (primed m kept) := by
  have hbyte (a : Nat) (ha : a < kept.length) :
      winByte (graft (Memory.putRun w 0 kept) k (putWin m 0 kept)) a = winByte (putWin m 0 kept) a := by
    have h1 : winByte (graft (Memory.putRun w 0 kept) k (putWin m 0 kept)) a = winByte (putWin (graft w k m) 0 kept) a :=
      winByte_congr rfl rfl a
    rw [h1, winByte_putWin, winByte_putWin, if_pos (by omega), if_pos (by omega)]
  have hi : insertAll (kept.length - 3) 0 (putWin (graft w k m) 0 kept) =
      graft (Memory.putRun w 0 kept) k (insertAll (kept.length - 3) 0 (putWin m 0 kept)) := by
    have h1 : putWin (graft w k m) 0 kept = graft (Memory.putRun w 0 kept) k (putWin m 0 kept) := rfl
    rw [h1]
    by_cases h0 : kept.length - 3 = 0
    · rw [h0]; rfl
    · exact insertAll_graft _ _ _ (fun a ha => hbyte a (by omega))
  have hb := insertAll_base (kept.length - 3) 0 (putWin m 0 kept)
  unfold primed
  rw [hi]
  generalize insertAll (kept.length - 3) 0 (putWin m 0 kept) = mi at hb ⊢
  exact ⟨rfl, fun a ha => ((winByte_congr rfl rfl a).trans (hbyte a ha)).trans (winByte_congr hb.win hb.winEpoch a).symm⟩

theorem primeWindow_graft (w : List Host.Cell) (k : Nat) (m : Matcher) (dict : List Byte) :
    ∃ w', primeWindow (graft w k m) dict = graft w' k (primeWindow m dict) ∧ Agrees w' k (primeWindow m dict) := by
  rw [primeWindow_eq, primeWindow_eq]
  exact ⟨_, primed_graft w k m _⟩

/-! ### The commands -/

/-- The second end is the first, seen through another window and another start of the log. -/
def SeenAs (p : List LogEntry) (k : Nat) (v v' : Verdict MatcherSide) : Prop :=
  match v with
  | .reply u status value data => ∃ w, v' = .reply (view p w k u) status value data ∧ Agrees w k u.m
  | .raise u f => ∃ w, v' = .raise (view p w k u) f ∧ Agrees w k u.m
  | .refuse => v' = .refuse
  | .stop f => v' = .stop f

theorem errResponse_view (p : List LogEntry) {w : List Host.Cell} {k : Nat} {u : MatcherSide} (ha : Agrees w k u.m) :
    SeenAs p k (errResponse u) (errResponse (view p w k u)) := ⟨w, rfl, ha⟩

theorem writeLoop_view (p : List LogEntry) (total : Nat) {k : Nat} : ∀ (fuel : Nat) (bs : List Byte) (w : List Host.Cell)
    (u : MatcherSide), Ready u → Agrees w k u.m →
    SeenAs p k (writeLoop total fuel bs u) (writeLoop total fuel bs (view p w k u)) := by
  intro fuel
  induction fuel with
  | zero =>
    intro bs w u _ ha
    cases bs with
    | nil => exact ⟨w, rfl, ha⟩
    | cons b bs => rfl
  | succ fuel ih =>
    intro bs w u hr ha
    cases bs with
    | nil => exact ⟨w, rfl, ha⟩
    | cons b bs =>
      obtain ⟨u1, hstep, hends, hk⟩ := withStep_good hr
      obtain ⟨w', hf, hag⟩ := fill_graft (ha.base hends.base) hends.shape (b :: bs)
      unfold writeLoop
      rw [hk, withStep_view p hr ha hstep, fill_eq hends.shape]
      have h1 : fill (view p w k u1).m (b :: bs) = _ := hf
      rw [h1]
      simp only
      have hset := (roomy_setup u1.m).trans (appendWindow_setup (roomy u1.m) (b :: bs))
      have he : (graft w' k (appendWindow (roomy u1.m) (b :: bs)).1).err = u1.m.err := hset.err
      rcases hends.outcome with ⟨h2, -⟩ | ⟨c, h2, -⟩
      · rw [he, hset.err, h2]
        exact ih _ w' { u1 with m := (appendWindow (roomy u1.m) (b :: bs)).1 } (filled_ready hends h2 (b :: bs)) hag
      · rw [he, hset.err, h2]
        exact errResponse_view p (u := { u1 with m := (appendWindow (roomy u1.m) (b :: bs)).1 }) hag

theorem syncFlushBody_view (p : List LogEntry) {w : List Host.Cell} {k : Nat} {u : MatcherSide} (hr : Ready u) (ha : Agrees w k u.m) :
    SeenAs p k (syncFlushBody u) (syncFlushBody (view p w k u)) := by
  obtain ⟨u1, hstep, hends, hk⟩ := withStep_good hr.beginSync
  have ha1 : Agrees w k u1.m := Agrees.base (m := (beginSync u).m) ha hends.base
  have hb : beginSync (view p w k u) = view p w k (beginSync u) := rfl
  have hm : syncMarkers (view p w k u1) = view p w k (syncMarkers u1) := by
    unfold syncMarkers
    rw [← latchEmitterErr_view]
    show latchEmitterErr ⟨_, emitRequest (emitRequest (prepend p u1.e) _) _⟩ = _
    rw [emitRequest_prepend, emitRequest_prepend]
    rfl
  have hse : syncEnd (view p w k u1) = view p w k (syncEnd u1) := by
    unfold syncEnd
    show endSync (match u1.m.err with | .noError => syncMarkers (view p w k u1) | _ => view p w k u1) = _
    rw [hm]
    cases u1.m.err <;> rfl
  have hbase : Agrees w k (syncEnd u1).m := by
    refine ha1.of_eq ?_ ?_ ?_ <;>
    · unfold syncEnd syncMarkers latchEmitterErr
      cases u1.m.err
      · cases (emitRequest (emitRequest u1.e (.emitStoredHeader 0#16 false)) .emitFlush).err <;> rfl
      · rfl
      · rfl
  unfold syncFlushBody
  rw [hb, hk, withStep_view p hr.beginSync ha hstep]
  show SeenAs p k (match (syncEnd u1).m.err with | .noError => .reply (syncEnd u1) .ok 0 [] | _ => errResponse (syncEnd u1))
    (match (syncEnd (view p w k u1)).m.err with | .noError => .reply (syncEnd (view p w k u1)) .ok 0 [] | _ => errResponse (syncEnd (view p w k u1)))
  rw [hse]
  show SeenAs p k _ (match (syncEnd u1).m.err with | .noError => _ | _ => _)
  cases (syncEnd u1).m.err
  · exact ⟨w, rfl, hbase⟩
  · exact errResponse_view p hbase
  · exact errResponse_view p hbase

theorem closeRequest_view (p : List LogEntry) {w : List Host.Cell} {k : Nat} {u : MatcherSide} (ha : Agrees w k u.m) (r : LogEntry)
    {c c' : MatcherSide → Verdict MatcherSide}
    (hc : ∀ v, Agrees w k v.m → SeenAs p k (c v) (c' (view p w k v))) :
    SeenAs p k (closeRequest r u c) (closeRequest r (view p w k u) c') := by
  unfold closeRequest
  have h1 : emitRequest (view p w k u).e r = prepend p (emitRequest u.e r) := emitRequest_prepend p u.e r
  have h2 : latchEmitterErr { view p w k u with e := emitRequest (view p w k u).e r } =
      view p w k (latchEmitterErr { u with e := emitRequest u.e r }) := by
    rw [h1, ← latchEmitterErr_view]; rfl
  simp only [h2]
  rcases latchEmitterErr_cases { u with e := emitRequest u.e r } with ⟨he, hl⟩ | ⟨x, he, hl⟩
  · rw [hl]
    show SeenAs p k (match (emitRequest u.e r).err with | some _ => _ | none => _)
      (match (emitRequest u.e r).err with | some _ => _ | none => _)
    simp only at he
    rw [he]
    exact hc { u with e := emitRequest u.e r } ha
  · rw [hl]
    show SeenAs p k (match (emitRequest u.e r).err with | some _ => _ | none => _)
      (match (emitRequest u.e r).err with | some _ => _ | none => _)
    simp only at he
    rw [he]
    exact errResponse_view p (u := ⟨{ u.m with err := .io x }, emitRequest u.e r⟩) ha

theorem closeBody_view (p : List LogEntry) {w : List Host.Cell} {k : Nat} {u : MatcherSide}
    (hr : u.m.err = .noError → Ready u) (ha : Agrees w k u.m) : SeenAs p k (closeBody u) (closeBody (view p w k u)) := by
  unfold closeBody
  have he : (view p w k u).m.err = u.m.err := rfl
  rw [he]
  cases h : u.m.err with
  | closed => exact ⟨w, rfl, ha⟩
  | io c => exact errResponse_view p ha
  | noError =>
    obtain ⟨u1, hstep, hends, hk⟩ := withStep_good (hr h).beginSync
    have ha1 : Agrees w k u1.m := Agrees.base (m := (beginSync u).m) ha hends.base
    have hb : beginSync (view p w k u) = view p w k (beginSync u) := rfl
    simp only
    rw [hb, hk, withStep_view p (hr h).beginSync ha hstep]
    have he1 : (view p w k u1).m.err = u1.m.err := rfl
    rw [he1]
    cases u1.m.err
    · exact closeRequest_view p ha1 _ (fun v hv => closeRequest_view p hv _ (fun v' hv' => ⟨w, rfl, hv'⟩))
    · exact errResponse_view p ha1
    · exact errResponse_view p ha1

theorem shortCircuit_view (p : List LogEntry) {w : List Host.Cell} {k : Nat} {u : MatcherSide} (ha : Agrees w k u.m)
    {body : MatcherSide → Verdict MatcherSide} (hb : u.m.err = .noError → SeenAs p k (body u) (body (view p w k u))) :
    SeenAs p k (shortCircuit body u) (shortCircuit body (view p w k u)) := by
  unfold shortCircuit
  have he : (view p w k u).m.err = u.m.err := rfl
  rw [he]
  cases h : u.m.err with
  | noError => exact hb h
  | closed => exact errResponse_view p ha
  | io c => exact errResponse_view p ha

theorem fillWindowBody_view (p : List LogEntry) (dict : List Byte) {w : List Host.Cell} {k : Nat} {u : MatcherSide} (ha : Agrees w k u.m) :
    SeenAs p k (fillWindowBody dict u) (fillWindowBody dict (view p w k u)) := by
  unfold fillWindowBody
  have he : windowEmpty (view p w k u).m = windowEmpty u.m := rfl
  rw [he]
  cases h : windowEmpty u.m with
  | false => exact ⟨w, rfl, ha⟩
  | true =>
    simp only [windowEmpty, Bool.and_eq_true, beq_iff_eq] at h
    obtain ⟨w', h1, h2⟩ := primeWindow_graft w k u.m dict
    have h3 : primeWindow (view p w k u).m dict = _ := h1
    simp only [if_true]
    rw [h3]
    exact ⟨w', rfl, h2⟩

theorem resetBody_view (p : List LogEntry) (dict : List Byte) (w : List Host.Cell) (k : Nat) (u : MatcherSide) :
    SeenAs p k (resetBody dict u) (resetBody dict (view p w k u)) := by
  have h0 : clearMatcher (view p w k u).m = graft w k (clearMatcher u.m) := rfl
  have he : ({ (view p w k u).e with err := none, log := (view p w k u).e.log ++ [.sinkRebound] } : Emitter) =
      prepend p { u.e with err := none, log := u.e.log ++ [.sinkRebound] } := by
    simp [view, prepend, List.append_assoc]
  unfold resetBody
  simp only [h0, he]
  split
  · obtain ⟨w', h1, h2⟩ := primeWindow_graft w k (clearMatcher u.m) dict
    rw [h1]
    exact ⟨w', rfl, h2⟩
  · exact ⟨w, rfl, fun a ha => absurd ha (Nat.not_lt_zero a)⟩

/-- M_CONFIG starts a new log, so the old start is gone (R30). -/
theorem configBody_view (p : List LogEntry) (level : Word32) {w : List Host.Cell} {k : Nat} {u : MatcherSide} (ha : Agrees w k u.m) :
    SeenAs (if resolveLevel (levelOperand level) = .invalid then p else []) k (configBody level u) (configBody level (view p w k u)) := by
  unfold configBody
  cases resolveLevel (levelOperand level) with
  | invalid => exact ⟨w, rfl, ha⟩
  | otherMode => rfl
  | deflate l => exact ⟨w, rfl, fun a ha' => absurd ha' (Nat.not_lt_zero a)⟩

end Sys2Proof.Machine
end

