-- ==== Sys2Proof/Laws/Turn.lean ====
section
/-! SUPPORT. The step in the terms of Safety.lean (45_lazy_loop.md R143 to R153): the hash update, the search, the skipped
positions, the block flush and the cap, each related to the definition the model runs. -/

namespace Sys2Proof.Machine

/-! ### The hash update (R146) -/

/-- The hash update of an iteration leaves every register but M.chain_head. -/
theorem hashStep_registers (m : Matcher) : hashStep m =
    { m with head := (hashStep m).head, prev := (hashStep m).prev, chainHead := (hashStep m).chainHead } := by
  unfold hashStep; split <;> rfl

/-! ### The skipped positions (R150, R124) -/

theorem insertRange_eq (n : Nat) : ∀ (p : Nat) (m : Matcher), insertRange n p m = insertSkipped m p (p + n) := by
  induction n with
  | zero => intro p m; simp [insertRange, insertSkipped]
  | succ n ih =>
    intro p m
    unfold insertRange
    rw [ih]
    unfold insertSkipped
    rw [show p + (n + 1) - p = n + 1 by omega, show p + 1 + n - (p + 1) = n by omega, List.range'_succ, List.foldl_cons]

/-- Insertion changes HEAD and PREV only, by a function that reads neither the carried match, nor the cursor, nor the queue. -/
theorem insertSkipped_frame (first last : Nat) (m : Matcher) (l o : Nat) (q : List Token) :
    insertSkipped { m with length := l, offset := o, tokq := q } first last =
      { m with
        head := (insertSkipped m first last).head
        prev := (insertSkipped m first last).prev
        length := l
        offset := o
        tokq := q } := by
  unfold insertSkipped
  generalize List.range' first (last - first) = ps
  induction ps generalizing m with
  | nil => rfl
  | cons p ps ih =>
    rw [List.foldl_cons, List.foldl_cons]
    by_cases h : (p : Int) < m.maxInsertIndex
    · rw [if_pos h, if_pos h]
      exact ih (insertHash m p)
    · rw [if_neg h, if_neg h]
      exact ih m

/-! ### The search (R147, R148) -/

theorem searches_iff (m : Matcher) (la pl : Nat) : searches (clearMatch m) la pl = true ↔ SearchRuns m la pl := by
  simp only [searches, SearchRuns, isFast, Bool.and_eq_true, Bool.or_eq_true, decide_eq_true_eq, Bool.not_eq_true', bne_iff_ne,
    bne_eq_false_iff_eq, and_assoc]
  exact Iff.rfl

/-- What the search step leaves is what R147 and R148 say. -/
theorem searchStep_finds {m m2 : Matcher} {la pl : Nat} (h : searchStep (clearMatch m) la pl = .ok m2) :
    SearchFinds m la pl m2.length m2.offset ∧ m2 = { m with length := m2.length, offset := m2.offset } := by
  unfold searchStep at h
  split at h
  · next hs =>
    have hr := (searches_iff m la pl).mp hs
    split at h
    · next best hb =>
      cases h
      refine ⟨⟨fun _ => ⟨best, hb, ?_, ?_⟩, fun hn => absurd hr hn⟩, ?_⟩ <;> split <;> rfl
    · cases h
  · next hs =>
    cases h
    exact ⟨⟨fun hr => absurd ((searches_iff m la pl).mpr hr) hs, fun _ => ⟨rfl, rfl⟩⟩, rfl⟩

/-! ### The block flush and the cap (R152, R153, R158) -/

/-- The cap after an append, where the turn then goes on with `k`, which touches neither the queue nor the window. -/
theorem capTest_capFlush {e : Emitter} {x : Nat} {m m' : Matcher} {k : MatcherSide → MatcherSide} (hx : 0 < x)
    (hq : m'.tokq = m.tokq) (hr : flushRequest m' x = flushRequest m x) (hk : k ⟨m', e⟩ = ⟨m, e⟩)
    (hk' : k ⟨{ m' with blockStart := x, tokq := [] }, emitRequest e (flushRequest m' x)⟩ =
      ⟨{ m with blockStart := x, tokq := [] }, emitRequest e (flushRequest m' x)⟩) :
    CapTest e x m m' (capFlush x ⟨m', e⟩ k) := by
  unfold capFlush CapTest
  rw [← hq, ← hr]
  refine ⟨fun h => ?_, fun h he => ?_, fun h c he => ?_⟩
  · rw [if_neg h, hk]
  · rw [if_pos h]
    rcases flushTokens_spec x ⟨m', e⟩ hx with ⟨-, hf⟩ | ⟨c, hc, -⟩
    · rw [hf]; exact congrArg Turn.again hk'
    · have := hc.symm.trans he; cases this
  · rw [if_pos h]
    rcases flushTokens_spec x ⟨m', e⟩ hx with ⟨hn, -⟩ | ⟨c', hc, hf⟩
    · have := hn.symm.trans he; cases this
    · have : c' = c := Option.some.inj (hc.symm.trans he)
      rw [hf, this]

/-! ### The loop and the step (R143) -/

theorem runLoop_iterates : ∀ (fuel : Nat) (u u' : MatcherSide), Ready u → u.m.windowEnd - u.m.index < fuel →
    runLoop fuel u = .ok u' → Iterates u u' := by
  intro fuel
  induction fuel with
  | zero => intro u u' _ h; omega
  | succ fuel ih =>
    intro u u' hr hf h
    unfold runLoop at h
    rcases iterate_good hr with ⟨u1, h1, h2, h3, h4, -⟩ | ⟨u1, h1, -⟩
    · rw [h1] at h
      have hle := h2.shape.index_le
      have hwe := h3.windowEnd
      exact .goesOn h1 (ih u1 u' h2 (by omega) h)
    · rw [h1] at h
      cases h
      exact .ends h1

/-- A step from a ready state is one of the spec's: nothing, or the loop. -/
theorem matcherStep_steps {u u' : MatcherSide} (hr : Ready u) (h : matcherStep u = .ok u') : Steps u u' := by
  have hwe := hr.shape.windowEnd_le
  unfold matcherStep at h
  unfold Steps
  split at h
  · next hw =>
    cases h
    simp only [Bool.and_eq_true, decide_eq_true_eq, Bool.not_eq_true', Config.lookaheadMin] at hw
    exact .inl ⟨hw.1, hw.2, rfl⟩
  · next hw =>
    simp only [Bool.and_eq_true, decide_eq_true_eq, Bool.not_eq_true', Config.lookaheadMin] at hw
    rw [if_neg (by omega)] at h
    exact .inr ⟨hw, runLoop_iterates _ (armed u) u' hr.armed (Nat.lt_succ_self _) h⟩

/-- The loop of M_WRITE is the spec's: a step and a fill in turn (R166). -/
theorem writeLoop_writes (total : Nat) : ∀ (fuel : Nat) (bs : List Byte) (u u' : MatcherSide) (status : Status) (value : Nat)
    (data : List Byte), Ready u → u.m.sync = false → writeLoop total fuel bs u = .reply u' status value data → Writes u bs u' := by
  intro fuel
  induction fuel with
  | zero =>
    intro bs u u' st v d _ _ h
    cases bs with
    | nil => cases h; exact .done u
    | cons b bs => cases h
  | succ fuel ih =>
    intro bs u u' st v d hr hs h
    cases bs with
    | nil => cases h; exact .done u
    | cons b bs =>
      obtain ⟨u1, hstep, hends, hk⟩ := withStep_good hr
      unfold writeLoop at h
      rw [hk, fill_eq hends.shape] at h
      have hst := matcherStep_steps hr hstep
      have hset := (roomy_setup u1.m).trans (appendWindow_setup (roomy u1.m) (b :: bs))
      simp only at h
      rcases hends.outcome with ⟨h1, h2, h3, h4, -⟩ | ⟨c, h1, h2⟩
      · rw [hset.err, h1] at h
        refine .round (List.cons_ne_nil b bs) hst (fill_eq hends.shape (b := b :: bs)) (hset.err.trans h1) ?_
        exact ih _ _ _ _ _ _ (filled_ready hends h1 (b :: bs)) (hset.sync.trans (hends.base.sync.trans hs)) h
      · rw [hset.err, h1] at h
        have := errResponse_io (u := { u1 with m := (appendWindow (roomy u1.m) (b :: bs)).1 }) (hset.err.trans h1)
        simp only at h
        rw [this] at h
        cases h
        exact .failed (List.cons_ne_nil b bs) hst (fill_eq hends.shape (b := b :: bs)) (by rw [hset.err, h1]; nofun)

end Sys2Proof.Machine
end

