-- ==== Sys2Proof/Tests/Slice0.lean ====
section
/-! SUPPORT. Small tests: what WellFormed refuses, words written out from the encodings of the spec, single commands with the
spec's own examples, and for each statement with hypotheses a state and operands that meet them. Expected values come from the
spec's examples and 95_test_vectors.md, cited at each test. -/

namespace Sys2Proof.Tests

/-! The tests run one after another: side by side their threads come close to the memory a compile may map. -/

set_option Elab.async false

open Sys2Proof Sys2Proof.Machine

/-! ### WellFormed refuses -/

/-- R79: the count field A has 32 bits. -/
theorem test_illformed_reset : wellFormed (.mReset (List.replicate 4294967296 0#8)) = false := by
  simp only [wellFormed, List.length_replicate]; decide

theorem test_illformed_fill : wellFormed (.mFillWindow (List.replicate 4294967296 0#8)) = false := by
  simp only [wellFormed, List.length_replicate]; decide

theorem test_illformed_write : wellFormed (.mWrite (List.replicate 4294967296 0#8)) = false := by
  simp only [wellFormed, List.length_replicate]; decide

/-- R79: the count field B has 24 bits. -/
theorem test_illformed_init : wellFormed (.ddInit 8#32 (List.replicate 16777216 0#8)) = false := by
  simp only [wellFormed, List.length_replicate]; decide

/-- R84: bits 21:15 of a match token are 0. -/
theorem test_illformed_match : wellFormed (.tokenMatch 1#8 32768#22) = false := by decide

/-- The largest well-formed operands. -/
theorem test_wellformed_bounds : wellFormed (.tokenMatch 255#8 32767#22) = true ∧
    wellFormed (.ddInit 8#32 (List.replicate 16777215 0#8)) = true ∧
    wellFormed (.mWrite (List.replicate 4294967295 0#8)) = true := by
  simp only [wellFormed, List.length_replicate]; decide

/-! ### Words written out from R75 to R78 and R84, R89 -/

theorem test_decode_config : decode (.command 0x0000000000000610#64 []) = .ok (.mConfig 6#32) ∧
    decode (.command 0x000000FFFFFFFF10#64 []) = .ok (.mConfig 0xFFFFFFFF#32) := by decide

theorem test_decode_reset : decode (.command 0x0000000000000011#64 []) = .ok (.mReset []) ∧
    decode (.command 0x0000000000000211#64 [0x61#8, 0x62#8]) = .ok (.mReset [0x61#8, 0x62#8]) := by decide

/-- R165's example: M_FILL_WINDOW "hello there" is 0x0000000000000B12 followed by 11 bytes. -/
theorem test_decode_fill : decode (.command 0x0000000000000B12#64
    [0x68#8, 0x65#8, 0x6C#8, 0x6C#8, 0x6F#8, 0x20#8, 0x74#8, 0x68#8, 0x65#8, 0x72#8, 0x65#8]) =
    .ok (.mFillWindow [0x68#8, 0x65#8, 0x6C#8, 0x6C#8, 0x6F#8, 0x20#8, 0x74#8, 0x68#8, 0x65#8, 0x72#8, 0x65#8]) := by decide

theorem test_decode_write : decode (.command 0x0000000000001413#64 (List.replicate 20 0x61#8)) =
    .ok (.mWrite (List.replicate 20 0x61#8)) := by decide

theorem test_decode_flush_close : decode (.command 0x0000000000000014#64 []) = .ok .mSyncFlush ∧
    decode (.command 0x0000000000000015#64 []) = .ok .mClose := by decide

theorem test_decode_init : decode (.command 0x0000030000000820#64 [0x61#8, 0x62#8, 0x63#8]) =
    .ok (.ddInit 8#32 [0x61#8, 0x62#8, 0x63#8]) := by decide

theorem test_decode_writes : decode (.command 0x0000000000007821#64 []) = .ok (.ddWriteByte 0x78#8) ∧
    decode (.command 0x0000000000006422#64 []) = .ok (.ddWriteSlice 100#32) ∧
    decode (.command 0x0000410000000223#64 []) = .ok (.ddSlicePut 2#32 0x41#8) ∧
    decode (.command 0x0000000000000324#64 []) = .ok (.ddWriteMark 3#32) := by decide

theorem test_decode_copies : decode (.command 0x00000A0000000425#64 []) = .ok (.ddWriteCopy 4#32 10#24) ∧
    decode (.command 0x0000040000000326#64 []) = .ok (.ddTryWriteCopy 3#32 4#24) := by decide

theorem test_decode_drains : decode (.command 0x0000000000000027#64 []) = .ok .ddReadFlush ∧
    decode (.command 0x0000000000000028#64 []) = .ok .ddStashFlush ∧
    decode (.command 0x0000000000000029#64 []) = .ok .ddStashLen ∧
    decode (.command 0x0000000000000A2A#64 []) = .ok (.ddStashRead 10#32) := by decide

theorem test_decode_queries : decode (.command 0x000000000000002B#64 []) = .ok .ddHistSize ∧
    decode (.command 0x000000000000002C#64 []) = .ok .ddAvailRead ∧
    decode (.command 0x000000000000002D#64 []) = .ok .ddAvailWrite := by decide

/-- R100, R101, R103: the example words. -/
theorem test_decode_tokens : decode (.token 0x00000061#32) = .ok (.tokenLit 0x61#8) ∧
    decode (.token 0x44000000#32) = .ok (.tokenMatch 16#8 0#22) ∧
    decode (.token 0x4100000B#32) = .ok (.tokenMatch 4#8 11#22) ∧
    decode (.token 0x7FC07FFF#32) = .ok (.tokenMatch 255#8 32767#22) := by decide

/-- R85, R84: reserved types, and words the layout does not give. -/
theorem test_decode_not_tokens : decode (.token 0x80000000#32) = .error .reservedToken ∧
    decode (.token 0xC0000000#32) = .error .reservedToken ∧ decode (.token 0x00000100#32) = .error .notAToken ∧
    decode (.token 0x40008000#32) = .error .notAToken := by decide

/-- R201's examples, a short payload (R79), a byte operand that does not fit (R76), an opcode of no unit (R82). -/
theorem test_decode_malformed : decode (.command 0x16#64 []) = .error (.badOpcode (some .matcher)) ∧
    decode (.command 0x114#64 []) = .error (.badField .matcher) ∧ decode (.command 0x313#64 [0#8, 0#8]) = .error (.badField .matcher) ∧
    decode (.command 0x10021#64 []) = .error (.badField .decoder) ∧ decode (.command 0x2E#64 []) = .error (.badOpcode (some .decoder)) ∧
    decode (.command 0x30#64 []) = .error (.badOpcode none) := by decide

/-- R57: the transport's bytes of M_WRITE "ab", least significant byte of the word first. -/
theorem test_decode_bytes : decodeBytes [0x13#8, 0x02#8, 0#8, 0#8, 0#8, 0#8, 0#8, 0#8, 0x61#8, 0x62#8] =
    .ok (.mWrite [0x61#8, 0x62#8]) := by decide

/-! ### Status codes and the response word (R80, R81) -/

theorem test_status_codes : [Status.ok, .invalidLevel, .refusedMode, .closed, .io, .ddBadSize, .fault .badOpcode,
    .fault .badField, .fault .notConfigured, .fault .fillStale, .fault .internal, .fault .ddNoSpace, .fault .ddBadDist,
    .fault .ddMarkOver, .fault .ddSliceOob, .fault .ddStashPending].map (fun st => (statusCode st).toNat) =
    [0, 1, 2, 3, 4, 5, 0x80, 0x81, 0x82, 0x83, 0x84, 0x85, 0x86, 0x87, 0x88, 0x89] := by decide

theorem test_response_word : responseWord ⟨.io, 0x12345678#32, []⟩ = 0x0000001234567804#64 := by decide

/-! ### Helpers: what a step leaves -/

/-- The state an instruction leaves, if it goes on. -/
def after (i : Instr) (s : State) : Option State :=
  match exec i s with
  | .next t => some t
  | _ => none

/-- The status and value of the last response. -/
def lastAnswer (s : State) : Option (Status × Word32) := s.responses.getLast?.map (fun r => (r.status, r.value))

/-- A Matcher configured at a level. -/
def configuredAt (l : Nat) : State :=
  { State.reset with m := { Matcher.powerOn 0 with configured := true, params := levelRow l } }

/-- A Matcher at a level with these bytes pending in its window and these Emitter answers ready. -/
def pendingAt (l : Nat) (bytes : List Byte) (answers : List (Option Word32)) : State :=
  { State.reset with
    m := { Matcher.powerOn 0 with configured := true, params := levelRow l, win := Memory.cellsFrom 0 bytes, windowEnd := bytes.length }
    e := { err := none, log := [], answers := answers, draws := 0 } }

/-- A DictDecoder of 8 bytes whose history is these bytes, with the cursors given. -/
def historyOf (bytes : List Byte) (rd : Nat) (full : Bool) : State :=
  { State.reset with
    d := { Decoder.powerOn 0 with configured := true, size := 8, wrPos := bytes.length, rdPos := rd, full := full,
                                  hist := Memory.cellsFrom 0 bytes } }

/-- HIST as a DictDecoder command leaves it. -/
def histAfter (i : Instr) (s : State) (n : Nat) : Option (List Byte) := (after i s).map (fun t => histRun t.d 0 n)

/-! ### Matcher commands -/

/-- R160's examples. -/
theorem test_config : ((after (.mConfig 6#32) State.reset).map fun t => (lastAnswer t, t.m.params.nice, t.m.params.chain)) =
    some (some (.ok, 0#32), 128, 128) := by decide

theorem test_config_invalid : ((after (.mConfig 10#32) State.reset).bind lastAnswer) = some (.invalidLevel, 0#32) := by decide

/-- R161's example: M_CONFIG -2 is refused. -/
theorem test_config_refused : ((after (.mConfig 0xFFFFFFFE#32) State.reset).map fun t => (lastAnswer t, t.refused)) =
    some (some (.refusedMode, 0#32), true) := by decide

/-- R164: M_RESET reopens a closed stream and marks the log. -/
theorem test_reset : ((after (.mReset []) { configuredAt 6 with m := { (configuredAt 6).m with err := .closed } }).map fun t =>
    (t.m.err, t.e.log)) = some (.noError, [.sinkRebound]) := by decide

/-- R129's example: "hello there" sets the cursors to 11; the first group is inserted at absolute value 1. -/
theorem test_fill_window : ((after (.mFillWindow
    [0x68#8, 0x65#8, 0x6C#8, 0x6C#8, 0x6F#8, 0x20#8, 0x74#8, 0x68#8, 0x65#8, 0x72#8, 0x65#8]) (configuredAt 6)).map fun t =>
      (t.m.index, t.m.windowEnd, t.m.blockStart, headWord t.m (bucket t.m 7), t.m.head.length)) = some (11, 11, 11, 8#32, 8) := by
  decide +kernel

/-- R227's example: after a byte has been written M_FILL_WINDOW faults. -/
theorem test_fill_stale : ((after (.mFillWindow [0x64#8]) (pendingAt 6 [0x78#8] [])).bind lastAnswer) =
    some (.fault .fillStale, 0#32) := by decide

/-- R166's example: 20 bytes only enter the window. -/
theorem test_write : ((after (.mWrite (List.replicate 20 0x61#8)) (configuredAt 6)).map fun t =>
    (lastAnswer t, t.m.windowEnd, t.m.index, t.e.log)) = some (some (.ok, 20#32), 20, 0, []) := by decide +kernel

/-- R117's and R154's numbers: the bucket of "aaaa". -/
theorem test_hash : bucket (pendingAt 6 (List.replicate 20 0x61#8) []).m 0 = 124160 := by decide +kernel

/-- R154 and R169: 20 × "a" at level 6 under M_CLOSE. -/
theorem test_close : ((after .mClose (pendingAt 6 (List.replicate 20 0x61#8) [none, none, none])).map fun t =>
    (lastAnswer t, t.m.err, t.e.log)) = some (some (.ok, 0#32), .closed,
      [.emitBlock [0x00000061#32, 0x44000000#32] false (some (List.replicate 20 0x61#8)), .emitStoredHeader 0#16 true, .emitFlush]) := by
  decide +kernel

/-- R155's example (V-LZ2): "abcdbcdefghiabcdefghi" at level 6. -/
theorem test_lazy : ((after .mSyncFlush (pendingAt 6
    [0x61#8, 0x62#8, 0x63#8, 0x64#8, 0x62#8, 0x63#8, 0x64#8, 0x65#8, 0x66#8, 0x67#8, 0x68#8, 0x69#8, 0x61#8, 0x62#8, 0x63#8, 0x64#8,
      0x65#8, 0x66#8, 0x67#8, 0x68#8, 0x69#8] [none, none, none])).map fun t => (t.m.sync, t.e.log.length,
        t.e.log.head?.map fun r => match r with | .emitBlock ts _ _ => ts.drop 12 | _ => [])) =
    some (false, 3, some [0x00000061#32, makeMatch 8 9]) := by decide +kernel

/-- R155: the same bytes at level 2: MATCH(4, 12), MATCH(5, 9). -/
theorem test_greedy : ((after .mSyncFlush (pendingAt 2
    [0x61#8, 0x62#8, 0x63#8, 0x64#8, 0x62#8, 0x63#8, 0x64#8, 0x65#8, 0x66#8, 0x67#8, 0x68#8, 0x69#8, 0x61#8, 0x62#8, 0x63#8, 0x64#8,
      0x65#8, 0x66#8, 0x67#8, 0x68#8, 0x69#8] [none, none, none])).map fun t =>
        t.e.log.head?.map fun r => match r with | .emitBlock ts _ _ => ts.drop 12 | _ => []) =
    some (some [makeMatch 4 12, makeMatch 5 9]) := by decide +kernel

/-- R168: EMIT_FLUSH is sent even when EMIT_STORED_HEADER set the error, which is then answered. -/
theorem test_sync_flush_error : ((after .mSyncFlush (pendingAt 6 [] [some 7#32])).map fun t =>
    (lastAnswer t, t.m.err, t.e.log)) = some (some (.io, 7#32), .io 7#32, [.emitStoredHeader 0#16 false, .emitFlush]) := by
  decide +kernel

/-! ### DictDecoder commands -/

/-- R173's examples. -/
theorem test_init : ((after (.ddInit 8#32 [0x61#8, 0x62#8, 0x63#8]) State.reset).map fun t =>
    (t.d.wrPos, t.d.rdPos, t.d.full, histSize t.d)) = some (3, 3, false, 3) := by decide

theorem test_init_full : ((after (.ddInit 4#32 [0x61#8, 0x62#8, 0x63#8, 0x64#8, 0x65#8, 0x66#8]) State.reset).map fun t =>
    (histRun t.d 0 4, t.d.wrPos, t.d.full, histSize t.d)) = some ([0x63#8, 0x64#8, 0x65#8, 0x66#8], 0, true, 4) := by decide

/-- R173, R231: a bad size closes the view and leaves every other register unchanged. -/
theorem test_init_bad : ((after (.ddInit 0#32 []) { historyOf [0x61#8, 0x62#8, 0x63#8] 3 false with
    d := { (historyOf [0x61#8, 0x62#8, 0x63#8] 3 false).d with viewLen := 5 } }).map fun t => (lastAnswer t, t.d.viewLen, t.d.wrPos)) =
    some (some (.ddBadSize, 0#32), 0, 3) := by decide

/-- R176's example. -/
theorem test_write_byte : histAfter (.ddWriteByte 0x78#8) (historyOf [0x61#8, 0x62#8, 0x63#8] 3 false) 4 =
    some [0x61#8, 0x62#8, 0x63#8, 0x78#8] := by decide

/-- R178's and R179's examples. -/
theorem test_write_slice : ((after (.ddWriteSlice 100#32) (historyOf [0x61#8, 0x62#8, 0x63#8] 3 false)).map fun t =>
    (lastAnswer t, t.d.viewLen, t.d.wrPos)) = some (some (.ok, 5#32), 5, 3) := by decide

theorem test_slice_put : ((after (.ddSlicePut 2#32 0x41#8) { historyOf [0x61#8, 0x62#8, 0x63#8] 3 false with
    d := { (historyOf [0x61#8, 0x62#8, 0x63#8] 3 false).d with viewLen := 5 } }).map fun t => (histByte t.d 5, t.d.viewLen)) =
    some (0x41#8, 5) := by decide

theorem test_write_mark : ((after (.ddWriteMark 6#32) (historyOf [0x61#8, 0x62#8, 0x63#8] 3 false)).bind lastAnswer) =
    some (.fault .ddMarkOver, 0#32) := by decide

/-- R182's example: HIST = "abcx", distance 4, length 10 copies 4 bytes. -/
theorem test_write_copy : ((after (.ddWriteCopy 4#32 10#24) (historyOf [0x61#8, 0x62#8, 0x63#8, 0x78#8] 3 false)).map fun t =>
    (lastAnswer t, histRun t.d 0 8)) =
    some (some (.ok, 4#32), [0x61#8, 0x62#8, 0x63#8, 0x78#8, 0x61#8, 0x62#8, 0x63#8, 0x78#8]) := by decide

/-- R185's examples: an overlapping copy, and a declined one. -/
theorem test_try_write_copy : histAfter (.ddTryWriteCopy 3#32 4#24) (historyOf [0x61#8, 0x62#8, 0x63#8] 3 false) 7 =
    some [0x61#8, 0x62#8, 0x63#8, 0x61#8, 0x62#8, 0x63#8, 0x61#8] := by decide

theorem test_try_write_copy_declines : ((after (.ddTryWriteCopy 3#32 6#24) (historyOf [0x61#8, 0x62#8, 0x63#8] 3 false)).map
    fun t => (lastAnswer t, t.d.wrPos)) = some (some (.ok, 0#32), 3) := by decide

/-- R187's example: a drain at the end of HIST wraps. -/
theorem test_read_flush : ((after .ddReadFlush (historyOf
    [0x61#8, 0x62#8, 0x63#8, 0x78#8, 0x61#8, 0x62#8, 0x63#8, 0x78#8] 3 false)).map fun t =>
      (t.responses.getLast?.map (·.data), t.d.wrPos, t.d.rdPos, t.d.full)) =
    some (some [0x78#8, 0x61#8, 0x62#8, 0x63#8, 0x78#8], 0, 0, true) := by decide

/-- R189's and R192's examples. -/
theorem test_stash_flush : ((after .ddStashFlush (historyOf [0x61#8, 0x62#8, 0x63#8, 0x78#8] 3 false)).map fun t =>
    (lastAnswer t, t.d.stashPos, t.d.stashLen, t.d.rdPos)) = some (some (.ok, 1#32), 3, 1, 4) := by decide

theorem test_stash_read : ((after (.ddStashRead 10#32) { historyOf [0x61#8, 0x62#8, 0x63#8, 0x78#8] 4 false with
    d := { (historyOf [0x61#8, 0x62#8, 0x63#8, 0x78#8] 4 false).d with stashPos := 3, stashLen := 1 } }).map fun t =>
      (t.responses.getLast?.map (·.data), t.d.stashLen)) = some (some [0x78#8], 0) := by decide

/-- R194, R195, R196 and R191's examples, after DD_INIT 8, "abc" and DD_WRITE_BYTE 0x78. -/
theorem test_queries : ([Instr.ddHistSize, .ddAvailRead, .ddAvailWrite, .ddStashLen].map fun i =>
    (after i (historyOf [0x61#8, 0x62#8, 0x63#8, 0x78#8] 3 false)).bind lastAnswer) =
    [some (.ok, 4#32), some (.ok, 1#32), some (.ok, 4#32), some (.ok, 0#32)] := by decide

/-- R204's example: DD_WRITE_COPY 0, 5 while bytes are staged: the stash check comes first. -/
theorem test_stash_pending : ((after (.ddWriteCopy 0#32 5#24) { historyOf [0x61#8, 0x62#8, 0x63#8, 0x78#8] 4 false with
    d := { (historyOf [0x61#8, 0x62#8, 0x63#8, 0x78#8] 4 false).d with stashPos := 3, stashLen := 1 } }).bind lastAnswer) =
    some (.fault .ddStashPending, 0#32) := by decide

/-! ### Token words -/

/-- R103's example: 0x44000000 has wire length 19 and wire distance 1. -/
theorem test_token_match : ((after (.tokenMatch 16#8 0#22) { State.reset with t := ⟨none, [0x61#8], 0⟩ }).map fun t =>
    (t.t.readout.map fun r => (r.word, r.isMatch, r.wireLength, r.wireDistance), t.t.stream.length)) =
    some (some (0x44000000#32, true, 19, 1), 20) := by decide

theorem test_token_lit : ((after (.tokenLit 0x61#8) State.reset).map fun t =>
    (t.t.readout.map fun r => (r.word, r.isLiteral, r.literal), t.t.stream)) =
    some (some (0x61#32, true, 0x61#8), [0x61#8]) := by decide

/-! ### Steps -/

/-- R227's example: M_WRITE "x" as the first command faults F_NOT_CONFIGURED. -/
theorem test_step_not_configured : (match step (placeInput (.send (.command 0x113#64 [0x78#8])) State.reset) with
    | .next t => some (lastAnswer t, t.m.faulted, t.inputs) | _ => none) =
    some (some (.fault .notConfigured, 0#32), some .notConfigured, []) := by decide

/-- R204's example: M_WRITE with a short payload to an unconfigured Matcher: the field check comes first. -/
theorem test_step_bad_field : (match step (placeInput (.send (.command 0x313#64 [0x78#8])) State.reset) with
    | .next t => lastAnswer t | _ => none) = some (.fault .badField, 0#32) := by decide

/-- R201: a word for no unit latches both units. -/
theorem test_step_no_unit : (match step (placeInput (.send (.command 0x0#64 [])) State.reset) with
    | .next t => some (t.m.faulted, t.d.faulted) | _ => none) = some (some .badOpcode, some .badOpcode) := by decide

/-- R203, R220: power-on clears the latches. -/
theorem test_step_power_on : (match step (placeInput .powerOn { State.reset with m := { State.reset.m with faulted := some .badField } }) with
    | .next t => some (t.m.faulted) | _ => none) = some none := by decide

/-- The word of opcode_table.json for M_CONFIG at level 6 runs as the first instruction after reset. -/
theorem test_fetch_word : decodeTableWord 64 0x610 = some (.mConfig 6#32) ∧
    (match step (State.reset.withFetchWord 64 0x610) with | .next t => t.m.params.level | _ => 0) = 6 := by decide

/-! ### States that meet the invariants -/

theorem configured_inv {l : Nat} (h2 : 2 ≤ l) (h9 : l ≤ 9) : (configuredAt l).Inv :=
  have h := config_inv (m := Matcher.powerOn 0) (e := State.reset.e) (l := l) ⟨List.Pairwise.nil, nofun⟩ h2 h9
  ⟨h.m, decoder_powerOn_inv 0, h.sticky⟩

theorem cells_wf {bytes : List Byte} {size : Nat} (h : bytes.length ≤ size) : Memory.bytesWf (Memory.cellsFrom 0 bytes) size :=
  ⟨Memory.rising_cellsFrom bytes 0, fun c hc => by have := Memory.mem_cellsFrom hc; omega⟩

theorem pending_inv {l : Nat} {bytes : List Byte} (answers : List (Option Word32)) (h2 : 2 ≤ l) (h9 : l ≤ 9)
    (hb : bytes.length ≤ 65536) : (pendingAt l bytes answers).Inv := by
  have h := (configured_inv h2 h9).m
  have hl := h.live rfl
  exact ⟨⟨⟨cells_wf hb, h.shape.headWf, h.shape.prevWf, Nat.zero_le _, hb, h.shape.tokq_le, h.shape.hashOffset_range, h.shape.length_ge,
      h.shape.length_le, h.shape.offset_le, h.shape.maxInsert_ge, h.shape.maxInsert_le, h.shape.params_row⟩,
    fun _ => ⟨hl.tokq_lt, hl.head_lt, hl.prev_lt, hl.chainHead_lt, fun _ h => absurd h (by decide : ¬ 4 ≤ 3), hl.pending, hl.queued,
      hl.fastHeld, hl.block, hl.tokens⟩, h.notSync⟩, decoder_powerOn_inv 0, fun _ => ⟨nofun, nofun⟩⟩

theorem history_inv {bytes : List Byte} {rd : Nat} (full : Bool) (hb : bytes.length ≤ 8) (hr : rd ≤ bytes.length) :
    (historyOf bytes rd full).d.Inv :=
  ⟨cells_wf hb, hr, hb, hb, by show 0 + 0 ≤ 8; omega, fun _ => ⟨by show 1 ≤ 8; omega, by show 8 ≤ Config.ddSizeMax; unfold Config.ddSizeMax; omega⟩⟩

theorem historyOf_inv {bytes : List Byte} {rd : Nat} (full : Bool) (hb : bytes.length ≤ 8) (hr : rd ≤ bytes.length) :
    (historyOf bytes rd full).Inv := ⟨matcher_powerOn_inv 0, history_inv full hb hr, fun _ => ⟨nofun, nofun⟩⟩

/-- A Matcher whose stream has the Emitter's error 7. -/
def failedAt (l : Nat) : State :=
  { configuredAt l with m := { (configuredAt l).m with err := .io 7#32 }, e := { State.reset.e with err := some 7#32 } }

/-- A Matcher whose stream is closed. -/
def closedAt (l : Nat) : State := { configuredAt l with m := { (configuredAt l).m with err := .closed } }

theorem failed_inv {l : Nat} (h2 : 2 ≤ l) (h9 : l ≤ 9) : (failedAt l).Inv :=
  have h := sideInv_failed (u := (failedAt l).side) ((configured_inv h2 h9).m.shape.withErr (.io 7#32)) rfl rfl
  ⟨h.m, decoder_powerOn_inv 0, h.sticky⟩

theorem exec_of_after {i : Instr} {s : State} {β : Type} {f : State → β} {v : β} (h : (after i s).map f = some v) :
    ∃ t, exec i s = .next t ∧ f t = v := by
  unfold after at h
  split at h
  · next t ht => exact ⟨t, ht, by simpa using h⟩
  · cases h

/-- The bytes in the window are the stream, none of it tokenized. -/
theorem pending_covers {l : Nat} (bytes : List Byte) (answers : List (Option Word32)) :
    Covers [] bytes (pendingAt l bytes answers).side := by
  have hb : windowBase bytes (pendingAt l bytes answers).side.m = 0 := Nat.sub_self _
  refine ⟨Nat.le_refl _, ?_, fun _ => ?_, Nat.zero_le _, fun _ _ => ?_, ?_, fun _ h => absurd h (by decide : ¬ 4 ≤ 3)⟩
  · rw [hb]
    refine List.ext_getElem? (fun j => ?_)
    rw [getElem?_winRun, List.getElem?_drop, Nat.zero_add]
    show (if j < bytes.length then some (Memory.readByte _ (Memory.cellsFrom 0 bytes) j) else none) = bytes[j]?
    unfold Memory.readByte
    rw [Memory.find_cellsFrom]
    split
    · next hj => simp [hj]
    · next hj => rw [List.getElem?_eq_none (by omega)]
  · rw [hb]; rfl
  · rw [hb]; rfl
  · intro before _ _ _ _ h; cases before <;> cases h

/-! ### Every statement's hypotheses are met: encodings and steps

One theorem for each statement with hypotheses, each clause at a boundary of its range. -/

theorem witness_DecodeEncode : wellFormed (.tokenMatch 255#8 32767#22) = true ∧
    wellFormed (.ddInit 8#32 (List.replicate 16777215 0#8)) = true := by
  simp only [wellFormed, List.length_replicate]; decide

theorem witness_EncodeDecode : decode (.command 0x0000000000007821#64 []) = .ok (.ddWriteByte 0x78#8) ∧
    decode (.token 0x7FC07FFF#32) = .ok (.tokenMatch 255#8 32767#22) := by decide

theorem witness_ByteOrder : (0 : Nat) < 8 ∧ (7 : Nat) < 8 ∧ ((wordBytes 0x8877665544332211#64)[7]?) = some 0x88#8 := by decide

theorem witness_StepRunsDecoded : State.reset.refused = false ∧
    ({ State.reset with inputs := [.send (.command 0x610#64 []), .powerOn] } : State).inputs = .send (.command 0x610#64 []) :: [.powerOn] ∧
    decode (.command 0x610#64 []) = .ok (.mConfig 6#32) ∧ wellFormed (.mConfig 6#32) = true ∧
    decodeTableWord 64 0x610 = some (.mConfig 6#32) := by decide

/-- A state with the refusal mark; nothing sent; the first reserved token word; words below it that are no token. -/
theorem witness_StepWithoutInstruction : (refuseMode State.reset).refused = true ∧
    (State.reset.refused = false ∧ State.reset.inputs = []) ∧ 0x80000000 ≤ (0x80000000#32 : Token).toNat ∧
    (∀ t ∈ [0x00000100#32, 0x3FFFFFFF#32, 0x40008000#32, 0x7FFFFFFF#32], t.toNat < 0x80000000 ∧ ∀ i, decode (.token t) ≠ .ok i) := by
  refine ⟨rfl, ⟨rfl, rfl⟩, by decide, fun t ht => ?_⟩
  have h : t.toNat < 0x80000000 ∧ decode (.token t) = .error .notAToken := by
    simp only [List.mem_cons, List.not_mem_nil, or_false] at ht
    rcases ht with rfl | rfl | rfl | rfl <;> decide
  exact ⟨h.1, fun i hi => by rw [h.2] at hi; cases hi⟩

/-! ### Tokens, levels -/

theorem witness_TokenRoundTrip : ∀ length ∈ [3, 258], ∀ distance ∈ [1, 32768],
    3 ≤ length ∧ length ≤ 258 ∧ 1 ≤ distance ∧ distance ≤ 32768 := by decide

/-- A match over its own bytes; and the DictDecoder's copy, before HIST is full, and after it, where the source wraps. -/
theorem witness_TokenMeaning :
    (∃ (stream : List Byte) (length distance : Nat), 3 ≤ length ∧ length ≤ 258 ∧ 1 ≤ distance ∧ distance ≤ 32768 ∧
      distance ≤ stream.length) ∧
    ∀ x ∈ [(historyOf [0x61#8, 0x62#8, 0x63#8] 3 false, 3#32, 5#24), (historyOf [0x61#8, 0x62#8] 2 true, 8#32, 6#24)],
      x.1.d.Inv ∧ DecoderReady x.1 ∧ x.1.d.stashLen = 0 ∧ 3 ≤ x.2.2.toNat ∧ x.2.2.toNat ≤ 258 ∧ 1 ≤ x.2.1.toNat ∧
        x.2.1.toNat ≤ 32768 ∧ x.2.1.toNat ≤ histSize x.1.d ∧ x.1.d.wrPos + x.2.2.toNat ≤ x.1.d.size := by
  refine ⟨⟨[0x61#8], 258, 1, by decide⟩, fun x hx => ?_⟩
  simp only [List.mem_cons, List.not_mem_nil, or_false] at hx
  rcases hx with rfl | rfl
  · exact ⟨history_inv false (by decide) (by decide), ⟨rfl, rfl⟩, rfl, by decide⟩
  · exact ⟨history_inv true (by decide) (by decide), ⟨rfl, rfl⟩, rfl, by decide⟩

theorem witness_TokenWordsRun : (0#22 : BitVec 22).toNat < 32768 ∧ (32767#22 : BitVec 22).toNat < 32768 := by decide

theorem witness_LevelResolution : ((-1 : Int) = -1) ∧ (∀ v ∈ [(2 : Int), 9], 2 ≤ v ∧ v ≤ 9) ∧
    (∀ v ∈ [(-2 : Int), 0, 1], v = -2 ∨ v = 0 ∨ v = 1) ∧ ∀ v ∈ [(-3 : Int), 10], v < -2 ∨ 9 < v := by decide

theorem witness_LevelTable : State.reset.m.faulted = none ∧ (configuredAt 9).m.faulted = none := ⟨rfl, rfl⟩

/-! ### The window and the search -/

/-- The last hash offset that is only moved up, and the first that is rebased (R127). -/
theorem witness_WindowShift : ∀ k ∈ [16744448, 16744449],
    let m : Matcher := { Matcher.powerOn 0 with hashOffset := k, head := [(5, 7#32)], prev := [(5, 16777216#32)] }
    Memory.wordsWf m.head Config.hashSize ∧ Memory.wordsWf m.prev Config.windowSize ∧
      ((k = 16744448 ∧ m.hashOffset + 32768 ≤ 16777216) ∨ (k = 16744449 ∧ 16777216 < m.hashOffset + 32768)) := by decide

/-- A window full up to its end whose cursor is at the shift threshold, and an empty one. -/
theorem witness_FillCopies : (configuredAt 6).m.Shape ∧
    Matcher.Shape { (configuredAt 6).m with index := 65274, windowEnd := 65536 } := by
  have h := (configured_inv (l := 6) (by decide) (by decide)).m.shape
  exact ⟨h, h.winWf, h.headWf, h.prevWf, (by decide : 65274 ≤ 65536), Nat.le_refl _, h.tokq_le, h.hashOffset_range, h.length_ge,
    h.length_le, h.offset_le, h.maxInsert_ge, h.maxInsert_le, h.params_row⟩

/-- A near candidate, and one at the greatest distance with the last lookahead the window has room for; each with the greatest value
PREV may hold there. -/
theorem witness_ChainSearch : ∀ x ∈ [(5, 4, 4, [(4, 5#32)]), (65532, 32764, 4, [(4, 1#32), (32764, 65532#32)])],
    let m : Matcher := { (configuredAt 6).m with prev := x.2.2.2 }
    (∀ c ∈ m.prev, c.2.toNat < x.1 + m.hashOffset) ∧ 1 ≤ m.hashOffset ∧ x.1 + x.2.2.1 ≤ 65536 ∧ 4 ≤ x.2.2.1 ∧ x.2.1 < x.1 ∧
      x.1 ≤ x.2.1 + 32768 ∧ 3 ≤ m.params.good := by decide

/-- A Matcher inside a flush, at a position of its window. -/
def scanAt (l : Nat) (bytes : List Byte) (index length offset : Nat) (held : Bool) (head : List (Nat × Word32)) : MatcherSide :=
  ⟨{ (pendingAt l bytes []).m with
      index := index
      length := length
      offset := offset
      byteAvailable := held
      blockStart := index - (if held then 1 else 0)
      sync := true
      head := head
      maxInsertIndex := (bytes.length : Int) - 3 },
    State.reset.e⟩

theorem scan_good {l : Nat} {bytes : List Byte} {index length offset : Nat} {held : Bool} {head : List (Nat × Word32)}
    (h2 : 2 ≤ l ∧ l ≤ 9) (hb : bytes.length ≤ 65536) (hi : index ≤ bytes.length) (hl : 3 ≤ length ∧ length ≤ 258 ∧ offset ≤ 32768)
    (hh : Memory.wordsWf head Config.hashSize ∧ ∀ c ∈ head, c.2.toNat < index + 1) (hp : held = true → 1 ≤ index)
    (hc : ((levelRow l).fsh != 2147483647) = false → 4 ≤ length → 1 ≤ offset ∧ index + length ≤ bytes.length + 1)
    (hf : ((levelRow l).fsh != 2147483647) = true → held = false) :
    (scanAt l bytes index length offset held head).m.Shape ∧ (scanAt l bytes index length offset held head).m.Live := by
  have h := (pending_inv (l := l) (bytes := bytes) [] h2.1 h2.2 hb).m
  have hv := h.live rfl
  refine ⟨⟨h.shape.winWf, hh.1, h.shape.prevWf, hi, hb, h.shape.tokq_le, h.shape.hashOffset_range, hl.1, hl.2.1, hl.2.2,
    ?_, ?_, h.shape.params_row⟩, ⟨hv.tokq_lt, hh.2, nofun, ?_, hc, hp, fun h => absurd rfl h, hf, .inl ?_, nofun⟩⟩
  · show (-3 : Int) ≤ (bytes.length : Int) - 3; omega
  · show (bytes.length : Int) - 3 ≤ 65533; omega
  · show (-1 : Int) < (index : Int) + (1 : Nat); omega
  · show index - (if held then 1 else 0) + (if held then 1 else 0) ≤ index ∧
      index ≤ index - (if held then 1 else 0) + (if held then 1 else 0) + 258 * 0
    cases held
    · simp
    · have := hp rfl; simp; omega

/-- The search of an iteration, in the statement's words. -/
theorem search_of {u : MatcherSide} {n : Nat}
    (h : ((searchStep (clearMatch (hashStep u.m)) (u.m.windowEnd - u.m.index) u.m.length).toOption.map (·.length)) = some n) :
    ∃ offset, SearchFinds (if (u.m.index : Int) < u.m.maxInsertIndex then updateHead u.m u.m.index else u.m)
      (u.m.windowEnd - u.m.index) u.m.length n offset := by
  cases hs : searchStep (clearMatch (hashStep u.m)) (u.m.windowEnd - u.m.index) u.m.length with
  | ok m2 =>
    rw [hs] at h
    have hn : m2.length = n := by simpa [Except.toOption] using h
    exact ⟨m2.offset, hn ▸ (searchStep_finds hs).1⟩
  | error e => rw [hs] at h; simp [Except.toOption] at h

/-- One position for each clause: a fast-skip level that finds a match of length 19, and one that finds none; a lazy level with a
carried match that is not beaten, one with a literal held back, and one with none. -/
theorem witness_EmissionChoice : ∀ x ∈
    [(scanAt 2 (List.replicate 20 0x61#8) 1 3 0 false [(124160, 1#32)], 19), (scanAt 2 [0x61#8] 0 3 0 false [], 3),
      (scanAt 6 (List.replicate 5 0x61#8) 2 4 1 true [], 3), (scanAt 6 [0x61#8, 0x62#8] 1 3 0 true [], 3),
      (scanAt 6 [0x61#8] 0 3 0 false [], 3)],
    x.1.m.Shape ∧ x.1.m.Live ∧ x.1.m.index < x.1.m.windowEnd ∧ x.1.m.sync = true ∧
      ∃ offset, SearchFinds (if (x.1.m.index : Int) < x.1.m.maxInsertIndex then updateHead x.1.m x.1.m.index else x.1.m)
        (x.1.m.windowEnd - x.1.m.index) x.1.m.length x.2 offset := by
  intro x hx
  simp only [List.mem_cons, List.not_mem_nil, or_false] at hx
  rcases hx with rfl | rfl | rfl | rfl | rfl
  all_goals
    refine ⟨(scan_good ?_ ?_ ?_ ?_ ?_ ?_ ?_ ?_).1, (scan_good ?_ ?_ ?_ ?_ ?_ ?_ ?_ ?_).2, by decide, rfl, search_of ?_⟩
  all_goals decide +kernel

/-- The last position with its look-ahead, outside a flush. -/
theorem witness_EmissionChoice_lookahead : let m := (pendingAt 6 (List.replicate 262 0x61#8) []).m
    m.Shape ∧ m.Live ∧ m.index < m.windowEnd ∧ m.index + 262 ≤ m.windowEnd :=
  have hn : (pendingAt 6 (List.replicate 262 0x61#8) []).m.windowEnd = 262 := List.length_replicate
  have h := (pending_inv (l := 6) (bytes := List.replicate 262 0x61#8) [] (by decide) (by decide)
    (by rw [List.length_replicate]; omega)).m
  ⟨h.shape, h.live rfl, by rw [hn]; exact Nat.zero_lt_succ 261, by rw [hn]; exact Nat.le_refl 262⟩

/-- A queue one short of its cap. -/
def fullAt : Matcher := { (scanAt 2 [0x61#8, 0x62#8] 1 3 0 false []).m with tokq := List.replicate 16383 (makeLiteral 0x61#8) }

/-- An Emitter with these answers ready. -/
def answering (answers : List (Option Word32)) : Emitter := { State.reset.e with answers := answers }

/-- The next token fills the queue, and the Emitter takes the block or reports error 7. -/
theorem witness_EmissionChoice_cap : fullAt.Shape ∧ fullAt.Live ∧ fullAt.index < fullAt.windowEnd ∧ fullAt.sync = true ∧
    (∀ t, (fullAt.tokq ++ [t]).length = 16384) ∧ (∀ r, (emitRequest (answering [none]) r).err = none) ∧
    ∀ r, (emitRequest (answering [some 7#32]) r).err = some 7#32 := by
  obtain ⟨h, hv⟩ := scan_good (l := 2) (bytes := [0x61#8, 0x62#8]) (index := 1) (length := 3) (offset := 0) (held := false) (head := [])
    (by decide) (by decide) (by decide) (by decide) (by decide) (by decide) (by decide) (by decide)
  have hq : fullAt.tokq.length = 16383 := List.length_replicate
  refine ⟨⟨h.winWf, h.headWf, h.prevWf, h.index_le, h.windowEnd_le, by rw [hq]; decide, h.hashOffset_range, h.length_ge, h.length_le,
    h.offset_le, h.maxInsert_ge, h.maxInsert_le, h.params_row⟩, ⟨by rw [hq]; decide, hv.head_lt, hv.prev_lt, hv.chainHead_lt, hv.carried,
    hv.pending, fun _ => Nat.le_refl 1, hv.fastHeld, .inl ⟨by decide, ?_⟩, fun t ht => .inl ⟨_, List.eq_of_mem_replicate ht⟩⟩,
    by decide, rfl, fun t => ?_, fun _ => rfl, fun _ => rfl⟩
  · rw [hq]; decide
  · rw [List.length_append, hq]; rfl

/-! ### Matcher commands -/

/-- The first and last level of the block, −1, the invalid levels next to the range, and a level of another mode. -/
theorem witness_ConfigConstructs : State.reset.m.faulted = none ∧ resolveLevel (levelOperand 2#32) = .deflate 2 ∧
    resolveLevel (levelOperand 9#32) = .deflate 9 ∧ resolveLevel (levelOperand 0xFFFFFFFF#32) = .deflate 6 ∧
    resolveLevel (levelOperand 10#32) = .invalid ∧ resolveLevel (levelOperand 0xFFFFFFFD#32) = .invalid ∧
    resolveLevel (levelOperand 1#32) = .otherMode := by decide

theorem witness_RefusedModes : State.reset.m.faulted = none ∧ levelOperand 0#32 = 0 ∧ levelOperand 1#32 = 1 ∧
    levelOperand 0xFFFFFFFE#32 = -2 := by decide

theorem witness_ResetClears : MatcherReady (closedAt 6) ∧ ([0x61#8] : List Byte) ≠ [] := ⟨⟨rfl, rfl⟩, nofun⟩

/-- An empty window and "aaaaa", whose two complete groups share a bucket; and a window with a byte in it. -/
theorem witness_FillWindowPrimes :
    (MatcherReady (configuredAt 6) ∧ (configuredAt 6).m.err = .noError ∧ (configuredAt 6).m.index = 0 ∧
      (configuredAt 6).m.windowEnd = 0 ∧ ∃ t, exec (.mFillWindow (List.replicate 5 0x61#8)) (configuredAt 6) = .next t ∧
        (t.m.windowEnd, bucket t.m 0, bucket t.m 1) = (5, 124160, 124160)) ∧
    MatcherReady (pendingAt 6 [0x61#8] []) ∧ (pendingAt 6 [0x61#8] []).m.err = .noError ∧ (pendingAt 6 [0x61#8] []).m.windowEnd ≠ 0 :=
  ⟨⟨⟨rfl, rfl⟩, rfl, rfl, rfl, exec_of_after (by decide +kernel)⟩, ⟨rfl, rfl⟩, rfl, by decide⟩

/-- The last pending count below the lookahead minimum, and the last byte the window has room for. -/
theorem witness_WriteOfFewBytes : ∀ x ∈ [(0, 261), (65273, 65534)],
    let s : State := { configuredAt 6 with m := { (configuredAt 6).m with index := x.1, windowEnd := x.2 } }
    s.m.configured = true ∧ s.m.faulted = none ∧ s.m.err = .noError ∧ s.m.sync = false ∧ ([0#8, 0#8] : List Byte) ≠ [] ∧
      s.m.index < 65274 ∧ s.m.windowEnd < s.m.index + 262 ∧ s.m.windowEnd + [0#8, 0#8].length ≤ 65536 := by decide +kernel

/-- Three bytes pending, and as many answers ready as the three commands can use. -/
theorem witness_stream : let s := pendingAt 6 [0x61#8, 0x62#8, 0x63#8] (List.replicate 6 none)
    s.Inv ∧ MatcherReady s ∧ s.m.err = .noError ∧ Calm s.e (s.m.windowEnd - s.m.index + 3) :=
  ⟨pending_inv _ (by decide) (by decide) (by decide), ⟨rfl, rfl⟩, rfl, rfl, by decide,
    fun _ ha => List.eq_of_mem_replicate ha⟩

theorem witness_WriteCompletes : let s := pendingAt 6 [0x61#8, 0x62#8, 0x63#8] (List.replicate 6 none)
    s.Inv ∧ MatcherReady s ∧ s.m.err = .noError ∧ Calm s.e (s.m.windowEnd - s.m.index + [0x61#8, 0x62#8, 0x63#8].length) :=
  witness_stream

theorem witness_SyncFlushCompletes : (let s := pendingAt 6 [0x61#8, 0x62#8, 0x63#8] (List.replicate 6 none)
      s.Inv ∧ MatcherReady s ∧ s.m.err = .noError ∧ Calm s.e (s.m.windowEnd - s.m.index + 3)) ∧
    let s := pendingAt 6 [] [none, none]
    MatcherReady s ∧ s.m.err = .noError ∧ s.m.index = s.m.windowEnd ∧ s.m.windowEnd ≤ 65536 ∧ s.m.tokq = [] ∧
      s.m.byteAvailable = false ∧ s.e.err = none ∧ s.e.answers = none :: none :: [] :=
  ⟨witness_stream, ⟨rfl, rfl⟩, rfl, rfl, by decide, rfl, rfl, rfl, rfl⟩

theorem witness_CloseCompletes : (let s := pendingAt 6 [0x61#8, 0x62#8, 0x63#8] (List.replicate 6 none)
      s.Inv ∧ MatcherReady s ∧ s.m.err = .noError ∧ Calm s.e (s.m.windowEnd - s.m.index + 3)) ∧
    (MatcherReady (closedAt 6) ∧ (closedAt 6).m.err = .closed) ∧ MatcherReady (failedAt 6) ∧ (failedAt 6).m.err = .io 7#32 :=
  ⟨witness_stream, ⟨⟨rfl, rfl⟩, rfl⟩, ⟨rfl, rfl⟩, rfl⟩

theorem witness_EmptyStream : (pendingAt 9 [] [none, none]).m.faulted = none ∧
    resolveLevel (levelOperand 6#32) = .deflate 6 ∧ (pendingAt 9 [] [none, none]).e.answers = none :: none :: [] := by decide

theorem witness_StickyStreamErrors : (∃ t, (failedAt 6).Inv ∧ exec (.mWrite [0x61#8]) (failedAt 6) = .next t) ∧
    (MatcherReady (failedAt 6) ∧ (failedAt 6).m.err = .io 7#32 ∧ shortCircuited .mSyncFlush = true) ∧
    MatcherReady (closedAt 6) ∧ (closedAt 6).m.err = .closed ∧ shortCircuited (.mFillWindow []) = true :=
  ⟨⟨_, failed_inv (by decide) (by decide), rfl⟩, ⟨⟨rfl, rfl⟩, rfl, rfl⟩, ⟨rfl, rfl⟩, rfl, rfl⟩

theorem witness_StickyEmitter : ∃ t, (failedAt 6).Inv ∧ (failedAt 6).e.err = some 7#32 ∧ exec .mClose (failedAt 6) = .next t ∧
    (∀ a, Instr.mClose ≠ .mConfig a) ∧ ∀ dict, Instr.mClose ≠ .mReset dict :=
  ⟨_, failed_inv (by decide) (by decide), rfl, rfl, nofun, nofun⟩

theorem witness_ResetEquivalence : (failedAt 6).Inv ∧ (closedAt 9).Inv ∧ MatcherReady (failedAt 6) ∧ (closedAt 9).m.faulted = none ∧
    resolveLevel (levelOperand 6#32) = .deflate (failedAt 6).m.params.level ∧ (closedAt 9).e.answers = (failedAt 6).e.answers ∧
    (closedAt 9).e.draws = (failedAt 6).e.draws ∧
    (∀ i ∈ [Instr.mWrite [0x61#8], .mSyncFlush, .mClose], unitOfInstr i = some .matcher) ∧
    ∀ i ∈ [Instr.mConfig 9#32, .mWrite [0x61#8]], unitOfInstr i = some .matcher := by
  have h := (configured_inv (l := 9) (by decide) (by decide)).m
  refine ⟨failed_inv (by decide) (by decide), ⟨⟨h.shape.withErr .closed, nofun, nofun⟩, decoder_powerOn_inv 0, fun c => ⟨nofun, nofun⟩⟩,
    ⟨rfl, rfl⟩, rfl, by decide, rfl, rfl, by decide, by decide⟩

theorem answered_flush : ∃ t, exec .mSyncFlush (pendingAt 6 [0x61#8, 0x62#8, 0x63#8] (List.replicate 6 none)) = .next t ∧
    t.m.err = .noError := exec_of_after (by decide +kernel)

theorem answered_write : ∃ t, exec (.mWrite [0x61#8]) (pendingAt 6 [0x61#8, 0x62#8, 0x63#8] (List.replicate 6 none)) = .next t ∧
    t.m.err = .noError := exec_of_after (by decide +kernel)

theorem answered_close : ∃ t, exec .mClose (pendingAt 6 [0x61#8, 0x62#8, 0x63#8] (List.replicate 6 none)) = .next t ∧
    t.m.err = .closed := exec_of_after (by decide +kernel)

/-- A stream of three bytes, none of them sent yet; and an empty one, for the clause of M_FILL_WINDOW. -/
theorem witness_CoverageKept : let s := pendingAt 6 [0x61#8, 0x62#8, 0x63#8] (List.replicate 6 none)
    (s.Inv ∧ MatcherReady s ∧ s.m.err = .noError ∧ s.m.faulted = none ∧ Covers [] [0x61#8, 0x62#8, 0x63#8] s.side ∧
      (∃ t, exec (.mWrite [0x61#8]) s = .next t ∧ t.m.err = .noError) ∧
      (∃ t, exec .mSyncFlush s = .next t ∧ t.m.err = .noError) ∧ ∃ t, exec .mClose s = .next t ∧ t.m.err = .closed) ∧
    (pendingAt 6 [] []).Inv ∧ Covers [] [] (pendingAt 6 [] []).side ∧ sentTokens (pendingAt 6 [] []).e.log = [] ∧
      ∃ t, exec (.mFillWindow [0x61#8]) (pendingAt 6 [] []) = .next t :=
  ⟨⟨witness_stream.1, ⟨rfl, rfl⟩, rfl, rfl, pending_covers _ _, answered_write, answered_flush, answered_close⟩,
    pending_inv _ (by decide) (by decide) (by decide), pending_covers _ _, rfl, _, rfl⟩

theorem witness_OrderPoint : let s := pendingAt 6 [0x61#8, 0x62#8, 0x63#8] (List.replicate 6 none)
    s.Inv ∧ MatcherReady s ∧ s.m.err = .noError ∧ Covers [] [0x61#8, 0x62#8, 0x63#8] s.side ∧
      ∃ t, exec .mSyncFlush s = .next t ∧ t.m.err = .noError :=
  ⟨witness_stream.1, ⟨rfl, rfl⟩, rfl, pending_covers _ _, answered_flush⟩

/-- The state a list of instructions leaves, if each goes on. -/
def afterAll (is : List Instr) (s : State) : Option State :=
  match execAll is s with
  | .next t => some t
  | _ => none

theorem execAll_of_after {is : List Instr} {s : State} {β : Type} {f : State → β} {v : β} (h : (afterAll is s).map f = some v) :
    ∃ t, execAll is s = .next t ∧ f t = v := by
  unfold afterAll at h
  split at h
  · next t ht => exact ⟨t, ht, by simpa using h⟩
  · cases h

/-- A dictionary of two bytes, two pieces with a flush between, and answers enough: the stream is closed, after M_CONFIG and after
M_RESET. -/
theorem witness_RoundTrip : let s := pendingAt 9 [] (List.replicate 8 none)
    let pieces := [Instr.mWrite [0x61#8], .mSyncFlush, .mWrite [0x62#8, 0x63#8]]
    s.Inv ∧ (∀ i ∈ pieces, i = .mSyncFlush ∨ ∃ data, i = .mWrite data) ∧
    (s.m.faulted = none ∧ resolveLevel (levelOperand 6#32) = .deflate 6 ∧
      ∃ t, execAll (.mConfig 6#32 :: .mFillWindow [0x61#8, 0x62#8] :: (pieces ++ [.mClose])) s = .next t ∧ t.m.err = .closed) ∧
    MatcherReady s ∧ ∃ t, execAll (.mReset [0x61#8, 0x62#8] :: (pieces ++ [.mClose])) s = .next t ∧ t.m.err = .closed := by
  refine ⟨pending_inv _ (by decide) (by decide) (by decide), fun i hi => ?_, ⟨rfl, by decide, execAll_of_after (by decide +kernel)⟩,
    ⟨rfl, rfl⟩, execAll_of_after (by decide +kernel)⟩
  simp only [List.mem_cons, List.not_mem_nil, or_false] at hi
  rcases hi with rfl | rfl | rfl
  · exact .inr ⟨_, rfl⟩
  · exact .inl rfl
  · exact .inr ⟨_, rfl⟩

theorem witness_RequestsWellFormed : let s := pendingAt 6 [0x61#8, 0x62#8, 0x63#8] (List.replicate 6 none)
    ∃ t, s.Inv ∧ exec .mSyncFlush s = .next t ∧ ∀ r ∈ s.e.log, GoodRequest r := by
  obtain ⟨t, h, -⟩ := answered_flush
  exact ⟨t, witness_stream.1, h, nofun⟩

/-- Two Matchers with three bytes pending and different bytes after them. -/
theorem witness_WindowTailUnobservable : let s := pendingAt 6 [0x61#8, 0x62#8, 0x63#8] (List.replicate 6 none)
    let s' : State := { s with m := { s.m with win := Memory.cellsFrom 0 [0x61#8, 0x62#8, 0x63#8, 0x64#8], winEpoch := 1 } }
    ∃ t, s.Inv ∧ unitOfInstr .mSyncFlush = some .matcher ∧ s.m.Alike s'.m ∧ s'.e = s.e ∧ exec .mSyncFlush s = .next t := by
  obtain ⟨t, h, -⟩ := answered_flush
  refine ⟨t, witness_stream.1, rfl, ⟨rfl, fun a ha => ?_⟩, rfl, h⟩
  have ha : a < 3 := ha
  rcases (by omega : a = 0 ∨ a = 1 ∨ a = 2) with rfl | rfl | rfl <;> rfl

/-! ### DictDecoder commands -/

/-- The least and the greatest size, and a bad one. -/
theorem witness_InitHistory : State.reset.d.faulted = none ∧ (∀ size ∈ [1#32, 32768#32], 1 ≤ size.toNat ∧ size.toNat ≤ Config.ddSizeMax) ∧
    ((0#32 : Word32).toNat = 0 ∨ Config.ddSizeMax < (0#32 : Word32).toNat) := by
  refine ⟨rfl, fun size hs => ?_, .inl rfl⟩
  simp only [List.mem_cons, List.not_mem_nil, or_false] at hs
  unfold Config.ddSizeMax
  rcases hs with rfl | rfl
  · simp; omega
  · simp

/-- Three bytes of a DictDecoder of eight, and eight. -/
def three : State := historyOf [0x61#8, 0x62#8, 0x63#8] 3 false

def eight : State := historyOf (List.replicate 8 0x61#8) 3 false

/-- Six bytes of the second pass. -/
def wrapped : State := historyOf (List.replicate 6 0x61#8) 3 true

/-- Three bytes, one of them staged, and an open view. -/
def staged : State := { three with d := { three.d with stashPos := 2, stashLen := 1, viewLen := 5 } }

theorem witness_WriteByteAppends : (DecoderReady three ∧ three.d.stashLen = 0 ∧ three.d.wrPos < three.d.size) ∧
    DecoderReady eight ∧ eight.d.stashLen = 0 ∧ eight.d.wrPos = eight.d.size :=
  ⟨⟨⟨rfl, rfl⟩, rfl, by decide⟩, ⟨rfl, rfl⟩, rfl, rfl⟩

/-- The last index of an open view and the first outside it; all the free space and one byte more. -/
theorem witness_WriteView : let s : State := { three with d := { three.d with viewLen := 5 } }
    DecoderReady s ∧ s.d.stashLen = 0 ∧ s.d.wrPos + s.d.viewLen ≤ s.d.size ∧ (4#32 : Word32).toNat < s.d.viewLen ∧
      s.d.viewLen ≤ (5#32 : Word32).toNat ∧ (5#32 : Word32).toNat ≤ s.d.size - s.d.wrPos ∧
      s.d.size - s.d.wrPos < (6#32 : Word32).toNat := ⟨⟨rfl, rfl⟩, rfl, by decide⟩

/-- Distance 1 and the greatest distance of each pass; distance 0 and one too far. -/
theorem witness_WriteCopyReplays : (three.d.Inv ∧ DecoderReady three ∧ three.d.stashLen = 0 ∧ (3#32 : Word32).toNat ≤ histSize three.d ∧
      histSize three.d < (4#32 : Word32).toNat ∧ (0#32 : Word32).toNat = 0) ∧
    wrapped.d.Inv ∧ DecoderReady wrapped ∧ wrapped.d.stashLen = 0 ∧ (1#32 : Word32).toNat ≤ histSize wrapped.d ∧
      (8#32 : Word32).toNat ≤ histSize wrapped.d ∧ histSize wrapped.d < (9#32 : Word32).toNat :=
  ⟨⟨history_inv _ (by decide) (by decide), ⟨rfl, rfl⟩, rfl, by decide⟩,
    history_inv _ (by decide) (by decide), ⟨rfl, rfl⟩, rfl, by decide⟩

/-- A copy that just fits, from the first byte; one that is too long, and one that would wrap; distance 0. -/
theorem witness_TryWriteCopyCopies : three.d.Inv ∧ DecoderReady three ∧ three.d.stashLen = 0 ∧
    (1 ≤ (3#32 : Word32).toNat ∧ (3#32 : Word32).toNat ≤ three.d.wrPos ∧ three.d.wrPos + (5#24 : BitVec 24).toNat ≤ three.d.size) ∧
    three.d.size < three.d.wrPos + (6#24 : BitVec 24).toNat ∧ three.d.wrPos < (4#32 : Word32).toNat ∧ (0#32 : Word32).toNat = 0 :=
  ⟨history_inv _ (by decide) (by decide), ⟨rfl, rfl⟩, rfl, by decide⟩

theorem witness_TryCopyEqualsCopy : three.d.Inv ∧ 1 ≤ (3#32 : Word32).toNat ∧ (3#32 : Word32).toNat ≤ three.d.wrPos ∧
    three.d.wrPos + (5#24 : BitVec 24).toNat ≤ three.d.size := ⟨history_inv _ (by decide) (by decide), by decide⟩

theorem witness_BulkWriteEqualsBytes : three.d.Inv ∧ DecoderReady three ∧ three.d.stashLen = 0 ∧ List.replicate 5 0x78#8 ≠ [] ∧
    three.d.wrPos + (List.replicate 5 0x78#8).length ≤ three.d.size :=
  ⟨history_inv _ (by decide) (by decide), ⟨rfl, rfl⟩, rfl, by decide⟩

theorem witness_DrainsAdvance : ∀ s ∈ [three, eight], s.d.configured = true ∧ s.d.faulted = none ∧ s.d.stashLen = 0 ∧
    s.d.rdPos ≤ s.d.wrPos ∧ s.d.wrPos ≤ s.d.size := by decide

theorem witness_StashReads : DecoderReady staged ∧ staged.d.stashPos + staged.d.stashLen ≤ staged.d.size := ⟨⟨rfl, rfl⟩, by decide⟩

theorem witness_QueriesArePure : DecoderReady staged := ⟨rfl, rfl⟩

theorem staged_inv : staged.Inv :=
  have h := history_inv (bytes := [0x61#8, 0x62#8, 0x63#8]) (rd := 3) false (by decide) (by decide)
  ⟨matcher_powerOn_inv 0, ⟨h.histWf, h.rd_le, h.wr_le, (by decide : 3 + 5 ≤ 8), (by decide : 2 + 1 ≤ 8), h.size_range⟩,
    fun _ => ⟨nofun, nofun⟩⟩

theorem witness_DrainConserves : ∃ t, staged.d.Inv ∧ DecoderReady staged ∧ unitOfInstr (.ddStashRead 1#32) = some .decoder ∧
    constructs (.ddStashRead 1#32) = false ∧ exec (.ddStashRead 1#32) staged = .next t ∧ t.d.faulted = none :=
  ⟨_, staged_inv.d, ⟨rfl, rfl⟩, rfl, rfl, rfl, rfl⟩

/-! ### Faults, check order, reset -/

/-- The bounds of the undefined opcodes of each unit and of no unit; and a field that is not legal in each unit. -/
theorem witness_MalformedWordsFault : State.reset.refused = false ∧ State.reset.m.faulted = none ∧ State.reset.d.faulted = none ∧
    ([0x16#64, 0x1F#64, 0x2E#64, 0x2F#64, 0x0F#64, 0x30#64].map fun w => (opField w).toNat) = [0x16, 0x1F, 0x2E, 0x2F, 0x0F, 0x30] ∧
    commandRow (opField 0x114#64).toNat = some (.zero, .zero) ∧
    ¬ FieldsLegal (.zero, .zero) (aField 0x114#64).toNat (bField 0x114#64).toNat 0 ∧
    commandRow (opField 0x10021#64).toNat = some (.byteOperand, .zero) ∧
    ¬ FieldsLegal (.byteOperand, .zero) (aField 0x10021#64).toNat (bField 0x10021#64).toNat 0 := by
  refine ⟨rfl, rfl, rfl, by decide, by decide, fun h => absurd h.1 (by decide : ¬ (aField 0x114#64).toNat = 0), by decide,
    fun h => absurd h.1 (by decide : ¬ (aField 0x10021#64).toNat < 256)⟩

/-- A latched unit; an unconfigured one; a failed and a closed stream; staged bytes; and a word of each unit that decodes. -/
theorem witness_CheckOrder : unitOf (opField 0x14#64) = some .matcher ∧ unitOf (opField 0x27#64) = some .decoder ∧
    decode (.command 0x14#64 []) = .ok .mSyncFlush ∧ decode (.command 0x27#64 []) = .ok .ddReadFlush ∧
    latchOf .matcher (afterFault .matcher .fillStale State.reset) = some .fillStale ∧ latchOf .matcher State.reset = none ∧
    commandRow (opField 0x16#64).toNat = none ∧ constructs .mSyncFlush = false ∧ State.reset.m.configured = false ∧
    (latchOf .matcher (failedAt 6) = none ∧ (failedAt 6).m.configured = true ∧ shortCircuited .mSyncFlush = true ∧
      (failedAt 6).m.err = .io 7#32 ∧ (closedAt 6).m.err = .closed) ∧
    latchOf .decoder staged = none ∧ staged.d.configured = true ∧ blockedByStash .ddReadFlush = true ∧ 0 < staged.d.stashLen ∧
    staged.refused = false := by
  decide

theorem witness_FaultLatchTerminal : unitOf (opField 0x14#64) = some .matcher ∧
    latchOf .matcher (afterFault .matcher .fillStale State.reset) = some .fillStale ∧ latchOf .matcher (configuredAt 6) = none ∧
    (configuredAt 6).Inv ∧ (∃ t, runPacket (.command 0x16#64 []) (configuredAt 6) = .next t ∧ latchOf .matcher t = some .badOpcode) ∧
    (∃ t, unitOf (opField 0x30#64) = none ∧ runPacket (.command 0x30#64 []) (configuredAt 6) = .next t ∧
      latchOf .matcher t = some .badOpcode) ∧
    ∃ t, runPacket (.token 0x61#32) (afterFault .matcher .fillStale State.reset) = .next t :=
  ⟨by decide, rfl, rfl, configured_inv (by decide) (by decide), ⟨_, rfl, rfl⟩, ⟨_, by decide, rfl, rfl⟩, ⟨_, rfl⟩⟩

/-- One state and instruction for each fault a valid instruction raises. -/
theorem witness_FaultCauses : FaultCause .mClose State.reset .notConfigured ∧
    (FaultCause (.mFillWindow []) (pendingAt 6 [0x61#8] []) .fillStale ∧ (pendingAt 6 [0x61#8] []).Inv ∧
      MatcherReady (pendingAt 6 [0x61#8] []) ∧ (pendingAt 6 [0x61#8] []).m.err = .noError) ∧
    (FaultCause (.ddWriteByte 0#8) eight .ddNoSpace ∧ DecoderReady eight ∧ eight.d.stashLen = 0) ∧
    FaultCause (.ddWriteCopy 4#32 1#24) three .ddBadDist ∧ FaultCause (.ddTryWriteCopy 0#32 1#24) three .ddBadDist ∧
    FaultCause (.ddWriteMark 6#32) three .ddMarkOver ∧ FaultCause (.ddSlicePut 0#32 0#8) three .ddSliceOob ∧
    FaultCause .ddReadFlush staged .ddStashPending ∧
    ∃ t, exec (.ddWriteByte 0#8) eight = .next t ∧ latchOf .decoder eight = none ∧ latchOf .decoder t = some .ddNoSpace :=
  ⟨⟨rfl, .inl ⟨rfl, rfl⟩⟩, ⟨⟨[], rfl, .inr (by decide)⟩, pending_inv _ (by decide) (by decide) (by decide), ⟨rfl, rfl⟩, rfl⟩,
    ⟨⟨_, rfl, rfl⟩, ⟨rfl, rfl⟩, rfl⟩, .inl ⟨_, _, rfl, .inr (by decide)⟩, .inr ⟨_, _, rfl, rfl⟩, ⟨_, rfl, by decide⟩,
    ⟨_, _, rfl, Nat.le_refl _⟩, ⟨rfl, by decide⟩, _, rfl, rfl, rfl⟩

theorem witness_PowerOnState : State.reset.refused = false ∧ State.reset.m.faulted = none ∧ State.reset.d.faulted = none ∧
    (∃ t, step (placeInput .powerOn staged) = .next t) ∧ unitOfInstr .ddHistSize = some .decoder ∧ constructs .ddHistSize = false ∧
    resolveLevel (levelOperand 6#32) = .deflate 6 ∧ (1 ≤ (8#32 : Word32).toNat ∧ (8#32 : Word32).toNat ≤ Config.ddSizeMax) ∧
    ∃ t, step (placeInput .powerOn (afterFault .matcher .fillStale State.reset)) = .next t ∧
      latchOf .matcher (placeInput .powerOn (afterFault .matcher .fillStale State.reset)) = some .fillStale ∧ latchOf .matcher t = none :=
  ⟨rfl, rfl, rfl, ⟨_, rfl⟩, rfl, rfl, by decide, ⟨by decide, by unfold Config.ddSizeMax; simp; omega⟩, _, rfl, rfl, rfl⟩

/-! ### The whole machine -/

theorem witness_EveryCommandAnswers : staged.Inv ∧ (opField 0x12A#64 = 0x2A#8) ∧
    (∃ t, runPacket (.command 0x12A#64 []) staged = .next t ∧ lastAnswer t = some (.ok, 1#32)) ∧
    (failedAt 6).Inv ∧ ∃ t, runPacket (.command 0x14#64 []) (failedAt 6) = .next t ∧ lastAnswer t = some (.io, 7#32) :=
  ⟨staged_inv, by decide, ⟨_, rfl, by decide⟩, failed_inv (by decide) (by decide), _, rfl, by decide⟩

theorem witness_InvKept : ∃ t, staged.Inv ∧ step (placeInput (.send (.command 0x12A#64 [])) staged) = .next t :=
  ⟨_, ⟨staged_inv.m, staged_inv.d, staged_inv.sticky⟩, rfl⟩

/-- A command of each unit and a token word; and two states that differ in the other unit. -/
theorem witness_UnitsIndependent : unitOfInstr .mClose = some .matcher ∧ unitOfInstr .ddReadFlush = some .decoder ∧
    unitOfInstr (.tokenLit 0#8) = none ∧ (∃ t, exec (.tokenLit 0#8) State.reset = .next t) ∧
    (∃ t, (configuredAt 6).m = ({ configuredAt 6 with d := three.d } : State).m ∧ exec (.mReset []) (configuredAt 6) = .next t) ∧
    ∃ t, ({ three with m := (configuredAt 6).m } : State).d = three.d ∧ exec .ddReadFlush three = .next t :=
  ⟨rfl, rfl, rfl, ⟨_, rfl⟩, ⟨_, rfl, rfl⟩, _, rfl, rfl⟩

/-! ### The step and its flushes -/

/-- A start at the flush position, and one past it, which stands for bytes shifted out; an Emitter that takes the block, and one
that reports error 7. -/
theorem witness_BlockFlush : (0 : Nat) < 1 ∧ ({ fullAt with blockStart := 1 } : Matcher).blockStart ≤ 1 ∧
    1 < ({ fullAt with blockStart := 2147483647 } : Matcher).blockStart ∧
    (∀ r, (emitRequest (answering [none]) r).err = none) ∧ ∀ r, (emitRequest (answering [some 7#32]) r).err = some 7#32 :=
  ⟨by decide, by decide, by decide, fun _ => rfl, fun _ => rfl⟩

/-- Outside a flush, none pending and 261. -/
theorem witness_EndOfDataFlushes_lookahead : ∀ n ∈ [0, 261],
    let m : Matcher := { (configuredAt 6).m with windowEnd := n }
    m.sync = false ∧ m.index ≤ m.windowEnd ∧ m.windowEnd < m.index + 262 := by decide

/-- All processed: nothing queued; and a literal held back, which the flush queues. -/
theorem witness_EndOfDataFlushes : ∀ held, let m := (scanAt 6 [0x61#8] 1 3 0 held []).m
    m.Shape ∧ m.Live ∧ m.sync = true ∧ m.index = m.windowEnd ∧ m.byteAvailable = held ∧ m.tokq = [] := by
  intro held
  cases held
  all_goals
    refine ⟨(scan_good ?_ ?_ ?_ ?_ ?_ ?_ ?_ ?_).1, (scan_good ?_ ?_ ?_ ?_ ?_ ?_ ?_ ?_).2, rfl, rfl, rfl, rfl⟩
  all_goals decide +kernel

/-- Inside a flush and outside one. -/
theorem witness_StepIterates : (∀ held, let m := (scanAt 6 [0x61#8] 1 3 0 held []).m
      m.Shape ∧ m.Live ∧ m.sync = true ∧ m.err = .noError ∧ (answering [none]).err = none) ∧
    let u := (pendingAt 6 (List.replicate 262 0x61#8) []).side
    u.m.Shape ∧ u.m.Live ∧ u.m.err = .noError ∧ u.e.err = none :=
  ⟨fun held => ⟨(witness_EndOfDataFlushes held).1, (witness_EndOfDataFlushes held).2.1, rfl, rfl, rfl⟩,
    witness_EmissionChoice_lookahead.1, witness_EmissionChoice_lookahead.2.1, rfl, rfl⟩

theorem witness_CommandsStep : let s := pendingAt 6 [0x61#8, 0x62#8, 0x63#8] (List.replicate 6 none)
    s.Inv ∧ MatcherReady s ∧ s.m.err = .noError := ⟨witness_stream.1, witness_stream.2.1, rfl⟩

end Sys2Proof.Tests
end

section
/-! SUPPORT. What a step does, input by input, and which token words are no token (00_scope.md R14, 40_token.md R85, R104). -/

namespace Sys2Proof.Machine

/-! ### One step, by the refusal mark and the next input -/

theorem step_of_refused {s : State} (h : s.refused = true) : step s = .refused .refusedMode := by
  rw [step, if_pos h]

theorem step_of_inputs_nil {s : State} (hr : s.refused = false) (h : s.inputs = []) : step s = .next s := by
  simp [step, hr, h]

theorem step_of_inputs_cons {s : State} {x : HostInput} {rest : List HostInput} (hr : s.refused = false)
    (h : s.inputs = x :: rest) : step s = runInput x { s with inputs := rest } := by
  simp [step, hr, h]

theorem step_placeInput {s : State} (hr : s.refused = false) (x : HostInput) :
    step (placeInput x s) = runInput x s :=
  step_of_inputs_cons (s := placeInput x s) hr rfl

theorem runPacket_of_decode_error {p : Packet} {e : DecodeError} (h : decode p = .error e) (s : State) :
    runPacket p s = runMalformed s e := by
  rw [runPacket, h]

theorem step_placeInput_of_decode_error {s : State} {p : Packet} {e : DecodeError} (hr : s.refused = false)
    (h : decode p = .error e) : step (placeInput (.send p) s) = runMalformed s e :=
  (step_placeInput hr _).trans (runPacket_of_decode_error h s)

/-! ### Token words, by their type (R84, R85) -/

theorem tokenKind_eq_iff (t : Token) (k : BitVec 2) : tokenKind t = k ↔ t.toNat / 1073741824 = k.toNat := by
  have ht := t.isLt
  rw [← BitVec.toNat_inj, tokenKind_toNat, Nat.mod_eq_of_lt (by omega)]

/-- The reserved types 0b10 and 0b11 are the words with bit 31 set. -/
theorem decode_token_of_reserved {t : Token} (h : 0x80000000 ≤ t.toNat) :
    decode (.token t) = .error .reservedToken := by
  have h0 : tokenKind t ≠ 0b00#2 := by rw [Ne, tokenKind_eq_iff, BitVec.toNat_ofNat]; omega
  have h1 : tokenKind t ≠ 0b01#2 := by rw [Ne, tokenKind_eq_iff, BitVec.toNat_ofNat]; omega
  simp [decode, decodeToken, h0, h1]

/-- A word of the literal or the match type is a token of the layout of R84, or no token. -/
theorem decode_token_of_not_reserved {t : Token} (h : t.toNat < 0x80000000) :
    (∃ i, decode (.token t) = .ok i) ∨ decode (.token t) = .error .notAToken := by
  have hk : tokenKind t = 0b00#2 ∨ tokenKind t = 0b01#2 := by
    simp only [tokenKind_eq_iff, BitVec.toNat_ofNat]; omega
  rcases hk with hk | hk
  · by_cases hl : t.toNat < 256
    · exact .inl ⟨.tokenLit (lowByte t), by simp [decode, decodeToken, hk, hl]⟩
    · exact .inr (by simp [decode, decodeToken, hk, hl])
  · by_cases ho : (t.extractLsb' 0 22).toNat < 32768
    · exact .inl ⟨.tokenMatch (t.extractLsb' 22 8) (t.extractLsb' 0 22), by simp only [decode, decodeToken, hk, ho]; rfl⟩
    · exact .inr (by simp only [decode, decodeToken, hk, ho]; rfl)

/-! ### The obligation -/

/-- Settles O7: the refusal mark and the empty input list are the first two branches of `step`; the type of a token word decides
which refusal its decoding names. -/
theorem stepWithoutInstruction : Obligations.StepWithoutInstruction := by
  intro s
  refine ⟨step_of_refused, step_of_inputs_nil, fun hr t ht => ?_, fun hr t ht hno => ?_⟩
  · exact step_placeInput_of_decode_error hr (decode_token_of_reserved ht)
  · obtain ⟨i, hi⟩ | he := decode_token_of_not_reserved ht
    · exact absurd hi (hno i)
    · exact step_placeInput_of_decode_error hr he

end Sys2Proof.Machine
end

section
/-! SUPPORT. The invariant of the whole state over a step: power-on, a malformed word, an instruction (10_state.md R21 to R27,
60_exceptions.md R201, R220); and an Emitter error, which stays (10_state.md R29, 20_memory.md R70). -/

namespace Sys2Proof.Machine

/-! ### What is no instruction keeps the invariant -/

theorem setLatch_inv {s : State} (h : s.Inv) (u : UnitName) (f : FaultCode) : (setLatch u f s).Inv := by
  cases u with
  | matcher => exact ⟨h.m.faulted _, h.d, h.sticky⟩
  | decoder => exact ⟨h.m, h.d.faulted _, h.sticky⟩

theorem respond_inv {s : State} (h : s.Inv) (status : Status) (value : Nat) (data : List Byte) :
    (respond s status value data).Inv := ⟨h.m, h.d, h.sticky⟩

theorem raiseMalformed_inv {s : State} (h : s.Inv) (u : UnitName) (f : FaultCode) : (raiseMalformed u f s).Inv := by
  unfold raiseMalformed
  split
  · exact respond_inv h _ _ _
  · exact respond_inv (setLatch_inv h u f) _ _ _

theorem raiseNoUnit_inv {s : State} (h : s.Inv) : (raiseNoUnit s).Inv := by
  rw [raiseNoUnit_eq]
  exact ⟨h.m.faulted _, h.d.faulted _, h.sticky⟩

theorem runMalformed_inv {s t : State} (h : s.Inv) {e : DecodeError} (ht : runMalformed s e = .next t) : t.Inv := by
  cases e with
  | badOpcode u? =>
    cases u? with
    | some u => cases ht; exact raiseMalformed_inv h u .badOpcode
    | none => cases ht; exact raiseNoUnit_inv h
  | badField u => cases ht; exact raiseMalformed_inv h u .badField
  | reservedToken => cases ht
  | notAToken => cases ht
  | truncated => cases ht; exact raiseNoUnit_inv h

/-- Power-on needs no invariant before it: it sets everything the invariant speaks of (R220). -/
theorem powerOn_inv (s : State) : (powerOn s).Inv :=
  ⟨matcher_powerOn_inv _, decoder_powerOn_inv _, fun _ => ⟨nofun, nofun⟩⟩

/-! ### One input, one step -/

theorem runPacket_inv {s t : State} (h : s.Inv) {p : Packet} (ht : runPacket p s = .next t) : t.Inv := by
  cases hd : decode p with
  | ok i => rw [runPacket, hd] at ht; exact exec_inv h ht
  | error e => rw [runPacket_of_decode_error hd] at ht; exact runMalformed_inv h ht

theorem runInput_inv {s t : State} (h : s.Inv) {x : HostInput} (ht : runInput x s = .next t) : t.Inv := by
  cases x with
  | powerOn => cases ht; exact powerOn_inv s
  | send p => exact runPacket_inv h ht

/-- The Host's inputs are no part of the invariant. -/
theorem withInputs_inv {s : State} (h : s.Inv) (inputs : List HostInput) : State.Inv { s with inputs := inputs } :=
  ⟨h.m, h.d, h.sticky⟩

theorem step_inv {s t : State} (h : s.Inv) (ht : step s = .next t) : t.Inv := by
  cases hr : s.refused with
  | true => rw [step_of_refused hr] at ht; cases ht
  | false =>
    cases hi : s.inputs with
    | nil => rw [step_of_inputs_nil hr hi] at ht; cases ht; exact h
    | cons x rest => rw [step_of_inputs_cons hr hi] at ht; exact runInput_inv (withInputs_inv h rest) ht

/-! ### The emitter port under an error -/

theorem finishDecoder_emitter {s t : State} {v : Verdict Decoder} (ht : finishDecoder s v = .next t) : t.e = s.e := by
  cases v <;> cases ht <;> rfl

theorem decoderCommand_emitter {p : Preamble} {body : Decoder → Decoder → Verdict Decoder} {s t : State}
    (ht : decoderCommand p body s = .next t) : t.e = s.e := by
  unfold decoderCommand at ht
  split at ht
  · cases ht; rfl
  · split at ht
    · split at ht
      · cases ht; rfl
      · exact finishDecoder_emitter ht
    · cases ht; rfl

/-- No DictDecoder command touches the emitter port (R73). -/
theorem exec_decoder_emitter {i : Instr} (hu : unitOfInstr i = some .decoder) {s t : State} (ht : exec i s = .next t) :
    t.e = s.e := by
  cases hc : constructs i with
  | false => rw [exec_decoder hu hc] at ht; exact decoderCommand_emitter ht
  | true =>
    cases i with
    | ddInit size dict =>
      obtain ⟨_, -, he⟩ | ⟨-, -, he⟩ | ⟨-, -, he⟩ := exec_ddInit_cases size dict s
      all_goals cases he.symm.trans ht; rfl
    | mConfig level => cases hu
    | _ => cases hc

/-- A Matcher command but M_CONFIG and M_RESET finds a set error in M.err too and ends there (R206), so it sends nothing. -/
theorem exec_matcher_emitter {i : Instr} (hu : unitOfInstr i = some .matcher) {s t : State} {c : Word32} (h : s.Inv)
    (hc : s.e.err = some c) (hconfig : ∀ a, i ≠ .mConfig a) (hreset : ∀ dict, i ≠ .mReset dict)
    (ht : exec i s = .next t) : t.e = s.e := by
  rcases exec_matcher_cases hu h with ⟨f, -, he⟩ | ⟨-, -, -, he⟩ |
    ⟨-, -, ⟨u', status, value, -, hdone, he⟩ | ⟨dict, -, -, -, he⟩ | ⟨level, -, -, he⟩⟩
  · cases he.symm.trans ht; rfl
  · cases he.symm.trans ht; rfl
  · cases he.symm.trans ht; exact hdone.sticky c hc hconfig hreset
  · cases he.symm.trans ht; rfl
  · cases he.symm.trans ht; rfl

/-! ### The obligations -/

/-- Settles O54: both units meet their invariants at power-on, and neither M.err nor E.err is set. -/
theorem invReset : Obligations.InvReset := ⟨matcher_powerOn_inv 0, decoder_powerOn_inv 0, fun _ => ⟨nofun, nofun⟩⟩

/-- Settles O30: by the unit of the instruction; only a Matcher command can reach the emitter port, and it is cut short. -/
theorem stickyEmitter : Obligations.StickyEmitter := by
  intro i s t c h hc ht hconfig hreset
  cases hu : unitOfInstr i with
  | none =>
    obtain ⟨r, he⟩ := exec_token hu s
    cases he.symm.trans ht; rfl
  | some unit =>
    cases unit with
    | matcher => exact exec_matcher_emitter hu h hc hconfig hreset ht
    | decoder => exact exec_decoder_emitter hu ht

/-- Settles O55: by the input the step takes; an instruction keeps the invariant by `exec_inv`. -/
theorem invKept : Obligations.InvKept := fun _ _ => step_inv

end Sys2Proof.Machine
end

section
/-! SUPPORT. What a command can do to the whole state, for any state before it: a Matcher command to its side, a DictDecoder command to
its unit, each with one response (20_memory.md R73, R80); and the requests a command sends (20_memory.md R70). -/

namespace Sys2Proof.Machine

/-! ### The effect of a Matcher command -/

/-- The state with another Matcher's side, one more response, and the refusal mark set where `mark` says so. -/
def matcherEffect (u : MatcherSide) (r : Response) (mark : Bool) (s : State) : State :=
  { s with m := u.m, e := u.e, responses := s.responses ++ [r], refused := mark || s.refused }

/-- The end of a Matcher command depends on the verdict and the side before it only. -/
theorem finishMatcher_effect (v : Verdict MatcherSide) (u : MatcherSide) :
    (∃ u' r mark, ∀ s, s.side = u → finishMatcher s v = .next (matcherEffect u' r mark s)) ∨
      ∃ f, ∀ s, s.side = u → finishMatcher s v = .fault f := by
  cases v with
  | reply u' status value data => exact .inl ⟨u', ⟨status, BitVec.ofNat 32 value, data⟩, false, fun _ _ => rfl⟩
  | raise u' f => exact .inl ⟨⟨{ u'.m with faulted := some f }, u'.e⟩, ⟨.fault f, 0#32, []⟩, false, fun _ _ => rfl⟩
  | refuse => exact .inl ⟨u, ⟨.refusedMode, 0#32, []⟩, true, by rintro s rfl; rfl⟩
  | stop f => exact .inr ⟨f, fun _ _ => rfl⟩

/-- A Matcher command does to its side, and answers, what the side alone decides. -/
theorem exec_matcher_effect {i : Instr} (hu : unitOfInstr i = some .matcher) (u : MatcherSide) :
    (∃ u' r mark, ∀ s, s.side = u → exec i s = .next (matcherEffect u' r mark s)) ∨
      ∃ f, ∀ s, s.side = u → exec i s = .fault f := by
  cases hf : u.m.faulted with
  | some f =>
    refine .inl ⟨u, ⟨.fault f, 0#32, []⟩, false, ?_⟩
    rintro s rfl
    exact (exec_matcher hu s).trans (matcherCommand_faulted hf _ _)
  | none =>
    by_cases hc : (!constructs i) = false ∨ u.m.configured = true
    · have hrun (s : State) (hs : s.side = u) : exec i s = finishMatcher s (matcherBody i u) := by
        subst hs
        exact (exec_matcher hu s).trans (matcherCommand_run hf hc _)
      obtain ⟨u', r, mark, h⟩ | ⟨f, h⟩ := finishMatcher_effect (matcherBody i u) u
      · exact .inl ⟨u', r, mark, fun s hs => (hrun s hs).trans (h s hs)⟩
      · exact .inr ⟨f, fun s hs => (hrun s hs).trans (h s hs)⟩
    · obtain ⟨hk, hconf⟩ := not_or.mp hc
      refine .inl ⟨⟨{ u.m with faulted := some .notConfigured }, u.e⟩, ⟨.fault .notConfigured, 0#32, []⟩, false, ?_⟩
      rintro s rfl
      rw [exec_matcher hu, Bool.eq_true_of_not_eq_false hk]
      exact matcherCommand_unconfigured hf (Bool.eq_false_of_not_eq_true hconf) _

/-! ### The effect of a DictDecoder command -/

/-- The state with another DictDecoder and one more response. -/
def decoderEffect (d : Decoder) (r : Response) (s : State) : State := { s with d := d, responses := s.responses ++ [r] }

theorem reply_ne_refuse (d : Decoder) (status : Status) (value : Nat) (data : List Byte) :
    Verdict.reply d status value data ≠ .refuse := nofun

theorem raise_ne_refuse (d : Decoder) (f : FaultCode) : Verdict.raise d f ≠ .refuse := nofun

theorem storeHist_ne_refuse {d : Decoder} {a : Nat} {c : Byte} {k : Decoder → Verdict Decoder} (h : ∀ d', k d' ≠ .refuse) :
    storeHist d a c k ≠ .refuse := by
  unfold storeHist
  split
  · exact h _
  · exact nofun

theorem loadHist_ne_refuse {d : Decoder} {a n : Nat} {k : List Byte → Verdict Decoder} (h : ∀ data, k data ≠ .refuse) :
    loadHist d a n k ≠ .refuse := by
  unfold loadHist
  split
  · exact h _
  · exact nofun

theorem writeByteBody_ne_refuse (c : Byte) (d0 d : Decoder) : writeByteBody c d0 d ≠ .refuse := by
  unfold writeByteBody
  split
  · exact raise_ne_refuse _ _
  · exact storeHist_ne_refuse fun _ => reply_ne_refuse _ _ _ _

theorem slicePutBody_ne_refuse (k : Nat) (c : Byte) (d0 d : Decoder) : slicePutBody k c d0 d ≠ .refuse := by
  unfold slicePutBody
  split
  · exact raise_ne_refuse _ _
  · exact storeHist_ne_refuse fun _ => reply_ne_refuse _ _ _ _

theorem writeMarkBody_ne_refuse (n : Nat) (d0 d : Decoder) : writeMarkBody n d0 d ≠ .refuse := by
  unfold writeMarkBody
  split
  · exact raise_ne_refuse _ _
  · exact reply_ne_refuse _ _ _ _

theorem writeCopyBody_ne_refuse (dist len : Nat) (d0 d : Decoder) : writeCopyBody dist len d0 d ≠ .refuse := by
  unfold writeCopyBody
  split
  · exact raise_ne_refuse _ _
  · exact reply_ne_refuse _ _ _ _

theorem tryWriteCopyBody_ne_refuse (dist len : Nat) (d0 d : Decoder) : tryWriteCopyBody dist len d0 d ≠ .refuse := by
  unfold tryWriteCopyBody
  split
  · exact raise_ne_refuse _ _
  · split
    · exact reply_ne_refuse _ _ _ _
    · exact reply_ne_refuse _ _ _ _

/-- Only M_CONFIG is refused (R14, R161). -/
theorem decoderBody_ne_refuse {i : Instr} (hu : unitOfInstr i = some .decoder) (hc : constructs i = false) (d0 d : Decoder) :
    decoderBody i d0 d ≠ .refuse := by
  cases i with
  | ddWriteByte c => exact writeByteBody_ne_refuse c d0 d
  | ddSlicePut k c => exact slicePutBody_ne_refuse k.toNat c d0 d
  | ddWriteMark n => exact writeMarkBody_ne_refuse n.toNat d0 d
  | ddWriteCopy dist len => exact writeCopyBody_ne_refuse dist.toNat len.toNat d0 d
  | ddTryWriteCopy dist len => exact tryWriteCopyBody_ne_refuse dist.toNat len.toNat d0 d
  | ddReadFlush => exact loadHist_ne_refuse fun _ => reply_ne_refuse _ _ _ _
  | ddStashRead max => exact loadHist_ne_refuse fun _ => reply_ne_refuse _ _ _ _
  | ddInit size dict => cases hc
  | mConfig | mReset | mFillWindow | mWrite | mSyncFlush | mClose | tokenLit | tokenMatch => cases hu
  | _ => exact reply_ne_refuse _ _ _ _

theorem finishDecoder_effect {v : Verdict Decoder} (hv : v ≠ .refuse) :
    (∃ d r, ∀ s, finishDecoder s v = .next (decoderEffect d r s)) ∨ ∃ f, ∀ s, finishDecoder s v = .fault f := by
  cases v with
  | reply d status value data => exact .inl ⟨d, ⟨status, BitVec.ofNat 32 value, data⟩, fun _ => rfl⟩
  | raise d f => exact .inl ⟨{ d with faulted := some f }, ⟨.fault f, 0#32, []⟩, fun _ => rfl⟩
  | refuse => exact absurd rfl hv
  | stop f => exact .inr ⟨f, fun _ => rfl⟩

/-- DD_INIT always answers, from the unit alone (R173). -/
theorem exec_ddInit_effect (size : Word32) (dict : List Byte) (d : Decoder) :
    ∃ d' r, ∀ s, s.d = d → exec (.ddInit size dict) s = .next (decoderEffect d' r s) := by
  cases hf : d.faulted with
  | some f =>
    refine ⟨d, ⟨.fault f, 0#32, []⟩, ?_⟩
    rintro s rfl
    simp only [exec, execDdInit, hf]
    rfl
  | none =>
    cases ha : sizeAllowed size.toNat with
    | true =>
      refine ⟨initDecoder d size.toNat dict, ⟨.ok, 0#32, []⟩, ?_⟩
      rintro s rfl
      simp only [exec, execDdInit, hf, ha]
      rfl
    | false =>
      refine ⟨closeView d, ⟨.ddBadSize, 0#32, []⟩, ?_⟩
      rintro s rfl
      simp only [exec, execDdInit, hf, ha]
      rfl

/-- A DictDecoder command does to its unit, and answers, what the unit alone decides. -/
theorem exec_decoder_effect {i : Instr} (hu : unitOfInstr i = some .decoder) (d : Decoder) :
    (∃ d' r, ∀ s, s.d = d → exec i s = .next (decoderEffect d' r s)) ∨ ∃ f, ∀ s, s.d = d → exec i s = .fault f := by
  cases hc : constructs i with
  | true =>
    cases i with
    | ddInit size dict => exact .inl (exec_ddInit_effect size dict d)
    | mConfig level => cases hu
    | _ => cases hc
  | false =>
    cases hf : d.faulted with
    | some f =>
      refine .inl ⟨d, ⟨.fault f, 0#32, []⟩, ?_⟩
      rintro s rfl
      exact (exec_decoder hu hc s).trans (decoderCommand_faulted hf _ _)
    | none =>
      cases hconf : d.configured with
      | false =>
        refine .inl ⟨{ d with faulted := some .notConfigured }, ⟨.fault .notConfigured, 0#32, []⟩, ?_⟩
        rintro s rfl
        exact (exec_decoder hu hc s).trans (decoderCommand_unconfigured hf hconf _ _)
      | true =>
        by_cases hb : (preambleOf i).blockedByStash = true ∧ 0 < d.stashLen
        · refine .inl ⟨{ d with faulted := some .ddStashPending }, ⟨.fault .ddStashPending, 0#32, []⟩, ?_⟩
          rintro s rfl
          exact (exec_decoder hu hc s).trans (decoderCommand_stashed hf hconf hb.2 hb.1 _)
        · have hb' : (preambleOf i).blockedByStash = false ∨ d.stashLen = 0 := by
            cases h : (preambleOf i).blockedByStash with
            | false => exact .inl rfl
            | true => exact .inr (Nat.eq_zero_of_not_pos fun hp => hb ⟨h, hp⟩)
          have hrun (s : State) (hs : s.d = d) : exec i s = finishDecoder s (decoderBody i d (handed (preambleOf i) d)) := by
            subst hs
            exact (exec_decoder hu hc s).trans (decoderCommand_run hf hconf hb' _)
          obtain ⟨d', r, h⟩ | ⟨f, h⟩ := finishDecoder_effect (decoderBody_ne_refuse hu hc d (handed (preambleOf i) d))
          · exact .inl ⟨d', r, fun s hs => (hrun s hs).trans (h s)⟩
          · exact .inr ⟨f, fun s hs => (hrun s hs).trans (h s)⟩

/-! ### The requests a command sends -/

/-- A Matcher command adds requests of the Emitter's contract to the log, or starts a new one (R70, R30). -/
theorem exec_matcher_requests {i : Instr} (hu : unitOfInstr i = some .matcher) {s t : State} (h : s.Inv) (ht : exec i s = .next t) :
    (∃ l, t.e.log = s.e.log ++ l ∧ ∀ r ∈ l, GoodRequest r) ∨ t.e.log = [] := by
  rcases exec_matcher_cases hu h with ⟨f, -, he⟩ | ⟨-, -, -, he⟩ |
    ⟨-, -, ⟨u', status, value, -, hdone, he⟩ | ⟨dict, -, -, -, he⟩ | ⟨level, -, -, he⟩⟩
  · cases he.symm.trans ht; exact .inl ⟨[], (List.append_nil _).symm, nofun⟩
  · cases he.symm.trans ht; exact .inl ⟨[], (List.append_nil _).symm, nofun⟩
  · cases he.symm.trans ht; exact hdone.log
  · cases he.symm.trans ht; exact .inl ⟨[], (List.append_nil _).symm, nofun⟩
  · cases he.symm.trans ht; exact .inl ⟨[], (List.append_nil _).symm, nofun⟩

/-! ### The obligations -/

/-- Settles O35: only a Matcher command can reach the log, and what it adds there its own pseudocode decides. -/
theorem requestsWellFormed : Obligations.RequestsWellFormed := by
  intro i s t h ht hlog
  cases hu : unitOfInstr i with
  | none =>
    obtain ⟨r, he⟩ := exec_token hu s
    cases he.symm.trans ht; exact hlog
  | some unit =>
    cases unit with
    | decoder => rw [exec_decoder_emitter hu ht]; exact hlog
    | matcher =>
      obtain ⟨l, hl, hgood⟩ | hl := exec_matcher_requests hu h ht
      · rw [hl]
        intro r hr
        exact (List.mem_append.mp hr).elim (hlog r) (hgood r)
      · rw [hl]; exact nofun

/-- Settles O56: the effect of a command of one unit is a function of that unit, applied to the rest of the state. -/
theorem unitsIndependent : Obligations.UnitsIndependent := by
  refine ⟨fun i s t ht => ⟨fun hu => ?_, fun hu => ?_, fun hu => ?_⟩, fun i s s' t hu hm he ht => ?_, fun i s s' t hu hd ht => ?_⟩
  · obtain ⟨u', r, mark, h⟩ | ⟨f, h⟩ := exec_matcher_effect hu s.side
    · cases (h s rfl).symm.trans ht; exact ⟨rfl, rfl, rfl⟩
    · cases (h s rfl).symm.trans ht
  · obtain ⟨d', r, h⟩ | ⟨f, h⟩ := exec_decoder_effect hu s.d
    · cases (h s rfl).symm.trans ht; exact ⟨rfl, rfl, rfl, rfl, rfl⟩
    · cases (h s rfl).symm.trans ht
  · obtain ⟨r, h⟩ := exec_token hu s
    cases h.symm.trans ht; exact ⟨rfl, rfl, rfl, rfl, rfl, rfl⟩
  · have hside : s'.side = s.side := by rw [State.side, hm, he]; rfl
    obtain ⟨u', r, mark, h⟩ | ⟨f, h⟩ := exec_matcher_effect hu s.side
    · cases (h s rfl).symm.trans ht
      exact ⟨_, r, h s' hside, rfl, rfl, rfl, rfl⟩
    · cases (h s rfl).symm.trans ht
  · obtain ⟨d', r, h⟩ | ⟨f, h⟩ := exec_decoder_effect hu s.d
    · cases (h s rfl).symm.trans ht
      exact ⟨_, r, h s' hd, rfl, rfl, rfl⟩
    · cases (h s rfl).symm.trans ht

end Sys2Proof.Machine
end

section
/-! SUPPORT. A Matcher command on two Matchers that differ only in window bytes from M.window_end on (20_memory.md R52,
46_matcher_commands.md R171): the checks, the body and the end. -/

namespace Sys2Proof.Machine

/-! ### Alike Matchers as one Matcher seen through another window -/

theorem Matcher.Alike.eq_graft {m m' : Matcher} (h : m.Alike m') : m' = graft m'.win m'.winEpoch m := h.registers

theorem Matcher.Alike.agrees {m m' : Matcher} (h : m.Alike m') : Agrees m'.win m'.winEpoch m := by
  intro a ha
  rw [← h.eq_graft]
  exact h.window a ha

theorem Agrees.alike {w : List Host.Cell} {k : Nat} {m : Matcher} (h : Agrees w k m) : m.Alike (graft w k m) := ⟨rfl, h⟩

/-- The latch is no part of the window. -/
theorem Matcher.Alike.faulted {m m' : Matcher} (h : m.Alike m') (f : Option FaultCode) :
    Matcher.Alike { m with faulted := f } { m' with faulted := f } := by
  refine ⟨?_, h.window⟩
  rw [h.registers]

/-! ### The body -/

/-- A command's pseudocode ends the same way through another window. -/
theorem matcherBody_view {i : Instr} (hu : unitOfInstr i = some .matcher) {w : List Host.Cell} {k : Nat} {u : MatcherSide}
    (hi : SideInv u) (ha : Agrees w k u.m) : SeenAs [] k (matcherBody i u) (matcherBody i (view [] w k u)) := by
  cases i with
  | mConfig level =>
    have h := configBody_view [] level (u := u) ha
    rwa [ite_self] at h
  | mReset dict => exact resetBody_view [] dict w k u
  | mFillWindow dict => exact shortCircuit_view [] ha fun _ => fillWindowBody_view [] dict ha
  | mWrite data => exact shortCircuit_view [] ha fun he => writeLoop_view [] _ _ _ w u (hi.ready he) ha
  | mSyncFlush => exact shortCircuit_view [] ha fun he => syncFlushBody_view [] (hi.ready he) ha
  | mClose => exact closeBody_view [] hi.ready ha
  | _ => cases hu

/-! ### The whole command -/

/-- The second end shows nothing of the window's tail: alike Matchers, the same emitter port, the same response. -/
def SameAnswer (s s' : State) (o o' : Host.Outcome State Fault Refusal) : Prop :=
  ∀ t, o = .next t → ∃ t' r, o' = .next t' ∧ t.m.Alike t'.m ∧ t'.e = t.e ∧
    t.responses = s.responses ++ [r] ∧ t'.responses = s'.responses ++ [r]

theorem sameAnswer_respond {s s' : State} {u u' : MatcherSide} (hm : u.m.Alike u'.m) (he : u'.e = u.e) (status : Status) (value : Nat)
    (data : List Byte) :
    SameAnswer s s' (.next (respond (s.withSide u) status value data)) (.next (respond (s'.withSide u') status value data)) := by
  intro t ht
  cases ht
  exact ⟨_, _, rfl, hm, he, rfl, rfl⟩

theorem sameAnswer_raiseFault {s s' : State} {u u' : MatcherSide} (hm : u.m.Alike u'.m) (he : u'.e = u.e) (f : FaultCode) :
    SameAnswer s s' (.next (raiseFault .matcher f (s.withSide u))) (.next (raiseFault .matcher f (s'.withSide u'))) := by
  intro t ht
  cases ht
  exact ⟨_, _, rfl, hm.faulted _, he, rfl, rfl⟩

/-- The end of a command, from ends seen through another window. -/
theorem finishMatcher_sameAnswer {s s' : State} (hm : s.m.Alike s'.m) (he : s'.e = s.e) {k : Nat} {v v' : Verdict MatcherSide}
    (h : SeenAs [] k v v') : SameAnswer s s' (finishMatcher s v) (finishMatcher s' v') := by
  cases v with
  | reply u status value data =>
    obtain ⟨w, rfl, ha⟩ := h
    exact sameAnswer_respond (u' := view [] w k u) ha.alike rfl status value data
  | raise u f =>
    obtain ⟨w, rfl, ha⟩ := h
    exact sameAnswer_raiseFault (u' := view [] w k u) ha.alike rfl f
  | refuse =>
    cases h
    intro t ht
    cases ht
    exact ⟨_, _, rfl, hm, he, rfl, rfl⟩
  | stop f => intro t ht; cases ht

/-- The checks read registers only, so alike Matchers pass and fail the same ones. -/
theorem exec_sameAnswer {i : Instr} (hu : unitOfInstr i = some .matcher) {s s' : State} (h : s.Inv) (hm : s.m.Alike s'.m)
    (he : s'.e = s.e) : SameAnswer s s' (exec i s) (exec i s') := by
  have hf' : s'.m.faulted = s.m.faulted := by rw [hm.registers]
  have hc' : s'.m.configured = s.m.configured := by rw [hm.registers]
  have hside : s'.side = view [] s'.m.win s'.m.winEpoch s.side := by
    rw [State.side, he, hm.eq_graft]; rfl
  rw [exec_matcher hu, exec_matcher hu]
  cases hf : s.m.faulted with
  | some f =>
    rw [matcherCommand_faulted hf, matcherCommand_faulted (hf'.trans hf)]
    exact sameAnswer_respond (u := s.side) (u' := s'.side) hm he _ _ _
  | none =>
    by_cases hc : (!constructs i) = false ∨ s.m.configured = true
    · rw [matcherCommand_run hf hc, matcherCommand_run (hf'.trans hf) (hc'.symm ▸ hc), hside]
      exact finishMatcher_sameAnswer hm he (matcherBody_view hu h.side hm.agrees)
    · obtain ⟨hk, hconf⟩ := not_or.mp hc
      have hconf := Bool.eq_false_of_not_eq_true hconf
      rw [Bool.eq_true_of_not_eq_false hk, matcherCommand_unconfigured hf hconf,
        matcherCommand_unconfigured (hf'.trans hf) (hc'.trans hconf)]
      exact sameAnswer_raiseFault (u := s.side) (u' := s'.side) hm he _

/-! ### The obligation -/

/-- Settles O36: the second Matcher is the first with another window, and each function of a command has a lemma that it does the same
through another window. -/
theorem windowTailUnobservable : Obligations.WindowTailUnobservable := fun _ _ _ t h hu hm he ht => exec_sameAnswer hu h hm he t ht

end Sys2Proof.Machine
end

section
/-! SUPPORT. The coverage of the input by tokens over whole commands and whole streams (20_memory.md R62, R63, 45_lazy_loop.md R156): how
a stream begins, what each write and flush adds, and what is left when it is closed. -/

namespace Sys2Proof.Machine

/-! ### The log before the first token -/

theorem sinceRebound_ne_rebound (log : List LogEntry) : ∀ r ∈ sinceRebound log, r ≠ .sinkRebound := by
  induction log using List.reverseRecOn with
  | nil => exact nofun
  | append_singleton log r ih =>
    by_cases hr : r = .sinkRebound
    · rw [hr, sinceRebound_append_rebound]; exact nofun
    · rw [sinceRebound_append hr]
      intro x hx
      obtain hx | hx := List.mem_append.mp hx
      · exact ih x hx
      · rwa [List.mem_singleton.mp hx]

/-- With no rebinding after it, the tokens of a log's start are still among those sent. -/
theorem sentTokens_isPrefix (log : List LogEntry) {after : List LogEntry} (h : ∀ r ∈ after, r ≠ .sinkRebound) :
    sentTokens log <+: sentTokens (log ++ after) := by
  induction after using List.reverseRecOn with
  | nil => rw [List.append_nil]
  | append_singleton after r ih =>
    have ih := ih fun x hx => h x (List.mem_append_left _ hx)
    rw [← List.append_assoc]
    cases r with
    | emitBlock tokens isFinal window => rw [sentTokens_append_block]; exact ih.trans (List.prefix_append _ _)
    | emitStoredHeader length isFinal => rwa [sentTokens_append_header]
    | emitFlush => rwa [sentTokens_append_flush]
    | sinkRebound => exact absurd rfl (h _ (List.mem_append_right _ (List.mem_singleton_self _)))

/-- Where no token has been sent every block is empty, so the slices agree after any dictionary. -/
theorem SlicesAgree.of_no_tokens {dict dict' : List Byte} {log : List LogEntry} (h : SlicesAgree dict (sinceRebound log))
    (hs : sentTokens log = []) : SlicesAgree dict' (sinceRebound log) := by
  intro before tokens isFinal window after he free
  have hnil : sentTokens before ++ tokens <+: [] := by
    rw [← hs, ← sentTokens_sinceRebound log, he, ← sentTokens_append_block before tokens isFinal (some window),
      show before ++ .emitBlock tokens isFinal (some window) :: after =
        (before ++ [.emitBlock tokens isFinal (some window)]) ++ after by simp]
    exact sentTokens_isPrefix _ fun r hr => sinceRebound_ne_rebound log r (he ▸ List.mem_append_right _ (List.mem_cons_of_mem _ hr))
  obtain ⟨hb, ht⟩ := List.append_eq_nil_iff.mp (List.prefix_nil.mp hnil)
  have hw := h before tokens isFinal window after he free
  rw [hb, ht] at hw ⊢
  rw [List.self_eq_append_right.mp hw]
  exact (List.append_nil _).symm

/-- `Covers` reads the log through its tokens and its slices. -/
theorem Covers.withEmitter {dict stream : List Byte} {m : Matcher} {e e' : Emitter} (h : Covers dict stream ⟨m, e⟩)
    (hs : sentTokens e'.log = sentTokens e.log) (hsl : SlicesAgree dict (sinceRebound e'.log)) : Covers dict stream ⟨m, e'⟩ :=
  ⟨h.windowEnd_le, h.window, by rw [hs]; exact h.tokens, h.dict_le, by rw [hs]; exact h.block, hsl, h.carried⟩

/-! ### A stream in progress -/

/-- A Matcher that takes commands, with no error, whose tokens cover `stream` after `dict`. -/
structure Streaming (dict stream : List Byte) (s : State) : Prop where
  inv : s.Inv
  ready : MatcherReady s
  live : s.m.err = .noError
  covers : Covers dict stream s.side

/-- A stream that ended with the Emitter's error. -/
structure StreamFailed (s : State) : Prop where
  ready : MatcherReady s
  io : ∃ c, s.m.err = .io c

theorem Streaming.step_ready {dict stream : List Byte} {s : State} (h : Streaming dict stream s) : Ready s.side :=
  h.inv.side.ready h.live

/-- A Matcher that takes commands answers what the pseudocode replies. -/
theorem exec_of_reply {i : Instr} (hu : unitOfInstr i = some .matcher) {s : State} (hr : MatcherReady s) {u : MatcherSide}
    {status : Status} {value : Nat} {data : List Byte} (h : matcherBody i s.side = .reply u status value data) :
    exec i s = .next (respond (s.withSide u) status value data) := by
  rw [exec_matcher hu, matcherCommand_run hr.faulted (.inr hr.configured), h]
  rfl

/-- The response is no part of the Matcher's side. -/
@[simp] theorem side_respond_withSide (s : State) (u : MatcherSide) (status : Status) (value : Nat) (data : List Byte) :
    (respond (s.withSide u) status value data).side = u := rfl

theorem Kept.ready {s : State} {u : MatcherSide} (h : Kept s.m u.m) (hr : MatcherReady s) (status : Status) (value : Nat)
    (data : List Byte) : MatcherReady (respond (s.withSide u) status value data) :=
  ⟨h.configured.trans hr.configured, h.faulted.trans hr.faulted⟩

/-! ### How a stream begins -/

/-- M_CONFIG of a level of this block, from any Matcher without a fault (R160, R162). -/
theorem exec_mConfig_covers {s : State} (hf : s.m.faulted = none) {a : Word32} {l : Nat}
    (hl : resolveLevel (levelOperand a) = .deflate l) :
    ∃ t, exec (.mConfig a) s = .next t ∧ MatcherReady t ∧ t.m.err = .noError ∧ t.e.log = [] ∧ Covers [] [] t.side := by
  have he : exec (.mConfig a) s = finishMatcher s (configBody a s.side) := matcherCommand_run hf (.inl rfl) _
  simp only [configBody, hl] at he
  exact ⟨_, he, ⟨rfl, hf⟩, rfl, rfl, clearMatcher_covers (m := { s.m with params := levelRow l, configured := true }) rfl⟩

theorem insertAll_err (n : Nat) : ∀ (p : Nat) (m : Matcher), (insertAll n p m).err = m.err := by
  induction n with
  | zero => intro p m; rfl
  | succ n ih => intro p m; exact ih (p + 1) (insertHash m p)

theorem primed_err (m : Matcher) (kept : List Byte) : (primed m kept).err = m.err :=
  insertAll_err (kept.length - 3) 0 (putWin m 0 kept)

theorem primeWindow_err (m : Matcher) (dict : List Byte) : (primeWindow m dict).err = m.err := by
  rw [primeWindow_eq, primed_err]

/-- The Matcher's side after clear_matcher and the rebinding of the sink (R162, R164). -/
theorem clearMatcher_inv {u : MatcherSide} (hi : SideInv u) (log : List LogEntry) :
    SideInv ⟨clearMatcher u.m, { u.e with err := none, log := log }⟩ :=
  ⟨⟨clearMatcher_shape hi.m.shape.winWf hi.m.shape.params_row, fun _ => clearMatcher_live u.m, fun _ => rfl⟩,
    fun _ => ⟨nofun, nofun⟩⟩

/-- M_RESET begins a stream with its dictionary (R164). -/
theorem mReset_streaming {s : State} (h : s.Inv) (hr : MatcherReady s) (dict : List Byte) :
    ∃ t, exec (.mReset dict) s = .next t ∧ Streaming (tail 32768 dict) (tail 32768 dict) t := by
  have hc := clearMatcher_inv h.side (s.e.log ++ [.sinkRebound])
  have hlog := sinceRebound_append_rebound s.e.log
  have he := exec_of_reply (i := .mReset dict) rfl hr (resetBody_eq dict s.side)
  by_cases hd : 0 < dict.length
  · rw [if_pos hd] at he
    have hk := (primeWindow_inv hc rfl rfl rfl dict).2
    exact ⟨_, he, exec_inv h he, ⟨hk.configured.trans hr.configured, hk.faulted.trans hr.faulted⟩, primeWindow_err _ dict,
      primeWindow_covers hc rfl rfl rfl hlog dict⟩
  · rw [if_neg hd] at he
    have hnil : dict = [] := List.eq_nil_of_length_eq_zero (Nat.eq_zero_of_not_pos hd)
    subst hnil
    exact ⟨_, he, exec_inv h he, ⟨hr.configured, hr.faulted⟩, rfl, clearMatcher_covers hlog⟩

/-- Priming where no token has been sent, whatever markers the log holds (R129). -/
theorem primeWindow_covers_of_no_tokens {u : MatcherSide} (hi : SideInv u) (he : u.m.err = .noError) (hx : u.m.index = 0)
    (hw : u.m.windowEnd = 0) (hs : sentTokens u.e.log = []) (hsl : SlicesAgree [] (sinceRebound u.e.log)) (dict : List Byte) :
    Covers (tail 32768 dict) (tail 32768 dict) ⟨primeWindow u.m dict, u.e⟩ :=
  Covers.withEmitter (e := { u.e with log := [] })
    (primeWindow_covers (u := ⟨u.m, { u.e with log := [] }⟩) ⟨hi.m, hi.sticky⟩ he hx hw rfl dict) hs (hsl.of_no_tokens hs)

/-- M_FILL_WINDOW on the empty stream makes its dictionary the stream's start (R165). -/
theorem mFillWindow_streaming {s : State} (h : Streaming [] [] s) (hs : sentTokens s.e.log = []) (dict : List Byte) :
    ∃ t, exec (.mFillWindow dict) s = .next t ∧ Streaming (tail 32768 dict) (tail 32768 dict) t := by
  have hw : s.m.windowEnd = 0 := Nat.le_zero.mp h.covers.windowEnd_le
  have hx : s.m.index = 0 := Nat.le_zero.mp (hw ▸ h.inv.m.shape.index_le)
  have hempty : windowEmpty s.m = true := by rw [windowEmpty, hx, hw]; rfl
  have hbody : matcherBody (.mFillWindow dict) s.side = .reply ⟨primeWindow s.side.m dict, s.side.e⟩ .ok 0 [] := by
    rw [show matcherBody (.mFillWindow dict) s.side = shortCircuit (fillWindowBody dict) s.side from rfl, shortCircuit_live h.live]
    exact if_pos hempty
  have he := exec_of_reply rfl h.ready hbody
  have hk : Kept s.m (primeWindow s.side.m dict) := (primeWindow_inv h.inv.side h.live hx hw dict).2
  have hlive : (primeWindow s.side.m dict).err = .noError := (primeWindow_err s.side.m dict).trans h.live
  refine ⟨_, he, exec_inv h.inv he, hk.ready (u := ⟨primeWindow s.side.m dict, s.side.e⟩) h.ready _ _ _, hlive, ?_⟩
  rw [side_respond_withSide]
  exact primeWindow_covers_of_no_tokens h.inv.side h.live hx hw hs h.covers.slices dict

/-! ### What keeps a stream -/

/-- M_WRITE adds its bytes, or ends the stream with the Emitter's error (R166). -/
theorem mWrite_streaming {dict stream : List Byte} {s : State} (h : Streaming dict stream s) (data : List Byte) :
    ∃ t, exec (.mWrite data) s = .next t ∧ (Streaming dict (stream ++ data) t ∨ StreamFailed t) := by
  have hsync := h.inv.m.notSync h.live
  have hbody : matcherBody (.mWrite data) s.side = writeLoop data.length data.length data s.side := shortCircuit_live h.live _
  obtain ⟨u, hw, ⟨hl, hu, -⟩ | ⟨c, hl, -, hc, -⟩⟩ :=
    writeLoop_good data.length data.length data s.side h.step_ready hsync (Nat.le_refl _)
  · have he := exec_of_reply rfl h.ready (hbody.trans hl)
    exact ⟨_, he, .inl ⟨exec_inv h.inv he, hw.kept.ready h.ready _ _ _, hu.err,
      writeLoop_covers _ _ _ _ _ _ h.step_ready hsync h.covers hl⟩⟩
  · exact ⟨_, exec_of_reply rfl h.ready (hbody.trans hl), .inr ⟨hw.kept.ready h.ready _ _ _, c, hc⟩⟩

/-- The markers and the end of M.sync keep `Covers` (R168). -/
theorem syncEnd_covers {dict stream : List Byte} {u : MatcherSide} (hc : u.m.err = .noError → Covers dict stream u)
    (he : (syncEnd u).m.err = .noError) : Covers dict stream (syncEnd u) := by
  cases hu : u.m.err with
  | closed => simp [syncEnd, hu, endSync] at he
  | io c => simp [syncEnd, hu, endSync] at he
  | noError =>
    have hv : syncEnd u = endSync (syncMarkers u) := by simp only [syncEnd, hu]
    rw [hv] at he ⊢
    obtain ⟨-, hl⟩ | ⟨c, -, hl⟩ :=
      latchEmitterErr_cases { u with e := emitRequest (emitRequest u.e (.emitStoredHeader 0#16 false)) .emitFlush }
    · have hheader : Covers dict stream ⟨u.m, emitRequest u.e (.emitStoredHeader 0#16 false)⟩ :=
        (hc hu).marker (.inl ⟨_, _, rfl⟩) rfl rfl rfl rfl rfl rfl rfl rfl rfl rfl (emitRequest_log _ _)
      rw [syncMarkers, hl]
      exact hheader.marker (.inr rfl) rfl rfl rfl rfl rfl rfl rfl rfl rfl rfl (emitRequest_log _ _)
    · rw [syncMarkers, hl] at he; cases he

/-- M_SYNC_FLUSH that leaves no error keeps `Covers` (R168). -/
theorem syncFlushBody_covers {dict stream : List Byte} {u u' : MatcherSide} {status : Status} {value : Nat} {data : List Byte}
    (hr : Ready u) (hc : Covers dict stream u) (h : syncFlushBody u = .reply u' status value data) (he : u'.m.err = .noError) :
    Covers dict stream u' := by
  obtain ⟨u1, hstep, -, hk⟩ := withStep_good hr.beginSync
  have hu : u' = syncEnd u1 := by
    have hbody : syncFlushBody u =
        match (syncEnd u1).m.err with | .noError => .reply (syncEnd u1) .ok 0 [] | _ => errResponse (syncEnd u1) := by
      rw [syncFlushBody, hk]; rfl
    rw [hbody] at h
    split at h <;> cases h <;> rfl
  subst hu
  have hc0 : Covers dict stream (beginSync u) := hc.of_eq rfl rfl rfl rfl rfl rfl rfl rfl rfl rfl rfl
  exact syncEnd_covers (fun h1 => matcherStep_covers hr.beginSync hc0 hstep h1) he

/-- M_SYNC_FLUSH keeps the stream, drained and with both markers sent, or ends it with the Emitter's error (R168). -/
theorem mSyncFlush_streaming {dict stream : List Byte} {s : State} (h : Streaming dict stream s) :
    ∃ t, exec .mSyncFlush s = .next t ∧
      ((Streaming dict stream t ∧ Drained t.m ∧ ∃ log, t.e.log = log ++ [.emitStoredHeader 0#16 false, .emitFlush]) ∨
        StreamFailed t) := by
  have hbody : matcherBody .mSyncFlush s.side = syncFlushBody s.side := shortCircuit_live h.live _
  obtain ⟨u, hk, -, -, -, -, -, ⟨hb, herr, hd, l, hlog, -⟩ | ⟨c, hb, herr, -⟩⟩ := syncFlushBody_good h.step_ready
  · have he := exec_of_reply rfl h.ready (hbody.trans hb)
    exact ⟨_, he, .inl ⟨⟨exec_inv h.inv he, hk.ready h.ready _ _ _, herr, syncFlushBody_covers h.step_ready h.covers hb herr⟩,
      hd, _, hlog⟩⟩
  · exact ⟨_, exec_of_reply rfl h.ready (hbody.trans hb), .inr ⟨hk.ready h.ready _ _ _, c, herr⟩⟩

/-- M_CLOSE closes the stream, drained and still covered, or ends it with the Emitter's error (R169). -/
theorem mClose_streaming {dict stream : List Byte} {s : State} (h : Streaming dict stream s) :
    ∃ t, exec .mClose s = .next t ∧ ((Covers dict stream t.side ∧ Drained t.m) ∨ ∃ c, t.m.err = .io c) := by
  obtain ⟨u, -, -, -, -, -, ⟨hb, -⟩ | ⟨c, hb, herr, -⟩⟩ := closeBody_good h.step_ready
  · exact ⟨_, exec_of_reply (i := .mClose) rfl h.ready hb, .inl (closeBody_covers h.step_ready h.covers hb)⟩
  · exact ⟨_, exec_of_reply (i := .mClose) rfl h.ready hb, .inr ⟨c, herr⟩⟩

/-! ### After a stream error -/

theorem closeBody_of_closed {u : MatcherSide} (he : u.m.err = .closed) : closeBody u = .reply u .ok 0 [] := by
  unfold closeBody; rw [he]

theorem closeBody_of_io {u : MatcherSide} {c : Word32} (he : u.m.err = .io c) : closeBody u = errResponse u := by
  unfold closeBody; rw [he]

/-- M_CLOSE of a closed stream answers OK and changes nothing (R169). -/
theorem exec_mClose_closed {s : State} (hr : MatcherReady s) (he : s.m.err = .closed) :
    exec .mClose s = .next (respond s .ok 0 []) :=
  exec_of_reply (i := .mClose) (u := s.side) rfl hr (closeBody_of_closed he)

/-- An Emitter error cuts a write, a flush and a close short (R159, R169, R206). -/
theorem exec_of_io {i : Instr} (hi : i = .mSyncFlush ∨ i = .mClose ∨ ∃ data, i = .mWrite data) {s : State} (hr : MatcherReady s)
    {c : Word32} (he : s.m.err = .io c) : exec i s = .next (respond s .io c.toNat []) := by
  have hne : s.side.m.err ≠ .noError := by rw [State.side, he]; exact nofun
  have hio : errResponse s.side = .reply s.side .io c.toNat [] := errResponse_io he
  obtain rfl | rfl | ⟨data, rfl⟩ := hi
  · exact exec_of_reply (u := s.side) rfl hr ((shortCircuit_err hne _).trans hio)
  · exact exec_of_reply (i := .mClose) (u := s.side) rfl hr ((closeBody_of_io he).trans hio)
  · exact exec_of_reply (u := s.side) rfl hr ((shortCircuit_err hne _).trans hio)

/-! ### Coverage and the order point -/

/-- Settles O32: a clause for each command; the loop of a step keeps `Covers` by `matcherStep_covers`. -/
theorem coverageKept : Obligations.CoverageKept := by
  refine ⟨fun s a l hf hl => ?_, fun s dict h hr => ?_, fun s t dict h hr he hc hs ht => ?_,
    fun s t dict stream data h hr he hc ht hte => ?_, fun s t dict stream h hr he hc ht hte => ?_,
    fun s t dict stream h hr hc ht hte => ?_⟩
  · obtain ⟨t, ht, -, -, -, hcov⟩ := exec_mConfig_covers hf hl
    exact ⟨t, ht, hcov⟩
  · obtain ⟨t, ht, hst⟩ := mReset_streaming h hr dict
    exact ⟨t, ht, hst.covers⟩
  · obtain ⟨t', ht', hst⟩ := mFillWindow_streaming ⟨h, hr, he, hc⟩ hs dict
    cases ht'.symm.trans ht
    exact hst.covers
  · obtain ⟨t', ht', hst | ⟨-, c, hio⟩⟩ := mWrite_streaming ⟨h, hr, he, hc⟩ data
    · cases ht'.symm.trans ht
      exact hst.covers
    · cases ht'.symm.trans ht
      exact absurd (hio.symm.trans hte) nofun
  · obtain ⟨t', ht', ⟨hst, -⟩ | ⟨-, c, hio⟩⟩ := mSyncFlush_streaming ⟨h, hr, he, hc⟩
    · cases ht'.symm.trans ht
      exact hst.covers
    · cases ht'.symm.trans ht
      exact absurd (hio.symm.trans hte) nofun
  · cases he : s.m.err with
    | closed => cases (exec_mClose_closed hr he).symm.trans ht; exact hc
    | io c => cases (exec_of_io (.inr (.inl rfl)) hr he).symm.trans ht; exact absurd (he.symm.trans hte) nofun
    | noError =>
      obtain ⟨t', ht', ⟨hcov, -⟩ | ⟨c, hio⟩⟩ := mClose_streaming ⟨h, hr, he, hc⟩
      · cases ht'.symm.trans ht
        exact hcov
      · cases ht'.symm.trans ht
        exact absurd (hio.symm.trans hte) nofun

/-- Settles O33: M_SYNC_FLUSH leaves nothing queued or held back, so the tokens sent are all there are. -/
theorem orderPoint : Obligations.OrderPoint := by
  intro s t dict stream h hr he hc ht hte
  obtain ⟨t', ht', ⟨hst, hd, hlog⟩ | ⟨-, c, hio⟩⟩ := mSyncFlush_streaming ⟨h, hr, he, hc⟩
  · cases ht'.symm.trans ht
    exact ⟨hst.covers.drained hd, hlog⟩
  · cases ht'.symm.trans ht
    exact absurd (hio.symm.trans hte) nofun

/-! ### The round trip -/

theorem execAll_cons {i : Instr} {is : List Instr} {s s' : State} (h : exec i s = .next s') : execAll (i :: is) s = execAll is s' := by
  rw [execAll, h]

/-- The pieces of a stream: writes and flushes. -/
def Pieces (is : List Instr) : Prop := ∀ i ∈ is, i = .mSyncFlush ∨ ∃ data, i = .mWrite data

/-- A failed stream stays failed to the end (R206). -/
theorem StreamFailed.not_closed {pieces : List Instr} (hp : Pieces pieces) : ∀ {s t : State}, StreamFailed s →
    execAll (pieces ++ [.mClose]) s = .next t → t.m.err ≠ .closed := by
  induction pieces with
  | nil =>
    intro s t h ht
    obtain ⟨c, hc⟩ := h.io
    cases (execAll_cons (exec_of_io (.inr (.inl rfl)) h.ready hc)).symm.trans ht
    exact fun he => absurd (hc.symm.trans he) nofun
  | cons i is ih =>
    intro s t h ht
    obtain ⟨c, hc⟩ := h.io
    have hi := hp i List.mem_cons_self
    rw [List.cons_append, execAll_cons (exec_of_io (hi.imp_right .inr) h.ready hc)] at ht
    have h' : StreamFailed (respond s .io c.toNat []) := ⟨⟨h.ready.configured, h.ready.faulted⟩, c, hc⟩
    exact ih (fun j hj => hp j (List.mem_cons_of_mem _ hj)) h' ht

/-- A piece adds the bytes it writes, or ends the stream with the Emitter's error. -/
theorem piece_streaming {i : Instr} (hi : i = .mSyncFlush ∨ ∃ data, i = .mWrite data) {dict stream : List Byte} {s : State}
    (h : Streaming dict stream s) :
    ∃ t, exec i s = .next t ∧ (Streaming dict (stream ++ written i) t ∨ StreamFailed t) := by
  obtain rfl | ⟨data, rfl⟩ := hi
  · obtain ⟨t, ht, hst⟩ := mSyncFlush_streaming h
    refine ⟨t, ht, hst.imp_left fun hst => ?_⟩
    rw [show written .mSyncFlush = [] from rfl, List.append_nil]
    exact hst.1
  · exact mWrite_streaming h data

/-- The tokens of a stream that is written in pieces and then closed stand for all of it (R62, R169). -/
theorem Streaming.round_trip {dict : List Byte} {pieces : List Instr} (hp : Pieces pieces) : ∀ {stream : List Byte} {s t : State},
    Streaming dict stream s → execAll (pieces ++ [.mClose]) s = .next t → t.m.err = .closed →
    ∀ free, expandTokens free dict (sentTokens t.e.log) = stream ++ (pieces.map written).flatten := by
  induction pieces with
  | nil =>
    intro stream s t h ht hte
    obtain ⟨t', ht', ⟨hcov, hd⟩ | ⟨c, hio⟩⟩ := mClose_streaming h
    · cases (execAll_cons ht').symm.trans ht
      rw [List.map_nil, List.flatten_nil, List.append_nil]
      exact hcov.drained hd
    · cases (execAll_cons ht').symm.trans ht
      exact absurd (hio.symm.trans hte) nofun
  | cons i is ih =>
    intro stream s t h ht hte
    have hp' : Pieces is := fun j hj => hp j (List.mem_cons_of_mem _ hj)
    obtain ⟨s', hs', hst | hfail⟩ := piece_streaming (hp i List.mem_cons_self) h
    · rw [List.cons_append, execAll_cons hs'] at ht
      rw [List.map_cons, List.flatten_cons, ← List.append_assoc]
      exact ih hp' hst ht hte
    · rw [List.cons_append, execAll_cons hs'] at ht
      exact absurd hte (hfail.not_closed hp' ht)

/-- Settles O34: both beginnings give a stream that covers the dictionary's tail; the pieces are by induction. -/
theorem roundTrip : Obligations.RoundTrip := by
  intro s t dict pieces h hp hrun hte
  obtain ⟨level, l, hf, hl, ht⟩ | ⟨hr, ht⟩ := hrun
  · obtain ⟨s1, hs1, hr1, he1, hlog1, hc1⟩ := exec_mConfig_covers hf hl
    obtain ⟨s2, hs2, hst⟩ := mFillWindow_streaming ⟨exec_inv h hs1, hr1, he1, hc1⟩ (by rw [hlog1]; rfl) dict
    rw [execAll_cons hs1, execAll_cons hs2] at ht
    exact hst.round_trip hp ht hte
  · obtain ⟨s1, hs1, hst⟩ := mReset_streaming h hr dict
    rw [execAll_cons hs1] at ht
    exact hst.round_trip hp ht hte

end Sys2Proof.Machine
end

section
/-! SUPPORT. Bytes into words (20_memory.md R56, R57), the decoder on encoded instructions (30_encoding.md R75 to R84), and the step on a
packet that decodes (20_memory.md R67). -/

namespace Sys2Proof

/-! ### Words from bytes (R57) -/

/-- Appending a byte below a number that leaves room for it. -/
theorem toNat_shiftLeft_or_byte {n : Nat} (h8 : 8 ≤ n) {acc : BitVec n} (h : acc.toNat * 256 < 2 ^ n) (b : Byte) :
    ((acc <<< 8) ||| b.setWidth n).toNat = acc.toNat * 256 + b.toNat := by
  have hb : b.toNat < 2 ^ 8 := b.isLt
  have hn : 2 ^ 8 ≤ 2 ^ n := Nat.pow_le_pow_right (by decide) h8
  rw [BitVec.toNat_or, BitVec.toNat_shiftLeft, BitVec.toNat_setWidth, Nat.mod_eq_of_lt (Nat.lt_of_lt_of_le hb hn), Nat.shiftLeft_eq,
    Nat.mod_eq_of_lt h, ← Nat.shiftLeft_eq acc.toNat 8, ← Nat.shiftLeft_add_eq_or_of_lt hb, Nat.shiftLeft_eq]

/-- Up to 8 bytes, least significant first, are the digits of their word to the base 256. -/
theorem wordOfBytes_toNat {bs : List Byte} (h : bs.length ≤ 8) : (wordOfBytes bs).toNat = Nat.ofDigits 256 (bs.map BitVec.toNat) := by
  induction bs with
  | nil => rfl
  | cons b bs ih =>
    rw [List.length_cons] at h
    have ih := ih (by omega)
    have hlt : Nat.ofDigits 256 (bs.map BitVec.toNat) < 256 ^ bs.length := by
      have := Nat.ofDigits_lt_base_pow_length (b := 256) (l := bs.map BitVec.toNat) (by decide) (by
        intro x hx
        obtain ⟨c, -, rfl⟩ := List.mem_map.mp hx
        exact c.isLt)
      rwa [List.length_map] at this
    have hpow : 256 ^ bs.length ≤ 256 ^ 7 := Nat.pow_le_pow_right (by decide) (by omega)
    have hstep : wordOfBytes (b :: bs) = (wordOfBytes bs <<< 8) ||| b.setWidth 64 := rfl
    rw [hstep, toNat_shiftLeft_or_byte (by decide) (by rw [ih]; omega), ih, List.map_cons, Nat.ofDigits_cons]
    omega

theorem wordBytes_eq (w : Word64) : wordBytes w =
    [w.extractLsb' 0 8, w.extractLsb' 8 8, w.extractLsb' 16 8, w.extractLsb' 24 8, w.extractLsb' 32 8, w.extractLsb' 40 8,
      w.extractLsb' 48 8, w.extractLsb' 56 8] := rfl

@[simp] theorem length_wordBytes (w : Word64) : (wordBytes w).length = 8 := rfl

theorem wordBytes_getElem? (w : Word64) {k : Nat} (hk : k < 8) :
    ((wordBytes w)[k]?).map BitVec.toNat = some (w.toNat / 256 ^ k % 256) := by
  have h : (wordBytes w)[k]? = some (w.extractLsb' (8 * k) 8) := by simp [wordBytes, hk]
  rw [h, Option.map_some, BitVec.extractLsb'_toNat, Nat.shiftRight_eq_div_pow, Nat.pow_mul]

theorem wordOfBytes_wordBytes (w : Word64) : wordOfBytes (wordBytes w) = w := by
  have hw := w.isLt
  apply BitVec.eq_of_toNat_eq
  rw [wordOfBytes_toNat (Nat.le_of_eq (length_wordBytes w)), wordBytes_eq]
  simp only [List.map_cons, List.map_nil, Nat.ofDigits_cons, Nat.ofDigits_nil, BitVec.extractLsb'_toNat, Nat.shiftRight_eq_div_pow]
  omega

/-- A byte transport delivers the word, then the payload. -/
theorem decodeBytes_wordBytes (w : Word64) (payload : List Byte) : decodeBytes (wordBytes w ++ payload) = decode (.command w payload) := by
  have hlen : ¬ (wordBytes w ++ payload).length < 8 := by rw [List.length_append, length_wordBytes]; omega
  rw [decodeBytes, if_neg hlen, List.take_left' (length_wordBytes w), List.drop_left' (length_wordBytes w), wordOfBytes_wordBytes]
  rfl

/-! ### Decoding what is encoded -/

/-- A literal word is of type 0b00 and holds its byte (R84). -/
theorem decode_encode_tokenLit (b : Byte) : decode (encode (.tokenLit b)) = .ok (.tokenLit b) := by
  have hb := b.isLt
  have ht : (b.setWidth 32 : Token).toNat = b.toNat := by rw [BitVec.toNat_setWidth]; omega
  have hk : tokenKind (b.setWidth 32) = 0b00#2 := (Machine.tokenKind_eq_iff _ _).mpr (by rw [ht, BitVec.toNat_ofNat]; omega)
  simp only [encode, decode, decodeToken, hk, beq_self_eq_true, if_true, ht, if_pos hb, lowByte_setWidth (n := 32) (by decide)]

/-- A match word is of type 0b01 and holds its two fields (R84). -/
theorem decode_encode_tokenMatch {xlength : BitVec 8} {xoffset : BitVec 22} (h : xoffset.toNat < 32768) :
    decode (encode (.tokenMatch xlength xoffset)) = .ok (.tokenMatch xlength xoffset) := by
  have hl := xlength.isLt
  have ht := matchToken_toNat xlength xoffset
  have hk : tokenKind (0b01#2 ++ xlength ++ xoffset) = 0b01#2 :=
    (Machine.tokenKind_eq_iff _ _).mpr (by rw [ht, BitVec.toNat_ofNat]; omega)
  have hx : (0b01#2 ++ xlength ++ xoffset : Token).extractLsb' 0 22 = xoffset := by
    apply BitVec.eq_of_toNat_eq
    rw [BitVec.extractLsb'_toNat, ht, Nat.shiftRight_eq_div_pow]
    omega
  have hx' : (0b01#2 ++ xlength ++ xoffset : Token).extractLsb' 22 8 = xlength := by
    apply BitVec.eq_of_toNat_eq
    rw [BitVec.extractLsb'_toNat, ht, Nat.shiftRight_eq_div_pow]
    omega
  simp only [encode, decode, decodeToken, hk, hx, hx', if_pos h]
  rfl

/-- The decoder reads every well-formed instruction back from its packet (R75 to R79, R84). -/
theorem decode_encode {i : Instr} (h : wellFormed i = true) : decode (encode i) = .ok i := by
  cases i with
  | mReset dict => simp [encode, decode, decodeCommand, decodeFields, fieldCheck, Laws.Encoded.count32 h]
  | mFillWindow dict => simp [encode, decode, decodeCommand, decodeFields, fieldCheck, Laws.Encoded.count32 h]
  | mWrite data => simp [encode, decode, decodeCommand, decodeFields, fieldCheck, Laws.Encoded.count32 h]
  | ddInit size dict =>
    have hcount : (BitVec.ofNat 24 dict.length).toNat = dict.length := Nat.mod_eq_of_lt (of_decide_eq_true h)
    simp [encode, decode, decodeCommand, decodeFields, fieldCheck, hcount]
  | tokenLit b => exact decode_encode_tokenLit b
  | tokenMatch xlength xoffset => exact decode_encode_tokenMatch (of_decide_eq_true h)
  | _ => simp [encode, decode, decodeCommand, decodeFields, fieldCheck]

end Sys2Proof

namespace Sys2Proof.Machine

/-! ### The hash group (R56) -/

/-- Four bytes, the first most significant. -/
theorem bigEndian_toNat (b0 b1 b2 b3 : Byte) : (bigEndian [b0, b1, b2, b3]).toNat =
    b0.toNat * 16777216 + b1.toNat * 65536 + b2.toNat * 256 + b3.toNat := by
  have h0 := b0.isLt
  have h1 := b1.isLt
  have h2 := b2.isLt
  have e0 : ((0#32 <<< 8) ||| b0.setWidth 32).toNat = b0.toNat := by
    rw [toNat_shiftLeft_or_byte (by decide) (by decide), BitVec.toNat_ofNat]; omega
  have e1 := toNat_shiftLeft_or_byte (by decide) (show _ * 256 < 2 ^ 32 by rw [e0]; omega) b1
  rw [e0] at e1
  have e2 := toNat_shiftLeft_or_byte (by decide) (show _ * 256 < 2 ^ 32 by rw [e1]; omega) b2
  rw [e1] at e2
  have e3 := toNat_shiftLeft_or_byte (by decide) (show _ * 256 < 2 ^ 32 by rw [e2]; omega) b3
  rw [e2] at e3
  refine e3.trans ?_
  omega

theorem winRun_four (m : Matcher) (p : Nat) : winRun m p 4 = [winByte m p, winByte m (p + 1), winByte m (p + 2), winByte m (p + 3)] :=
  Memory.readRun_eq _ _ _ _

/-! ### The step on a packet that decodes -/

theorem step_of_decode {s : State} {p : Packet} {rest : List HostInput} {i : Instr} (hr : s.refused = false)
    (hi : s.inputs = .send p :: rest) (hd : decode p = .ok i) : step s = exec i { s with inputs := rest } := by
  rw [step_of_inputs_cons hr hi, runInput, runPacket, hd]

theorem step_placeInput_of_decode {s : State} {p : Packet} {i : Instr} (hr : s.refused = false) (hd : decode p = .ok i) :
    step (placeInput (.send p) s) = exec i s :=
  step_of_decode (s := placeInput (.send p) s) hr rfl hd

theorem eq_ok_of_toOption {r : Except DecodeError Instr} {i : Instr} (h : r.toOption = some i) : r = .ok i := by
  cases r with
  | ok j => exact congrArg _ (Option.some.inj h)
  | error e => cases h

/-- The decoder reads a row of the opcode table as the packet placed for it (log 24). -/
theorem decode_tablePacket {nbits w : Nat} {i : Instr} (h : decodeTableWord nbits w = some i) : decode (tablePacket nbits w) = .ok i := by
  unfold decodeTableWord at h
  unfold tablePacket
  split at h
  · next hn => rw [if_pos hn]; exact eq_ok_of_toOption h
  · next hn => rw [if_neg hn, decode, decodeCommand, List.length_replicate]; exact eq_ok_of_toOption h

/-! ### The obligations -/

/-- Settles O5: the bytes of a word are its digits to the base 256, and the hash group is read as four of them. -/
theorem byteOrder : Obligations.ByteOrder :=
  ⟨decodeBytes_wordBytes, fun w _ hk => wordBytes_getElem? w hk, fun m p => by rw [winRun_four, bigEndian_toNat]⟩

/-- Settles O6: the step takes the packet and runs what it decodes to; an encoded instruction and a table word each decode back. -/
theorem stepRunsDecoded : Obligations.StepRunsDecoded :=
  ⟨fun _ _ _ _ => step_of_decode, fun _ _ hr hw => step_placeInput_of_decode hr (decode_encode hw),
    fun _ _ _ _ hr h => step_placeInput_of_decode hr (decode_tablePacket h)⟩

end Sys2Proof.Machine
end

section
/-! SUPPORT. The decoder and the encoder as inverses of each other (30_encoding.md R75 to R79, R84): what the field check lets through,
which token words are tokens, and which packets are instructions. -/

namespace Sys2Proof

/-! ### Command packets that decode (R75 to R79) -/

theorem fieldCheck_eq_ok {u : UnitName} {zeros : Bool} {count len : Nat} {i j : Instr} (h : fieldCheck u zeros count len j = .ok i) :
    zeros = true ∧ len = count ∧ j = i := by
  obtain ⟨hz, hl, he⟩ | ⟨-, he⟩ := Machine.fieldCheck_cases u zeros count len j
  · exact ⟨hz, hl, Except.ok.inj (he.symm.trans h)⟩
  · cases he.symm.trans h

/-- An arm of the decoder whose check passes gives a well-formed instruction with this very packet, if the arm's instruction encodes to
the word of the arm's opcode and the word's own fields. -/
theorem encode_of_fieldCheck {w : Word64} {payload : List Byte} {u : UnitName} {zeros : Bool} {count op : Nat} {i j : Instr}
    (h : fieldCheck u zeros count payload.length j = .ok i) (hop : (opField w).toNat = op)
    (hj : zeros = true → payload.length = count →
      wellFormed j = true ∧ encode j = .command (commandWord (BitVec.ofNat 8 op) (aField w) (bField w)) payload) :
    wellFormed i = true ∧ encode i = .command w payload := by
  obtain ⟨hz, hl, rfl⟩ := fieldCheck_eq_ok h
  obtain ⟨hwf, he⟩ := hj hz hl
  rw [← hop, BitVec.ofNat_toNat, BitVec.setWidth_eq, commandWord_fields] at he
  exact ⟨hwf, he⟩

/-- A command packet that decodes is the packet of its instruction: each arm of the table checks what its encoding fixes, a field that is
zero, one that holds a byte, or one that counts the payload; with no count the payload is empty. -/
theorem encode_decode_command {w : Word64} {payload : List Byte} {i : Instr} (h : decode (.command w payload) = .ok i) :
    wellFormed i = true ∧ encode i = .command w payload := by
  have ha := (aField w).isLt
  have hb := (bField w).isLt
  simp only [decode, decodeCommand, decodeFields] at h
  split at h
  case h_21 => cases h
  all_goals
    next hop =>
    refine encode_of_fieldCheck h hop fun hz hl => ?_
    simp_all [encode, wellFormed, setWidth_lowByte]

/-! ### Token words that decode (R84) -/

theorem tokenKind_eq_literal_iff (t : Token) : tokenKind t = 0b00#2 ↔ t.toNat < 0x40000000 := by
  rw [Machine.tokenKind_eq_iff, BitVec.toNat_ofNat]
  omega

theorem tokenKind_eq_match_iff (t : Token) : tokenKind t = 0b01#2 ↔ 0x40000000 ≤ t.toNat ∧ t.toNat < 0x80000000 := by
  rw [Machine.tokenKind_eq_iff, BitVec.toNat_ofNat]
  omega

/-- The token words of the layout of R84, and what each stands for. -/
theorem decode_token_eq_ok_iff {t : Token} {i : Instr} : decode (.token t) = .ok i ↔
    (t.toNat < 256 ∧ .tokenLit (lowByte t) = i) ∨
      ((0x40000000 ≤ t.toNat ∧ t.toNat < 0x80000000) ∧ t.toNat % 4194304 < 32768 ∧
        .tokenMatch (t.extractLsb' 22 8) (t.extractLsb' 0 22) = i) := by
  have hx : (t.extractLsb' 0 22).toNat = t.toNat % 4194304 := Machine.tokenXoffset_toNat t
  simp only [decode, decodeToken, beq_iff_eq, tokenKind_eq_literal_iff, tokenKind_eq_match_iff, hx]
  by_cases hlit : t.toNat < 0x40000000
  · have hno : ¬ 0x40000000 ≤ t.toNat := by omega
    by_cases hb : t.toNat < 256 <;> simp [hlit, hno, hb]
  · have hno : ¬ t.toNat < 256 := by omega
    by_cases hm : 0x40000000 ≤ t.toNat ∧ t.toNat < 0x80000000
    · by_cases ho : t.toNat % 4194304 < 32768 <;> simp [hlit, hno, hm, ho]
    · simp [hlit, hno, hm]

/-- A match word is built from its own fields (R84). -/
theorem matchToken_fields {t : Token} (h : 0x40000000 ≤ t.toNat ∧ t.toNat < 0x80000000) :
    (0b01#2 ++ t.extractLsb' 22 8 ++ t.extractLsb' 0 22 : Token) = t := by
  have hl : (t.extractLsb' 22 8).toNat = t.toNat / 4194304 % 256 := Machine.tokenXlength_toNat t
  have hx : (t.extractLsb' 0 22).toNat = t.toNat % 4194304 := Machine.tokenXoffset_toNat t
  apply BitVec.eq_of_toNat_eq
  rw [matchToken_toNat, hl, hx]
  omega

/-- A token word that decodes is the packet of its instruction (R84). -/
theorem encode_decode_token {t : Token} {i : Instr} (h : decode (.token t) = .ok i) : wellFormed i = true ∧ encode i = .token t := by
  obtain ⟨hb, rfl⟩ | ⟨hm, ho, rfl⟩ := decode_token_eq_ok_iff.mp h
  · exact ⟨rfl, congrArg Packet.token (setWidth_lowByte (decide_eq_true hb))⟩
  · have hx : (t.extractLsb' 0 22).toNat = t.toNat % 4194304 := Machine.tokenXoffset_toNat t
    exact ⟨decide_eq_true (hx.trans_lt ho), congrArg Packet.token (matchToken_fields hm)⟩

/-- The encoder writes every instruction back as the packet it was read from (R75 to R79, R84). -/
theorem encode_decode {p : Packet} {i : Instr} (h : decode p = .ok i) : wellFormed i = true ∧ encode i = p := by
  cases p with
  | command w payload => exact encode_decode_command h
  | token t => exact encode_decode_token h

/-! ### The obligations -/

/-- Settles O2: `decode_encode`, by the constructors of the instruction. -/
theorem decodeEncode : Obligations.DecodeEncode := fun _ => decode_encode

/-- Settles O3: `encode_decode`, a command by the arm of the table that decodes it, a token by its type. -/
theorem encodeDecode : Obligations.EncodeDecode := fun _ _ => encode_decode

/-- Settles O4: the decoder's arms are the rows of the tables; the token words that decode are those of `decode_token_eq_ok_iff`. -/
theorem decodablePackets : Obligations.DecodablePackets := by
  refine ⟨fun w payload => ?_, fun t => ?_⟩
  · obtain ⟨hrow, he⟩ | ⟨row, u, hrow, -, ⟨hlegal, i, hi, -⟩ | ⟨hillegal, he⟩⟩ := Machine.decode_command_cases w payload
    · simp [hrow, he]
    · simp [hrow, hlegal, hi]
    · simp [hrow, hillegal, he]
  · simp only [decode_token_eq_ok_iff, exists_or, exists_and_left, exists_eq', and_true, and_assoc]

/-- Settles O1: the encoder computes each word and payload, and the decoder reads back what is encoded. -/
theorem workedEncodings : Obligations.WorkedEncodings := by
  intro x hx
  have h : encode x.1 = .command x.2.1 x.2.2 ∧ wellFormed x.1 = true := by
    revert x
    decide
  exact ⟨h.1, h.1 ▸ decode_encode h.2⟩

end Sys2Proof
end

section
/-! SUPPORT. A token word handed to the reader: the accessors' answers for each type, and the bytes a copy adds to the stream, from any
distance (40_token.md R100 to R106). -/

namespace Sys2Proof.Machine

/-! ### The bytes of a copy (R106) -/

/-- The byte a copy reads, in a list that goes on after the stream; before the stream's start it is free (log 9). -/
theorem some_byteBack (free : Nat → Byte) (stream rest : List Byte) {distance : Nat} (hd : 1 ≤ distance) :
    some (byteBack free stream distance) =
      if distance ≤ stream.length then (stream ++ rest)[stream.length - distance]? else some (free (distance - stream.length)) := by
  unfold byteBack
  split
  · next hle =>
    have hlt : stream.length - distance < stream.length := by omega
    rw [List.getD_eq_getElem?_getD, List.getElem?_append_left hlt, List.getElem?_eq_getElem hlt, Option.getD_some]
  · rfl

/-- A copy adds its count of bytes, each the one its distance back in the list they make. -/
theorem appendCopy_eq_append (free : Nat → Byte) {distance : Nat} (hd : 1 ≤ distance) (n : Nat) (stream : List Byte) :
    ∃ bytes, appendCopy free distance n stream = stream ++ bytes ∧ bytes.length = n ∧
      ∀ k < n, (stream ++ bytes)[stream.length + k]? =
        if distance ≤ stream.length + k then (stream ++ bytes)[stream.length + k - distance]?
        else some (free (distance - (stream.length + k))) := by
  induction n generalizing stream with
  | zero => exact ⟨[], (List.append_nil _).symm, rfl, nofun⟩
  | succ n ih =>
    obtain ⟨bytes, he, hlen, hback⟩ := ih (stream ++ [byteBack free stream distance])
    have hcons : stream ++ [byteBack free stream distance] ++ bytes = stream ++ byteBack free stream distance :: bytes := by simp
    rw [hcons] at he hback
    refine ⟨byteBack free stream distance :: bytes, he, congrArg (· + 1) hlen, fun k hk => ?_⟩
    cases k with
    | zero => rw [Nat.add_zero, ← some_byteBack free stream _ hd, List.getElem?_append_right (Nat.le_refl _), Nat.sub_self]; rfl
    | succ k =>
      have := hback k (by omega)
      simp only [List.length_append, List.length_singleton] at this
      rwa [show stream.length + 1 + k = stream.length + (k + 1) by omega] at this

/-! ### The accessors (R102, R103) -/

theorem readToken_makeLiteral (b : Byte) : readToken (makeLiteral b) =
    { word := b.setWidth 32, isLiteral := true, isMatch := false, literal := b, xlength := 0#8, xoffset := b.setWidth 22,
      wireLength := 3, wireDistance := b.toNat + 1 } := by
  have hb := b.isLt
  have hl : tokenXlength (makeLiteral b) = 0#8 := by
    apply BitVec.eq_of_toNat_eq
    rw [tokenXlength_toNat, makeLiteral_toNat, BitVec.toNat_ofNat]; omega
  have hx : tokenXoffset (makeLiteral b) = b.setWidth 22 := by
    apply BitVec.eq_of_toNat_eq
    rw [tokenXoffset_toNat, makeLiteral_toNat, BitVec.toNat_setWidth]
  have hd : wireDistance (makeLiteral b) = b.toNat + 1 := by
    rw [wireDistance, tokenXoffset_toNat, makeLiteral_toNat]
    show b.toNat % 4194304 + 1 = _
    omega
  rw [readToken, isLiteral_makeLiteral, isMatch_makeLiteral, tokenLiteral_makeLiteral, wireLength, hl, hx, hd]
  rfl

/-- The token of the match row is the word its row encodes to (R84, R101). -/
theorem makeMatch_fields (xlength : BitVec 8) (xoffset : BitVec 22) :
    makeMatch (xlength.toNat + 3) (xoffset.toNat + 1) = 0b01#2 ++ xlength ++ xoffset := by
  have hl := xlength.isLt
  have hx := xoffset.isLt
  apply BitVec.eq_of_toNat_eq
  rw [makeMatch_toNat (by omega) (by omega), matchToken_toNat, Nat.add_sub_cancel, Nat.add_sub_cancel]

theorem readToken_makeMatch (xlength : BitVec 8) (xoffset : BitVec 22) : readToken (makeMatch (xlength.toNat + 3) (xoffset.toNat + 1)) =
    { word := 0b01#2 ++ xlength ++ xoffset, isLiteral := false, isMatch := true, literal := xoffset.setWidth 8, xlength := xlength,
      xoffset := xoffset, wireLength := xlength.toNat + 3, wireDistance := xoffset.toNat + 1 } := by
  have hl := xlength.isLt
  have hx := xoffset.isLt
  have ht := matchToken_toNat xlength xoffset
  have hlit : isLiteral (0b01#2 ++ xlength ++ xoffset) = false := by
    rw [← makeMatch_fields]; exact isLiteral_makeMatch (by omega) (by omega)
  have hmatch : isMatch (0b01#2 ++ xlength ++ xoffset) = true := by
    rw [← makeMatch_fields]; exact isMatch_makeMatch (by omega) (by omega)
  have hbyte : tokenLiteral (0b01#2 ++ xlength ++ xoffset) = xoffset.setWidth 8 := by
    apply BitVec.eq_of_toNat_eq
    rw [tokenLiteral, BitVec.extractLsb'_toNat, ht, BitVec.toNat_setWidth, Nat.shiftRight_zero]
    omega
  have hlength : tokenXlength (0b01#2 ++ xlength ++ xoffset) = xlength := by
    apply BitVec.eq_of_toNat_eq
    rw [tokenXlength_toNat, ht]; omega
  have hoffset : tokenXoffset (0b01#2 ++ xlength ++ xoffset) = xoffset := by
    apply BitVec.eq_of_toNat_eq
    rw [tokenXoffset_toNat, ht]; omega
  rw [makeMatch_fields, readToken, wireLength, wireDistance, hlit, hmatch, hbyte, hlength, hoffset]

/-! ### The obligation -/

/-- Settles O10: the accessors by the fields of the word, the stream by the meaning of each type of token. -/
theorem tokenWordsRun : Obligations.TokenWordsRun := by
  refine ⟨fun b s => ?_, fun xlength xoffset s _ => ?_⟩
  · rw [← readToken_makeLiteral, ← expandToken_makeLiteral (Config.freeStreamByte s.t.epoch)]
    rfl
  · have hl := xlength.isLt
    have hx := xoffset.isLt
    obtain ⟨bytes, he, hlen, hback⟩ :=
      appendCopy_eq_append (Config.freeStreamByte s.t.epoch) (Nat.le_add_left 1 xoffset.toNat) (xlength.toNat + 3) s.t.stream
    refine ⟨bytes, ?_, hlen, hlen ▸ hback⟩
    rw [← readToken_makeMatch, ← he, ← expandToken_makeMatch _ _ (by omega) (by omega) (by omega) (by omega)]
    rfl

end Sys2Proof.Machine
end

section
/-! SUPPORT. The one response to every command word (30_encoding.md R80): what it holds, from the ends an instruction can have and from a
malformed word. -/

namespace Sys2Proof.Machine

/-! ### What a response holds -/

/-- The instruction returns data bytes with its value (R80). -/
def ReturnsData (i : Instr) : Prop := i = .ddReadFlush ∨ ∃ max, i = .ddStashRead max

/-- What R80 asks of the response `r` that leads to the state `t`: with a status other than OK no data, and as value the code in M.err
for E_IO and else 0; data only from a command that returns data, and then as many bytes as the value. -/
structure GoodResponse (returnsData : Prop) (t : State) (r : Response) : Prop where
  failed : r.status ≠ .ok → r.data = [] ∧ (r.status = .io → t.m.err = .io r.value) ∧ (r.status ≠ .io → r.value = 0#32)
  noData : ¬ returnsData → r.data = []
  data : r.status = .ok → returnsData → r.data.length = r.value.toNat

/-- The outcome is a next state with one more response, a good one. -/
def Answers (returnsData : Prop) (s : State) (o : Host.Outcome State Fault Refusal) : Prop :=
  ∃ t r, o = .next t ∧ t.responses = s.responses ++ [r] ∧ GoodResponse returnsData t r

theorem goodResponse_of_failed {p : Prop} {t : State} {status : Status} (hok : status ≠ .ok) (hio : status ≠ .io) :
    GoodResponse p t ⟨status, 0#32, []⟩ :=
  ⟨fun _ => ⟨rfl, fun h => absurd h hio, fun _ => rfl⟩, fun _ => rfl, fun h => absurd h hok⟩

theorem goodResponse_of_io {p : Prop} {t : State} {c : Word32} (hc : t.m.err = .io c) : GoodResponse p t ⟨.io, c, []⟩ :=
  ⟨fun _ => ⟨rfl, fun _ => hc, fun h => absurd rfl h⟩, fun _ => rfl, nofun⟩

theorem goodResponse_of_ok {p : Prop} (hp : ¬ p) {t : State} {value : Word32} : GoodResponse p t ⟨.ok, value, []⟩ :=
  ⟨fun h => absurd rfl h, fun _ => rfl, fun _ h => absurd h hp⟩

theorem goodResponse_of_data {p : Prop} (hp : p) {t : State} {value : Nat} {data : List Byte} (hv : value < 4294967296)
    (hd : data.length = value) : GoodResponse p t ⟨.ok, BitVec.ofNat 32 value, data⟩ :=
  ⟨fun h => absurd rfl h, fun h => absurd hp h, fun _ _ => hd.trans (Nat.mod_eq_of_lt hv).symm⟩

/-! ### Faults and malformed words -/

theorem answers_latched (p : Prop) (s : State) (f : FaultCode) : Answers p s (.next (respond s (.fault f) 0 [])) :=
  ⟨_, _, rfl, rfl, goodResponse_of_failed nofun nofun⟩

theorem answers_raiseFault (p : Prop) (s : State) (u : UnitName) (f : FaultCode) : Answers p s (.next (raiseFault u f s)) := by
  cases u <;> exact ⟨_, _, rfl, rfl, goodResponse_of_failed nofun nofun⟩

theorem answers_raiseMalformed (p : Prop) (s : State) (u : UnitName) (f : FaultCode) : Answers p s (.next (raiseMalformed u f s)) := by
  unfold raiseMalformed
  split
  · exact answers_latched p s _
  · exact answers_raiseFault p s u f

theorem answers_raiseNoUnit (p : Prop) (s : State) : Answers p s (.next (raiseNoUnit s)) := by
  rw [raiseNoUnit_eq]
  exact ⟨_, _, rfl, rfl, goodResponse_of_failed nofun nofun⟩

/-! ### Instructions -/

/-- A Matcher command returns no data; where it fails its status says whether the value is the Emitter's code (R80, R159). -/
theorem exec_matcher_answers {i : Instr} (hu : unitOfInstr i = some .matcher) {s : State} (h : s.Inv) :
    Answers (ReturnsData i) s (exec i s) := by
  have hno : ¬ ReturnsData i := by rintro (rfl | ⟨max, rfl⟩) <;> cases hu
  obtain ⟨f, -, he⟩ | ⟨-, -, -, he⟩ |
    ⟨-, -, ⟨u, status, value, -, hdone, he⟩ | ⟨dict, -, -, -, he⟩ | ⟨level, -, -, he⟩⟩ := exec_matcher_cases hu h
  · exact he ▸ answers_latched _ s f
  · exact he ▸ answers_raiseFault _ s .matcher .notConfigured
  · refine ⟨_, _, he, rfl, ?_⟩
    obtain rfl | ⟨rfl, c, hc, rfl⟩ | ⟨rfl | rfl, rfl⟩ := hdone.answer
    · exact goodResponse_of_ok hno
    · rw [BitVec.ofNat_toNat, BitVec.setWidth_eq]
      exact goodResponse_of_io hc
    · exact goodResponse_of_failed nofun nofun
    · exact goodResponse_of_failed nofun nofun
  · exact he ▸ answers_raiseFault _ s .matcher .fillStale
  · exact ⟨_, _, he, rfl, goodResponse_of_failed nofun nofun⟩

/-- DD_INIT returns no data (R173). -/
theorem exec_ddInit_answers (size : Word32) (dict : List Byte) (s : State) :
    Answers (ReturnsData (.ddInit size dict)) s (exec (.ddInit size dict) s) := by
  have hno : ¬ ReturnsData (.ddInit size dict) := by rintro (h | ⟨max, h⟩) <;> cases h
  obtain ⟨f, -, he⟩ | ⟨-, -, he⟩ | ⟨-, -, he⟩ := exec_ddInit_cases size dict s
  · exact he ▸ answers_latched _ s f
  · exact ⟨_, _, he, rfl, goodResponse_of_ok hno⟩
  · exact ⟨_, _, he, rfl, goodResponse_of_failed nofun nofun⟩

/-- What the body of a DictDecoder command ends with is a good response (R80, R199). -/
theorem Settles.answers {i : Instr} {s : State} {v : Verdict Decoder} (h : Settles i s v) :
    Answers (ReturnsData i) s (finishDecoder s v) := by
  obtain ⟨d, value, data, rfl, -, -, -, hv, ⟨hstash, hflush, rfl⟩ | ⟨hp, hd⟩⟩ | ⟨f, rfl, -⟩ := h
  · exact ⟨_, _, rfl, rfl, goodResponse_of_ok fun hp => hp.elim hflush fun ⟨max, hi⟩ => hstash max hi⟩
  · exact ⟨_, _, rfl, rfl, goodResponse_of_data hp hv hd⟩
  · exact answers_raiseFault _ { s with d := s.d } .decoder f

theorem exec_decoder_answers {i : Instr} (hu : unitOfInstr i = some .decoder) {s : State} (h : s.d.Inv) :
    Answers (ReturnsData i) s (exec i s) := by
  cases hc : constructs i with
  | true =>
    cases i with
    | ddInit size dict => exact exec_ddInit_answers size dict s
    | mConfig level => cases hu
    | _ => cases hc
  | false =>
    obtain ⟨f, -, he⟩ | ⟨-, -, he⟩ | ⟨-, -, -, -, he⟩ | ⟨-, -, -, v, -, hv, he⟩ := exec_decoder_cases hu hc h
    · exact he ▸ answers_latched _ s f
    · exact he ▸ answers_raiseFault _ s .decoder .notConfigured
    · exact he ▸ answers_raiseFault _ s .decoder .ddStashPending
    · exact he ▸ hv.answers

/-! ### Command words -/

/-- The two commands that return data, by their opcodes (R78). -/
theorem returnsData_iff_opField {w : Word64} {payload : List Byte} {i : Instr} (h : encode i = .command w payload) :
    ReturnsData i ↔ opField w = 0x27#8 ∨ opField w = 0x2A#8 := by
  cases i <;> cases h <;> simp [ReturnsData]

theorem runPacket_answers (w : Word64) (payload : List Byte) {s : State} (h : s.Inv) :
    Answers (opField w = 0x27#8 ∨ opField w = 0x2A#8) s (runPacket (.command w payload) s) := by
  obtain ⟨-, he⟩ | ⟨row, u, -, -, ⟨-, i, hi, hu⟩ | ⟨-, he⟩⟩ := decode_command_cases w payload
  · rw [runPacket_of_decode_error he]
    cases unitOf (opField w) with
    | none => exact answers_raiseNoUnit _ s
    | some u => exact answers_raiseMalformed _ s u .badOpcode
  · rw [runPacket, hi, ← returnsData_iff_opField (encode_decode hi).2]
    cases u with
    | matcher => exact exec_matcher_answers hu h
    | decoder => exact exec_decoder_answers hu h.d
  · rw [runPacket_of_decode_error he]
    exact answers_raiseMalformed _ s u .badField

/-! ### The response word -/

theorem responseWord_toNat (r : Response) : (responseWord r).toNat = (statusCode r.status).toNat + 256 * r.value.toNat := by
  have h : responseWord r = commandWord (statusCode r.status) r.value 0#24 := rfl
  rw [h, commandWord_toNat, BitVec.toNat_ofNat]
  omega

/-! ### The obligation -/

/-- Settles O53: a malformed word answers its fault, an instruction what its unit's ends allow; the response word has the layout of a
command word. -/
theorem everyCommandAnswers : Obligations.EveryCommandAnswers := by
  refine ⟨fun w payload s h => ?_, responseWord_toNat⟩
  obtain ⟨t, r, ht, hr, hgood⟩ := runPacket_answers w payload h
  exact ⟨t, r, ht, hr, hgood.failed, fun h1 h2 => hgood.noData (not_or.mpr ⟨h1, h2⟩), hgood.data⟩

end Sys2Proof.Machine
end

section
/-! SUPPORT. The history of the DictDecoder as a stream (10_state.md R28, 47_dictdecoder.md R182, R183): what a write at the cursor does to
it, and that a copy adds the bytes a match token stands for (40_token.md R106). -/

namespace Sys2Proof.Machine

/-! ### Runs of HIST -/

theorem histRun_append (d : Decoder) (a m n : Nat) : histRun d a (m + n) = histRun d a m ++ histRun d (a + m) n := by
  simp only [histRun, Memory.readRun_eq, List.range_add, List.map_append, List.map_map]
  congr 2
  funext k
  exact congrArg (Memory.readByte _ _) (Nat.add_assoc a m k).symm

theorem histRun_congr {d d' : Decoder} {a n : Nat} (h : ∀ k < n, histByte d' (a + k) = histByte d (a + k)) :
    histRun d' a n = histRun d a n := by
  apply List.ext_getElem?
  intro k
  rw [getElem?_histRun, getElem?_histRun]
  split
  · next hk => rw [h k hk]
  · rfl

/-! ### The history (R28, R183) -/

theorem length_historyBytes {d : Decoder} (h : d.wrPos ≤ d.size) : (historyBytes d).length = histSize d := by
  unfold historyBytes histSize
  split
  · rw [List.length_append, length_histRun, length_histRun, Nat.sub_add_cancel h]
  · rw [List.nil_append, length_histRun]

/-- The byte `back` places before the end of the history is the one so far back in the circle of HIST. -/
theorem getElem?_historyBytes_back {d : Decoder} (hw : d.wrPos ≤ d.size) {back : Nat} (h1 : 1 ≤ back) (h2 : back ≤ histSize d) :
    (historyBytes d)[histSize d - back]? =
      some (histByte d (if back ≤ d.wrPos then d.wrPos - back else d.wrPos + d.size - back)) := by
  unfold histSize at h2 ⊢
  unfold historyBytes
  cases hf : d.full with
  | false =>
    simp only [hf, Bool.false_eq_true, if_false, List.nil_append] at h2 ⊢
    rw [getElem?_histRun, if_pos (by omega), if_pos h2, Nat.zero_add]
  | true =>
    simp only [hf, if_true, List.getElem?_append, length_histRun, getElem?_histRun] at h2 ⊢
    by_cases hb : back ≤ d.wrPos
    · rw [if_neg (by omega), if_pos (by omega), if_pos hb]
      congr 2; omega
    · rw [if_pos (by omega), if_pos (by omega), if_neg hb]
      congr 2; omega

/-- A write of `n` bytes at the cursor: the history is the last hist_size bytes of the old one followed by them. Where D.full is set,
the bytes at the cursor were the oldest. -/
theorem historyBytes_of_write {d d' : Decoder} {n : Nat} (hs : SameHist d d') (hw : d'.wrPos = d.wrPos + n)
    (hn : d.wrPos + n ≤ d.size) (hkeep : ∀ a, a < d.wrPos ∨ d.wrPos + n ≤ a → histByte d' a = histByte d a) :
    historyBytes d' = tail (histSize d') (historyBytes d ++ histRun d' d.wrPos n) := by
  have hnew : histRun d' 0 (d.wrPos + n) = histRun d 0 d.wrPos ++ histRun d' d.wrPos n := by
    rw [histRun_append, Nat.zero_add, histRun_congr fun k hk => hkeep (0 + k) (by omega)]
  unfold tail
  rw [List.length_append, length_historyBytes (by omega), length_histRun]
  unfold historyBytes histSize
  rw [hs.full, hs.size, hw, hnew]
  cases d.full with
  | false => simp
  | true =>
    have hold : histRun d d.wrPos (d.size - d.wrPos) =
        histRun d d.wrPos n ++ histRun d' (d.wrPos + n) (d.size - (d.wrPos + n)) := by
      rw [show d.size - d.wrPos = n + (d.size - (d.wrPos + n)) by omega, histRun_append,
        histRun_congr (d' := d') fun k _ => hkeep _ (by omega)]
    have hdrop : d.size + n - d.size = (histRun d d.wrPos n).length := by rw [length_histRun]; omega
    simp only [if_true, hold, hdrop, List.append_assoc, List.drop_left]

/-! ### The copy (R182) -/

/-- After the old history, each byte the copy loop makes is the one `dist` before it, the copy's own bytes included (R182). -/
theorem historyBytes_append_copy_repeats {d : Decoder} (h : d.Inv) {dist n : Nat} (h1 : 1 ≤ dist) (h2 : dist ≤ histSize d)
    (hn : d.wrPos + n ≤ d.size) : ∀ k < n,
    (historyBytes d ++ histRun (copyBytes dist n d) d.wrPos n)[histSize d + k]? =
      (historyBytes d ++ histRun (copyBytes dist n d) d.wrPos n)[histSize d + k - dist]? := by
  intro k hk
  have hsize := h.hist_size_le
  have hlen := length_historyBytes h.wr_le
  obtain ⟨-, -, -, hkeep, hcopied⟩ := copyBytes_spec dist n d h1 (by omega) hn h.histWf
  rw [List.getElem?_append_right (by omega), hlen, Nat.add_sub_cancel_left, getElem?_histRun, if_pos hk, hcopied k hk]
  by_cases hown : dist ≤ k
  · rw [List.getElem?_append_right (by omega), getElem?_histRun, if_pos (by omega), if_pos (by omega)]
    congr 2; omega
  · rw [List.getElem?_append_left (by omega), show histSize d + k - dist = histSize d - (dist - k) by omega,
      getElem?_historyBytes_back h.wr_le (by omega) (by omega)]
    by_cases hlow : dist ≤ d.wrPos + k
    · rw [if_pos hlow, if_pos (by omega), hkeep _ (by omega)]
      congr 2; omega
    · rw [if_neg hlow, if_neg (by omega)]
      congr 2; omega

/-- The copy loop's bytes after the old history are what a match token of its count and distance expands it to. -/
theorem appendCopy_historyBytes (free : Nat → Byte) {d : Decoder} (h : d.Inv) {dist n : Nat} (h1 : 1 ≤ dist)
    (h2 : dist ≤ histSize d) (hn : d.wrPos + n ≤ d.size) :
    appendCopy free dist n (historyBytes d) = historyBytes d ++ histRun (copyBytes dist n d) d.wrPos n := by
  have hlen := length_historyBytes h.wr_le
  have hfull : (historyBytes d ++ histRun (copyBytes dist n d) d.wrPos n).length = histSize d + n := by
    rw [List.length_append, hlen, length_histRun]
  have hcopy := appendCopy_of_repeats free _ dist n (histSize d) h1 h2 hfull.ge (historyBytes_append_copy_repeats h h1 h2 hn)
  rwa [List.take_left' hlen, List.take_of_length_le hfull.le] at hcopy

/-- A copy leaves as history the last hist_size bytes of what a match token of its count and distance makes of the old one. -/
theorem historyBytes_copyBytes (free : Nat → Byte) {d : Decoder} (h : d.Inv) {dist n : Nat} (h1 : 1 ≤ dist)
    (h2 : dist ≤ histSize d) (hn : d.wrPos + n ≤ d.size) :
    historyBytes (copyBytes dist n d) = tail (histSize (copyBytes dist n d)) (appendCopy free dist n (historyBytes d)) := by
  have hsize := h.hist_size_le
  obtain ⟨hs, hw, -, hkeep, -⟩ := copyBytes_spec dist n d h1 (by omega) hn h.histWf
  rw [appendCopy_historyBytes free h h1 h2 hn, historyBytes_of_write hs hw hn hkeep]

/-- DD_WRITE_COPY where no fault stops it: the view closes and the copy loop runs (R182). -/
theorem exec_ddWriteCopy_of_valid {s : State} {dist : Word32} {len : BitVec 24} (hr : DecoderReady s) (hst : s.d.stashLen = 0)
    (h1 : 1 ≤ dist.toNat) (h2 : dist.toNat ≤ histSize s.d) :
    exec (.ddWriteCopy dist len) s =
      .next (respond { s with d := copyBytes dist.toNat (copyCount s.d len.toNat) (closeView s.d) } .ok (copyCount s.d len.toNat) []) := by
  have hvalid : ¬ (dist.toNat = 0 ∨ histSize (closeView s.d) < dist.toNat) := by
    show ¬ (dist.toNat = 0 ∨ histSize s.d < dist.toNat)
    omega
  calc exec (.ddWriteCopy dist len) s
    _ = finishDecoder s (writeCopyBody dist.toNat len.toNat s.d (closeView s.d)) :=
      decoderCommand_run hr.faulted hr.configured (.inr hst) _
    _ = _ := by rw [writeCopyBody, if_neg hvalid]; rfl

theorem copyCount_of_fits {d : Decoder} {len : Nat} (h : d.wrPos + len ≤ d.size) : copyCount d len = len := by
  rw [copyCount, Nat.min_eq_left h, Nat.add_sub_cancel_left]

/-! ### The obligations -/

/-- Settles O8: the laws of each token operation, the fields of a match word being disjoint (`makeMatch_toNat`). -/
theorem tokenRoundTrip : Obligations.TokenRoundTrip := by
  refine ⟨fun b => ⟨isLiteral_makeLiteral b, isMatch_makeLiteral b, tokenLiteral_makeLiteral b, makeLiteral_toNat b⟩,
    fun length distance hl hl' hd hd' => ?_⟩
  have hoff : distance ≤ 4194304 := by omega
  exact ⟨isMatch_makeMatch hl' hoff, isLiteral_makeMatch hl' hoff, wireLength_makeMatch hl hl' hoff, wireDistance_makeMatch hl' hd hoff,
    makeMatch_toNat hl' hoff, fun b => makeLiteral_ne_makeMatch b hl' hoff⟩

/-- Settles O9: a match is `appendCopy`, which reads only bytes of the stream where the distance lies in it; the copy of DD_WRITE_COPY
is the same on the history by `historyBytes_copyBytes`. -/
theorem tokenMeaning : Obligations.TokenMeaning := by
  refine ⟨expandToken_makeLiteral, fun free stream length distance hl hl' hd hd' hin => ?_,
    fun free s dist len h hr hst hl hl' hd hd' hin hfits => ?_⟩
  · obtain ⟨bytes, he, hlen, hback⟩ := appendCopy_eq_append free hd length stream
    refine ⟨bytes, (expandToken_makeMatch free stream hl hl' hd (by omega)).trans he, hlen, fun k hk => ?_⟩
    rw [hback k hk, if_pos (by omega)]
  · refine ⟨_, exec_ddWriteCopy_of_valid hr hst hd hin, ?_⟩
    rw [expandToken_makeMatch free _ hl hl' hd (by omega), copyCount_of_fits hfits]
    exact historyBytes_copyBytes free h.closeView hd hin hfits

end Sys2Proof.Machine
end

section
/-! SUPPORT. What a level operand resolves to, and the row M_CONFIG copies (30_encoding.md R76, 41_level_params.md R110 to
R113). -/

namespace Sys2Proof.Machine

/-! ### The level operand and its resolution (R76, R110) -/

/-- A word with bit 31 set stands for the negative number 2^32 below it. -/
theorem levelOperand_eq (a : Word32) :
    levelOperand a = if a.toNat < 2147483648 then (a.toNat : Int) else (a.toNat : Int) - 4294967296 := by
  rw [levelOperand, BitVec.toInt_eq_toNat_cond]
  split <;> split <;> omega

theorem resolveLevel_of_mem_range {v : Int} (h2 : 2 ≤ v) (h9 : v ≤ 9) : resolveLevel v = .deflate v.toNat := by
  rw [resolveLevel, if_neg (by omega), if_pos ⟨h2, h9⟩]

theorem resolveLevel_of_other {v : Int} (h : v = -2 ∨ v = 0 ∨ v = 1) : resolveLevel v = .otherMode := by
  rw [resolveLevel, if_neg (by omega), if_neg (by omega), if_pos h]

theorem resolveLevel_of_outside {v : Int} (h : v < -2 ∨ 9 < v) : resolveLevel v = .invalid := by
  rw [resolveLevel, if_neg (by omega), if_neg (by omega), if_neg (by omega)]

/-- Settles O11: the operand by its sign bit, the resolution by a lemma for each range of levels. -/
theorem levelResolution : Obligations.LevelResolution := by
  refine ⟨levelOperand_eq, fun v => ⟨?_, resolveLevel_of_mem_range, resolveLevel_of_other, resolveLevel_of_outside⟩⟩
  rintro rfl
  rfl

/-! ### The row M_CONFIG copies (R112, R113) -/

/-- M_CONFIG needs no configured Matcher, only one that is not faulted (R204). -/
theorem exec_mConfig {s : State} (hf : s.m.faulted = none) (a : Word32) :
    exec (.mConfig a) s = finishMatcher s (configBody a s.side) :=
  matcherCommand_run hf (.inl rfl) _

theorem configBody_of_deflate {a : Word32} {l : Nat} (h : resolveLevel (levelOperand a) = .deflate l) (u : MatcherSide) :
    configBody a u = .reply ⟨{ clearMatcher { u.m with params := levelRow l } with configured := true },
      { u.e with err := none, log := [] }⟩ .ok 0 [] := by
  rw [configBody, h]

theorem exec_mConfig_params {s : State} (hf : s.m.faulted = none) {a : Word32} {l : Nat}
    (h : resolveLevel (levelOperand a) = .deflate l) : ∃ t, exec (.mConfig a) s = .next t ∧ t.m.params = levelRow l := by
  rw [exec_mConfig hf, configBody_of_deflate h]
  exact ⟨_, rfl, rfl⟩

/-- Settles O12: every row of the statement's table carries the level its operand resolves to and is the model's row of that
level, so M_CONFIG copies it by `exec_mConfig_params`. -/
theorem levelTable : Obligations.LevelTable := by
  intro s hf x hx
  have hrow : resolveLevel (levelOperand x.1) = .deflate x.2.level ∧ levelRow x.2.level = x.2 := by
    revert x
    decide
  obtain ⟨hlevel, hparams⟩ := hrow
  exact hparams ▸ exec_mConfig_params hf hlevel

end Sys2Proof.Machine
end

section
/-! SUPPORT. The hash as arithmetic and its batched form (42_hash.md R117, R118, R121), and HEAD and PREV read back after an insertion
(R119, R120). -/

namespace Sys2Proof.Machine

/-! ### The hash and its bucket (R117, R118) -/

theorem hashGroup_eq (g : Word32) : hashGroup g = g.toNat * 0x1E35A7BD % 4294967296 / 32768 := by
  rw [hashGroup, BitVec.toNat_ushiftRight, BitVec.toNat_mul, Nat.shiftRight_eq_div_pow]
  rfl

theorem hashGroup_lt (g : Word32) : hashGroup g < 131072 := by
  rw [hashGroup_eq]
  omega

/-- The hash already has the bits of a bucket, so the mask changes nothing (R118). -/
theorem bucket_eq_hash4 (m : Matcher) (p : Nat) : bucket m p = hash4 m p := Nat.mod_eq_of_lt (hashGroup_lt _)

theorem bucket_eq (m : Matcher) (p : Nat) : bucket m p =
    ((winByte m p).toNat * 16777216 + (winByte m (p + 1)).toNat * 65536 + (winByte m (p + 2)).toNat * 256 +
      (winByte m (p + 3)).toNat) * 0x1E35A7BD % 4294967296 / 32768 := by
  rw [bucket_eq_hash4, hash4, hashGroup_eq, winRun_four, bigEndian_toNat]

/-! ### The batched hash (R121) -/

/-- A rolling step drops the top byte of the group and appends the new one. -/
theorem rollGroup_toNat (g : Word32) (b : Byte) : (rollGroup g b).toNat = g.toNat % 16777216 * 256 + b.toNat := by
  have hb : b.toNat < 2 ^ 8 := b.isLt
  have hshift : g.toNat * 2 ^ 8 % 2 ^ 32 = g.toNat % 16777216 * 2 ^ 8 := by omega
  rw [rollGroup, BitVec.toNat_or, BitVec.toNat_shiftLeft, BitVec.toNat_setWidth_of_le (by decide), Nat.shiftLeft_eq, hshift,
    ← Nat.shiftLeft_eq, ← Nat.shiftLeft_add_eq_or_of_lt hb, Nat.shiftLeft_eq]

theorem rollGroup_bigEndian (b0 b1 b2 b3 b4 : Byte) : rollGroup (bigEndian [b0, b1, b2, b3]) b4 = bigEndian [b1, b2, b3, b4] := by
  have h1 := b1.isLt
  have h2 := b2.isLt
  have h3 := b3.isLt
  apply BitVec.eq_of_toNat_eq
  rw [rollGroup_toNat, bigEndian_toNat, bigEndian_toNat]
  omega

/-- Settles O14: both groups are four bytes of the window, and the step drops the first of five (`rollGroup_bigEndian`). -/
theorem batchedHash : Obligations.BatchedHash := by
  intro m p
  rw [winRun_four, winRun_four]
  exact rollGroup_bigEndian _ _ _ _ _

/-! ### HEAD and PREV after an insertion (R119, R120) -/

theorem headWord_insertHash (m : Matcher) (p h : Nat) :
    headWord (insertHash m p) h = if h = bucket m p then BitVec.ofNat 32 (p + m.hashOffset) else headWord m h := by
  rw [headWord, insertHash_head, Memory.readWord_writeWord, headWord]

theorem prevWord_insertHash (m : Matcher) (p q : Nat) :
    prevWord (insertHash m p) q = if q % 32768 = p % 32768 then headWord m (bucket m p) else prevWord m q := by
  rw [prevWord, insertHash_prev, Memory.readWord_writeWord, prevWord]

/-- Settles O13: the bucket by `bucket_eq`, each word by the law of a word written, the frames by definition. -/
theorem hashInsertion : Obligations.HashInsertion := fun m p =>
  ⟨bucket_eq m p, rfl, headWord_insertHash m p, prevWord_insertHash m p, rfl⟩

end Sys2Proof.Machine
end

section
/-! SUPPORT. The window (43_window.md): what a shift does to every byte, register and word (R126, R127), what fill copies (R125), and
HEAD and PREV read back after insertions at consecutive positions, which is how fill_window primes the chains (R129). -/

namespace Sys2Proof.Machine

/-! ### The shift and the rebase (R126, R127) -/

/-- The upper half of WIN is copied to the lower half and stays (R126). -/
theorem winByte_shiftWindow_eq (m : Matcher) (a : Nat) :
    winByte (shiftWindow m) a = if a < 32768 then winByte m (a + 32768) else winByte m a := by
  by_cases h : a < 32768
  · rw [if_pos h, winByte_shiftWindow h]
  · rw [if_neg h, winByte_congr (shiftWindow_win m) (shiftWindow_setup m).winEpoch, winByte_putWin, length_winRun, if_neg (by omega)]

/-- The registers after a shift that ends without a rebase (R126). -/
theorem shiftWindow_of_le {m : Matcher} (h : m.hashOffset + 32768 ≤ 16777216) : shiftWindow m = { m with
    win := (shiftWindow m).win
    index := m.index - 32768
    windowEnd := m.windowEnd - 32768
    blockStart := shiftBlockStart m.blockStart
    hashOffset := m.hashOffset + 32768 } := by
  obtain ⟨hlt, -⟩ | ⟨-, he⟩ := shiftWindow_cases m
  · exact absurd h (Nat.not_le.mpr hlt)
  · rw [shiftWindow_win, he, slideWindow_eq]

/-- The registers after a shift that ends with a rebase (R126, R127). -/
theorem shiftWindow_of_lt {m : Matcher} (h : 16777216 < m.hashOffset + 32768) : shiftWindow m = { m with
    win := (shiftWindow m).win
    head := Memory.rebaseWords m.head (m.hashOffset + 32767)
    prev := Memory.rebaseWords m.prev (m.hashOffset + 32767)
    index := m.index - 32768
    windowEnd := m.windowEnd - 32768
    blockStart := shiftBlockStart m.blockStart
    hashOffset := 1
    chainHead := m.chainHead - (m.hashOffset + 32767) } := by
  obtain ⟨-, he⟩ | ⟨hle, -⟩ := shiftWindow_cases m
  · have hdelta : m.hashOffset + 32768 - 1 = m.hashOffset + 32767 := rfl
    rw [shiftWindow_win, he, slideWindow_eq, rebase]
    simp only [hdelta, Nat.cast_add, Nat.cast_ofNat]
  · exact absurd h (Nat.not_lt.mpr hle)

/-- A rebase takes the delta off a word, down to 0 (R127). -/
theorem toNat_readWord_rebaseWords {m : List (Nat × Word32)} (hm : Memory.rising m) (delta a : Nat) :
    (Memory.readWord (Memory.rebaseWords m delta) a).toNat = (Memory.readWord m a).toNat - delta := by
  have hlt := (Memory.readWord m a).isLt
  rw [Memory.readWord_rebaseWords hm]
  split
  case isTrue h => rw [BitVec.toNat_ofNat, Nat.mod_eq_of_lt (by omega)]
  case isFalse h => exact (Nat.sub_eq_zero_of_le (Nat.le_of_not_lt h)).symm

/-- Settles O15: the bytes by `winByte_shiftWindow_eq`, the registers on each side of the greatest hash offset, the words by
`toNat_readWord_rebaseWords`. -/
theorem windowShift : Obligations.WindowShift := by
  intro m hhead hprev
  refine ⟨winByte_shiftWindow_eq m, fun h => shiftWindow_of_le h, fun h => ?_⟩
  have he := shiftWindow_of_lt h
  have hh : (shiftWindow m).head = Memory.rebaseWords m.head (m.hashOffset + 32767) := by rw [he]
  have hp : (shiftWindow m).prev = Memory.rebaseWords m.prev (m.hashOffset + 32767) := by rw [he]
  refine ⟨?_, fun x => ?_, fun q => ?_⟩
  · rw [hh, hp]; exact he
  · rw [headWord, hh]; exact toNat_readWord_rebaseWords hhead.1 _ x
  · rw [prevWord, hp]; exact toNat_readWord_rebaseWords hprev.1 _ _

/-! ### fill (R125) -/

/-- Settles O16: fill answers as `fill_eq` says, and its copy leaves the bytes of `winByte_appendWindow`. -/
theorem fillCopies : Obligations.FillCopies := fun m b hs =>
  ⟨(appendWindow (roomy m) b).1, (appendWindow (roomy m) b).2, fill_eq hs b, roomy m, rfl, rfl, rfl, winByte_appendWindow (roomy m) b⟩

/-! ### Insertions at consecutive positions (R119, R129) -/

/-- The last of the insertions, taken off. -/
theorem insertAll_succ (n : Nat) : ∀ (p : Nat) (m : Matcher), insertAll (n + 1) p m = insertHash (insertAll n p m) (p + n) := by
  induction n with
  | zero => intro p m; rfl
  | succ n ih =>
    intro p m
    rw [insertAll, ih, insertAll, Nat.add_assoc, Nat.add_comm 1 n]

/-- Insertions change HEAD and PREV only. -/
theorem insertAll_frame (n : Nat) : ∀ (p : Nat) (m : Matcher),
    insertAll n p m = { m with head := (insertAll n p m).head, prev := (insertAll n p m).prev } := by
  induction n with
  | zero => intro p m; rfl
  | succ n ih => intro p m; exact ih (p + 1) (insertHash m p)

theorem bucket_congr {m m' : Matcher} (hw : m.win = m'.win) (he : m.winEpoch = m'.winEpoch) (p : Nat) :
    bucket m p = bucket m' p := by
  rw [bucket, bucket, hash4, hash4, winRun_congr hw he]

/-- Insertions leave WIN, so every bucket, as it is. -/
theorem bucket_insertAll (n p : Nat) (m : Matcher) (q : Nat) : bucket (insertAll n p m) q = bucket m q :=
  have hb := insertAll_base n p m
  bucket_congr hb.win hb.winEpoch q

section
variable (m : Matcher)

/-- HEAD after one more position of a run from 0: its bucket takes the position's value. -/
theorem headWord_insertAll_succ (n h : Nat) : headWord (insertAll (n + 1) 0 m) h =
    if h = bucket m n then BitVec.ofNat 32 (n + m.hashOffset) else headWord (insertAll n 0 m) h := by
  have ho : (insertAll n 0 m).hashOffset = m.hashOffset := by rw [insertAll_frame]
  rw [insertAll_succ, headWord_insertHash, Nat.zero_add, bucket_insertAll, ho]

/-- PREV after one more position of a run from 0: its slot takes the bucket's old head. -/
theorem prevWord_insertAll_succ (n q : Nat) : prevWord (insertAll (n + 1) 0 m) q =
    if q % 32768 = n % 32768 then headWord (insertAll n 0 m) (bucket m n) else prevWord (insertAll n 0 m) q := by
  rw [insertAll_succ, prevWord_insertHash, Nat.zero_add, bucket_insertAll]

/-- A bucket of no inserted position keeps its head. -/
theorem headWord_insertAll_of_forall_ne {n h : Nat} (hne : ∀ q < n, bucket m q ≠ h) :
    headWord (insertAll n 0 m) h = headWord m h := by
  induction n with
  | zero => rfl
  | succ n ih =>
    rw [headWord_insertAll_succ, if_neg (hne n (Nat.lt_succ_self n)).symm, ih fun q hq => hne q (Nat.lt_succ_of_lt hq)]

/-- The head of a bucket is the last inserted position in it. -/
theorem headWord_insertAll_of_last {n p h : Nat} (hp : p < n) (hb : bucket m p = h) (hlast : ∀ q < n, p < q → bucket m q ≠ h) :
    headWord (insertAll n 0 m) h = BitVec.ofNat 32 (p + m.hashOffset) := by
  induction n with
  | zero => exact absurd hp (Nat.not_lt_zero p)
  | succ n ih =>
    rw [headWord_insertAll_succ]
    obtain hlt | rfl := Nat.lt_succ_iff_lt_or_eq.mp hp
    · rw [if_neg (hlast n (Nat.lt_succ_self n) hlt).symm]
      exact ih hlt fun q hq => hlast q (Nat.lt_succ_of_lt hq)
    · rw [if_pos hb.symm]

/-- A slot of PREV that no inserted position has keeps its word. -/
theorem prevWord_insertAll_of_le {n : Nat} (hn : n ≤ 32768) {q : Nat} (hq : n ≤ q % 32768) :
    prevWord (insertAll n 0 m) q = prevWord m q := by
  induction n with
  | zero => rfl
  | succ n ih => rw [prevWord_insertAll_succ, if_neg (by omega), ih (by omega) (by omega)]

/-- An inserted position's slot of PREV holds the head its bucket had just before. -/
theorem prevWord_insertAll_of_lt {n : Nat} (hn : n ≤ 32768) {p : Nat} (hp : p < n) :
    prevWord (insertAll n 0 m) p = headWord (insertAll p 0 m) (bucket m p) := by
  induction n with
  | zero => exact absurd hp (Nat.not_lt_zero p)
  | succ n ih =>
    rw [prevWord_insertAll_succ]
    obtain hlt | rfl := Nat.lt_succ_iff_lt_or_eq.mp hp
    · rw [if_neg (by omega)]
      exact ih (by omega) hlt
    · rw [if_pos rfl]

end

/-! ### fill_window (R129) -/

theorem getD_tail (n : Nat) (l : List Byte) (a : Nat) : (tail n l).getD a 0#8 = l.getD (l.length - min n l.length + a) 0#8 := by
  have hstart : l.length - n = l.length - min n l.length := by omega
  rw [tail, List.getD_eq_getElem?_getD, List.getD_eq_getElem?_getD, List.getElem?_drop, hstart]

/-- Priming changes WIN, HEAD, PREV and the cursors only. -/
theorem primed_frame (m : Matcher) (kept : List Byte) : primed m kept = { m with
    win := (primed m kept).win
    head := (primed m kept).head
    prev := (primed m kept).prev
    windowEnd := kept.length
    index := kept.length
    blockStart := kept.length } := by
  unfold primed
  rw [insertAll_frame]
  rfl

/-- The kept bytes stand at 0, every other byte of WIN is as it was. -/
theorem winByte_primed (m : Matcher) (kept : List Byte) (a : Nat) :
    winByte (primed m kept) a = if a < kept.length then kept.getD a 0#8 else winByte m a := by
  have hb := insertAll_base (kept.length - 3) 0 (putWin m 0 kept)
  have hw : winByte (primed m kept) a = winByte (putWin m 0 kept) a := winByte_congr hb.win hb.winEpoch a
  rw [hw, winByte_putWin]
  simp only [Nat.zero_le, Nat.zero_add, Nat.sub_zero, true_and]

theorem bucket_primed (m : Matcher) (kept : List Byte) (p : Nat) : bucket (primed m kept) p = bucket (putWin m 0 kept) p :=
  have hb := insertAll_base (kept.length - 3) 0 (putWin m 0 kept)
  bucket_congr hb.win hb.winEpoch p

/-- Priming leaves HEAD as the insertions of the complete groups leave it; PREV likewise. Stated as rewriting rules: compared by
unfolding, the two sides come down to the constant 32768 taken apart one by one. -/
theorem headWord_primed (m : Matcher) (kept : List Byte) (h : Nat) :
    headWord (primed m kept) h = headWord (insertAll (kept.length - 3) 0 (putWin m 0 kept)) h := by
  rw [headWord, headWord, primed]

theorem prevWord_primed (m : Matcher) (kept : List Byte) (q : Nat) :
    prevWord (primed m kept) q = prevWord (insertAll (kept.length - 3) 0 (putWin m 0 kept)) q := by
  rw [prevWord, prevWord, primed]

/-- A Matcher that takes commands raises the fault its pseudocode raises. -/
theorem exec_of_raise {i : Instr} (hu : unitOfInstr i = some .matcher) {s : State} (hr : MatcherReady s) {f : FaultCode}
    (h : matcherBody i s.side = .raise s.side f) : exec i s = .next (afterFault .matcher f s) := by
  rw [exec_matcher hu, matcherCommand_run hr.faulted (.inr hr.configured), h]
  rfl

/-- Without a stream error M_FILL_WINDOW primes an empty window, and raises F_FILL_STALE on any other (R129, R165). -/
theorem fillWindow_body {s : State} (he : s.m.err = .noError) (dict : List Byte) : matcherBody (.mFillWindow dict) s.side =
    if s.m.index = 0 ∧ s.m.windowEnd = 0 then .reply ⟨primed s.m (tail 32768 dict), s.e⟩ .ok 0 [] else .raise s.side .fillStale := by
  have hlive : matcherBody (.mFillWindow dict) s.side = fillWindowBody dict s.side := shortCircuit_live he _
  have hempty : windowEmpty s.side.m = true ↔ s.m.index = 0 ∧ s.m.windowEnd = 0 := by simp [windowEmpty, State.side]
  rw [hlive, fillWindowBody, primeWindow_eq]
  simp only [hempty]
  rfl

/-- Settles O23: M_FILL_WINDOW is `primed` on an empty window, whose words are those of insertions from 0 on; elsewhere it faults. -/
theorem fillWindowPrimes : Obligations.FillWindowPrimes := by
  refine ⟨fun s dict hr he hx hw => ?_, fun s dict hr he hne => ?_⟩
  · have hn := length_tail 32768 dict
    have hle : (tail 32768 dict).length - 3 ≤ 32768 := by omega
    refine ⟨_, exec_of_reply rfl hr ((fillWindow_body he dict).trans (if_pos ⟨hx, hw⟩)), ?_⟩
    simp only [respond_m, withSide_m, bucket_primed, headWord_primed, prevWord_primed, ← hn]
    refine ⟨?_, fun a => ?_, fun h => headWord_insertAll_of_forall_ne _, fun p hp => headWord_insertAll_of_last _ hp rfl,
      fun p hp hfirst => ?_, fun p hp q hq hqb hlast => ?_, fun q => prevWord_insertAll_of_le _ hle⟩
    · rw [respond, State.withSide]
      exact congrArg (fun m => ({ s with m := m, responses := _ } : State)) (primed_frame s.m _)
    · rw [winByte_primed, getD_tail, hn]
    · rw [prevWord_insertAll_of_lt _ hle hp]
      exact headWord_insertAll_of_forall_ne _ hfirst
    · rw [prevWord_insertAll_of_lt _ hle hp]
      exact headWord_insertAll_of_last _ hq hqb hlast
  · exact exec_of_raise rfl hr ((fillWindow_body he dict).trans (if_neg (by omega)))

end Sys2Proof.Machine
end

section
/-! SUPPORT. Which candidate a chain search reports (44_find_match.md R137 to R142): the relation of a walk's answer to the candidates it
examined, kept by each probe, and the walk as a search of `candidates`. -/

namespace Sys2Proof.Machine

/-! ### match_len (R135) -/

/-- Settles O17: the laws of `matchLen` leave one value, as a shorter one would stop at a byte that agrees and a longer one
pass a byte that differs. -/
theorem matchLength : Obligations.MatchLength := by
  intro m i pos mx n
  constructor
  · rintro rfl
    exact ⟨matchLen_le m i pos mx, matchLen_agree m i pos mx, matchLen_differ m i pos mx⟩
  · rintro ⟨hle, hagree, hdiffer⟩
    obtain hlt | heq | hgt := Nat.lt_trichotomy (matchLen m i pos mx) n
    · exact absurd (hagree _ hlt) (matchLen_differ m i pos mx (Nat.lt_of_lt_of_le hlt hle))
    · exact heq
    · exact absurd (matchLen_agree m i pos mx n hgt) (hdiffer (Nat.lt_of_lt_of_le hgt (matchLen_le m i pos mx)))

/-! ### One probe (R137, R140, R142) -/

section
variable {m : Matcher} {pos mml nice : Nat}

/-- The quick reject loses nothing: a byte that differs bounds the match (R142). -/
theorem matchLen_le_of_ne {i k : Nat} (h : winByte m (i + k) ≠ winByte m (pos + k)) : matchLen m i pos mml ≤ k :=
  Nat.le_of_not_lt fun hk => h (matchLen_agree m i pos mml k hk)

/-- On a running best of at least 3 the tie-break asks for an admissible candidate that is strictly longer. -/
theorem improves_iff_admissible {i length : Nat} (h : 3 ≤ length) :
    improves (matchLen m i pos mml) length (pos - i) = true ↔ Admissible m pos mml i ∧ length < matchLen m i pos mml := by
  rw [improves_iff, Admissible]
  omega

/-- A probe takes the candidate exactly where it is admissible and strictly longer than the running best. -/
theorem probe_cases {best : Best} (i : Nat) (h : 3 ≤ best.length) :
    (Admissible m pos mml i ∧ best.length < matchLen m i pos mml ∧ probe m pos mml i best = ⟨matchLen m i pos mml, pos - i, true⟩) ∨
    ((Admissible m pos mml i → matchLen m i pos mml ≤ best.length) ∧ probe m pos mml i best = best) := by
  unfold probe
  split
  · by_cases himp : improves (matchLen m i pos mml) best.length (pos - i) = true
    · obtain ⟨hadm, hlt⟩ := (improves_iff_admissible h).mp himp
      exact .inl ⟨hadm, hlt, if_pos himp⟩
    · exact .inr ⟨fun hadm => Nat.le_of_not_lt fun hlt => himp ((improves_iff_admissible h).mpr ⟨hadm, hlt⟩), if_neg himp⟩
  · next hne => exact .inr ⟨fun _ => matchLen_le_of_ne hne, rfl⟩

theorem length_le_probe {best : Best} (i : Nat) (h : 3 ≤ best.length) : best.length ≤ (probe m pos mml i best).length := by
  obtain ⟨-, hlt, heq⟩ | ⟨-, heq⟩ := probe_cases i h
  · rw [heq]; exact hlt.le
  · rw [heq]

/-! ### What a walk reports (R139, R141) -/

/-- No admissible candidate of the list matches more than `n` bytes. -/
def NoLonger (m : Matcher) (pos mml n : Nat) (cs : List Nat) : Prop :=
  ∀ x ∈ cs, Admissible m pos mml x → matchLen m x pos mml ≤ n

/-- `c` is the first of the longest admissible candidates of `before ++ c :: after`, those after it counting only where `nice` is
not reached. -/
structure FirstLongest (m : Matcher) (pos mml nice : Nat) (before : List Nat) (c : Nat) (after : List Nat) : Prop where
  admissible : Admissible m pos mml c
  before_lt : ∀ x ∈ before, Admissible m pos mml x → matchLen m x pos mml < matchLen m c pos mml
  after_le : matchLen m c pos mml < nice → NoLonger m pos mml (matchLen m c pos mml) after

/-- The answer of a walk over the candidates `cs` that begins with `best`: `best` where no candidate improves on it, else the first of
the longest. -/
def Reports (m : Matcher) (pos mml nice : Nat) (best best' : Best) (cs : List Nat) : Prop :=
  (best' = best ∧ NoLonger m pos mml best.length cs) ∨
  ∃ before c after, cs = before ++ c :: after ∧ best' = ⟨matchLen m c pos mml, pos - c, true⟩ ∧
    best.length < matchLen m c pos mml ∧ FirstLongest m pos mml nice before c after

theorem reports_nil (best : Best) : Reports m pos mml nice best best [] := .inl ⟨rfl, nofun⟩

theorem noLonger_cons {n i : Nat} {cs : List Nat} (hi : Admissible m pos mml i → matchLen m i pos mml ≤ n)
    (h : NoLonger m pos mml n cs) : NoLonger m pos mml n (i :: cs) := List.forall_mem_cons.mpr ⟨hi, h⟩

/-- A candidate no longer than the one found after it comes before it. -/
theorem FirstLongest.cons {i c : Nat} {before after : List Nat}
    (hi : Admissible m pos mml i → matchLen m i pos mml < matchLen m c pos mml) (h : FirstLongest m pos mml nice before c after) :
    FirstLongest m pos mml nice (i :: before) c after :=
  ⟨h.admissible, List.forall_mem_cons.mpr ⟨hi, h.before_lt⟩, h.after_le⟩

/-- A walk that goes on after a probe reports of the whole list what it reports of the rest. -/
theorem Reports.cons {best best' : Best} {i : Nat} {cs : List Nat} (hlen : 3 ≤ best.length)
    (h : Reports m pos mml nice (probe m pos mml i best) best' cs) : Reports m pos mml nice best best' (i :: cs) := by
  obtain ⟨hadm, hlt, hp⟩ | ⟨hle, hp⟩ := probe_cases (m := m) (pos := pos) (mml := mml) i hlen <;> rw [hp] at h
  · obtain ⟨hb, hrest⟩ | ⟨before, c, after, hcs, hb, hc, hfirst⟩ := h
    · exact .inr ⟨[], i, cs, rfl, hb, hlt, hadm, nofun, fun _ => hrest⟩
    · exact .inr ⟨i :: before, c, after, congrArg _ hcs, hb, hlt.trans hc, hfirst.cons fun _ => hc⟩
  · obtain ⟨hb, hrest⟩ | ⟨before, c, after, hcs, hb, hc, hfirst⟩ := h
    · exact .inl ⟨hb, noLonger_cons hle hrest⟩
    · exact .inr ⟨i :: before, c, after, congrArg _ hcs, hb, hc, hfirst.cons fun hi => (hle hi).trans_lt hc⟩

/-- A probe that improves to `nice` ends the walk, whatever candidates are left (R141). -/
theorem reports_of_nice {best : Best} {i : Nat} (cs : List Nat) (hlen : 3 ≤ best.length)
    (hne : (probe m pos mml i best).length ≠ best.length) (hnice : nice ≤ (probe m pos mml i best).length) :
    Reports m pos mml nice best (probe m pos mml i best) (i :: cs) := by
  obtain ⟨hadm, hlt, hp⟩ | ⟨-, hp⟩ := probe_cases (m := m) (pos := pos) (mml := mml) i hlen
  · rw [hp] at hnice ⊢
    exact .inr ⟨[], i, cs, rfl, rfl, hlt, hadm, nofun, fun h => absurd hnice (Nat.not_le.mpr h)⟩
  · exact absurd (congrArg Best.length hp) hne

/-! ### The walk and its candidates (R138) -/

/-- A walk that answers reports of the candidates it may examine. -/
theorem walkChain_reports : ∀ (tries i : Nat) (best best' : Best), 3 ≤ best.length →
    walkChain m pos mml nice tries i best = .ok best' → Reports m pos mml nice best best' (candidates m pos tries i) := by
  intro tries
  induction tries with
  | zero =>
    intro i best best' _ h
    cases h
    exact reports_nil best
  | succ tries ih =>
    intro i best best' hlen h
    simp only [walkChain, Config.windowBytes, Config.windowSize, Bool.and_eq_true, bne_iff_ne, decide_eq_true_eq,
      Nat.cast_ofNat] at h
    rw [candidates]
    split at h
    · cases h
    split at h
    · next hstop =>
      obtain ⟨hne, hnice⟩ := hstop
      cases h
      exact reports_of_nice _ hlen hne hnice
    refine Reports.cons hlen ?_
    split at h
    · next hlast =>
      cases h
      rw [if_pos hlast]
      exact reports_nil _
    · next hlast =>
      rw [if_neg hlast]
      split at h
      · next hend =>
        cases h
        rw [if_pos hend]
        exact reports_nil _
      · next hend =>
        rw [if_neg hend]
        exact ih _ _ _ (hlen.trans (length_le_probe i hlen)) h

end

/-- find_match reports of the chain's candidates, from nothing found (R136: the search length 3 never halves the tries). -/
theorem findMatch_reports {m : Matcher} {pos prevHead lookahead : Nat} {best : Best} (hgood : 3 ≤ m.params.good)
    (h : findMatch m pos prevHead 3 lookahead = .ok best) :
    Reports m pos (min 258 lookahead) (min m.params.nice (min 258 lookahead)) ⟨3, 0, false⟩ best
      (candidates m pos m.params.chain prevHead) := by
  simp only [findMatch, if_neg (Nat.not_lt.mpr hgood)] at h
  exact walkChain_reports _ _ _ _ (Nat.le_refl 3) h

/-- Settles O18: the answer and the bytes of its match by `findMatch_spec`, the choice among the candidates by `findMatch_reports`. -/
theorem chainSearch : Obligations.ChainSearch := by
  intro m pos prevHead lookahead hprev hoff htop hla hlt hfar hgood
  obtain ⟨best, hfind, hmatch⟩ := findMatch_spec hprev hoff htop hla hlt hfar
  refine ⟨best, hfind, ?_⟩
  obtain ⟨rfl, hnone⟩ | ⟨before, c, after, hcs, rfl, -, hfirst⟩ := findMatch_reports hgood hfind
  · exact .inl ⟨rfl, rfl, rfl, fun x hx hadm => absurd (hadm.1.trans (hnone x hx hadm)) (by decide)⟩
  · obtain ⟨hok, -, -⟩ | ⟨hok, hmin, hmax, hnear, hreach, -, -, hbytes⟩ := hmatch
    · nomatch hok
    · exact .inr ⟨hok, hmin, hmax, hnear, hreach, hbytes, before, c, after, hcs, rfl, rfl, hfirst.admissible, hfirst.before_lt,
        hfirst.after_le⟩

end Sys2Proof.Machine
end

section
/-! SUPPORT. One iteration of the lazy loop whole (45_lazy_loop.md R143 to R153): the three ways it begins, what emit_match and
emit_literal do at each kind of level, and the end of the pending data. -/

namespace Sys2Proof.Machine

/-! ### How an iteration begins (R143) -/

theorem iterate_of_short {u : MatcherSide} (hs : u.m.sync = false) (hi : u.m.index ≤ u.m.windowEnd)
    (hw : u.m.windowEnd < u.m.index + 262) : iterate u = .ended u := by
  have hshort : u.m.windowEnd - u.m.index < 262 := by omega
  rw [iterate, if_neg (Nat.not_lt.mpr hi), if_pos]
  simp [hs, hshort]

theorem iterate_of_done {u : MatcherSide} (hs : u.m.sync = true) (hi : u.m.index = u.m.windowEnd) :
    iterate u = endOfData u := by
  simp [iterate, hs, hi]

theorem iterate_of_pending {u : MatcherSide} (hlt : u.m.index < u.m.windowEnd)
    (hla : u.m.sync = true ∨ u.m.index + 262 ≤ u.m.windowEnd) : iterate u = scanPosition u := by
  have hle : ¬ u.m.windowEnd < u.m.index := by omega
  have hgo : ¬ (u.m.windowEnd - u.m.index < 262 ∧ u.m.sync = false) := by
    rintro ⟨hshort, hns⟩
    rcases hla with hs | hla
    · rw [hns] at hs; cases hs
    · omega
  have hne : ¬ u.m.windowEnd - u.m.index = 0 := by omega
  rw [iterate, if_neg hle, if_neg (by simpa using hgo), if_neg hne]

/-! ### What the hash update leaves alone (R146) -/

@[simp] theorem hashStep_index (m : Matcher) : (hashStep m).index = m.index := by rw [hashStep_registers]

@[simp] theorem hashStep_params (m : Matcher) : (hashStep m).params = m.params := by rw [hashStep_registers]

@[simp] theorem hashStep_tokq (m : Matcher) : (hashStep m).tokq = m.tokq := by rw [hashStep_registers]

@[simp] theorem hashStep_byteAvailable (m : Matcher) : (hashStep m).byteAvailable = m.byteAvailable := by rw [hashStep_registers]

@[simp] theorem winByte_hashStep (m : Matcher) (a : Nat) : winByte (hashStep m) a = winByte m a := by
  rw [hashStep_registers]; rfl

/-! ### The kind of level and the emission choice (R111, R149) -/

theorem isFast_eq_true_iff {m : Matcher} : isFast m = true ↔ m.params.fsh ≠ 2147483647 := by simp [isFast]

theorem isFast_eq_false_iff {m : Matcher} : isFast m = false ↔ m.params.fsh = 2147483647 := by simp [isFast]

theorem emitsMatch_of_fast {m : Matcher} (hf : isFast m = true) (prevLength : Nat) :
    emitsMatch m prevLength = true ↔ 4 ≤ m.length := by
  simp [emitsMatch, hf]

theorem emitsMatch_of_lazy {m : Matcher} (hf : isFast m = false) (prevLength : Nat) :
    emitsMatch m prevLength = true ↔ 4 ≤ prevLength ∧ m.length ≤ prevLength := by
  simp [emitsMatch, hf]

/-! ### The cursor after a match (R150) -/

theorem passMatch_of_fast {m : Matcher} (hf : isFast m = true) (hl : 1 ≤ m.length) (prevLength : Nat) :
    passMatch m prevLength =
      { (if m.length ≤ m.params.fsh then insertSkipped m (m.index + 1) (m.index + m.length) else m) with
        index := m.index + m.length } := by
  have hlast : m.index + 1 + (m.index + m.length - (m.index + 1)) = m.index + m.length := by omega
  by_cases hfsh : m.length ≤ m.params.fsh
  · simp only [passMatch, hf, hfsh, insertRange_eq, hlast, if_true]
  · simp only [passMatch, hfsh, if_false]

theorem passMatch_of_lazy {m : Matcher} (hf : isFast m = false) (hl : m.length ≤ 258) {prevLength : Nat} (hp : 2 ≤ prevLength) :
    passMatch m prevLength =
      { insertSkipped m (m.index + 1) (m.index + prevLength - 1) with
        index := m.index + prevLength - 1, byteAvailable := false, length := 3 } := by
  have hfsh : m.length ≤ m.params.fsh := by rw [isFast_eq_false_iff.mp hf]; omega
  have hlast : m.index + 1 + (m.index + prevLength - 1 - (m.index + 1)) = m.index + prevLength - 1 := by omega
  simp only [passMatch, hf, hfsh, insertRange_eq, hlast, Bool.false_eq_true, if_true, if_false, releaseLiteral,
    Config.searchStartLength]

/-! ### The cursor after a literal (R151) -/

theorem passLiteral_of_fast_or_held {m : Matcher} (e : Emitter) (h : isFast m = true ∨ m.byteAvailable = true) :
    passLiteral ⟨m, e⟩ = ⟨{ m with index := m.index + 1 }, e⟩ := by
  have hheld : (!isFast m || m.byteAvailable) = m.byteAvailable := by rcases h with h | h <;> simp [h]
  rw [passLiteral_spec, hheld]

/-! ### emit_match and emit_literal, by the kind of level (R150, R151) -/

section

variable {m : Matcher} (e : Emitter)

theorem emitMatch_of_fast (u0 : MatcherSide) (prevLength prevOffset : Nat) (hf : isFast m = true)
    (hr : matchInRange m.length m.offset = true) {m' : Matcher}
    (hm' : passMatch (appendToken m (makeMatch m.length m.offset)) prevLength = m') :
    emitMatch u0 ⟨m, e⟩ prevLength prevOffset = capFlush m'.index ⟨m', e⟩ id := by
  simp only [emitMatch, hf, hr, hm', if_true]

theorem emitMatch_of_lazy (u0 : MatcherSide) {prevLength prevOffset : Nat} (hf : isFast m = false)
    (hr : matchInRange prevLength prevOffset = true) {m' : Matcher}
    (hm' : passMatch (appendToken m (makeMatch prevLength prevOffset)) prevLength = m') :
    emitMatch u0 ⟨m, e⟩ prevLength prevOffset = capFlush m'.index ⟨m', e⟩ id := by
  simp only [emitMatch, hf, hr, hm', Bool.false_eq_true, if_true, if_false]

theorem emitLiteral_of_fast (hf : isFast m = true) :
    emitLiteral ⟨m, e⟩ = capFlush (m.index + 1) ⟨appendToken m (makeLiteral (winByte m m.index)), e⟩ passLiteral := by
  simp [emitLiteral, hf]

theorem emitLiteral_of_held (hf : isFast m = false) (hb : m.byteAvailable = true) (hi : 1 ≤ m.index) :
    emitLiteral ⟨m, e⟩ = capFlush m.index ⟨appendToken m (makeLiteral (winByte m (m.index - 1))), e⟩ passLiteral := by
  have h0 : m.index ≠ 0 := by omega
  simp [emitLiteral, hf, hb, h0, Nat.sub_add_cancel hi]

theorem emitLiteral_of_none_held (hf : isFast m = false) (hb : m.byteAvailable = false) :
    emitLiteral ⟨m, e⟩ = .again ⟨{ m with index := m.index + 1, byteAvailable := true }, e⟩ := by
  simp [emitLiteral, hf, hb, passLiteral_spec]

end

/-! ### The turn after a search, in the terms of the cap (R148, R150, R151, R153) -/

/-- The Matcher once the search has left this match, or 3 and 0 (R148). -/
def withMatch (m : Matcher) (length offset : Nat) : Matcher := { m with length := length, offset := offset }

section

variable {m m2 m3 : Matcher} {length offset : Nat} (e : Emitter)

theorem capTest_emitMatch_of_fast (u0 : MatcherSide) (prevLength prevOffset : Nat)
    (hf : isFast (withMatch m length offset) = true) (hr : matchInRange length offset = true) (hl : 1 ≤ length)
    (h2 : m2 = if length ≤ m.params.fsh then insertSkipped m (m.index + 1) (m.index + length) else m)
    (h3 : m3 = { m with head := m2.head, prev := m2.prev, length := length, offset := offset, index := m.index + length,
                        tokq := m.tokq ++ [makeMatch length offset] }) :
    CapTest e (m.index + length) m3 m3 (emitMatch u0 ⟨withMatch m length offset, e⟩ prevLength prevOffset) := by
  have hpass : passMatch (appendToken (withMatch m length offset) (makeMatch length offset)) prevLength = m3 := by
    rw [passMatch_of_fast (m := appendToken (withMatch m length offset) _) hf hl, h3, h2]
    by_cases hfsh : length ≤ m.params.fsh <;> simp only [appendToken, withMatch, hfsh, if_true, if_false, insertSkipped_frame]
  have hi : m3.index = m.index + length := by rw [h3]
  rw [emitMatch_of_fast e u0 prevLength prevOffset hf hr hpass, hi]
  exact capTest_capFlush (by omega) rfl rfl rfl rfl

theorem capTest_emitMatch_of_lazy (u0 : MatcherSide) {prevLength prevOffset : Nat}
    (hf : isFast (withMatch m length offset) = false) (hl : length ≤ 258)
    (hr : matchInRange prevLength prevOffset = true) (hp : 2 ≤ prevLength)
    (h2 : m2 = insertSkipped m (m.index + 1) (m.index + prevLength - 1))
    (h3 : m3 = { m with head := m2.head, prev := m2.prev, length := 3, offset := offset, index := m.index + prevLength - 1,
                        byteAvailable := false, tokq := m.tokq ++ [makeMatch prevLength prevOffset] }) :
    CapTest e (m.index + prevLength - 1) m3 m3 (emitMatch u0 ⟨withMatch m length offset, e⟩ prevLength prevOffset) := by
  have hpass : passMatch (appendToken (withMatch m length offset) (makeMatch prevLength prevOffset)) prevLength = m3 := by
    rw [passMatch_of_lazy (m := appendToken (withMatch m length offset) _) hf hl hp, h3, h2]
    simp only [appendToken, withMatch, insertSkipped_frame]
  have hi : m3.index = m.index + prevLength - 1 := by rw [h3]
  rw [emitMatch_of_lazy e u0 hf hr hpass, hi]
  exact capTest_capFlush (by omega) rfl rfl rfl rfl

theorem capTest_emitLiteral_of_fast (hf : isFast (withMatch m length offset) = true)
    (h2 : m2 = { m with length := length, offset := offset, tokq := m.tokq ++ [makeLiteral (winByte m m.index)] }) :
    CapTest e (m.index + 1) { m2 with index := m.index + 1 } m2 (emitLiteral ⟨withMatch m length offset, e⟩) := by
  subst h2
  rw [emitLiteral_of_fast e hf]
  exact capTest_capFlush (Nat.succ_pos _) rfl rfl (passLiteral_of_fast_or_held _ (.inl hf)) (passLiteral_of_fast_or_held _ (.inl hf))

theorem capTest_emitLiteral_of_held (hf : isFast (withMatch m length offset) = false) (hb : m.byteAvailable = true)
    (hi : 1 ≤ m.index)
    (h2 : m2 = { m with length := length, offset := offset, tokq := m.tokq ++ [makeLiteral (winByte m (m.index - 1))] }) :
    CapTest e m.index { m2 with index := m.index + 1 } m2 (emitLiteral ⟨withMatch m length offset, e⟩) := by
  subst h2
  rw [emitLiteral_of_held e hf hb hi]
  exact capTest_capFlush hi rfl rfl (passLiteral_of_fast_or_held _ (.inr hb)) (passLiteral_of_fast_or_held _ (.inr hb))

end

theorem MatchAt.inRange {m m2 : Matcher} (h : MatchAt m m2) (h4 : 4 ≤ m2.length) : matchInRange m2.length m2.offset = true := by
  rcases h with ⟨h3, -⟩ | ⟨-, hmax, -, hnear, hfar, -⟩
  · omega
  · exact matchInRange_of (by omega) hmax hnear hfar

/-! ### One iteration with bytes pending (R143, R146 to R149) -/

/-- An iteration with bytes pending: the hash update, a search as R147 and R148 say, then the match or the literal. -/
theorem iterate_eq_emit {u : MatcherSide} (hs : u.m.Shape) (hl : u.m.Live) (hlt : u.m.index < u.m.windowEnd)
    (hla : u.m.sync = true ∨ u.m.index + 262 ≤ u.m.windowEnd) : ∃ length offset,
      SearchFinds (hashStep u.m) (u.m.windowEnd - u.m.index) u.m.length length offset ∧
      MatchAt u.m (withMatch (hashStep u.m) length offset) ∧
      iterate u = if emitsMatch (withMatch (hashStep u.m) length offset) u.m.length
        then emitMatch u ⟨withMatch (hashStep u.m) length offset, u.e⟩ u.m.length u.m.offset
        else emitLiteral ⟨withMatch (hashStep u.m) length offset, u.e⟩ := by
  obtain ⟨hlen, hoff, m2, hse, hf⟩ := search_spec hs hl
  obtain ⟨hfinds, hm2⟩ := searchStep_finds hse
  replace hm2 : m2 = withMatch (hashStep u.m) m2.length m2.offset := hm2
  refine ⟨m2.length, m2.offset, hfinds, hf.found, ?_⟩
  rw [← hm2, iterate_of_pending hlt hla, scanPosition]
  simp only [hlen, hoff, hse]

/-! ### The block flush, by the Emitter's answer (R152, R158) -/

theorem flushTokens_of_none {x : Nat} {u : MatcherSide} (hx : 0 < x) (hn : (emitRequest u.e (flushRequest u.m x)).err = none) :
    flushTokens x u = (true, ⟨{ u.m with blockStart := x, tokq := [] }, emitRequest u.e (flushRequest u.m x)⟩) := by
  rcases flushTokens_spec x u hx with ⟨-, hf⟩ | ⟨c, hc, -⟩
  · exact hf
  · nomatch hc.symm.trans hn

theorem flushTokens_of_some {x : Nat} {u : MatcherSide} (hx : 0 < x) {c : Word32}
    (hc : (emitRequest u.e (flushRequest u.m x)).err = some c) :
    flushTokens x u = (false, ⟨{ u.m with blockStart := x, err := .io c }, emitRequest u.e (flushRequest u.m x)⟩) := by
  rcases flushTokens_spec x u hx with ⟨hn, -⟩ | ⟨c', hc', hf⟩
  · nomatch hn.symm.trans hc
  · obtain rfl : c' = c := Option.some.inj (hc'.symm.trans hc)
    exact hf

/-! ### The end of the pending data (R145) -/

theorem settled_eq (m : Matcher) : settled m = { m with
    byteAvailable := false
    tokq := m.tokq ++ (if m.byteAvailable then [makeLiteral (winByte m (m.index - 1))] else []) } := by
  unfold settled
  split
  · rfl
  · next h => rw [Bool.not_eq_true] at h; simp [← h]

theorem settled_of_tokq_eq_nil {m : Matcher} (h : (settled m).tokq = []) : settled m = m := by
  rw [settled_tokq] at h
  split at h
  · simp at h
  · next hb => rw [settled, if_neg hb]

/-! ### The obligations -/

/-- Settles O57: the request is `flushRequest`, and the Emitter's two answers are the two equations of `flushTokens`. -/
theorem blockFlush : Obligations.BlockFlush :=
  ⟨fun u x hx => ⟨emitRequest u.e (flushRequest u.m x),
    if u.m.blockStart ≤ x then some (winRun u.m u.m.blockStart (x - u.m.blockStart)) else none, rfl, fun h => if_pos h,
    fun h => if_neg (Nat.not_le.mpr h), emitRequest_log _ _, flushTokens_of_none hx, fun _ => flushTokens_of_some hx⟩, fun _ => rfl⟩

/-- Settles O58: outside a flush the iteration ends as it stands (`iterate_of_short`); in a flush it is `endOfData`, with the queue empty
or with the Emitter's answer to its block. -/
theorem endOfDataFlushes : Obligations.EndOfDataFlushes := by
  refine ⟨fun u => iterate_of_short, fun u _ hl hs hi => ⟨settled u.m, settled_eq u.m, ?_⟩⟩
  rw [iterate_of_done hs hi, endOfData_eq hl]
  refine ⟨fun hq => ?_, fun hq hn => ?_, fun hq c hc => ?_⟩
  · rw [if_pos hq, settled_of_tokq_eq_nil hq]
  · rw [if_neg hq, flushTokens_of_none (u := { u with m := settled u.m }) (settled_queued hl hq) hn]
  · rw [if_neg hq, flushTokens_of_some (u := { u with m := settled u.m }) (settled_queued hl hq) hc]

/-- Settles O19: `iterate_eq_emit`, and then what `emitMatch` and `emitLiteral` do at each kind of level. -/
theorem emissionChoice : Obligations.EmissionChoice := by
  intro u hs hl hlt hla
  obtain ⟨length, offset, hfinds, hfound, hturn⟩ := iterate_eq_emit hs hl hlt hla
  have hkind : isFast (withMatch (hashStep u.m) length offset) = isFast u.m := isFast_congr (hashStep_params u.m)
  have hbeaten : u.m.length < 4 ∨ u.m.length < length → ¬ (4 ≤ u.m.length ∧ length ≤ u.m.length) := by omega
  rw [hturn]
  refine ⟨hashStep u.m, length, offset, rfl, hfinds, fun hfsh h4 => ?_, fun hfsh h4 => ?_, fun hfsh h4 hle => ?_,
    fun hfsh hnot hb => ?_, fun hfsh hnot hb => ?_⟩
  · have hfast := hkind.trans (isFast_eq_true_iff.mpr hfsh)
    rw [if_pos ((emitsMatch_of_fast hfast _).mpr h4)]
    refine ⟨_, _, rfl, rfl, ?_⟩
    simpa using capTest_emitMatch_of_fast u.e u u.m.length u.m.offset hfast (hfound.inRange h4) (by omega) rfl rfl
  · have hfast := hkind.trans (isFast_eq_true_iff.mpr hfsh)
    rw [if_neg (mt (emitsMatch_of_fast hfast _).mp (Nat.not_le.mpr h4))]
    refine ⟨_, rfl, ?_⟩
    simpa using capTest_emitLiteral_of_fast u.e hfast rfl
  · have hlazy := hkind.trans (isFast_eq_false_iff.mpr hfsh)
    rw [if_pos ((emitsMatch_of_lazy hlazy _).mpr ⟨h4, hle⟩)]
    have hnear := (hl.carried (isFast_eq_false_iff.mpr hfsh) h4).1
    have hrange := matchInRange_of (by omega) hs.length_le hnear hs.offset_le
    refine ⟨_, _, rfl, rfl, ?_⟩
    simpa using capTest_emitMatch_of_lazy u.e u hlazy hfound.length_le hrange (by omega) rfl rfl
  · have hlazy := hkind.trans (isFast_eq_false_iff.mpr hfsh)
    rw [if_neg (mt (emitsMatch_of_lazy hlazy _).mp (hbeaten hnot))]
    refine ⟨_, rfl, ?_⟩
    simpa using capTest_emitLiteral_of_held u.e hlazy (by simpa using hb) (by simpa using hl.pending hb) rfl
  · have hlazy := hkind.trans (isFast_eq_false_iff.mpr hfsh)
    rw [if_neg (mt (emitsMatch_of_lazy hlazy _).mp (hbeaten hnot))]
    simpa [withMatch] using emitLiteral_of_none_held u.e hlazy ((hashStep_byteAvailable u.m).trans hb)

/-- Settles O59: the loop's fuel lasts (`matcherStep_good`), and the loop it bounds is the spec's (`matcherStep_steps`). -/
theorem stepIterates : Obligations.StepIterates := by
  intro u hshape hlive herr hem
  have hr : Ready u := ⟨hshape, hlive, herr, hem⟩
  obtain ⟨u', hstep, hends⟩ := matcherStep_good hr
  refine ⟨u', hstep, matcherStep_steps hr hstep, fun hok => ?_⟩
  rw [← hends.base.sync]
  rcases hends.outcome with ⟨-, -, -, hshort, hflushed⟩ | ⟨c, hio, -⟩
  · refine ⟨?_, hflushed⟩
    cases hsync : u'.m.sync with
    | false => exact hshort hsync
    | true => have := (hflushed hsync).1; omega
  · nomatch hok.symm.trans hio

end Sys2Proof.Machine
end

section
/-! SUPPORT. The Matcher commands that construct, reset and prime the Matcher, and those that find nothing to process (46_matcher_commands.md
R160 to R170): the whole next state. -/

namespace Sys2Proof.Machine

/-! ### M_CONFIG (R160, R161) -/

/-- clear_matcher on a Matcher that takes commands, every register and memory given (R162). -/
theorem clearMatcher_eq {m : Matcher} (hc : m.configured = true) (hf : m.faulted = none) : clearMatcher m =
    { configured := true, faulted := none, params := m.params, index := 0, windowEnd := 0, blockStart := 0,
      hashOffset := 1, chainHead := -1, length := 3, offset := 0, byteAvailable := false, maxInsertIndex := 0,
      sync := false, err := .noError, tokq := [], win := m.win, head := [], prev := [], winEpoch := m.winEpoch } := by
  rw [clearMatcher, hc, hf]

/-- The Matcher with a level's row (R160). -/
def atLevel (l : Nat) (m : Matcher) : Matcher := { m with params := levelRow l, configured := true }

/-- The emitter port with no error and a new log (R160, R30). -/
def relogged (e : Emitter) : Emitter := { e with err := none, log := [] }

theorem exec_mConfig_deflate {s : State} (hf : s.m.faulted = none) {a : Word32} {l : Nat}
    (h : resolveLevel (levelOperand a) = .deflate l) :
    exec (.mConfig a) s = .next (respond (s.withSide ⟨clearMatcher (atLevel l s.m), relogged s.e⟩) .ok 0 []) := by
  rw [exec_mConfig hf, configBody_of_deflate h]
  rfl

theorem exec_mConfig_invalid {s : State} (hf : s.m.faulted = none) {a : Word32} (h : resolveLevel (levelOperand a) = .invalid) :
    exec (.mConfig a) s = .next (respond s .invalidLevel 0 []) := by
  rw [exec_mConfig hf, configBody, h]
  rfl

theorem exec_mConfig_otherMode {s : State} (hf : s.m.faulted = none) {a : Word32}
    (h : resolveLevel (levelOperand a) = .otherMode) : exec (.mConfig a) s = .next (refuseMode s) := by
  rw [exec_mConfig hf, configBody, h]
  rfl

/-- Settles O20: by what the level resolves to; a level of this block leaves the registers of `clearMatcher_eq`. -/
theorem configConstructs : Obligations.ConfigConstructs := by
  refine ⟨fun s a l hf h => ?_, fun s a hf h => exec_mConfig_invalid hf h, fun s a hf h => exec_mConfig_otherMode hf h⟩
  rw [exec_mConfig_deflate hf h, clearMatcher_eq (m := atLevel l s.m) rfl hf]
  rfl

/-- Settles O21: the three levels resolve to another mode, and the mark is what `step` reads first. -/
theorem refusedModes : Obligations.RefusedModes := by
  intro s a hf ha
  have hother : resolveLevel (levelOperand a) = .otherMode := resolveLevel_of_other (by omega)
  exact ⟨refuseMode s, exec_mConfig_otherMode hf hother, rfl, step_of_refused rfl⟩

/-! ### M_RESET and M_FILL_WINDOW (R164, R165) -/

/-- The emitter port bound to another sink: no error, the mark in the log (R164). -/
def rebound (e : Emitter) : Emitter := { e with err := none, log := e.log ++ [.sinkRebound] }

theorem exec_mReset_nil {s : State} (hr : MatcherReady s) :
    exec (.mReset []) s = .next (respond (s.withSide ⟨clearMatcher s.m, rebound s.e⟩) .ok 0 []) :=
  exec_of_reply rfl hr (resetBody_eq [] s.side)

theorem exec_mReset_of_ne_nil {s : State} (hr : MatcherReady s) {dict : List Byte} (hd : dict ≠ []) :
    exec (.mReset dict) s = .next (respond (s.withSide ⟨primed (clearMatcher s.m) (tail 32768 dict), rebound s.e⟩) .ok 0 []) := by
  have hbody : matcherBody (.mReset dict) s.side = .reply ⟨primed (clearMatcher s.m) (tail 32768 dict), rebound s.e⟩ .ok 0 [] := by
    rw [← primeWindow_eq]
    refine (resetBody_eq dict s.side).trans ?_
    rw [if_pos (List.length_pos_iff.mpr hd)]
    rfl
  exact exec_of_reply rfl hr hbody

theorem withSide_respond_withSide (s : State) (u v : MatcherSide) (status : Status) (value : Nat) (data : List Byte) :
    (respond (s.withSide u) status value data).withSide v = respond (s.withSide v) status value data := rfl

/-- The second of two responses taken back. -/
theorem respond_eq_withoutLast (s : State) (u v : MatcherSide) : respond (s.withSide v) .ok 0 [] =
    { respond (respond (s.withSide v) .ok 0 []) .ok 0 [] with responses := (respond (s.withSide u) .ok 0 []).responses } := rfl

/-- M_FILL_WINDOW after clear_matcher primes the window (R165, R129). -/
theorem exec_mFillWindow_of_cleared {m : Matcher} (hc : m.configured = true) (hf : m.faulted = none) (s : State) (e : Emitter)
    (dict : List Byte) : exec (.mFillWindow dict) (respond (s.withSide ⟨clearMatcher m, e⟩) .ok 0 []) =
      .next (respond (respond (s.withSide ⟨primed (clearMatcher m) (tail 32768 dict), e⟩) .ok 0 []) .ok 0 []) := by
  have hbody := (fillWindow_body (s := respond (s.withSide ⟨clearMatcher m, e⟩) .ok 0 []) rfl dict).trans (if_pos ⟨rfl, rfl⟩)
  rw [exec_of_reply rfl ⟨hc, hf⟩ hbody, withSide_respond_withSide, respond_m, respond_e, withSide_m, withSide_e]

/-- Settles O22: clear_matcher leaves an empty window, on which M_RESET and M_FILL_WINDOW prime alike. -/
theorem resetClears : Obligations.ResetClears := by
  intro s hr
  refine ⟨?_, fun dict hd => ?_⟩
  · rw [exec_mReset_nil hr, clearMatcher_eq hr.configured hr.faulted]
    rfl
  · refine ⟨_, _, exec_mReset_nil hr, exec_mFillWindow_of_cleared hr.configured hr.faulted s _ dict, ?_⟩
    rw [exec_mReset_of_ne_nil hr hd, ← respond_eq_withoutLast]

/-! ### M_WRITE of few bytes (R166, R143, R125) -/

/-- A step with too few bytes pending, outside a flush, does nothing (R143). -/
theorem matcherStep_of_short {u : MatcherSide} (hs : u.m.sync = false) (hw : u.m.windowEnd < u.m.index + 262) :
    matcherStep u = .ok u := by
  rw [matcherStep, if_pos]
  simp [hs, hw]

/-- Below the shift threshold fill only copies (R125). -/
theorem fill_of_below_threshold {m : Matcher} (hi : m.index < 65274) (hw : m.windowEnd ≤ 65536) (b : List Byte) :
    fill m b = .ok (appendWindow m b) := by
  rw [fill, if_neg (Nat.not_le.mpr hi), if_neg (Nat.not_lt.mpr hw)]

/-- Bytes the window has room for are all copied to its end (R125). -/
theorem appendWindow_of_fits {m : Matcher} {b : List Byte} (h : m.windowEnd + b.length ≤ 65536) :
    appendWindow m b = ({ m with win := (appendWindow m b).1.win, windowEnd := m.windowEnd + b.length }, b.length) := by
  have hk : min b.length (65536 - m.windowEnd) = b.length := by omega
  simp only [appendWindow, Config.windowBytes, hk, putWin]

/-- A round of M_WRITE whose step and fill leave no error goes on with the bytes not copied (R166). -/
theorem writeLoop_of_round {u u1 : MatcherSide} {bytes : List Byte} {m : Matcher} {k : Nat} (hne : bytes ≠ [])
    (hstep : matcherStep u = .ok u1) (hfill : fill u1.m bytes = .ok (m, k)) (he : m.err = .noError) (total fuel : Nat) :
    writeLoop total (fuel + 1) bytes u = writeLoop total fuel (bytes.drop k) ⟨m, u1.e⟩ := by
  obtain ⟨b, bs, rfl⟩ := List.exists_cons_of_ne_nil hne
  simp only [writeLoop, withStep, hstep, hfill, he]

theorem writeLoop_nil (total fuel : Nat) (u : MatcherSide) : writeLoop total fuel [] u = .reply u .ok total [] := by
  cases fuel <;> rfl

/-- M_WRITE of bytes that a step leaves pending and the window has room for. -/
theorem writeBody_of_few {u : MatcherSide} {data : List Byte} (he : u.m.err = .noError) (hs : u.m.sync = false) (hne : data ≠ [])
    (hi : u.m.index < 65274) (hw : u.m.windowEnd < u.m.index + 262) (hfit : u.m.windowEnd + data.length ≤ 65536) :
    writeBody data u = .reply ⟨(appendWindow u.m data).1, u.e⟩ .ok data.length [] := by
  have hall : (appendWindow u.m data).2 = data.length := by rw [appendWindow_of_fits hfit]
  have hfuel : data.length = data.length - 1 + 1 := by have := List.length_pos_iff.mpr hne; omega
  calc writeBody data u
      = writeLoop data.length (data.length - 1 + 1) data u := by rw [← hfuel]; rfl
    _ = writeLoop data.length (data.length - 1) (data.drop (appendWindow u.m data).2) ⟨(appendWindow u.m data).1, u.e⟩ :=
        writeLoop_of_round hne (matcherStep_of_short hs hw) (fill_of_below_threshold hi (by omega) data)
          ((appendWindow_setup u.m data).err.trans he) _ _
    _ = .reply ⟨(appendWindow u.m data).1, u.e⟩ .ok data.length [] := by rw [hall, List.drop_length, writeLoop_nil]

theorem mWrite_body {u : MatcherSide} (he : u.m.err = .noError) (data : List Byte) : matcherBody (.mWrite data) u = writeBody data u :=
  shortCircuit_live he _

/-- Settles O24: no bytes, no round; few bytes, one round, whose step does nothing and whose fill takes them all. -/
theorem writeOfFewBytes : Obligations.WriteOfFewBytes := by
  refine ⟨fun s hr he => ?_, fun s data hr he hs hne hi hw hfit => ?_⟩
  · exact exec_of_reply (u := s.side) rfl hr ((mWrite_body he []).trans (writeLoop_nil 0 0 s.side))
  · refine ⟨_, exec_of_reply rfl hr ((mWrite_body he data).trans (writeBody_of_few he hs hne hi hw hfit)), ?_, fun a => ?_⟩
    · have happ := congrArg Prod.fst (appendWindow_of_fits hfit)
      simp only [respond_m, withSide_m]
      exact congrArg (fun m => respond (s.withSide ⟨m, s.e⟩) .ok data.length []) happ
    · have hall : (appendWindow s.m data).2 = data.length := by rw [appendWindow_of_fits hfit]
      rw [← hall]
      exact winByte_appendWindow s.m data a

end Sys2Proof.Machine
end

section
/-! SUPPORT. M_WRITE, M_SYNC_FLUSH and M_CLOSE as whole commands (46_matcher_commands.md R166 to R170): the step they take, the markers they
send, and how they end. -/

namespace Sys2Proof.Machine

/-! ### The frame of a Matcher command (R73) -/

theorem matcherOnly_respond (s : State) (u : MatcherSide) (status : Status) (value : Nat) (data : List Byte) :
    MatcherOnly s (respond (s.withSide u) status value data) := ⟨rfl, rfl, rfl, rfl⟩

theorem OnlyBlocks.blocks {l : List LogEntry} (h : OnlyBlocks l) : Blocks l := fun r hr => (h r hr).1

/-! ### M_WRITE (R166) -/

/-- Settles O25: the loop of M_WRITE ends well (`writeLoop_good`), and with answers enough it does not fail (`writeLoop_calm`). -/
theorem writeCompletes : Obligations.WriteCompletes := by
  intro s data hi hr he
  have hready := hi.side.ready he
  have hsync := hi.m.notSync he
  obtain ⟨u, ⟨hk, l, hlog, hblocks⟩, hend⟩ := writeLoop_good data.length data.length data s.side hready hsync (Nat.le_refl _)
  have hconf := hk.configured.trans hr.configured
  have hfault := hk.faulted.trans hr.faulted
  obtain ⟨hb, hu, hus⟩ | ⟨c, hb, -, herr, hem⟩ := hend
  · exact ⟨_, exec_of_reply rfl hr ((mWrite_body he data).trans hb), matcherOnly_respond _ _ _ _ _, hconf, hfault, hk.params,
      ⟨l, hlog, hblocks.blocks⟩, .inl ⟨hu.err, hu.emitter, hus, rfl⟩, fun _ => hu.err⟩
  · refine ⟨_, exec_of_reply rfl hr ((mWrite_body he data).trans hb), matcherOnly_respond _ _ _ _ _, hconf, hfault, hk.params,
      ⟨l, hlog, hblocks.blocks⟩, .inr ⟨c, herr, hem, rfl⟩, fun hcalm => ?_⟩
    obtain ⟨u', hok, -⟩ := writeLoop_calm data.length data.length data s.side hready hsync (Nat.le_refl _) hcalm
    nomatch hb.symm.trans hok

/-! ### M_SYNC_FLUSH (R168) -/

theorem mSyncFlush_body {u : MatcherSide} (he : u.m.err = .noError) : matcherBody .mSyncFlush u = syncFlushBody u :=
  shortCircuit_live he _

/-- After a step that failed only M.sync is cleared. -/
theorem syncEnd_of_failed {u : MatcherSide} (h : u.m.err ≠ .noError) : syncEnd u = endSync u := by
  unfold syncEnd
  split
  · next h' => exact absurd h' h
  · rfl

/-- The Emitter after the two markers of M_SYNC_FLUSH. -/
def syncMarked (e : Emitter) : Emitter := emitRequest (emitRequest e (.emitStoredHeader 0#16 false)) .emitFlush

/-- After a step without an error both markers are sent, and an error the Emitter answers is latched (R168). -/
theorem syncEnd_of_step {u : MatcherSide} (h : u.m.err = .noError) : (syncEnd u).e = syncMarked u.e ∧
    ((syncEnd u).e.err = none → (syncEnd u).m = { u.m with sync := false }) ∧
    ∀ c, (syncEnd u).e.err = some c → (syncEnd u).m = { u.m with sync := false, err := .io c } := by
  have hv : syncEnd u = endSync (latchEmitterErr { u with e := syncMarked u.e }) := by rw [syncEnd, h]; rfl
  rw [hv]
  obtain ⟨hn, hl⟩ | ⟨c, hc, hl⟩ := latchEmitterErr_cases { u with e := syncMarked u.e }
  · rw [hl]
    exact ⟨rfl, fun _ => rfl, fun c hc => (nomatch hn.symm.trans hc)⟩
  · rw [hl]
    refine ⟨rfl, fun hn => (nomatch hc.symm.trans hn), fun c' hc' => ?_⟩
    cases hc.symm.trans hc'
    rfl

/-- M_SYNC_FLUSH always answers, from the state its step ends in (R168). -/
theorem syncFlushBody_replies {u u1 : MatcherSide} (hk : ∀ k : MatcherSide → Verdict MatcherSide, withStep (beginSync u) k = k u1) :
    ∃ status value, syncFlushBody u = .reply (syncEnd u1) status value [] := by
  have hbody : syncFlushBody u =
      match (syncEnd u1).m.err with | .noError => .reply (syncEnd u1) .ok 0 [] | _ => errResponse (syncEnd u1) := by
    rw [syncFlushBody, hk]; rfl
  rw [hbody]
  split
  · exact ⟨_, _, rfl⟩
  · exact ⟨_, _, rfl⟩

/-! ### M_CLOSE (R169) -/

/-- The end of M_CLOSE after its step: the final stored block, the flush, the closing. -/
def closeMarkers (u : MatcherSide) : Verdict MatcherSide :=
  closeRequest (.emitStoredHeader 0#16 true) u fun u2 => closeRequest .emitFlush u2 fun u3 => .reply (markClosed u3) .ok 0 []

/-- The Emitter after the final header of M_CLOSE. -/
def finalHeader (e : Emitter) : Emitter := emitRequest e (.emitStoredHeader 0#16 true)

/-- The markers fail at the header, fail at the flush, or close the stream (R169). -/
theorem closeMarkers_cases (u : MatcherSide) :
    (∃ c, (finalHeader u.e).err = some c ∧ closeMarkers u = .reply ⟨{ u.m with err := .io c }, finalHeader u.e⟩ .io c.toNat []) ∨
    ((finalHeader u.e).err = none ∧ ∃ c, (emitRequest (finalHeader u.e) .emitFlush).err = some c ∧
      closeMarkers u = .reply ⟨{ u.m with err := .io c }, emitRequest (finalHeader u.e) .emitFlush⟩ .io c.toNat []) ∨
    ((finalHeader u.e).err = none ∧ (emitRequest (finalHeader u.e) .emitFlush).err = none ∧
      closeMarkers u = .reply ⟨{ u.m with err := .closed }, emitRequest (finalHeader u.e) .emitFlush⟩ .ok 0 []) := by
  obtain ⟨hn, hrest⟩ | ⟨c, hc, hend⟩ := closeRequest_cases (.emitStoredHeader 0#16 true) u fun u2 =>
    closeRequest .emitFlush u2 fun u3 => .reply (markClosed u3) .ok 0 []
  · obtain ⟨hn', hend⟩ | ⟨c, hc, hend⟩ :=
      closeRequest_cases .emitFlush { u with e := finalHeader u.e } fun u3 => .reply (markClosed u3) .ok 0 []
    · exact .inr (.inr ⟨hn, hn', hrest.trans hend⟩)
    · exact .inr (.inl ⟨hn, c, hc, hrest.trans hend⟩)
  · exact .inl ⟨c, hc, hend⟩

/-- M_CLOSE of an open stream goes on from its step to the markers, or answers the error of the step (R169). -/
theorem closeBody_of_step {u u1 : MatcherSide} (he : u.m.err = .noError)
    (hk : ∀ k : MatcherSide → Verdict MatcherSide, withStep (beginSync u) k = k u1) :
    (u1.m.err = .noError → closeBody u = closeMarkers u1) ∧ (u1.m.err ≠ .noError → closeBody u = errResponse u1) := by
  simp only [closeBody, he, hk]
  refine ⟨fun h => by rw [h]; rfl, fun h => ?_⟩
  split
  · next h' => exact absurd h' h
  · rfl

/-! ### The commands by steps (R166, R168, R169) -/

/-- Settles O60: each command's step is one of `Steps` by `matcherStep_steps`; the markers after it by the Emitter's answers. -/
theorem commandsStep : Obligations.CommandsStep := by
  intro s hi hr he
  have hready := hi.side.ready he
  obtain ⟨u, hstep, -, hk⟩ := withStep_good hready.beginSync
  have hsteps : Steps ⟨{ s.m with sync := true }, s.e⟩ u := matcherStep_steps hready.beginSync hstep
  refine ⟨fun data => ?_, ?_, ?_⟩
  · obtain ⟨u', status, value, hb, -⟩ := writeBody_done data hi.side he
    exact ⟨_, exec_of_reply rfl hr ((mWrite_body he data).trans hb),
      writeLoop_writes _ _ _ _ _ _ _ _ hready (hi.m.notSync he) hb⟩
  · obtain ⟨status, value, hb⟩ := syncFlushBody_replies hk
    refine ⟨_, u, exec_of_reply rfl hr ((mSyncFlush_body he).trans hb), hsteps, ?_⟩
    simp only [respond_m, respond_e, withSide_m, withSide_e]
    exact ⟨fun hne => by rw [syncEnd_of_failed hne]; exact ⟨rfl, rfl⟩, fun hok => syncEnd_of_step hok⟩
  · obtain ⟨hmark, hfail⟩ := closeBody_of_step he hk
    by_cases hok : u.m.err = .noError
    · obtain ⟨c, hc, hend⟩ | ⟨hn, c, hc, hend⟩ | ⟨hn, hn', hend⟩ := closeMarkers_cases u
      all_goals
        refine ⟨_, u, exec_of_reply (i := .mClose) rfl hr ((hmark hok).trans hend), hsteps, fun hne => absurd hok hne,
          fun _ => ⟨finalHeader u.e, rfl, fun c' hc' => ?_, fun hnone => ?_⟩⟩
      · cases hc.symm.trans hc'
        exact ⟨rfl, rfl⟩
      · nomatch hc.symm.trans hnone
      · nomatch hn.symm.trans hc'
      · refine ⟨rfl, fun hnone' => (nomatch hc.symm.trans hnone'), fun c' hc' => ?_⟩
        cases hc.symm.trans hc'
        rfl
      · nomatch hn.symm.trans hc'
      · exact ⟨rfl, fun _ => rfl, fun c' hc' => (nomatch hn'.symm.trans hc')⟩
    · exact ⟨_, u, exec_of_reply (i := .mClose) rfl hr (hfail hok), hsteps, fun _ => ⟨rfl, rfl⟩, fun hok' => absurd hok' hok⟩

/-! ### Nothing pending (R145) -/

/-- A step under M.sync with nothing pending, queued or held back sets M.max_insert_index only (R143, R145). -/
theorem matcherStep_of_drained {u : MatcherSide} (hs : u.m.sync = true) (hi : u.m.index = u.m.windowEnd)
    (hw : u.m.windowEnd ≤ 65536) (hq : u.m.tokq = []) (hb : u.m.byteAvailable = false) : matcherStep u = .ok (armed u) := by
  have hend : endOfData (armed u) = .ended (armed u) := by
    simp [endOfData, armed, hq, hb]
  have hsync : ¬ (decide (u.m.windowEnd < u.m.index + Config.lookaheadMin) && !u.m.sync) = true := by simp [hs]
  rw [matcherStep, if_neg hsync, if_neg (Nat.not_lt.mpr hw)]
  show runLoop (u.m.windowEnd - u.m.index + 1) (armed u) = _
  rw [runLoop, iterate_of_done (u := armed u) hs hi, hend]

/-- A request is answered with the next answer that lies ready (R70). -/
theorem emitRequest_of_answer {e : Emitter} {a : Option Word32} {rest : List (Option Word32)} (he : e.err = none)
    (ha : e.answers = a :: rest) (r : LogEntry) :
    emitRequest e r = { err := a, log := e.log ++ [r], answers := rest, draws := e.draws + 1 } := by
  simp only [emitRequest, drawAnswer, he, ha]

/-- Two requests with NONE ready for both. -/
theorem emitRequest_twice {e : Emitter} {rest : List (Option Word32)} (he : e.err = none) (ha : e.answers = none :: none :: rest)
    (r r' : LogEntry) : emitRequest (emitRequest e r) r' =
      { err := none, log := e.log ++ [r, r'], answers := rest, draws := e.draws + 2 } := by
  rw [emitRequest_of_answer he ha, emitRequest_of_answer rfl rfl, List.append_assoc]
  rfl

theorem withStep_of_ok {u u1 : MatcherSide} (h : matcherStep u = .ok u1) (k : MatcherSide → Verdict MatcherSide) :
    withStep u k = k u1 := by
  rw [withStep, h]

/-- Settles O26: `syncFlushBody_good` and `syncFlushBody_calm`; with nothing pending the step leaves only the two markers to send. -/
theorem syncFlushCompletes : Obligations.SyncFlushCompletes := by
  refine ⟨fun s hi hr he => ?_, fun s rest hr he hx hw hq hb hn ha => ?_⟩
  · have hready := hi.side.ready he
    obtain ⟨u, hk, hend, hwin, hoff, hinv, hsync, hcases⟩ := syncFlushBody_good hready
    have hconf := hk.configured.trans hr.configured
    have hfault := hk.faulted.trans hr.faulted
    obtain ⟨hb, herr, hd, l, hlog, hblocks⟩ | ⟨c, hb, herr, l, hblocks, hlog⟩ := hcases
    · exact ⟨_, exec_of_reply rfl hr ((mSyncFlush_body he).trans hb), matcherOnly_respond _ _ _ _ _, hconf, hfault, hk.params, hsync,
        hend, hoff, hwin, .inl ⟨herr, hinv.emitter_none herr, hd.index, hd.tokq, hd.byteAvailable, ⟨l, hlog, hblocks.blocks⟩, rfl⟩,
        fun _ => herr⟩
    · refine ⟨_, exec_of_reply rfl hr ((mSyncFlush_body he).trans hb), matcherOnly_respond _ _ _ _ _, hconf, hfault, hk.params, hsync,
        hend, hoff, hwin, .inr ⟨c, herr, (hinv.sticky c).mpr herr, rfl, l, hblocks.blocks, hlog⟩, fun hcalm => ?_⟩
      obtain ⟨u', hok⟩ := syncFlushBody_calm hready hcalm
      nomatch hb.symm.trans hok
  · have hstep : matcherStep (beginSync s.side) = .ok (armed (beginSync s.side)) := matcherStep_of_drained rfl hx hw hq hb
    have hmarked := emitRequest_twice hn ha (.emitStoredHeader 0#16 false) .emitFlush
    obtain ⟨hem, htaken, -⟩ := syncEnd_of_step (u := armed (beginSync s.side)) he
    have hem' := hem.trans hmarked
    have hm := htaken (congrArg Emitter.err hem')
    have hbody := (syncFlushBody_of_step (withStep_of_ok hstep)).1 ((congrArg Matcher.err hm).trans he)
    rw [exec_of_reply rfl hr ((mSyncFlush_body he).trans hbody), State.withSide, hm, hem']
    rfl

/-- Settles O27: `closeBody_good` and `closeBody_calm`; a closed and a failed stream by the first match of M_CLOSE. -/
theorem closeCompletes : Obligations.CloseCompletes := by
  refine ⟨fun s hi hr he => ?_, fun s hr he => exec_mClose_closed hr he, fun s c hr he => ?_⟩
  · have hready := hi.side.ready he
    obtain ⟨u, hk, hend, hwin, hoff, hinv, hcases⟩ := closeBody_good hready
    have hconf := hk.configured.trans hr.configured
    have hfault := hk.faulted.trans hr.faulted
    obtain ⟨hb, herr, hsync, hem, hd, l, hlog, hblocks⟩ | ⟨c, hb, herr, l, hblocks, hlog⟩ := hcases
    · exact ⟨_, exec_of_reply (i := .mClose) rfl hr hb, matcherOnly_respond _ _ _ _ _, hconf, hfault, hk.params, hend, hoff, hwin,
        .inl ⟨herr, hem, hd.index, hd.tokq, hd.byteAvailable, hsync, ⟨l, hlog, hblocks.blocks⟩, rfl⟩, fun _ => herr⟩
    · refine ⟨_, exec_of_reply (i := .mClose) rfl hr hb, matcherOnly_respond _ _ _ _ _, hconf, hfault, hk.params, hend, hoff, hwin,
        .inr ⟨c, herr, (hinv.sticky c).mpr herr, rfl, l, hblocks.blocks, hlog⟩, fun hcalm => ?_⟩
      obtain ⟨u', hok⟩ := closeBody_calm hready hcalm
      nomatch hb.symm.trans hok
  · rw [exec_of_io (.inr (.inl rfl)) hr he, respond, BitVec.ofNat_toNat, BitVec.setWidth_eq]

/-- Settles O28: after M_CONFIG nothing is pending, so the step of M_CLOSE leaves only its two requests to send. -/
theorem emptyStream : Obligations.EmptyStream := by
  intro s a l rest hf hl ha
  have hconf := exec_mConfig_deflate hf hl
  have hr : MatcherReady (respond (s.withSide ⟨clearMatcher (atLevel l s.m), relogged s.e⟩) .ok 0 []) := ⟨rfl, hf⟩
  have hstep := matcherStep_of_drained (u := beginSync ⟨clearMatcher (atLevel l s.m), relogged s.e⟩) rfl rfl (Nat.zero_le _) rfl rfl
  have hbody := (closeBody_of_step rfl (withStep_of_ok hstep)).1 rfl
  have hheader : (finalHeader (relogged s.e)).err = none := congrArg Emitter.err (emitRequest_of_answer (e := relogged s.e) rfl ha _)
  have hboth := emitRequest_twice (e := relogged s.e) rfl ha (.emitStoredHeader 0#16 true) .emitFlush
  obtain ⟨c, hc, -⟩ | ⟨-, c, hc, -⟩ | ⟨-, -, hend⟩ :=
    closeMarkers_cases (armed (beginSync ⟨clearMatcher (atLevel l s.m), relogged s.e⟩))
  · nomatch hheader.symm.trans hc
  · nomatch (congrArg Emitter.err hboth).symm.trans hc
  · refine ⟨_, (execAll_cons hconf).trans (execAll_cons (exec_of_reply (i := .mClose) rfl hr (hbody.trans hend))),
      congrArg Emitter.log hboth, rfl, ?_⟩
    simp

end Sys2Proof.Machine
end

section
/-! SUPPORT. A Matcher after M_RESET and one newly constructed at its level, under the same commands (46_matcher_commands.md R163): the first
is the second seen through another window and another start of the log. -/

namespace Sys2Proof.Machine

/-! ### The relation of the two states -/

/-- The Matcher's side of `s` is that of `s'` with other window bytes past the valid ones, and `p` before the log. -/
def Shadows (p : List LogEntry) (s s' : State) : Prop := ∃ w k, s.side = view p w k s'.side ∧ Agrees w k s'.m

theorem side_respond (s : State) (status : Status) (value : Nat) (data : List Byte) : (respond s status value data).side = s.side := rfl

theorem shadows_of_sides {p : List LogEntry} {w : List Host.Cell} {k : Nat} {u u' : MatcherSide} (hu : u = view p w k u')
    (ha : Agrees w k u'.m) {s s' : State} (hs : s.side = u) (hs' : s'.side = u') : Shadows p s s' := by
  subst hs hs'
  exact ⟨w, k, hu, ha⟩

theorem Shadows.alike {p : List LogEntry} {s s' : State} (h : Shadows p s s') : s.m.Alike s'.m := by
  obtain ⟨w, k, hside, ha⟩ := h
  have hm : s.m = graft w k s'.m := congrArg MatcherSide.m hside
  rw [hm]
  exact ⟨rfl, fun a hlt => (ha a hlt).symm⟩

theorem Shadows.emitter {p : List LogEntry} {s s' : State} (h : Shadows p s s') : s.e = prepend p s'.e := by
  obtain ⟨w, k, hside, -⟩ := h
  exact congrArg MatcherSide.e hside

/-- A fault of the Matcher sets the same latch in both. -/
theorem Shadows.raiseFault {p : List LogEntry} {s s' : State} (h : Shadows p s s') (f : FaultCode) :
    Shadows p (raiseFault .matcher f s) (raiseFault .matcher f s') := by
  obtain ⟨w, k, hside, ha⟩ := h
  have hlatch := congrArg (fun u : MatcherSide => (⟨{ u.m with faulted := some f }, u.e⟩ : MatcherSide)) hside
  exact ⟨w, k, hlatch, ha⟩

/-- The instruction starts a new log (R30). -/
def Restarts (i : Instr) : Prop := ∃ a l, i = .mConfig a ∧ resolveLevel (levelOperand a) = .deflate l

/-! ### One command -/

theorem configBody_of_otherMode {a : Word32} (h : resolveLevel (levelOperand a) = .otherMode) (u : MatcherSide) :
    configBody a u = .refuse := by
  rw [configBody, h]

/-- A command's pseudocode ends the same way behind another window and another start of the log, which M_CONFIG drops. -/
theorem matcherBody_seenAs {i : Instr} (hu : unitOfInstr i = some .matcher) (p : List LogEntry) {w : List Host.Cell} {k : Nat}
    {u : MatcherSide} (hi : SideInv u) (ha : Agrees w k u.m) :
    ∃ q, (q = p ∨ q = [] ∧ Restarts i) ∧ SeenAs q k (matcherBody i u) (matcherBody i (view p w k u)) := by
  cases i with
  | mConfig level =>
    have h := configBody_view p level (u := u) ha
    cases hl : resolveLevel (levelOperand level) with
    | invalid => exact ⟨p, .inl rfl, by rwa [if_pos hl] at h⟩
    | deflate l => exact ⟨[], .inr ⟨rfl, level, l, rfl, hl⟩, by rwa [hl, if_neg nofun] at h⟩
    | otherMode =>
      have hrefuse : ∀ v, matcherBody (.mConfig level) v = .refuse := configBody_of_otherMode hl
      refine ⟨p, .inl rfl, ?_⟩
      rw [hrefuse, hrefuse]
      exact rfl
  | mReset dict => exact ⟨p, .inl rfl, resetBody_view p dict w k u⟩
  | mFillWindow dict => exact ⟨p, .inl rfl, shortCircuit_view p ha fun _ => fillWindowBody_view p dict ha⟩
  | mWrite data => exact ⟨p, .inl rfl, shortCircuit_view p ha fun he => writeLoop_view p _ _ _ w u (hi.ready he) ha⟩
  | mSyncFlush => exact ⟨p, .inl rfl, shortCircuit_view p ha fun he => syncFlushBody_view p (hi.ready he) ha⟩
  | mClose => exact ⟨p, .inl rfl, closeBody_view p hi.ready ha⟩
  | _ => cases hu

/-- The second outcome's state is shadowed by the first's, after the same response; a command that starts a new log drops `p`. -/
def Follows (p : List LogEntry) (restarts : Prop) (s s' : State) (o o' : Host.Outcome State Fault Refusal) : Prop :=
  ∀ t', o' = .next t' → ∃ t r q, o = .next t ∧ Shadows q t t' ∧ (q = p ∨ q = [] ∧ restarts) ∧
    t.responses = s.responses ++ [r] ∧ t'.responses = s'.responses ++ [r]

/-- The end of a command, from ends seen as in `SeenAs`. -/
theorem finishMatcher_follows {p q : List LogEntry} {restarts : Prop} {s s' : State} (hs : Shadows p s s')
    (hq : q = p ∨ q = [] ∧ restarts) {k : Nat} {v v' : Verdict MatcherSide} (h : SeenAs q k v' v) :
    Follows p restarts s s' (finishMatcher s v) (finishMatcher s' v') := by
  intro t' ht'
  cases v' with
  | reply u status value data =>
    obtain ⟨w, rfl, ha⟩ := h
    cases ht'
    exact ⟨_, _, q, rfl, ⟨w, k, rfl, ha⟩, hq, rfl, rfl⟩
  | raise u f =>
    obtain ⟨w, rfl, ha⟩ := h
    cases ht'
    exact ⟨_, _, q, rfl, ⟨w, k, rfl, ha⟩, hq, rfl, rfl⟩
  | refuse =>
    cases h
    cases ht'
    exact ⟨_, _, p, rfl, hs, .inl rfl, rfl, rfl⟩
  | stop f => cases ht'

/-- A Matcher command keeps one state the shadow of another: the checks before the body read no window byte and no log. -/
theorem exec_follows {i : Instr} (hu : unitOfInstr i = some .matcher) {p : List LogEntry} {s s' : State} (h' : s'.Inv)
    (hs : Shadows p s s') : Follows p (Restarts i) s s' (exec i s) (exec i s') := by
  obtain ⟨w, k, hside, ha⟩ := hs
  have hm : s.m = graft w k s'.m := congrArg MatcherSide.m hside
  have hf : s.m.faulted = s'.m.faulted := by rw [hm]; rfl
  have hc : s.m.configured = s'.m.configured := by rw [hm]; rfl
  have hs : Shadows p s s' := ⟨w, k, hside, ha⟩
  rw [exec_matcher hu, exec_matcher hu]
  cases hf' : s'.m.faulted with
  | some f =>
    rw [matcherCommand_faulted hf', matcherCommand_faulted (hf.trans hf')]
    rintro t' ⟨⟩
    exact ⟨_, _, p, rfl, hs, .inl rfl, rfl, rfl⟩
  | none =>
    by_cases hrun : (!constructs i) = false ∨ s'.m.configured = true
    · obtain ⟨q, hq, hseen⟩ := matcherBody_seenAs hu p h'.side ha
      rw [matcherCommand_run hf' hrun, matcherCommand_run (hf.trans hf') (hc ▸ hrun), hside]
      exact finishMatcher_follows hs hq hseen
    · obtain ⟨hk, hconf⟩ := not_or.mp hrun
      have hconf := Bool.eq_false_of_not_eq_true hconf
      rw [Bool.eq_true_of_not_eq_false hk, matcherCommand_unconfigured hf' hconf,
        matcherCommand_unconfigured (hf.trans hf') (hc.trans hconf)]
      rintro t' ⟨⟩
      exact ⟨_, _, p, rfl, hs.raiseFault .notConfigured, .inl rfl, rfl, rfl⟩

/-! ### A sequence of commands -/

/-- The same commands on a state and its shadow: both runs go through, with the same responses. -/
theorem execAll_shadows (is : List Instr) : ∀ {p : List LogEntry} {s s' : State}, (∀ i ∈ is, unitOfInstr i = some .matcher) →
    s'.Inv → Shadows p s s' →
    ∃ t t' r q, execAll is s = .next t ∧ execAll is s' = .next t' ∧ Shadows q t t' ∧ (q = p ∨ q = [] ∧ ∃ i ∈ is, Restarts i) ∧
      t.responses = s.responses ++ r ∧ t'.responses = s'.responses ++ r := by
  induction is with
  | nil => exact fun _ _ hs => ⟨_, _, [], _, rfl, rfl, hs, .inl rfl, (List.append_nil _).symm, (List.append_nil _).symm⟩
  | cons i is ih =>
    intro p s s' hu h' hs
    obtain ⟨hui, huis⟩ := List.forall_mem_cons.mp hu
    obtain ⟨s1', -, he', -⟩ := exec_matcher_answers hui h'
    obtain ⟨s1, r1, q1, he, hs1, hq1, hr1, hr1'⟩ := exec_follows hui h' hs s1' he'
    obtain ⟨t, t', r, q, ht, ht', hst, hq, hr, hr'⟩ := ih huis (exec_inv h' he') hs1
    refine ⟨t, t', r1 :: r, q, (execAll_cons he).trans ht, (execAll_cons he').trans ht', hst, ?_, ?_, ?_⟩
    · obtain rfl | ⟨rfl, j, hj, hrest⟩ := hq
      · exact hq1.imp_right fun ⟨hnil, hrest⟩ => ⟨hnil, i, List.mem_cons_self, hrest⟩
      · exact .inr ⟨rfl, j, List.mem_cons_of_mem i hj, hrest⟩
    · rw [hr, hr1, List.append_assoc, List.singleton_append]
    · rw [hr', hr1', List.append_assoc, List.singleton_append]

/-! ### How the two streams begin (R160, R164) -/

/-- A configured Matcher holds the row its own level names (R34). -/
theorem Matcher.Shape.levelRow_level {m : Matcher} (h : m.Shape) (hc : m.configured = true) : levelRow m.params.level = m.params := by
  obtain ⟨l, h2, h9, hp⟩ := h.params_row hc
  rw [hp]
  interval_cases l <;> rfl

/-- clear_matcher leaves the same Matcher in both states but for WIN, whose bytes are then all past the valid ones. -/
theorem clearMatcher_atLevel {m m' : Matcher} (hc : m.configured = true) (hf : m.faulted = none) (hf' : m'.faulted = none)
    (hrow : levelRow m.params.level = m.params) :
    clearMatcher m = graft m.win m.winEpoch (clearMatcher (atLevel m.params.level m')) := by
  rw [clearMatcher_eq hc hf, clearMatcher_eq (m := atLevel m.params.level m') rfl hf', atLevel, hrow]
  rfl

theorem rebound_eq_prepend {e e' : Emitter} (ha : e'.answers = e.answers) (hd : e'.draws = e.draws) :
    rebound e = prepend (e.log ++ [.sinkRebound]) (relogged e') := by
  simp only [rebound, prepend, relogged, ha, hd, List.append_nil]

/-- M_RESET dict, and M_CONFIG of the same level with M_FILL_WINDOW dict, begin streams of which the first shadows the second. -/
theorem mReset_shadows_mConfig {s s' : State} (dict : List Byte) {level : Word32} (h : s.Inv) (h' : s'.Inv) (hr : MatcherReady s)
    (hf' : s'.m.faulted = none) (hl : resolveLevel (levelOperand level) = .deflate s.m.params.level)
    (ha : s'.e.answers = s.e.answers) (hd : s'.e.draws = s.e.draws) :
    ∃ t t', exec (.mReset dict) s = .next t ∧
      (∀ is, execAll (.mConfig level :: (if dict = [] then is else .mFillWindow dict :: is)) s' = execAll is t') ∧
      t'.Inv ∧ Shadows (s.e.log ++ [.sinkRebound]) t t' ∧ t.responses = s.responses ++ [⟨.ok, 0#32, []⟩] ∧
      t'.responses = s'.responses ++ (if dict = [] then [⟨.ok, 0#32, []⟩] else [⟨.ok, 0#32, []⟩, ⟨.ok, 0#32, []⟩]) := by
  have hconf := exec_mConfig_deflate hf' hl
  have hclear := clearMatcher_atLevel (m' := s'.m) hr.configured hr.faulted hf' (h.m.shape.levelRow_level hr.configured)
  have hem := rebound_eq_prepend ha hd
  by_cases hdict : dict = []
  · subst hdict
    have hview : (⟨clearMatcher s.m, rebound s.e⟩ : MatcherSide) = view (s.e.log ++ [.sinkRebound]) s.m.win s.m.winEpoch
        ⟨clearMatcher (atLevel s.m.params.level s'.m), relogged s'.e⟩ := by rw [hclear, hem]; rfl
    refine ⟨_, _, exec_mReset_nil hr, fun is => ?_, exec_inv h' hconf,
      shadows_of_sides hview (fun a ha => absurd ha (Nat.not_lt_zero a)) (side_respond_withSide _ _ _ _ _)
        (side_respond_withSide _ _ _ _ _), rfl, rfl⟩
    rw [if_pos rfl, execAll_cons hconf]
  · have hfill := exec_mFillWindow_of_cleared (m := atLevel s.m.params.level s'.m) rfl hf' s' (relogged s'.e) dict
    obtain ⟨hprimed, hagrees⟩ := primed_graft s.m.win s.m.winEpoch (clearMatcher (atLevel s.m.params.level s'.m)) (tail 32768 dict)
    have hview : (⟨primed (clearMatcher s.m) (tail 32768 dict), rebound s.e⟩ : MatcherSide) =
        view (s.e.log ++ [.sinkRebound]) (Memory.putRun s.m.win 0 (tail 32768 dict)) s.m.winEpoch
          ⟨primed (clearMatcher (atLevel s.m.params.level s'.m)) (tail 32768 dict), relogged s'.e⟩ := by
      rw [hclear, hprimed, hem]; rfl
    refine ⟨_, _, exec_mReset_of_ne_nil hr hdict, fun is => ?_, exec_inv (exec_inv h' hconf) hfill,
      shadows_of_sides hview hagrees (side_respond_withSide _ _ _ _ _)
        ((side_respond _ _ _ _).trans (side_respond_withSide _ _ _ _ _)), ?_, ?_⟩
    · rw [if_neg hdict, execAll_cons hconf, execAll_cons hfill]
    · rw [respond_responses, withSide_responses]
    · rw [if_neg hdict, respond_responses, respond_responses, withSide_responses, List.append_assoc]
      rfl

/-! ### The obligation -/

/-- Settles O31: M_RESET begins a shadow of the new construction, and every Matcher command keeps it one. -/
theorem resetEquivalence : Obligations.ResetEquivalence := by
  intro s s' dict level S h h' hr hf' hl ha hd hS
  obtain ⟨s1, s1', he, he', hinv, hs1, hr1, hr1'⟩ := mReset_shadows_mConfig dict h h' hr hf' hl ha hd
  obtain ⟨t, t', r, q, ht, ht', hst, hq, hrt, hrt'⟩ := execAll_shadows S hS hinv hs1
  have hlog : t.e.log = q ++ t'.e.log := congrArg Emitter.log hst.emitter
  refine ⟨t, t', r, (execAll_cons he).trans ht, (he' S).trans ht', hst.alike, (congrArg Emitter.err hst.emitter :), ?_, ?_, ?_⟩
  · rw [hrt, hr1, List.append_assoc, List.singleton_append]
  · rw [hrt', hr1', List.append_assoc]
    split <;> rfl
  · obtain rfl | ⟨rfl, i, hi, a, l, rfl, hal⟩ := hq
    · exact .inl (by rw [hlog, List.append_assoc, List.singleton_append])
    · exact .inr ⟨a, l, hi, hal, hlog⟩

end Sys2Proof.Machine
end

section
/-! SUPPORT. The DictDecoder commands (47_dictdecoder.md R173 to R199): how the body of each ends, by the cases its pseudocode
distinguishes, and what a ready unit then does. -/

namespace Sys2Proof.Machine

/-! ### HIST accessed inside its size (R12) -/

theorem storeHist_of_lt {d : Decoder} {a : Nat} (h : a < d.size) (c : Byte) (k : Decoder → Verdict Decoder) :
    storeHist d a c k = k (putHist d a c) := if_pos h

theorem loadHist_of_le {d : Decoder} {a n : Nat} (h : a + n ≤ d.size) (k : List Byte → Verdict Decoder) :
    loadHist d a n k = k (histRun d a n) := if_pos h

/-! ### How the bodies end: `d0` is the unit before the command, `d` the one the body is handed -/

theorem writeByteBody_of_room {d : Decoder} (h : d.wrPos < d.size) (c : Byte) (d0 : Decoder) :
    writeByteBody c d0 d = .reply { putHist d d.wrPos c with wrPos := d.wrPos + 1 } .ok 0 [] := by
  rw [writeByteBody, if_neg (Nat.ne_of_lt h), storeHist_of_lt h, putHist_wrPos]

theorem writeByteBody_of_full {d : Decoder} (h : d.wrPos = d.size) (c : Byte) (d0 : Decoder) :
    writeByteBody c d0 d = .raise d0 .ddNoSpace := if_pos h

theorem slicePutBody_of_inside {d : Decoder} (hv : d.wrPos + d.viewLen ≤ d.size) {k : Nat} (h : k < d.viewLen) (c : Byte) (d0 : Decoder) :
    slicePutBody k c d0 d = .reply (putHist d (d.wrPos + k) c) .ok 0 [] := by
  rw [slicePutBody, if_neg (Nat.not_le_of_lt h), storeHist_of_lt (by omega)]

theorem slicePutBody_of_outside {d : Decoder} {k : Nat} (h : d.viewLen ≤ k) (c : Byte) (d0 : Decoder) :
    slicePutBody k c d0 d = .raise d0 .ddSliceOob := if_pos h

theorem writeMarkBody_of_fits {d : Decoder} {n : Nat} (h : d.wrPos + n ≤ d.size) (d0 : Decoder) :
    writeMarkBody n d0 d = .reply { d with wrPos := d.wrPos + n } .ok 0 [] := if_neg (Nat.not_lt_of_le h)

theorem writeMarkBody_of_over {d : Decoder} {n : Nat} (h : d.size < d.wrPos + n) (d0 : Decoder) :
    writeMarkBody n d0 d = .raise d0 .ddMarkOver := if_pos h

theorem writeCopyBody_of_valid {d : Decoder} {dist : Nat} (h1 : 1 ≤ dist) (h2 : dist ≤ histSize d) (len : Nat) (d0 : Decoder) :
    writeCopyBody dist len d0 d = .reply (copyBytes dist (copyCount d len) d) .ok (copyCount d len) [] := if_neg (by omega)

theorem writeCopyBody_of_bad {d : Decoder} {dist : Nat} (h : dist = 0 ∨ histSize d < dist) (len : Nat) (d0 : Decoder) :
    writeCopyBody dist len d0 d = .raise d0 .ddBadDist := if_pos h

theorem tryWriteCopyBody_of_zero {dist : Nat} (h : dist = 0) (len : Nat) (d0 d : Decoder) :
    tryWriteCopyBody dist len d0 d = .raise d0 .ddBadDist := if_pos h

theorem tryWriteCopyBody_of_declined {d : Decoder} {dist len : Nat} (h1 : 1 ≤ dist) (h : d.wrPos < dist ∨ d.size < d.wrPos + len)
    (d0 : Decoder) : tryWriteCopyBody dist len d0 d = .reply d .ok 0 [] := by
  rw [tryWriteCopyBody, if_neg (by omega), if_pos h]

theorem readFlushBody_of_le {d : Decoder} (hrd : d.rdPos ≤ d.wrPos) (hw : d.wrPos ≤ d.size) (d0 : Decoder) :
    readFlushBody d0 d = .reply (drainAdvance d) .ok (availRead d) (histRun d d.rdPos (availRead d)) :=
  loadHist_of_le (by rw [availRead]; omega) _

theorem stashReadBody_of_le {d : Decoder} (h : d.stashPos + d.stashLen ≤ d.size) (max : Nat) (d0 : Decoder) :
    stashReadBody max d0 d =
      .reply { d with stashPos := d.stashPos + min max d.stashLen, stashLen := d.stashLen - min max d.stashLen } .ok
        (min max d.stashLen) (histRun d d.stashPos (min max d.stashLen)) :=
  loadHist_of_le (by omega) _

/-! ### The copies and the drains in terms of the registers -/

/-- A unit that differs in HIST and the write cursor only, as one expression. -/
theorem SameHist.eq {d d' : Decoder} (h : SameHist d d') : d' = { d with hist := d'.hist, wrPos := d'.wrPos } := by
  obtain ⟨h1, h2, h3, h4, h5, h6, h7, h8, h9⟩ := h
  rw [← h1, ← h2, ← h3, ← h4, ← h5, ← h6, ← h7, ← h8, ← h9]

theorem copyBytes_eq {d : Decoder} (h : Memory.bytesWf d.hist d.size) {dist n : Nat} (h1 : 1 ≤ dist) (h2 : dist ≤ d.size)
    (hn : d.wrPos + n ≤ d.size) : copyBytes dist n d = { d with hist := (copyBytes dist n d).hist, wrPos := d.wrPos + n } := by
  obtain ⟨hs, hw, -⟩ := copyBytes_spec dist n d h1 h2 hn h
  exact hw ▸ hs.eq

/-- Where the source does not wrap and the copy fits, DD_TRY_WRITE_COPY's copy is the copy loop (R185, R186). -/
theorem tryWriteCopyBody_of_fits {d : Decoder} (h : Memory.bytesWf d.hist d.size) {dist len : Nat} (h1 : 1 ≤ dist) (h2 : dist ≤ d.wrPos)
    (hfits : d.wrPos + len ≤ d.size) (d0 : Decoder) :
    tryWriteCopyBody dist len d0 d = .reply (copyBytes dist len d) .ok len [] := by
  obtain ⟨hs, hw, hhist, -⟩ := copyForward_spec dist len 0 d h1 h2 hfits h
  have heq : { copyForward dist len 0 d with wrPos := (copyForward dist len 0 d).wrPos + len } = copyBytes dist len d := by
    rw [copyBytes_eq h h1 (by omega) hfits, hs.eq, hw]
    simp only
    rw [hhist]
    rfl
  rw [tryWriteCopyBody, if_neg (by omega), if_neg (by omega), ← heq]

/-- The cursor update of both drains, register by register (R188). -/
theorem drainAdvance_eq (d : Decoder) : drainAdvance d =
    { d with rdPos := if d.wrPos = d.size then 0 else d.wrPos, wrPos := if d.wrPos = d.size then 0 else d.wrPos,
             full := d.full || decide (d.wrPos = d.size) } := by
  by_cases h : d.wrPos = d.size <;> simp [drainAdvance, h]

/-! ### A ready DictDecoder -/

section

variable {i : Instr} {s : State}

/-- It runs the body of a command that no staged byte blocks. -/
theorem exec_decoder_run (hu : unitOfInstr i = some .decoder) (hc : constructs i = false) (hr : DecoderReady s)
    (hst : blockedByStash i = false ∨ s.d.stashLen = 0) :
    exec i s = finishDecoder s (decoderBody i s.d (handed (preambleOf i) s.d)) := by
  rw [exec_decoder hu hc]
  exact decoderCommand_run hr.faulted hr.configured (hst.imp_left (preambleOf_blocked hu hc).trans) _

theorem exec_decoder_of_reply (hu : unitOfInstr i = some .decoder) (hc : constructs i = false) (hr : DecoderReady s)
    (hst : blockedByStash i = false ∨ s.d.stashLen = 0) {d : Decoder} {status : Status} {value : Nat} {data : List Byte}
    (h : decoderBody i s.d (handed (preambleOf i) s.d) = .reply d status value data) :
    exec i s = .next (decoderEffect d ⟨status, BitVec.ofNat 32 value, data⟩ s) := by
  rw [exec_decoder_run hu hc hr hst, h]
  rfl

theorem exec_decoder_of_raise (hu : unitOfInstr i = some .decoder) (hc : constructs i = false) (hr : DecoderReady s)
    (hst : blockedByStash i = false ∨ s.d.stashLen = 0) {f : FaultCode}
    (h : decoderBody i s.d (handed (preambleOf i) s.d) = .raise s.d f) : exec i s = .next (afterFault .decoder f s) := by
  rw [exec_decoder_run hu hc hr hst, h]
  rfl

end

end Sys2Proof.Machine
end

section
/-! SUPPORT. The bytes in flight (47_dictdecoder.md R190, R193): what a write at the cursor, a drain and a read of the stash do to
them. -/

namespace Sys2Proof.Machine

/-! ### The bytes a command adds -/

/-- What a command writes from D.wr_pos on, between the unit before it and the unit after it (R193). -/
def bytesWritten : Instr → Decoder → Decoder → List Byte
  | .ddWriteByte c, _, _ => [c]
  | .ddWriteMark n, d, _ => histRun d d.wrPos n.toNat
  | .ddWriteCopy _ _, d, d' => histRun d' d.wrPos (d'.wrPos - d.wrPos)
  | .ddTryWriteCopy _ _, d, d' => histRun d' d.wrPos (d'.wrPos - d.wrPos)
  | _, _, _ => []

/-- If a body answers, its data followed by what is then in flight is what was in flight, followed by the bytes written. -/
def Conserves (i : Instr) (d : Decoder) (v : Verdict Decoder) : Prop :=
  ∀ d' status value data, v = .reply d' status value data → data ++ inFlight d' = inFlight d ++ bytesWritten i d d'

theorem conserves_reply {i : Instr} {d d' : Decoder} {status : Status} {value : Nat} {data : List Byte}
    (h : data ++ inFlight d' = inFlight d ++ bytesWritten i d d') : Conserves i d (.reply d' status value data) := by
  rintro _ _ _ _ ⟨⟩
  exact h

theorem conserves_raise (i : Instr) (d d0 : Decoder) (f : FaultCode) : Conserves i d (.raise d0 f) := nofun

/-- An answer without data that leaves the bytes in flight alone, of a command that writes nothing. -/
theorem conserves_of_same {i : Instr} {d d' : Decoder} {status : Status} {value : Nat} (hw : bytesWritten i d d' = [])
    (hd : inFlight d' = inFlight d) : Conserves i d (.reply d' status value []) :=
  conserves_reply (by rw [List.nil_append, hw, List.append_nil, hd])

/-! ### Bytes written at the cursor -/

theorem inFlight_of_unstaged {d : Decoder} (h : d.stashLen = 0) : inFlight d = histRun d d.rdPos (d.wrPos - d.rdPos) := by
  rw [inFlight, h]
  exact List.nil_append _

/-- With nothing staged, `n` bytes written at the cursor join the bytes in flight at their end. -/
theorem inFlight_of_write {d d' : Decoder} {n : Nat} (hst : d.stashLen = 0) (hst' : d'.stashLen = 0) (hrd : d.rdPos ≤ d.wrPos)
    (hrd' : d'.rdPos = d.rdPos) (hw : d'.wrPos = d.wrPos + n) (hkeep : ∀ a < d.wrPos, histByte d' a = histByte d a) :
    inFlight d' = inFlight d ++ histRun d' d.wrPos n := by
  have hold : histRun d' d.rdPos (d.wrPos - d.rdPos) = histRun d d.rdPos (d.wrPos - d.rdPos) :=
    histRun_congr fun k hk => hkeep _ (by omega)
  rw [inFlight_of_unstaged hst, inFlight_of_unstaged hst', hrd', hw, show d.wrPos + n - d.rdPos = (d.wrPos - d.rdPos) + n by omega,
    histRun_append, hold, Nat.add_sub_cancel' hrd]

section

variable {d : Decoder} (h : d.Inv)
include h

theorem writeByteBody_conserves (hst : d.stashLen = 0) (c : Byte) :
    Conserves (.ddWriteByte c) d (writeByteBody c d (closeView d)) := by
  obtain hlt | hfull := Nat.lt_or_eq_of_le h.wr_le
  · rw [writeByteBody_of_room (d := closeView d) hlt]
    refine conserves_reply ?_
    have hrun := inFlight_of_write (d' := { putHist (closeView d) d.wrPos c with wrPos := d.wrPos + 1 }) (n := 1) hst hst h.rd_le rfl rfl
      fun a ha => (histByte_putHist (closeView d) d.wrPos c a).trans (if_neg (Nat.ne_of_lt ha))
    have hbyte : histByte (putHist (closeView d) d.wrPos c) d.wrPos = c := (histByte_putHist _ _ _ _).trans (if_pos rfl)
    refine hrun.trans (congrArg (inFlight d ++ ·) ?_)
    exact (Memory.readRun_eq _ _ _ _).trans (congrArg (· :: []) hbyte)
  · rw [writeByteBody_of_full (d := closeView d) hfull]
    exact conserves_raise _ _ _ _

theorem slicePutBody_conserves (hst : d.stashLen = 0) (k : Word32) (c : Byte) :
    Conserves (.ddSlicePut k c) d (slicePutBody k.toNat c d d) := by
  obtain hin | hout := Nat.lt_or_ge k.toNat d.viewLen
  · rw [slicePutBody_of_inside h.view_le hin]
    have hrun := inFlight_of_write (d' := putHist d (d.wrPos + k.toNat) c) (n := 0) hst hst h.rd_le rfl rfl
      fun a ha => (histByte_putHist d _ c a).trans (if_neg (by omega))
    exact conserves_of_same rfl (hrun.trans (List.append_nil _))
  · rw [slicePutBody_of_outside hout]
    exact conserves_raise _ _ _ _

theorem writeMarkBody_conserves (hst : d.stashLen = 0) (n : Word32) :
    Conserves (.ddWriteMark n) d (writeMarkBody n.toNat d (closeView d)) := by
  obtain hover | hfits := Nat.lt_or_ge d.size (d.wrPos + n.toNat)
  · rw [writeMarkBody_of_over (d := closeView d) hover]
    exact conserves_raise _ _ _ _
  · rw [writeMarkBody_of_fits (d := closeView d) hfits]
    exact conserves_reply (inFlight_of_write (d' := { closeView d with wrPos := d.wrPos + n.toNat }) hst hst h.rd_le rfl rfl
      fun _ _ => rfl)

/-- The bytes in flight after a copy of `n` bytes (R182). -/
theorem inFlight_copyBytes (hst : d.stashLen = 0) {dist n : Nat} (h1 : 1 ≤ dist) (h2 : dist ≤ d.size) (hn : d.wrPos + n ≤ d.size) :
    inFlight (copyBytes dist n (closeView d)) = inFlight d ++
      histRun (copyBytes dist n (closeView d)) d.wrPos ((copyBytes dist n (closeView d)).wrPos - d.wrPos) := by
  obtain ⟨hs, hw, -, hkeep, -⟩ := copyBytes_spec dist n (closeView d) h1 h2 hn h.histWf
  rw [hw, closeView_wrPos, Nat.add_sub_cancel_left]
  exact inFlight_of_write hst (hs.stashLen.trans hst) h.rd_le hs.rdPos hw fun a ha => hkeep a (.inl ha)

theorem writeCopyBody_conserves (hst : d.stashLen = 0) (dist : Word32) (len : BitVec 24) :
    Conserves (.ddWriteCopy dist len) d (writeCopyBody dist.toNat len.toNat d (closeView d)) := by
  have hw := h.wr_le
  have hsize := h.hist_size_le
  by_cases hbad : dist.toNat = 0 ∨ histSize d < dist.toNat
  · rw [writeCopyBody_of_bad (d := closeView d) hbad]
    exact conserves_raise _ _ _ _
  · have hcount : copyCount (closeView d) len.toNat = min (d.wrPos + len.toNat) d.size - d.wrPos := rfl
    rw [writeCopyBody_of_valid (d := closeView d) (by omega) (show dist.toNat ≤ histSize d by omega)]
    exact conserves_reply (inFlight_copyBytes h hst (by omega) (by omega) (by omega))

theorem tryWriteCopyBody_conserves (hst : d.stashLen = 0) (dist : Word32) (len : BitVec 24) :
    Conserves (.ddTryWriteCopy dist len) d (tryWriteCopyBody dist.toNat len.toNat d (closeView d)) := by
  have hw := h.wr_le
  obtain hzero | hpos := Nat.eq_zero_or_pos dist.toNat
  · rw [tryWriteCopyBody_of_zero hzero]
    exact conserves_raise _ _ _ _
  · by_cases hfits : dist.toNat ≤ d.wrPos ∧ d.wrPos + len.toNat ≤ d.size
    · rw [tryWriteCopyBody_of_fits (d := closeView d) h.histWf hpos hfits.1 hfits.2]
      exact conserves_reply (inFlight_copyBytes h hst hpos (by omega) hfits.2)
    · rw [tryWriteCopyBody_of_declined (d := closeView d) hpos (show d.wrPos < dist.toNat ∨ d.size < d.wrPos + len.toNat by omega)]
      refine conserves_reply ?_
      have hnone : histRun (closeView d) d.wrPos (d.wrPos - d.wrPos) = [] := by rw [Nat.sub_self]; rfl
      exact (List.append_nil _).symm.trans (congrArg (inFlight d ++ ·) hnone.symm)

/-! ### Bytes drained and read -/

omit h in
/-- After the cursor update of a drain the two cursors are equal: only the staged bytes are in flight (R188). -/
theorem inFlight_drainAdvance (d : Decoder) : inFlight (drainAdvance d) = histRun d d.stashPos d.stashLen := by
  rw [drainAdvance_eq, inFlight]
  simp only
  rw [Nat.sub_self]
  exact List.append_nil _

theorem readFlushBody_conserves (hst : d.stashLen = 0) : Conserves .ddReadFlush d (readFlushBody d (closeView d)) := by
  rw [readFlushBody_of_le (d := closeView d) h.rd_le h.wr_le]
  refine conserves_reply ?_
  rw [inFlight_drainAdvance, closeView_stashLen, hst, inFlight_of_unstaged hst]
  rfl

omit h in
theorem stashFlushBody_conserves (hst : d.stashLen = 0) : Conserves .ddStashFlush d (stashFlushBody d (closeView d)) :=
  conserves_of_same rfl ((inFlight_drainAdvance _).trans (inFlight_of_unstaged hst).symm)

theorem stashReadBody_conserves (max : Word32) : Conserves (.ddStashRead max) d (stashReadBody max.toNat d (closeView d)) := by
  rw [stashReadBody_of_le (d := closeView d) h.stash_le]
  refine conserves_reply (Eq.trans ?_ (List.append_nil _).symm)
  have hsplit := histRun_append d d.stashPos (min max.toNat d.stashLen) (d.stashLen - min max.toNat d.stashLen)
  rw [Nat.add_sub_cancel' (Nat.min_le_right _ _)] at hsplit
  rw [inFlight, inFlight, hsplit, List.append_assoc]
  rfl

/-! ### Every command -/

/-- Each body conserves the bytes in flight, where no staged byte blocks its command. -/
theorem decoderBody_conserves {i : Instr} (hu : unitOfInstr i = some .decoder) (hc : constructs i = false)
    (hst : blockedByStash i = true → d.stashLen = 0) : Conserves i d (decoderBody i d (handed (preambleOf i) d)) := by
  cases i with
  | ddWriteByte c => exact writeByteBody_conserves h (hst rfl) c
  | ddWriteSlice maxLen => exact conserves_of_same rfl rfl
  | ddSlicePut k c => exact slicePutBody_conserves h (hst rfl) k c
  | ddWriteMark n => exact writeMarkBody_conserves h (hst rfl) n
  | ddWriteCopy dist len => exact writeCopyBody_conserves h (hst rfl) dist len
  | ddTryWriteCopy dist len => exact tryWriteCopyBody_conserves h (hst rfl) dist len
  | ddReadFlush => exact readFlushBody_conserves h (hst rfl)
  | ddStashFlush => exact stashFlushBody_conserves (hst rfl)
  | ddStashRead max => exact stashReadBody_conserves h max
  | ddStashLen | ddHistSize | ddAvailRead | ddAvailWrite => exact conserves_of_same rfl rfl
  | ddInit size dict => cases hc
  | mConfig | mReset | mFillWindow | mWrite | mSyncFlush | mClose | tokenLit | tokenMatch => cases hu

end

/-! ### The obligation -/

/-- Settles O47: a command that does not fault ran its body, which conserves the bytes in flight (`decoderBody_conserves`). -/
theorem drainConserves : Obligations.DrainConserves := by
  intro i s t h hr hu hc ht hf
  obtain ⟨f, hf', -⟩ | ⟨-, hconf, -⟩ | ⟨-, -, -, -, he⟩ |
    ⟨-, -, hst, v, hv, ⟨d, value, data, rfl, -⟩ | ⟨f, rfl, -⟩, he⟩ := exec_decoder_cases hu hc h
  · cases hr.faulted.symm.trans hf'
  · cases hr.configured.symm.trans hconf
  · cases he.symm.trans ht; cases hf
  · cases he.symm.trans ht
    refine ⟨.ok, value, data, bytesWritten i s.d d, rfl, decoderBody_conserves h hu hc hst _ _ _ _ hv.symm, ?_⟩
    cases i <;> rfl
  · cases he.symm.trans ht; cases hf

end Sys2Proof.Machine
end

section
/-! SUPPORT. The DictDecoder commands one by one (47_dictdecoder.md R173 to R197): DD_INIT, the writes, the write view, the copies, the
drains, the stash and the queries, each with the whole next state; and two ways to write the same bytes (R181, R186). -/

namespace Sys2Proof.Machine

/-! ### DD_INIT (R173) -/

theorem sizeAllowed_of_range {n : Nat} (h1 : 1 ≤ n) (h2 : n ≤ Config.ddSizeMax) : sizeAllowed n = true := by
  simp [sizeAllowed, Nat.pos_of_ne_zero (Nat.ne_of_gt h1), h2]

/-- DD_SIZE_MAX is at least 32768 (R9), so a size above it fails both tests. -/
theorem sizeAllowed_of_bad {n : Nat} (h : n = 0 ∨ Config.ddSizeMax < n) : sizeAllowed n = false := by
  have hmax : 32768 ≤ Config.ddSizeMax := by unfold Config.ddSizeMax; omega
  have hbig : 0 < n → 32768 < n ∧ Config.ddSizeMax < n := by omega
  simpa [sizeAllowed] using hbig

theorem exec_ddInit_of_good {s : State} (hf : s.d.faulted = none) {size : Word32} (h1 : 1 ≤ size.toNat)
    (h2 : size.toNat ≤ Config.ddSizeMax) (dict : List Byte) :
    exec (.ddInit size dict) s = .next (respond { s with d := initDecoder s.d size.toNat dict } .ok 0 []) := by
  obtain ⟨f, hf', -⟩ | ⟨-, -, he⟩ | ⟨-, ha, -⟩ := exec_ddInit_cases size dict s
  · cases hf.symm.trans hf'
  · exact he
  · cases (sizeAllowed_of_range h1 h2).symm.trans ha

/-- A new history, register by register: where the dictionary fills HIST, the cursors wrap and D.full is set (R173). -/
theorem initDecoder_eq {d : Decoder} (hf : d.faulted = none) (size : Nat) (dict : List Byte) : initDecoder d size dict =
    { configured := true, faulted := none, size := size, wrPos := if size ≤ dict.length then 0 else dict.length,
      rdPos := if size ≤ dict.length then 0 else dict.length, full := decide (size ≤ dict.length), viewLen := 0, stashPos := 0,
      stashLen := 0, hist := Memory.putRun [] 0 (tail size dict), epoch := d.epoch + 1 } := by
  by_cases h : size ≤ dict.length
  · simp [initDecoder, hf, length_tail, h]
  · have hne : dict.length ≠ size := by omega
    simp [initDecoder, hf, length_tail, h, hne, Nat.min_eq_right (Nat.le_of_not_le h)]

theorem histByte_initDecoder (d : Decoder) {size a : Nat} {dict : List Byte} (ha : a < min dict.length size) :
    histByte (initDecoder d size dict) a = dict.getD (dict.length - min dict.length size + a) 0#8 := by
  have hlen := length_tail size dict
  have hbyte : histByte (initDecoder d size dict) a = _ := Memory.readByte_putRun _ [] 0 (tail size dict) a
  rw [hbyte, if_pos (by omega), getD_tail, Nat.sub_zero, Nat.min_comm]

/-- Settles O37: DD_INIT has an end for each outcome of the size test, which is the range of R173. -/
theorem initHistory : Obligations.InitHistory := by
  refine ⟨fun s size dict hf h1 h2 => ⟨_, exec_ddInit_of_good hf h1 h2 dict, ?_, fun a ha => histByte_initDecoder s.d ha⟩,
    fun s size dict hf hbad => ?_⟩
  · rw [initDecoder_eq hf]
    rfl
  · obtain ⟨f, hf', -⟩ | ⟨-, ha, -⟩ | ⟨-, -, he⟩ := exec_ddInit_cases size dict s
    · cases hf.symm.trans hf'
    · cases (sizeAllowed_of_bad hbad).symm.trans ha
    · exact he

/-! ### Single writes and the write view (R176 to R180) -/

/-- The unit after one more byte at the cursor, the view closed (R176). -/
def wroteByte (c : Byte) (d : Decoder) : Decoder := { putHist (closeView d) d.wrPos c with wrPos := d.wrPos + 1 }

theorem exec_ddWriteByte_of_room {s : State} (hr : DecoderReady s) (hst : s.d.stashLen = 0) (h : s.d.wrPos < s.d.size) (c : Byte) :
    exec (.ddWriteByte c) s = .next (decoderEffect (wroteByte c s.d) ⟨.ok, 0#32, []⟩ s) :=
  exec_decoder_of_reply rfl rfl hr (.inr hst) (writeByteBody_of_room (d := closeView s.d) h c _)

theorem exec_ddSlicePut_of_inside {s : State} (hr : DecoderReady s) (hst : s.d.stashLen = 0) (hv : s.d.wrPos + s.d.viewLen ≤ s.d.size)
    {k : Word32} (h : k.toNat < s.d.viewLen) (c : Byte) :
    exec (.ddSlicePut k c) s = .next (decoderEffect (putHist s.d (s.d.wrPos + k.toNat) c) ⟨.ok, 0#32, []⟩ s) :=
  exec_decoder_of_reply rfl rfl hr (.inr hst) (slicePutBody_of_inside hv h c _)

theorem exec_ddWriteMark_of_fits {s : State} (hr : DecoderReady s) (hst : s.d.stashLen = 0) {n : Word32}
    (h : s.d.wrPos + n.toNat ≤ s.d.size) :
    exec (.ddWriteMark n) s = .next (decoderEffect { s.d with wrPos := s.d.wrPos + n.toNat, viewLen := 0 } ⟨.ok, 0#32, []⟩ s) :=
  exec_decoder_of_reply rfl rfl hr (.inr hst) (writeMarkBody_of_fits (d := closeView s.d) h _)

/-- Settles O38: the free slot decides how the body ends. -/
theorem writeByteAppends : Obligations.WriteByteAppends := by
  intro s c hr hst hw
  refine ⟨fun hroom => ⟨_, exec_ddWriteByte_of_room hr hst hroom c, rfl, fun a => histByte_putHist _ _ _ _⟩, fun hfull => ?_⟩
  exact exec_decoder_of_raise rfl rfl hr (.inr hst) (writeByteBody_of_full (d := closeView s.d) hfull c _)

/-- Settles O39: each of the three commands by its bound, the view or the free space. -/
theorem writeView : Obligations.WriteView := by
  intro s hr hst hv
  refine ⟨fun maxLen => exec_decoder_of_reply rfl rfl hr (.inr hst) rfl,
    fun k c hk => ⟨_, exec_ddSlicePut_of_inside hr hst hv hk c, rfl, fun a => histByte_putHist _ _ _ _⟩, fun k c hk => ?_,
    fun n hn => exec_ddWriteMark_of_fits hr hst (by omega), fun n hn => ?_⟩
  · exact exec_decoder_of_raise rfl rfl hr (.inr hst) (slicePutBody_of_outside hk c _)
  · exact exec_decoder_of_raise rfl rfl hr (.inr hst)
      (writeMarkBody_of_over (d := closeView s.d) (show s.d.size < s.d.wrPos + n.toNat by omega) _)

/-! ### Copies (R182 to R186) -/

/-- Settles O40: the copy loop by `copyBytes_spec`, as many bytes as there is room for. -/
theorem writeCopyReplays : Obligations.WriteCopyReplays := by
  intro s dist len h hr hst
  have hw := h.wr_le
  have hsize := h.hist_size_le
  refine ⟨fun h1 h2 => ?_, fun hbad => ?_⟩
  · have hn : (closeView s.d).wrPos + copyCount s.d len.toNat ≤ (closeView s.d).size := by
      show s.d.wrPos + (min (s.d.wrPos + len.toNat) s.d.size - s.d.wrPos) ≤ s.d.size
      omega
    have hd : dist.toNat ≤ (closeView s.d).size := h2.trans hsize
    obtain ⟨-, -, -, hkeep, hcopied⟩ := copyBytes_spec dist.toNat _ (closeView s.d) h1 hd hn h.histWf
    refine ⟨_, _, rfl, exec_ddWriteCopy_of_valid hr hst h1 h2, ?_, hkeep, hcopied⟩
    exact congrArg (fun d => respond { s with d := d } .ok (copyCount s.d len.toNat) [])
      (copyBytes_eq (d := closeView s.d) h.histWf h1 hd hn)
  · exact exec_decoder_of_raise rfl rfl hr (.inr hst) (writeCopyBody_of_bad (d := closeView s.d) hbad len.toNat _)

/-- Settles O41: where the command does not decline, its copy is the copy loop, whose sources do not wrap. -/
theorem tryWriteCopyCopies : Obligations.TryWriteCopyCopies := by
  intro s dist len h hr hst
  have hw := h.wr_le
  refine ⟨fun h1 h2 hfits => ?_, fun h1 hno => ?_, fun hzero => ?_⟩
  · have hd : dist.toNat ≤ (closeView s.d).size := h2.trans hw
    obtain ⟨-, -, -, hkeep, hcopied⟩ := copyBytes_spec dist.toNat len.toNat (closeView s.d) h1 hd hfits h.histWf
    refine ⟨_, exec_decoder_of_reply rfl rfl hr (.inr hst) (tryWriteCopyBody_of_fits (d := closeView s.d) h.histWf h1 h2 hfits _), ?_,
      hkeep, fun k hk => (hcopied k hk).trans (if_pos (Nat.le_add_right_of_le h2))⟩
    exact congrArg (decoderEffect · _ s) (copyBytes_eq (d := closeView s.d) h.histWf h1 hd hfits)
  · exact exec_decoder_of_reply rfl rfl hr (.inr hst) (tryWriteCopyBody_of_declined (d := closeView s.d) h1 hno _)
  · exact exec_decoder_of_raise rfl rfl hr (.inr hst) (tryWriteCopyBody_of_zero hzero len.toNat s.d (closeView s.d))

/-- A command with the same preamble and a body that ends the same way is the same command. -/
theorem decoderCommand_congr {p : Preamble} {body body' : Decoder → Decoder → Verdict Decoder} {s : State}
    (h : body s.d (handed p s.d) = body' s.d (handed p s.d)) : decoderCommand p body s = decoderCommand p body' s := by
  unfold handed at h
  rw [decoderCommand, decoderCommand, h]

/-- Settles O42: the checks before the body are the same, and both bodies answer the copy loop of `len` bytes. -/
theorem tryCopyEqualsCopy : Obligations.TryCopyEqualsCopy := by
  intro s dist len h h1 h2 hfits
  have hw := h.wr_le
  have hsize : dist.toNat ≤ histSize (closeView s.d) := by
    show dist.toNat ≤ if s.d.full then s.d.size else s.d.wrPos
    split
    · exact h2.trans hw
    · exact h2
  refine decoderCommand_congr (Eq.trans (tryWriteCopyBody_of_fits (d := closeView s.d) h.histWf h1 h2 hfits s.d) ?_)
  have hcount : copyCount (closeView s.d) len.toNat = len.toNat := copyCount_of_fits hfits
  exact ((writeCopyBody_of_valid (d := closeView s.d) h1 hsize len.toNat s.d).trans (by rw [hcount])).symm

/-! ### Bytes through the view and bytes one by one (R181) -/

/-- HIST with bytes written one after another from an address on. -/
def putEach : List Host.Cell → Nat → List Byte → List Host.Cell
  | hist, _, [] => hist
  | hist, a, c :: cs => putEach (Memory.put hist a c) (a + 1) cs

theorem execAll_append {is js : List Instr} {s t : State} (h : execAll is s = .next t) : execAll (is ++ js) s = execAll js t := by
  induction is generalizing s with
  | nil => cases h; rfl
  | cons i is ih =>
    rw [execAll] at h
    rw [List.cons_append, execAll]
    split at h
    · exact ih h
    · cases h
    · cases h

/-- The state after commands that wrote HIST and answered OK `n` times. -/
def afterWrites (s : State) (d : Decoder) (n : Nat) : State :=
  { s with d := d, responses := s.responses ++ List.replicate n ⟨.ok, 0#32, []⟩ }

theorem afterWrites_succ (s : State) (d d' : Decoder) (n : Nat) :
    afterWrites (decoderEffect d ⟨.ok, 0#32, []⟩ s) d' n = afterWrites s d' (n + 1) := by
  simp [afterWrites, decoderEffect, List.replicate_succ]

/-- The puts of a view: each byte at its own offset, from offset `k` on. -/
theorem execAll_slicePuts (cs : List Byte) : ∀ {s : State} (k : Nat), DecoderReady s → s.d.stashLen = 0 →
    s.d.wrPos + s.d.viewLen ≤ s.d.size → k + cs.length ≤ s.d.viewLen → s.d.viewLen < 4294967296 →
    execAll (cs.mapIdx fun j c => .ddSlicePut (BitVec.ofNat 32 (j + k)) c) s =
      .next (afterWrites s { s.d with hist := putEach s.d.hist (s.d.wrPos + k) cs } cs.length) := by
  induction cs with
  | nil => intro s k _ _ _ _ _; simp [execAll, afterWrites, putEach]
  | cons c cs ih =>
    intro s k hr hst hv hk hlt
    rw [List.length_cons] at hk
    have hoff : (BitVec.ofNat 32 k).toNat = k := Nat.mod_eq_of_lt (by omega)
    have hput := exec_ddSlicePut_of_inside hr hst hv (k := BitVec.ofNat 32 k) (by omega) c
    rw [hoff] at hput
    have hrest := ih (s := decoderEffect (putHist s.d (s.d.wrPos + k) c) ⟨.ok, 0#32, []⟩ s) (k + 1)
      ⟨hr.configured, hr.faulted⟩ hst hv (show k + 1 + cs.length ≤ s.d.viewLen by omega) hlt
    rw [afterWrites_succ] at hrest
    rw [List.mapIdx_cons, Nat.zero_add, execAll_cons hput]
    simp only [Nat.add_assoc, Nat.add_comm 1 k]
    exact hrest

/-- Single writes: each byte at the cursor, which moves by one. -/
theorem execAll_writeBytes (cs : List Byte) : ∀ {s : State} (c : Byte), DecoderReady s → s.d.stashLen = 0 →
    s.d.wrPos + (c :: cs).length ≤ s.d.size →
    execAll ((c :: cs).map .ddWriteByte) s = .next (afterWrites s
      { s.d with hist := putEach s.d.hist s.d.wrPos (c :: cs), wrPos := s.d.wrPos + (c :: cs).length, viewLen := 0 } (c :: cs).length) := by
  induction cs with
  | nil =>
    intro s c hr hst hfits
    exact execAll_cons (exec_ddWriteByte_of_room hr hst hfits c)
  | cons c' cs ih =>
    intro s c hr hst hfits
    have hlen : s.d.wrPos + 1 + (c' :: cs).length = s.d.wrPos + (c :: c' :: cs).length := by simp only [List.length_cons]; omega
    have hroom : s.d.wrPos < s.d.size := by simp only [List.length_cons] at hfits; omega
    have hrest := ih (s := decoderEffect (wroteByte c s.d) ⟨.ok, 0#32, []⟩ s) c' ⟨hr.configured, hr.faulted⟩ hst
      (hlen.trans_le hfits)
    rw [afterWrites_succ] at hrest
    rw [List.map_cons, execAll_cons (exec_ddWriteByte_of_room hr hst hroom c), hrest, ← hlen]
    rfl

/-- The state after DD_WRITE_SLICE with room for all `n` bytes (R178). -/
def afterSlice (n : Nat) (s : State) : State := decoderEffect { s.d with viewLen := n } ⟨.ok, BitVec.ofNat 32 n, []⟩ s

theorem exec_ddWriteSlice_of_fits {s : State} (hr : DecoderReady s) (hst : s.d.stashLen = 0) {n : Word32}
    (h : s.d.wrPos + n.toNat ≤ s.d.size) : exec (.ddWriteSlice n) s = .next (afterSlice n.toNat s) := by
  have hmin : min n.toNat (availWrite (closeView s.d)) = n.toNat :=
    Nat.min_eq_left (show n.toNat ≤ s.d.size - s.d.wrPos by omega)
  refine exec_decoder_of_reply (d := { s.d with viewLen := n.toNat }) rfl rfl hr (.inr hst) ?_
  show writeSliceBody n.toNat s.d (closeView s.d) = _
  rw [writeSliceBody, hmin]
  rfl

/-- Settles O43: both ways put the same bytes at the same addresses in the same order, and end with the view closed. -/
theorem bulkWriteEqualsBytes : Obligations.BulkWriteEqualsBytes := by
  intro s data h hr hst hne hfits
  have hsize := size_lt h hr.configured
  have hcount : (BitVec.ofNat 32 data.length).toNat = data.length := Nat.mod_eq_of_lt (by omega)
  have hslice := exec_ddWriteSlice_of_fits hr hst (n := BitVec.ofNat 32 data.length) (hcount.symm ▸ hfits)
  rw [hcount] at hslice
  have hputs := execAll_slicePuts data (s := afterSlice data.length s) 0 ⟨hr.configured, hr.faulted⟩ hst hfits
    (Nat.zero_add data.length).le (show data.length < 4294967296 by omega)
  have hmark := exec_ddWriteMark_of_fits
    (s := afterWrites (afterSlice data.length s) { s.d with viewLen := data.length, hist := putEach s.d.hist s.d.wrPos data } data.length)
    ⟨hr.configured, hr.faulted⟩ hst (n := BitVec.ofNat 32 data.length) (hcount.symm ▸ hfits)
  obtain ⟨c, cs, rfl⟩ := List.exists_cons_of_ne_nil hne
  refine ⟨_, _, (execAll_cons hslice).trans ((execAll_append hputs).trans (execAll_cons hmark)),
    execAll_writeBytes cs c hr hst hfits, ?_, ?_, rfl⟩
  · rw [hcount]
    rfl
  · simp [afterSlice, afterWrites, decoderEffect, List.replicate_succ']

/-! ### Drains, the stash and the queries (R187 to R196) -/

/-- The bytes a drain or a read answers. -/
theorem histRun_reads (d : Decoder) (a n : Nat) : (histRun d a n).length = n ∧
    ∀ k < (histRun d a n).length, (histRun d a n)[k]? = some (histByte d (a + k)) := by
  rw [length_histRun]
  exact ⟨rfl, fun k hk => (getElem?_histRun d a n k).trans (if_pos hk)⟩

/-- Settles O44: both drains end with `drainAdvance`, whose registers `drainAdvance_eq` gives. -/
theorem drainsAdvance : Obligations.DrainsAdvance := by
  intro s hr hst hrd hw
  refine ⟨⟨_, _, exec_decoder_of_reply rfl rfl hr (.inr hst) (readFlushBody_of_le (d := closeView s.d) hrd hw s.d), ?_,
    histRun_reads (closeView s.d) s.d.rdPos _⟩, (exec_decoder_of_reply rfl rfl hr (.inr hst) rfl).trans ?_⟩
  · rw [drainAdvance_eq]
    rfl
  · rw [drainAdvance_eq]
    rfl

/-- Settles O45: the staged bytes lie in HIST, so the read answers them. -/
theorem stashReads : Obligations.StashReads := fun s max hr hst =>
  ⟨_, _, exec_decoder_of_reply rfl rfl hr (.inl rfl) (stashReadBody_of_le (d := closeView s.d) hst max.toNat s.d), rfl,
    histRun_reads (closeView s.d) s.d.stashPos _⟩

/-- Settles O46: no staged byte blocks a query, and its body is its answer. -/
theorem queriesArePure : Obligations.QueriesArePure := by
  intro s hr x hx
  simp only [List.mem_cons, List.not_mem_nil, or_false] at hx
  obtain rfl | rfl | rfl | rfl := hx
  all_goals exact exec_decoder_of_reply rfl rfl hr (.inl rfl) rfl

end Sys2Proof.Machine
end

section
/-! SUPPORT. The checks of an instruction and the faults it raises (60_exceptions.md R202 to R206): what each check does to the whole state,
why a fault was raised, and that each cause raises its fault. -/

namespace Sys2Proof.Machine

/-! ### The state after a fault (R203) -/

theorem raiseFault_eq_afterFault (u : UnitName) (f : FaultCode) (s : State) : raiseFault u f s = afterFault u f s := by
  cases u <;> rfl

@[simp] theorem latchOf_afterFault (u : UnitName) (f : FaultCode) (s : State) : latchOf u (afterFault u f s) = some f := by
  cases u <;> rfl

/-- A fault of one unit leaves the other's latch alone. -/
theorem latchOf_afterFault_of_ne {u u' : UnitName} (h : u' ≠ u) (f : FaultCode) (s : State) :
    latchOf u (afterFault u' f s) = latchOf u s := by
  cases u with
  | matcher =>
    cases u' with
    | matcher => exact absurd rfl h
    | decoder => rfl
  | decoder =>
    cases u' with
    | matcher => rfl
    | decoder => exact absurd rfl h

@[simp] theorem latchOf_respond (u : UnitName) (s : State) (status : Status) (value : Nat) (data : List Byte) :
    latchOf u (respond s status value data) = latchOf u s := by
  cases u <;> rfl

@[simp] theorem latchOf_withInputs (u : UnitName) (s : State) (inputs : List HostInput) :
    latchOf u { s with inputs := inputs } = latchOf u s := by
  cases u <;> rfl

/-! ### The checks of an instruction, in the order of R204 -/

/-- A latched unit answers its code to every command, M_CONFIG and DD_INIT included (R203). -/
theorem exec_of_latched {i : Instr} {u : UnitName} (hu : unitOfInstr i = some u) {s : State} {f : FaultCode} (h : latchOf u s = some f) :
    exec i s = .next (respond s (.fault f) 0 []) := by
  cases u with
  | matcher => exact (exec_matcher hu s).trans (matcherCommand_faulted h _ _)
  | decoder =>
    cases hc : constructs i with
    | false => exact (exec_decoder hu hc s).trans (decoderCommand_faulted h _ _)
    | true =>
      cases i with
      | ddInit size dict =>
        obtain ⟨g, hg, he⟩ | ⟨hn, -⟩ | ⟨hn, -⟩ := exec_ddInit_cases size dict s
        · cases hg.symm.trans h
          exact he
        · cases hn.symm.trans h
        · cases hn.symm.trans h
      | mConfig level => cases hu
      | _ => cases hc

theorem exec_of_unconfigured {i : Instr} {u : UnitName} (hu : unitOfInstr i = some u) (hc : constructs i = false) {s : State}
    (hf : latchOf u s = none) (hm : u = .matcher → s.m.configured = false) (hd : u = .decoder → s.d.configured = false) :
    exec i s = .next (afterFault u .notConfigured s) := by
  cases u with
  | matcher =>
    rw [exec_matcher hu, hc]
    exact matcherCommand_unconfigured hf (hm rfl) _
  | decoder =>
    rw [exec_decoder hu hc]
    exact decoderCommand_unconfigured hf (hd rfl) _ _

/-- The commands that wait for the stash to be read are DictDecoder commands but DD_INIT (R175). -/
theorem unitOfInstr_of_blockedByStash {i : Instr} (h : blockedByStash i = true) :
    unitOfInstr i = some .decoder ∧ constructs i = false := by
  cases i with
  | ddWriteByte | ddWriteSlice | ddSlicePut | ddWriteMark | ddWriteCopy | ddTryWriteCopy | ddReadFlush | ddStashFlush =>
    exact ⟨rfl, rfl⟩
  | _ => cases h

theorem exec_of_stashed {i : Instr} (hb : blockedByStash i = true) {s : State} (hr : DecoderReady s) (hs : 0 < s.d.stashLen) :
    exec i s = .next (afterFault .decoder .ddStashPending s) := by
  obtain ⟨hu, hc⟩ := unitOfInstr_of_blockedByStash hb
  rw [exec_decoder hu hc]
  exact decoderCommand_stashed hr.faulted hr.configured hs ((preambleOf_blocked hu hc).trans hb) _

/-- The body of a command that a stream error cuts short is `errResponse` (R159, R206). -/
theorem matcherBody_of_shortCircuited {i : Instr} (hi : shortCircuited i = true) {u : MatcherSide} (he : u.m.err ≠ .noError) :
    unitOfInstr i = some .matcher ∧ matcherBody i u = errResponse u := by
  cases i with
  | mFillWindow | mWrite | mSyncFlush => exact ⟨rfl, shortCircuit_err he _⟩
  | _ => cases hi

theorem exec_shortCircuited_of_closed {i : Instr} (hi : shortCircuited i = true) {s : State} (hr : MatcherReady s)
    (he : s.m.err = .closed) : exec i s = .next (respond s .closed 0 []) := by
  obtain ⟨hu, hbody⟩ := matcherBody_of_shortCircuited hi (u := s.side) (by rw [State.side, he]; exact nofun)
  refine exec_of_reply (u := s.side) hu hr (hbody.trans ?_)
  rw [errResponse, State.side, he]
  rfl

/-- An Emitter error is the answer of these and of M_CLOSE (R159, R169, R206). -/
theorem exec_of_stream_io {i : Instr} (hi : shortCircuited i = true ∨ i = .mClose) {s : State} (hr : MatcherReady s) {c : Word32}
    (he : s.m.err = .io c) : exec i s = .next { s with responses := s.responses ++ [⟨.io, c, []⟩] } := by
  have hrun : exec i s = .next (respond s .io c.toNat []) := by
    obtain hi | rfl := hi
    · obtain ⟨hu, hbody⟩ := matcherBody_of_shortCircuited hi (u := s.side) (by rw [State.side, he]; exact nofun)
      exact exec_of_reply (u := s.side) hu hr (hbody.trans (errResponse_io he))
    · exact exec_of_io (.inr (.inl rfl)) hr he
  rw [hrun, respond, BitVec.ofNat_toNat, BitVec.setWidth_eq]

/-- M_RESET clears both errors, whatever the dictionary (R164). -/
theorem exec_mReset_clears_err {s : State} (hr : MatcherReady s) (dict : List Byte) :
    ∃ m, exec (.mReset dict) s = .next (respond (s.withSide ⟨m, rebound s.e⟩) .ok 0 []) ∧ m.err = .noError := by
  by_cases hd : dict = []
  · subst hd
    exact ⟨_, exec_mReset_nil hr, rfl⟩
  · exact ⟨_, exec_mReset_of_ne_nil hr hd, congrArg Matcher.err (primed_frame _ _)⟩

/-- Settles O29: M.err and E.err agree by the invariant; the rest is what each body does with a stream error. -/
theorem stickyStreamErrors : Obligations.StickyStreamErrors := by
  refine ⟨fun i s t c h ht => (exec_inv h ht).sticky c, fun i s c hr he hi => exec_of_stream_io hi hr he,
    fun i s hr he hi => exec_shortCircuited_of_closed hi hr he, fun s hr he => exec_mClose_closed hr he, fun s dict hr => ?_⟩
  obtain ⟨m, he, hm⟩ := exec_mReset_clears_err hr dict
  exact ⟨_, he, hm, rfl, rfl⟩

/-! ### What a fault changes, and why it was raised (R202, R203) -/

/-- An instruction touches its own unit's latch only. -/
theorem latchOf_of_other_unit {i : Instr} {u u' : UnitName} (hu : unitOfInstr i = some u') (h : u' ≠ u) {s t : State}
    (ht : exec i s = .next t) : latchOf u t = latchOf u s := by
  obtain ⟨hm, hd, -⟩ := unitsIndependent.1 i s t ht
  cases u' with
  | matcher =>
    cases u with
    | matcher => exact absurd rfl h
    | decoder => exact congrArg Decoder.faulted (hm hu).1
  | decoder =>
    cases u with
    | matcher => exact congrArg Matcher.faulted (hd hu).1
    | decoder => exact absurd rfl h

/-- DD_INIT raises no fault (R173). -/
theorem latchOf_of_ddInit {size : Word32} {dict : List Byte} {s t : State} (ht : exec (.ddInit size dict) s = .next t) :
    latchOf .decoder t = latchOf .decoder s := by
  obtain ⟨f, -, he⟩ | ⟨-, -, he⟩ | ⟨-, -, he⟩ := exec_ddInit_cases size dict s <;> cases he.symm.trans ht <;> rfl

/-- A Matcher command that sets the latch raises a fault, for the cause R202 gives its code, and changes nothing else. -/
theorem exec_matcher_faults {i : Instr} (hu : unitOfInstr i = some .matcher) {s t : State} {f : FaultCode} (h : s.Inv)
    (hn : s.m.faulted = none) (ht : exec i s = .next t) (hf : t.m.faulted = some f) :
    t = afterFault .matcher f s ∧ FaultCause i s f := by
  obtain ⟨g, hg, -⟩ | ⟨-, hc, hconf, he⟩ |
    ⟨-, -, ⟨u, status, value, -, hdone, he⟩ | ⟨dict, rfl, -, hstale, he⟩ | ⟨level, -, -, he⟩⟩ := exec_matcher_cases hu h
  · cases hn.symm.trans hg
  · cases he.symm.trans ht; cases hf
    exact ⟨rfl, hc, .inl ⟨hu, hconf⟩⟩
  · cases he.symm.trans ht
    cases hf.symm.trans (hdone.faulted.trans hn)
  · cases he.symm.trans ht; cases hf
    exact ⟨rfl, dict, rfl, hstale⟩
  · cases he.symm.trans ht
    cases hf.symm.trans hn

/-- So does a DictDecoder command. -/
theorem exec_decoder_faults {i : Instr} (hu : unitOfInstr i = some .decoder) (hc : constructs i = false) {s t : State} {f : FaultCode}
    (h : s.d.Inv) (hn : s.d.faulted = none) (ht : exec i s = .next t) (hf : t.d.faulted = some f) :
    t = afterFault .decoder f s ∧ FaultCause i s f := by
  obtain ⟨g, hg, -⟩ | ⟨-, hconf, he⟩ | ⟨-, -, hb, hs, he⟩ |
    ⟨-, -, -, v, -, ⟨d, value, data, rfl, -, hd, -⟩ | ⟨g, rfl, hcause⟩, he⟩ := exec_decoder_cases hu hc h
  · cases hn.symm.trans hg
  · cases he.symm.trans ht; cases hf
    exact ⟨rfl, hc, .inr ⟨hu, hconf⟩⟩
  · cases he.symm.trans ht; cases hf
    exact ⟨rfl, hb, hs⟩
  · cases he.symm.trans ht
    cases hf.symm.trans (hd.trans hn)
  · cases he.symm.trans ht; cases hf
    exact ⟨rfl, hcause⟩

theorem exec_faults {i : Instr} {u : UnitName} (hu : unitOfInstr i = some u) {s t : State} {f : FaultCode} (h : s.Inv)
    (hn : latchOf u s = none) (ht : exec i s = .next t) (hf : latchOf u t = some f) : t = afterFault u f s ∧ FaultCause i s f := by
  cases u with
  | matcher => exact exec_matcher_faults hu h hn ht hf
  | decoder =>
    cases hc : constructs i with
    | false => exact exec_decoder_faults hu hc h.d hn ht hf
    | true =>
      cases i with
      | ddInit size dict => cases hf.symm.trans ((latchOf_of_ddInit ht).trans hn)
      | mConfig level => cases hu
      | _ => cases hc

/-! ### Every cause raises its fault (R202) -/

/-- A cause of R202 for a ready Matcher's command is a window that is not empty. -/
theorem exec_matcher_of_cause {i : Instr} (hu : unitOfInstr i = some .matcher) {s : State} (hr : MatcherReady s) (he : s.m.err = .noError)
    {f : FaultCode} (h : FaultCause i s f) : exec i s = .next (afterFault .matcher f s) := by
  cases f with
  | fillStale =>
    obtain ⟨dict, rfl, hstale⟩ := h
    exact exec_of_raise rfl hr ((fillWindow_body he dict).trans (if_neg (by omega)))
  | notConfigured =>
    obtain ⟨-, ⟨-, hconf⟩ | ⟨hu', -⟩⟩ := h
    · cases hr.configured.symm.trans hconf
    · cases hu.symm.trans hu'
  | ddStashPending => cases hu.symm.trans (unitOfInstr_of_blockedByStash h.1).1
  | ddNoSpace => obtain ⟨c, rfl, -⟩ := h; cases hu
  | ddBadDist => obtain ⟨dist, len, rfl, -⟩ | ⟨dist, len, rfl, -⟩ := h <;> cases hu
  | ddMarkOver => obtain ⟨n, rfl, -⟩ := h; cases hu
  | ddSliceOob => obtain ⟨k, c, rfl, -⟩ := h; cases hu
  | badOpcode | badField | internal => cases h

/-- A cause of R202 for a command of a ready DictDecoder with nothing staged is one of its body. -/
theorem exec_decoder_of_cause {i : Instr} (hu : unitOfInstr i = some .decoder) {s : State} (hr : DecoderReady s) (hst : s.d.stashLen = 0)
    {f : FaultCode} (h : FaultCause i s f) : exec i s = .next (afterFault .decoder f s) := by
  cases f with
  | ddNoSpace =>
    obtain ⟨c, rfl, hfull⟩ := h
    exact exec_decoder_of_raise rfl rfl hr (.inr hst) (writeByteBody_of_full (d := closeView s.d) hfull c s.d)
  | ddBadDist =>
    obtain ⟨dist, len, rfl, hbad⟩ | ⟨dist, len, rfl, hzero⟩ := h
    · exact exec_decoder_of_raise rfl rfl hr (.inr hst) (writeCopyBody_of_bad (d := closeView s.d) hbad len.toNat s.d)
    · exact exec_decoder_of_raise rfl rfl hr (.inr hst) (tryWriteCopyBody_of_zero hzero len.toNat s.d (closeView s.d))
  | ddMarkOver =>
    obtain ⟨n, rfl, hover⟩ := h
    exact exec_decoder_of_raise rfl rfl hr (.inr hst)
      (writeMarkBody_of_over (d := closeView s.d) (show s.d.size < s.d.wrPos + n.toNat by omega) s.d)
  | ddSliceOob =>
    obtain ⟨k, c, rfl, hout⟩ := h
    exact exec_decoder_of_raise rfl rfl hr (.inr hst) (slicePutBody_of_outside hout c s.d)
  | notConfigured =>
    obtain ⟨-, ⟨hu', -⟩ | ⟨-, hconf⟩⟩ := h
    · cases hu.symm.trans hu'
    · cases hr.configured.symm.trans hconf
  | ddStashPending => exact absurd h.2 (by omega)
  | fillStale => obtain ⟨dict, rfl, -⟩ := h; cases hu
  | badOpcode | badField | internal => cases h

/-- Settles O51: the ends of an instruction name the cause of each fault (`exec_faults`), and each cause leads to its end. -/
theorem faultCauses : Obligations.FaultCauses := by
  refine ⟨fun i s t u f h hu hn ht hf => (exec_faults hu h hn ht hf).2, fun i s u hu hn hcause => ?_,
    fun i s f hu hr he hcause => exec_matcher_of_cause hu hr he hcause, fun i s hr hcause => exec_of_stashed hcause.1 hr hcause.2,
    fun i s f hu hr hst hcause => exec_decoder_of_cause hu hr hst hcause⟩
  obtain ⟨hc, ⟨hu', hconf⟩ | ⟨hu', hconf⟩⟩ := hcause
  · cases hu.symm.trans hu'
    exact exec_of_unconfigured hu hc hn (fun _ => hconf) nofun
  · cases hu.symm.trans hu'
    exact exec_of_unconfigured hu hc hn nofun fun _ => hconf

end Sys2Proof.Machine
end

section
/-! SUPPORT. Command words through the checks (60_exceptions.md R201, R203, R204): malformed words, the order of the checks, and the fault
latches over packets and power-on (70_reset_and_hazards.md R220). -/

namespace Sys2Proof.Machine

/-! ### The unit a word selects (R75, R82) -/

theorem unitOf_eq_matcher_iff (op : BitVec 8) : unitOf op = some .matcher ↔ op.toNat / 16 = 1 := by
  unfold unitOf
  split <;> simp_all

theorem unitOf_eq_decoder_iff (op : BitVec 8) : unitOf op = some .decoder ↔ op.toNat / 16 = 2 := by
  unfold unitOf
  split <;> simp_all

theorem unitOf_eq_none {op : BitVec 8} (h : op.toNat ≤ 0x0F ∨ 0x30 ≤ op.toNat) : unitOf op = none := by
  cases hu : unitOf op with
  | none => rfl
  | some u =>
    cases u with
    | matcher => have hop := (unitOf_eq_matcher_iff op).mp hu; omega
    | decoder => have hop := (unitOf_eq_decoder_iff op).mp hu; omega

/-- Between the two tables and above them no opcode has a row (R77, R78). -/
theorem commandRow_eq_none {n : Nat} (h : 0x16 ≤ n ∧ n ≤ 0x1F ∨ 0x2E ≤ n) : commandRow n = none := by
  unfold commandRow
  split
  case h_21 => rfl
  all_goals omega

/-! ### What a command word does -/

section

variable {w : Word64} {payload : List Byte}

theorem decode_of_undefined (h : commandRow (opField w).toNat = none) :
    decode (.command w payload) = .error (.badOpcode (unitOf (opField w))) := by
  obtain ⟨-, he⟩ | ⟨row, u, hrow, -⟩ := decode_command_cases w payload
  · exact he
  · cases h.symm.trans hrow

theorem decode_of_illegal {u : UnitName} (hu : unitOf (opField w) = some u) {row : FieldUse × FieldUse}
    (hrow : commandRow (opField w).toNat = some row) (hno : ¬ FieldsLegal row (aField w).toNat (bField w).toNat payload.length) :
    decode (.command w payload) = .error (.badField u) := by
  obtain ⟨hnone, -⟩ | ⟨row', u', hrow', hu', ⟨hlegal, -⟩ | ⟨-, he⟩⟩ := decode_command_cases w payload
  · cases hnone.symm.trans hrow
  · cases hrow.symm.trans hrow'
    exact absurd hlegal hno
  · cases hu.symm.trans hu'
    exact he

theorem commandRow_of_unitOf_none (h : unitOf (opField w) = none) : commandRow (opField w).toNat = none := by
  obtain ⟨hnone, -⟩ | ⟨row, u, -, hu, -⟩ := decode_command_cases w []
  · exact hnone
  · cases h.symm.trans hu

/-- The instruction a word decodes to is a command of the unit the word selects. -/
theorem unitOfInstr_of_decode {i : Instr} (h : decode (.command w payload) = .ok i) : unitOfInstr i = unitOf (opField w) := by
  obtain ⟨-, he⟩ | ⟨row, u, -, hu, ⟨-, j, hj, hju⟩ | ⟨-, he⟩⟩ := decode_command_cases w payload
  · cases he.symm.trans h
  · cases hj.symm.trans h
    exact hju.trans hu.symm
  · cases he.symm.trans h

theorem runPacket_of_decode {p : Packet} {i : Instr} (h : decode p = .ok i) (s : State) : runPacket p s = exec i s := by
  rw [runPacket, h]

theorem runPacket_of_no_unit (h : unitOf (opField w) = none) (s : State) :
    runPacket (.command w payload) s = .next (raiseNoUnit s) := by
  rw [runPacket_of_decode_error (decode_of_undefined (commandRow_of_unitOf_none h)), h]
  rfl

theorem runPacket_of_undefined {u : UnitName} (hu : unitOf (opField w) = some u) (h : commandRow (opField w).toNat = none) (s : State) :
    runPacket (.command w payload) s = .next (raiseMalformed u .badOpcode s) := by
  rw [runPacket_of_decode_error (decode_of_undefined h), hu]
  rfl

theorem runPacket_of_illegal {u : UnitName} (hu : unitOf (opField w) = some u) {row : FieldUse × FieldUse}
    (hrow : commandRow (opField w).toNat = some row) (hno : ¬ FieldsLegal row (aField w).toNat (bField w).toNat payload.length)
    (s : State) : runPacket (.command w payload) s = .next (raiseMalformed u .badField s) :=
  runPacket_of_decode_error (decode_of_illegal hu hrow hno) s

/-- A word for a unit is malformed, or an instruction of that unit. -/
theorem runPacket_of_unit {u : UnitName} (hu : unitOf (opField w) = some u) :
    (∃ f, ∀ s, runPacket (.command w payload) s = .next (raiseMalformed u f s)) ∨
      ∃ i, unitOfInstr i = some u ∧ ∀ s, runPacket (.command w payload) s = exec i s := by
  obtain ⟨hrow, -⟩ | ⟨row, u', hrow, hu', ⟨-, i, hi, hiu⟩ | ⟨hno, -⟩⟩ := decode_command_cases w payload
  · exact .inl ⟨_, runPacket_of_undefined hu hrow⟩
  · cases hu.symm.trans hu'
    exact .inr ⟨i, hiu, runPacket_of_decode hi⟩
  · exact .inl ⟨_, runPacket_of_illegal hu hrow hno⟩

end

/-! ### A malformed word and the latch (R203, R204) -/

theorem raiseMalformed_of_latched {u : UnitName} {s : State} {g : FaultCode} (h : latchOf u s = some g) (f : FaultCode) :
    raiseMalformed u f s = respond s (.fault g) 0 [] := by
  rw [raiseMalformed, h]

theorem raiseMalformed_of_clear {u : UnitName} {s : State} (h : latchOf u s = none) (f : FaultCode) :
    raiseMalformed u f s = afterFault u f s := by
  rw [raiseMalformed, h]
  exact raiseFault_eq_afterFault u f s

theorem latchOf_raiseMalformed_of_ne {u u' : UnitName} (h : u' ≠ u) (f : FaultCode) (s : State) :
    latchOf u (raiseMalformed u' f s) = latchOf u s := by
  cases hl : latchOf u' s with
  | none => rw [raiseMalformed_of_clear hl, latchOf_afterFault_of_ne h]
  | some g => rw [raiseMalformed_of_latched hl, latchOf_respond]

/-- A malformed word of a unit whose latch is clear raises its fault there. -/
theorem runPacket_faults {p : Packet} {s : State} {u : UnitName} {f : FaultCode} (hn : latchOf u s = none)
    (h : runPacket p s = .next (raiseMalformed u f s)) : runPacket p s = .next (afterFault u f s) :=
  h.trans (congrArg _ (raiseMalformed_of_clear hn f))

/-- A word with a row is one of the unit whose opcodes its own lies among (R77, R78). -/
theorem unitOf_of_commandRow {w : Word64} {row : FieldUse × FieldUse} (h : commandRow (opField w).toNat = some row) :
    ((opField w).toNat ≤ 0x1F → unitOf (opField w) = some .matcher) ∧
      (0x20 ≤ (opField w).toNat → unitOf (opField w) = some .decoder) := by
  cases hu : unitOf (opField w) with
  | none => cases (commandRow_of_unitOf_none hu).symm.trans h
  | some u =>
    cases u with
    | matcher =>
      have hop := (unitOf_eq_matcher_iff _).mp hu
      exact ⟨fun _ => rfl, fun _ => by omega⟩
    | decoder =>
      have hop := (unitOf_eq_decoder_iff _).mp hu
      exact ⟨fun _ => by omega, fun _ => rfl⟩

/-! ### Malformed words and the order of the checks (R201, R204) -/

/-- Settles O48: the opcode's range decides the unit and whether the word has a row. -/
theorem malformedWordsFault : Obligations.MalformedWordsFault := by
  refine ⟨fun s w payload rest hr hi => ?_, fun s hr hn => ?_, fun s hr hn => ?_⟩
  · rw [step_of_inputs_cons hr hi]
    refine ⟨fun h1 h2 hn => ?_, fun h1 h2 hn => ?_, fun h => ?_, fun row hrow hno => ⟨fun h hn => ?_, fun h hn => ?_⟩⟩
    · have hu : unitOf (opField w) = some .matcher := (unitOf_eq_matcher_iff _).mpr (by omega)
      exact runPacket_faults hn (runPacket_of_undefined hu (commandRow_eq_none (.inl ⟨h1, h2⟩)) _)
    · have hu : unitOf (opField w) = some .decoder := (unitOf_eq_decoder_iff _).mpr (by omega)
      exact runPacket_faults hn (runPacket_of_undefined hu (commandRow_eq_none (.inr h1)) _)
    · exact (runPacket_of_no_unit (unitOf_eq_none h) _).trans (congrArg _ (raiseNoUnit_eq _))
    · exact runPacket_faults hn (runPacket_of_illegal ((unitOf_of_commandRow hrow).1 h) hrow hno _)
    · exact runPacket_faults hn (runPacket_of_illegal ((unitOf_of_commandRow hrow).2 h) hrow hno _)
  · have hrow : commandRow (opField 0x16#64).toNat = none := by decide
    exact (step_placeInput hr _).trans (runPacket_faults (u := .matcher) hn
      (runPacket_of_undefined (payload := []) (by decide) hrow s))
  · have hrow : commandRow (opField 0x114#64).toNat = some (.zero, .zero) := by decide
    have hfield : ¬ (aField 0x114#64).toNat = 0 := by decide
    exact (step_placeInput hr _).trans (runPacket_faults (u := .matcher) hn
      (runPacket_of_illegal (payload := []) (by decide) hrow (fun h => hfield h.1) s))

/-- A latched unit answers its code to every word that selects it, malformed or not (R203, R204). -/
theorem runPacket_of_latched {w : Word64} {payload : List Byte} {u : UnitName} (hu : unitOf (opField w) = some u) {s : State}
    {f : FaultCode} (h : latchOf u s = some f) :
    runPacket (.command w payload) s = .next { s with responses := s.responses ++ [⟨.fault f, 0#32, []⟩] } := by
  obtain ⟨g, hg⟩ | ⟨i, hiu, hi⟩ := runPacket_of_unit (payload := payload) hu
  · exact (hg s).trans (congrArg _ (raiseMalformed_of_latched h g))
  · exact (hi s).trans (exec_of_latched hiu h)

/-- Settles O49: each check by the lemma of its outcome; a word that decodes runs as an instruction of the unit it selects. -/
theorem checkOrder : Obligations.CheckOrder := by
  intro s w payload rest u hr hi hu
  rw [step_of_inputs_cons hr hi]
  have hclear (hn : latchOf u s = none) : latchOf u { s with inputs := rest } = none := (latchOf_withInputs u s rest).trans hn
  refine ⟨fun f hf => runPacket_of_latched hu ((latchOf_withInputs u s rest).trans hf), fun hn hrow => ?_, fun row hn hrow hno => ?_,
    fun i hn hd => ?_⟩
  · exact runPacket_faults (hclear hn) (runPacket_of_undefined hu hrow _)
  · exact runPacket_faults (hclear hn) (runPacket_of_illegal hu hrow hno _)
  · have hiu : unitOfInstr i = some u := (unitOfInstr_of_decode hd).trans hu
    have hrun : runInput (.send (.command w payload)) { s with inputs := rest } = exec i { s with inputs := rest } :=
      runPacket_of_decode hd _
    rw [hrun]
    refine ⟨fun hc hm hdec => exec_of_unconfigured hiu hc (hclear hn) hm hdec, ?_, ?_, ?_, rfl⟩
    · rintro rfl hconf hs he
      exact exec_shortCircuited_of_closed hs ⟨hconf, hn⟩ he
    · rintro rfl hconf hs c he
      exact exec_of_stream_io (s := { s with inputs := rest }) (.inl hs) ⟨hconf, hn⟩ he
    · rintro rfl hconf hb hst
      exact exec_of_stashed hb ⟨hconf, hn⟩ hst

/-! ### The latch is terminal (R203) -/

/-- No instruction clears a latch: its own unit's commands only answer it, and no other touches it. -/
theorem latchOf_exec {i : Instr} {s t : State} {u : UnitName} {f : FaultCode} (h : latchOf u s = some f) (ht : exec i s = .next t) :
    latchOf u t = some f := by
  cases hu : unitOfInstr i with
  | none =>
    obtain ⟨r, he⟩ := exec_token hu s
    cases he.symm.trans ht
    cases u <;> exact h
  | some u' =>
    by_cases huu : u' = u
    · subst huu
      cases (exec_of_latched hu h).symm.trans ht
      exact (latchOf_respond _ _ _ _ _).trans h
    · exact (latchOf_of_other_unit hu huu ht).trans h

theorem latchOf_raiseMalformed {s : State} {u : UnitName} {f : FaultCode} (h : latchOf u s = some f) (u' : UnitName) (g : FaultCode) :
    latchOf u (raiseMalformed u' g s) = some f := by
  by_cases huu : u' = u
  · subst huu
    rw [raiseMalformed_of_latched h, latchOf_respond, h]
  · rw [latchOf_raiseMalformed_of_ne huu, h]

/-- A word for no unit: a latched unit keeps its first code (R201). -/
theorem latchOf_raiseNoUnit (u : UnitName) (s : State) : latchOf u (raiseNoUnit s) = some ((latchOf u s).getD .badOpcode) := by
  rw [raiseNoUnit_eq]
  cases u <;> rfl

theorem latchOf_raiseNoUnit_of_latched {s : State} {u : UnitName} {f : FaultCode} (h : latchOf u s = some f) :
    latchOf u (raiseNoUnit s) = some f := by
  rw [latchOf_raiseNoUnit, h]
  rfl

/-- No packet clears a latch. -/
theorem latchOf_runPacket {p : Packet} {s t : State} {u : UnitName} {f : FaultCode} (h : latchOf u s = some f)
    (ht : runPacket p s = .next t) : latchOf u t = some f := by
  cases hd : decode p with
  | ok i => exact latchOf_exec h ((runPacket_of_decode hd s).symm.trans ht)
  | error e =>
    rw [runPacket_of_decode_error hd] at ht
    cases e with
    | badOpcode u? =>
      cases u? with
      | none => cases ht; exact latchOf_raiseNoUnit_of_latched h
      | some u' => cases ht; exact latchOf_raiseMalformed h u' _
    | badField u' => cases ht; exact latchOf_raiseMalformed h u' _
    | truncated => cases ht; exact latchOf_raiseNoUnit_of_latched h
    | reservedToken | notAToken => cases ht

/-- A word for a unit that sets a latch sets that unit's, and changes nothing else (R203). -/
theorem runPacket_of_unit_faults {w : Word64} {payload : List Byte} {u u' : UnitName} (hu : unitOf (opField w) = some u') {s t : State}
    {f : FaultCode} (h : s.Inv) (hn : latchOf u s = none) (ht : runPacket (.command w payload) s = .next t) (hf : latchOf u t = some f) :
    u' = u ∧ t = afterFault u f s := by
  by_cases huu : u' = u
  · subst huu
    refine ⟨rfl, ?_⟩
    obtain ⟨g, hg⟩ | ⟨i, hiu, hi⟩ := runPacket_of_unit (payload := payload) hu
    · cases (runPacket_faults hn (hg s)).symm.trans ht
      cases (latchOf_afterFault u' g s).symm.trans hf
      rfl
    · exact (exec_faults hiu h hn ((hi s).symm.trans ht) hf).1
  · have hsame : latchOf u t = latchOf u s := by
      obtain ⟨g, hg⟩ | ⟨i, hiu, hi⟩ := runPacket_of_unit (payload := payload) hu
      · cases (hg s).symm.trans ht
        exact latchOf_raiseMalformed_of_ne huu g s
      · exact latchOf_of_other_unit hiu huu ((hi s).symm.trans ht)
    cases hf.symm.trans (hsame.trans hn)

/-- Settles O50: a latched unit only answers, a command that faults does so in its own unit, and only power-on clears a latch. -/
theorem faultLatchTerminal : Obligations.FaultLatchTerminal := by
  refine ⟨fun w payload s u f hu hf => runPacket_of_latched hu hf, fun w payload s t u f h hn ht hf => ?_,
    fun p s t u f hf ht => latchOf_runPacket hf ht, fun s u hr => ⟨powerOn s, step_placeInput hr _, by cases u <;> rfl⟩⟩
  cases hu : unitOf (opField w) with
  | none =>
    cases (runPacket_of_no_unit hu s).symm.trans ht
    rw [latchOf_raiseNoUnit, hn] at hf
    cases hf
    exact .inr ⟨rfl, rfl, raiseNoUnit_eq s⟩
  | some u' =>
    obtain ⟨rfl, rfl⟩ := runPacket_of_unit_faults hu h hn ht hf
    exact .inl ⟨rfl, rfl⟩

/-! ### Power-on (R220) -/

/-- Where neither unit is configured or faulted, every command but M_CONFIG and DD_INIT raises F_NOT_CONFIGURED. -/
theorem exec_of_powered {t : State} (hm : t.m.configured = false) (hd : t.d.configured = false) (hmf : t.m.faulted = none)
    (hdf : t.d.faulted = none) {i : Instr} {u : UnitName} (hu : unitOfInstr i = some u) (hc : constructs i = false) :
    exec i t = .next (afterFault u .notConfigured t) := by
  have hn : latchOf u t = none := by
    cases u with
    | matcher => exact hmf
    | decoder => exact hdf
  exact exec_of_unconfigured hu hc hn (fun _ => hm) fun _ => hd

/-- Two Matchers that M_CONFIG constructs at one level differ at most in window bytes, none of which is valid (R162, R220). -/
theorem clearMatcher_alike {m m' : Matcher} (hf : m.faulted = none) (hf' : m'.faulted = none) (l : Nat) :
    (clearMatcher (atLevel l m)).Alike (clearMatcher (atLevel l m')) where
  registers := by
    rw [clearMatcher_eq (m := atLevel l m) rfl hf, clearMatcher_eq (m := atLevel l m') rfl hf']
    rfl
  window := nofun

/-- Only power-on clears a latch: a packet keeps it, and without an input nothing happens. -/
theorem inputs_of_latch_cleared {s t : State} {u : UnitName} {f : FaultCode} (ht : step s = .next t) (hf : latchOf u s = some f)
    (hn : latchOf u t = none) : ∃ rest, s.inputs = .powerOn :: rest := by
  cases hr : s.refused with
  | true => cases (step_of_refused hr).symm.trans ht
  | false =>
    cases hi : s.inputs with
    | nil =>
      cases (step_of_inputs_nil hr hi).symm.trans ht
      cases hf.symm.trans hn
    | cons x rest =>
      cases x with
      | powerOn => exact ⟨rest, rfl⟩
      | send p =>
        have hkept := latchOf_runPacket ((latchOf_withInputs u s rest).trans hf) ((step_of_inputs_cons hr hi).symm.trans ht)
        cases hkept.symm.trans hn

/-- Settles O52: the power-on state is given by its definition; M_CONFIG and DD_INIT write every register a command can read. -/
theorem powerOnState : Obligations.PowerOnState := by
  refine ⟨fun s hr => ⟨_, step_placeInput hr _⟩, fun t ht => ?_, fun s s' a l hf hf' hl => ?_, fun s s' size dict hf hf' h1 h2 => ?_,
    fun s t u f ht hf hn => inputs_of_latch_cleared ht hf hn⟩
  · obtain rfl | ⟨s, hr, hs⟩ := ht
    · exact ⟨rfl, rfl, rfl, rfl, rfl, rfl, fun i u hu hc => exec_of_powered rfl rfl rfl rfl hu hc⟩
    · cases (step_placeInput hr _).symm.trans hs
      exact ⟨rfl, rfl, rfl, rfl, rfl, rfl, fun i u hu hc => exec_of_powered rfl rfl rfl rfl hu hc⟩
  · exact ⟨_, _, exec_mConfig_deflate hf hl, exec_mConfig_deflate hf' hl, clearMatcher_alike hf hf' l⟩
  · refine ⟨_, _, exec_ddInit_of_good hf h1 h2 dict, exec_ddInit_of_good hf' h1 h2 dict, ?_⟩
    rw [respond_d, respond_d, initDecoder_eq hf, initDecoder_eq hf']

end Sys2Proof.Machine
end
